-- ==== Sys2Proof/Word.lean ====
section
/-! DEFINITION. The plain word types of the OZ-2410: octets, frames, and the numbered values of 00_scope
"References, traces and sequence values". -/

namespace Sys2Proof

/-- One octet of a frame (R1). -/
abbrev Octet := BitVec 8

/-- The octets of a frame from its class octet through its check (R1), without delimiters or escapes. -/
abbrev Frame := List Octet

/-- A journal reference, 32 bits; 0 means "absent" (00_scope "References, traces and sequence values"). -/
abbrev Ref := BitVec 32

/-- A set of the six notice categories, one bit each in the order of 11.4 (R175). -/
abbrev Categories := BitVec 6

end Sys2Proof
end

