-- ==== Sys2Proof/Config.lean ====
section
/-! DEFINITION. The capacities of 00_scope "Principal capacities" and the free values: what the manual leaves open, as
constants without a body. -/

namespace Sys2Proof.Config

/-- R14: places of the in-flight set. -/
abbrev inFlightPlaces : Nat := 64
/-- R83: places of the hold table. -/
abbrev holdPlaces : Nat := 1024
/-- R83: hold entries one card may have, in any state. -/
abbrev holdsPerCard : Nat := 4
/-- R183: places of Journal Out. -/
abbrev journalOutPlaces : Nat := 512
/-- R184: the committed load from which the stand-in level is LIMITED. -/
abbrev limitedFrom : Nat := 384
/-- R99: places of the journal ring. -/
abbrev ringPlaces : Nat := 8192
/-- R150: places of the payout queue. -/
abbrev payoutPlaces : Nat := 64
/-- R47: lines of the record buffer. -/
abbrev lineCount : Nat := 32
/-- R49: operations one bank queue holds. -/
abbrev bankPlaces : Nat := 8
/-- R38: blocks of the card store. -/
abbrev blockCount : Nat := 131072
/-- R36: card slots. -/
abbrev slotCount : Nat := 1048576
/-- R156: shops. -/
abbrev shopCount : Nat := 512
/-- 00_scope "Amounts": the largest request amount and card balance. -/
abbrev maxAmount : Nat := 999999
/-- R120: the largest accumulator count. -/
abbrev maxCount : Nat := 16777215
/-- R120: the largest accumulator amount. -/
abbrev maxSum : Nat := 2 ^ 48 - 1
/-- R1: a frame that reaches this many octets is oversize. -/
abbrev oversizeAt : Nat := 601

/-- R6 and R176 leave open which of a management answer and a notice handed to the O-port transmitter in one event
leaves first. The value for the n-th such event is free (log 7): true puts the notice first. -/
opaque noticeFirst : Nat → Bool

/-- R28 makes the OVERLAP refusal carry a cause and chapter 11 gives the causes no code. The code of RANGE_END (0),
PREFIX (1) and SLOTS (2) is free (log 10). -/
opaque overlapCode : Nat → Octet

/-- R190 gives COUNTER READ of a shop 24 octets and names fields of 22. The two octets without a field are free in the n-th
such answer (log 31). -/
opaque counterTail : Nat → BitVec 16

end Sys2Proof.Config
end

