-- ==== Sys2Proof/Syntax.lean ====
section
/-! DEFINITION. The commands and events of the OZ-2410: one constructor for every row of spec/opcode_table.json.
Parameters keep the raw widths of R188 and R190, so that a value out of range is a command that exists and is refused. -/

namespace Sys2Proof

/-- The two frame ports (00_scope "Where the part sits"). -/
inductive Port where
  /-- the shop side, S-port -/
  | shop
  /-- the office side, O-port -/
  | office
  deriving DecidableEq, Repr

/-- The card record image of 11.5, its fields as they stand in the frame. -/
structure RecordImage where
  state : BitVec 8
  presence : BitVec 8
  balance : BitVec 24
  held : BitVec 24
  holdCount : BitVec 8
  issueShop : BitVec 16
  activationDay : BitVec 16
  expiryDay : BitVec 16
  lastActivity : BitVec 16
  sequence : BitVec 32
  deriving DecidableEq, Repr

/-- The four card record images that one CARD LOAD frame carries (R42, R43). -/
structure FourImages where
  first : RecordImage
  second : RecordImage
  third : RecordImage
  fourth : RecordImage
  deriving DecidableEq, Repr

/-- The parameters of CARD ADJUST after its slot (R190). -/
structure AdjustFields where
  mask : BitVec 8
  state : BitVec 8
  expiryDay : BitVec 16
  change : BitVec 32
  deriving DecidableEq, Repr

/-- The parameters of LOAD PROGRAM after its index (R190). -/
structure ProgramFields where
  digits : BitVec 24
  flags : BitVec 8
  baseSlot : BitVec 24
  slotCount : BitVec 24
  minLoad : BitVec 24
  maxLoad : BitVec 24
  maxBalance : BitVec 24
  openCap : BitVec 24
  tolerance : BitVec 8
  lifetime : BitVec 24
  expiryDays : BitVec 16
  standInLimit : BitVec 24
  deriving DecidableEq, Repr

/-- The parameters of LOAD FEE CLASS after its index (R190). -/
structure FeeFields where
  redemptionRate : BitVec 16
  fixedFee : BitVec 16
  commissionRate : BitVec 16
  minPayout : BitVec 24
  collectAt : BitVec 24
  flags : BitVec 8
  deriving DecidableEq, Repr

/-- The parameters of LOAD SHOP TERMS after its shop number (R190). -/
structure TermsFields where
  feeClass : BitVec 8
  limit : BitVec 24
  flags : BitVec 8
  deriving DecidableEq, Repr

/-- The commands and events. A management command carries its tag (R171) and its parameters. -/
inductive Instr where
  | powerOnReset (straps : BitVec 4)
  | frameReceived (port : Port) (octets : List Octet)
  | fetchComplete (bank : BitVec 2)
  | writeBackStart (line : BitVec 5)
  | writeBackComplete (bank : BitVec 2)
  | waitListServe
  | activatePosting (line : BitVec 5)
  | reloadPosting (line : BitVec 5)
  | redeemPosting (line : BitVec 5)
  | balancePosting (line : BitVec 5)
  | holdPosting (line : BitVec 5)
  | completePosting (line : BitVec 5)
  | releasePosting (line : BitVec 5)
  | holdExpiredPosting (line : BitVec 5)
  | refundPosting (line : BitVec 5)
  | voidPosting (line : BitVec 5)
  | cardReadPosting (line : BitVec 5)
  | cardAdjustPosting (line : BitVec 5)
  | cardLoadReplacementPosting (line : BitVec 5)
  | auditVisit (line : BitVec 5)
  | clockTick
  | windowEnd
  | graceEnd
  | sweepSelection
  | closingSetFrozen
  | payoutTakeUp
  | payoutStep
  | cycleTotalAppend
  | closingSetClear
  | statusRead (tag : BitVec 16)
  | setNoticeMask (tag : BitVec 16) (masks : BitVec 8)
  | noticeAck (tag : BitVec 16) (cats : BitVec 8)
  | setClock (tag : BitVec 16) (clock : BitVec 32)
  | setConfig (tag : BitVec 16) (trip : BitVec 8) (t1 : BitVec 8) (t2 : BitVec 8) (grace : BitVec 16)
  | journalRead (tag : BitVec 16)
  | journalTake (tag : BitVec 16) (count : BitVec 8)
  | linkReset (tag : BitVec 16)
  | beginLoad (tag : BitVec 16)
  | cardLoadFirst (tag : BitVec 16) (block : BitVec 24) (images : FourImages)
  | cardLoadLast (tag : BitVec 16) (block : BitVec 24) (images : FourImages)
  | storeReady (tag : BitVec 16)
  | flush (tag : BitVec 16)
  | audit (tag : BitVec 16)
  | cardRead (tag : BitVec 16) (slot : BitVec 24)
  | cardAdjust (tag : BitVec 16) (slot : BitVec 24) (fields : AdjustFields)
  | loadProgram (tag : BitVec 16) (index : BitVec 8) (fields : ProgramFields)
  | loadFeeClass (tag : BitVec 16) (index : BitVec 8) (fields : FeeFields)
  | loadShopTerms (tag : BitVec 16) (shop : BitVec 16) (fields : TermsFields)
  | discardShadow (tag : BitVec 16)
  | commitTables (tag : BitVec 16)
  | tableRead (tag : BitVec 16) (bank : BitVec 8) (table : BitVec 8) (index : BitVec 16)
  | holdRead (tag : BitVec 16) (ref : BitVec 32)
  | entryRead (tag : BitVec 16) (ref : BitVec 32)
  | cutover (tag : BitVec 16)
  | freeze (tag : BitVec 16)
  | rowRead (tag : BitVec 16) (set : BitVec 8) (row : BitVec 16)
  | carryRead (tag : BitVec 16) (shop : BitVec 16)
  | carrySet (tag : BitVec 16) (shop : BitVec 16) (carry : BitVec 32)
  | payoutRead (tag : BitVec 16)
  | payoutTake (tag : BitVec 16) (count : BitVec 8)
  | setShopMode (tag : BitVec 16) (shop : BitVec 16) (mode : BitVec 8)
  | suspend (tag : BitVec 16) (shop : BitVec 16)
  | resume (tag : BitVec 16) (shop : BitVec 16)
  | counterRead (tag : BitVec 16) (selector : BitVec 16) (flags : BitVec 8)
  | counterClear (tag : BitVec 16) (selector : BitVec 16)
  | shopScan (tag : BitVec 16) (shop : BitVec 16)
  | frameStartDelimiter (port : Port)
  | frameReaches601 (port : Port)
  | transmitterFrameSent (port : Port)
  deriving DecidableEq, Repr

end Sys2Proof
end

