-- ==== Sys2Proof/WellFormed.lean ====
section
/-! DEFINITION. What a command must satisfy that its operands' types do not say. Only FRAME_RECEIVED has such
conditions: its octets are those between two delimiters (R187), and a frame that reaches 601 octets is no longer a frame
that a delimiter ends but the event FRAME_REACHES_601_OCTETS (R1). -/

namespace Sys2Proof

/-- R187: the number of octets left when the escapes are removed; an escape and the octet after it are one octet, and
an escape with nothing after it is none. -/
def unescapedLength : List Octet → Nat
  | [] => 0
  | b :: t =>
    if b = 0x7D#8 then
      match t with
      | [] => 0
      | _ :: u => unescapedLength u + 1
    else unescapedLength t + 1

/-- The conditions on a command's operands. -/
def Instr.wellFormed : Instr → Bool
  | .frameReceived _ octets => octets.all (· != 0x7E#8) && decide (unescapedLength octets < Config.oversizeAt)
  | _ => true

end Sys2Proof
end

