-- ==== Sys2Proof/Decode.lean ====
section
/-! DEFINITION. spec/opcode_table.json gives no row a fixed bit pattern: the block takes commands, it decodes no
instruction words. So no word spells a command here. (The octets of a management frame are read in
Machine/Frames.lean, by the layouts of chapter 11.) -/

namespace Sys2Proof

/-- The command that an `nbits`-bit word of the opcode table spells: none, since the table gives no row any bits. -/
def decodeTableWord (_nbits _w : Nat) : Option Instr := none

end Sys2Proof
end

