-- ==== Sys2Proof/Machine/State.lean ====
section
/-! DEFINITION. Everything the manual makes the OZ-2410 keep, as plain data, grouped by the block that owns it
(00_scope "Block overview"), and the machine right after power-on reset. -/

namespace Sys2Proof.Machine

/-- A table numbered by Nat, sparse: the entries that differ from what an unlisted number reads as, in rising order
(the canonical form of Machine/Table.lean). -/
abbrev Tbl (α : Type) := List (Nat × α)

/-! ### Reasons to stop -/

/-- The one fault of the model. -/
inductive Fault where
  /-- Raised by the posting of a live COMPLETE or RELEASE, or of a HOLD_EXPIRED, whose hold entry is not in the hold
  table. R84 rules the case out, and R89, R91 and R94 give it no effect. Safe: the model stops. -/
  | claimedHoldMissing
  deriving DecidableEq, Repr

/-- The refusals of the model. -/
inductive Refusal where
  /-- Raised by an arm of `exec` for a command that has no meaning yet; no arm does so any more. Safe. -/
  | notModelled (mnemonic : String)
  deriving DecidableEq, Repr

/-! ### Cards and requests -/

/-- R36: the state of a card. -/
inductive CardState where
  | unissued | active | blocked | expired
  deriving DecidableEq, Repr

/-- R36: one card record. -/
structure CardRecord where
  state : CardState := .unissued
  balance : Nat := 0
  held : Nat := 0
  holdCount : Nat := 0
  issueShop : Option Nat := none
  activationDay : Option Nat := none
  expiryDay : Option Nat := none
  lastActivity : Nat := 0
  sequence : BitVec 32 := 0
  deriving DecidableEq, Repr

/-- R38: the eight records of a block, by record index; an unlisted index is an UNISSUED record. -/
abbrev Block := Tbl CardRecord

/-- 1.6: the kinds of in-flight work: the nine request kinds, the two internal kinds of the journal, and the two card
commands that write no journal entry. -/
inductive Kind where
  | activate | reload | redeem | balance | hold | complete | release | refund | void
  | holdExpired | adjust | cardRead | cardLoad
  deriving DecidableEq, Repr

/-- 11.6: the decline reasons, in the order of their codes 1 to 28. -/
inductive Reason where
  | format | programClosed | shopClosed | shopSuspended | notPermitted | laneBusy | duplicate | retry
  | storeNotReady | officeSlow | officeUnreachable | noCard | notActive | alreadyActive | blocked | expired
  | insufficient | overMax | underMin | overLimit | noHoldSpace | holdGone | noMatch | overOriginal
  | crossShop | tooLate | alreadyVoided | laterActivity
  deriving DecidableEq, Repr

/-- Shop, lane and trace of a request (R18, R64). -/
structure Party where
  shop : Nat
  lane : Nat
  trace : Nat
  deriving DecidableEq, Repr

/-- R119: the two accumulator sets. -/
inductive SetId where
  | x | y
  deriving DecidableEq, Repr

/-- 1.4: a lane entry. -/
structure Lane where
  inFlight : Bool := false
  lastTrace : Option Nat := none
  lastRef : Option Ref := none
  deriving DecidableEq, Repr

/-- 1.6: who put an entry into the in-flight set; shop, lane, trace and card number belong to an S-port request alone. -/
inductive Origin where
  | request (party : Party) (card : BitVec 64)
  | sweep
  | unit
  deriving DecidableEq, Repr

/-- R14: an in-flight entry. `id` is the model's own: the serial number of its admission. -/
structure InFlight where
  id : Nat
  origin : Origin
  kind : Kind
  training : Bool
  program : Option Nat
  slot : Nat
  block : Nat
  amount : Nat
  partialFlag : Bool
  reference : Option Ref
  generation : BitVec 8
  reserved : Bool
  boundSet : Option SetId
  deriving DecidableEq, Repr

/-! ### Table sets -/

/-- R21: a card program entry. -/
structure Program where
  digits : Option (BitVec 24) := none
  enabled : Bool := false
  baseSlot : Nat := 0
  slotCount : Nat := 0
  minLoad : Nat := 0
  maxLoad : Nat := 0
  maxBalance : Nat := 0
  reloadable : Bool := false
  partialAllowed : Bool := false
  refundable : Bool := false
  openCap : Option Nat := none
  tolerance : Nat := 0
  lifetime : Nat := 0
  expiryDays : Nat := 0
  reloadExtends : Bool := false
  standInLimit : Nat := 0
  deriving DecidableEq, Repr

/-- R23: a fee class. -/
structure FeeClass where
  redemptionRate : Nat := 0
  fixedFee : Nat := 0
  commissionRate : Nat := 0
  minPayout : Nat := 0
  collectAt : Nat := 0
  rebate : Bool := false
  deriving DecidableEq, Repr

/-- R24: the terms of one shop. -/
structure ShopTerms where
  feeClass : Nat := 0
  limit : Option Nat := none
  allowSales : Bool := false
  allowRefund : Bool := false
  crossRefund : Bool := false
  openRefund : Bool := false
  autoSuspend : Bool := false
  deriving DecidableEq, Repr

/-- A table set; its defaults are the power-on table set of R20. -/
structure TableSet where
  programs : Tbl Program := []
  classes : Tbl FeeClass := []
  terms : Tbl ShopTerms := []
  deriving DecidableEq, Repr

/-- R20: a bank's table set, its generation tag and its in-flight count. -/
structure Bank where
  tables : TableSet := {}
  tag : Option (BitVec 8) := none
  count : Nat := 0
  deriving DecidableEq, Repr

/-- 2.1: the two banks. -/
inductive BankId where
  | a | b
  deriving DecidableEq, Repr

/-- 2.1: the states of the shadow bank. -/
inductive ShadowState where
  | free | loaded | retiring
  deriving DecidableEq, Repr

/-- R20: the table-set block. -/
structure Tables where
  bankA : Bank := { tag := some 0 }
  bankB : Bank := {}
  active : BankId := .a
  generation : BitVec 8 := 0
  shadow : ShadowState := .free
  deriving DecidableEq, Repr

/-! ### The card store and the record buffer -/

/-- R47: the states of a buffer line. -/
inductive LineState where
  | free | fetching | valid | dirty | writing
  deriving DecidableEq, Repr

/-- R47: a waiter of a line: an in-flight entry, by its serial number, or the audit walker's visit. -/
inductive Waiter where
  | entry (id : Nat)
  | audit
  deriving DecidableEq, Repr

/-- R47: one line of the record buffer. -/
structure Line where
  state : LineState := .free
  block : Option Nat := none
  records : Block := []
  dirty : BitVec 8 := 0
  changed : Bool := false
  waiters : List Waiter := []
  deriving DecidableEq, Repr

/-- R48: a demand in the buffer wait list: an in-flight entry's, or the one waiting direct CARD LOAD of R45. -/
inductive Demand where
  | entry (id : Nat) (block : Nat)
  | directLoad (block : Nat)
  deriving DecidableEq, Repr

/-- R49, R52: a queued card-store operation. A write-back carries the records named by its marks. -/
inductive BankOp where
  | fetch (block : Nat)
  | writeBack (block : Nat) (marks : BitVec 8) (records : Block)
  deriving DecidableEq, Repr

/-- R47 to R49: the record buffer. `recency` lists the lines that are not FREE, least recently used first. -/
structure Buffer where
  lines : Tbl Line := []
  recency : List Nat := []
  waitList : List Demand := []
  queues : Tbl (List BankOp) := []
  deriving DecidableEq, Repr

/-- R40: the store states. -/
inductive Phase where
  | unloaded | loading | ready
  deriving DecidableEq, Repr

/-- R59: a latched audit result with its four figures. -/
structure AuditResult where
  matched : Bool
  balanceSum : BitVec 40
  float : BitVec 40
  heldSum : BitVec 40
  holdTotal : BitVec 40
  deriving DecidableEq, Repr

/-- R56, R57: the audit walker; `waiting` is set while its visit waits for a line. -/
structure Audit where
  running : Bool := false
  cursor : Nat := 0
  balanceSum : BitVec 40 := 0
  heldSum : BitVec 40 := 0
  waiting : Bool := false
  result : Option AuditResult := none
  deriving DecidableEq, Repr

/-- R38 to R40, R54 to R56: the card store controller. `valid` lists the blocks whose mark is set, in rising order. -/
structure Store where
  phase : Phase := .unloaded
  valid : List Nat := []
  copies : Tbl Block := []
  flushPending : Bool := false
  float : BitVec 40 := 0
  audit : Audit := {}
  deriving DecidableEq, Repr

/-! ### Holds and the journal -/

/-- R84: the states of a hold entry. -/
inductive HoldState where
  | opened | claimed | expiring
  deriving DecidableEq, Repr

/-- R83: a hold entry. -/
structure HoldEntry where
  ref : Ref
  slot : Nat
  shop : Nat
  lane : Nat
  amount : Nat
  ceiling : Nat
  expiry : Nat
  state : HoldState
  deriving DecidableEq, Repr

/-- R83, R92: the hold table in order of expiry time and reference, and the reference of the hold being expired while
the expiry-in-flight mark is set. -/
structure Holds where
  entries : List HoldEntry := []
  expiring : Option Ref := none
  deriving DecidableEq, Repr

/-- R64, R95, R102: a journal entry. Shop, lane and trace are present together or absent together. -/
structure Entry where
  ref : Ref
  cycle : BitVec 32
  clock : BitVec 32
  kind : Kind
  party : Option Party
  slot : Nat
  amount : Nat
  adjustDown : Bool
  sequence : BitVec 32
  related : Option Ref
  refunded : Option Nat
  voided : Bool
  deriving DecidableEq, Repr

/-- R99: the ring, by place, and the next reference. -/
structure Journal where
  ring : Tbl (Option Entry) := []
  next : Ref := 1
  deriving DecidableEq, Repr

/-! ### Accumulators, payout, supervision -/

/-- R120: a shop row. -/
structure Row where
  redeemed : Nat := 0
  redeemCount : Nat := 0
  sold : Nat := 0
  soldCount : Nat := 0
  refunded : Nat := 0
  refundCount : Nat := 0
  saturated : Bool := false
  deriving DecidableEq, Repr

/-- R120: the mall row. -/
structure MallRow where
  adjustUp : Nat := 0
  adjustDown : Nat := 0
  floatAtFreeze : BitVec 40 := 0
  saturated : Bool := false
  deriving DecidableEq, Repr

/-- R119: an accumulator set. -/
structure AccSet where
  rows : Tbl Row := []
  mall : MallRow := {}
  deriving DecidableEq, Repr

/-- 7.2: the closing-set states. -/
inductive Closing where
  | none | grace | freezing | frozen | computing | draining
  deriving DecidableEq, Repr

/-- 7.2: the cycle controller. -/
structure Cycle where
  number : BitVec 32 := 1
  current : SetId := .x
  closing : Closing := .none
  graceEnd : Option Nat := Option.none
  graceVoids : Nat := 0
  graceLength : Nat := 900
  setX : AccSet := {}
  setY : AccSet := {}
  deriving DecidableEq, Repr

/-- R145: the five dispositions, in the order of their codes (11.5). -/
inductive Disposition where
  | pay | holdOver | nil | collect | defer
  deriving DecidableEq, Repr

/-- R147: a shop's payout record. -/
structure ShopPayout where
  cycle : BitVec 32
  shop : Nat
  row : Row
  percentFee : Nat
  fixedFee : Nat
  commission : Nat
  rebate : Nat
  carryIn : Int
  net : Int
  disposition : Disposition
  amount : Nat
  carryOut : Int
  deriving DecidableEq, Repr

/-- R149: the running totals. -/
structure Totals where
  redeemed : Nat := 0
  sold : Nat := 0
  refunded : Nat := 0
  percentFee : Nat := 0
  fixedFee : Nat := 0
  commission : Nat := 0
  rebate : Nat := 0
  pay : Nat := 0
  collect : Nat := 0
  carryChange : Int := 0
  records : Nat := 0
  saturated : Bool := false
  deriving DecidableEq, Repr

/-- R149: a cycle total record. -/
structure CycleTotal where
  cycle : BitVec 32
  totals : Totals
  adjustUp : Nat
  adjustDown : Nat
  floatAtFreeze : BitVec 40
  saturated : Bool
  deriving DecidableEq, Repr

/-- R150: a record of the payout queue. -/
inductive PayoutRecord where
  | shop (r : ShopPayout)
  | total (r : CycleTotal)
  deriving DecidableEq, Repr

/-- R136: the payout engine's states. -/
inductive EngineState where
  | idle | walking | waiting
  deriving DecidableEq, Repr

/-- R136, R150: the payout engine, the carries and the payout queue. -/
structure Payout where
  engine : EngineState := .idle
  cursor : Nat := 0
  cycle : Option (BitVec 32) := none
  totals : Totals := {}
  carries : Tbl Int := []
  queue : List PayoutRecord := []
  deriving DecidableEq, Repr

/-- R156: the shop modes. -/
inductive Mode where
  | closed | opened | training
  deriving DecidableEq, Repr

/-- R156: the alarm states. -/
inductive Alarm where
  | normal | watch | alarm
  deriving DecidableEq, Repr

/-- R156: one shop's supervision record. -/
structure Shop where
  mode : Mode := .closed
  management : Bool := false
  alarmCause : Bool := false
  alarm : Alarm := .normal
  windowFaults : Nat := 0
  badWindows : Nat := 0
  goodWindows : Nat := 0
  admitted : BitVec 32 := 0
  declines : BitVec 32 := 0
  faults : BitVec 32 := 0
  deriving DecidableEq, Repr

/-- R156, R161, R166: shop supervision. -/
structure Supervision where
  shops : Tbl Shop := []
  keptWindow : Nat := 0
  trip : Nat := 20
  t1 : Nat := 3
  t2 : Nat := 10
  deriving DecidableEq, Repr

/-! ### The office port and the two frame ports -/

/-- R184: the stand-in levels. -/
inductive Level where
  | normal | limited | closed
  deriving DecidableEq, Repr

/-- R183, R184: Journal Out, its reservations and the stand-in level. -/
structure JournalOut where
  copies : List Entry := []
  reservations : Nat := 0
  level : Level := .normal
  deriving DecidableEq, Repr

/-- R175 to R177: the notice latch, the masks (a set bit stops the category's notices) and the notice number. -/
structure Notices where
  latch : Categories := 0
  masks : Categories := 0
  number : BitVec 8 := 0
  deriving DecidableEq, Repr

/-- R173: the command that the management unit has in progress. -/
inductive UnitWork where
  | cardRead (slot : Nat)
  | cardAdjust (slot : Nat) (fields : AdjustFields)
  | replaceBlock (block : Nat) (records : Block)
  | directLoad (block : Nat) (records : Block)
  deriving DecidableEq, Repr

/-- R171, R173: a command in progress and the tag its answer will echo. -/
structure InProgress where
  tag : BitVec 16
  work : UnitWork
  deriving DecidableEq, Repr

/-- R42: the pending FIRST. -/
structure PendingFirst where
  block : Nat
  images : FourImages
  deriving DecidableEq, Repr

/-- 10.1: the management unit; `progress` is none in IDLE. -/
structure MgmtUnit where
  progress : Option InProgress := none
  first : Option PendingFirst := none
  deriving DecidableEq, Repr

/-- R1: the receiver states. -/
inductive RxState where
  | idle | receiving | discarding
  deriving DecidableEq, Repr

/-- R1, R187: a receiver: its state, the octets of the frame so far with escapes removed, whether the last octet was an
escape, and whether the frame holds a bad escape. -/
structure Receiver where
  state : RxState := .idle
  frame : Frame := []
  escape : Bool := false
  bad : Bool := false
  deriving DecidableEq, Repr

/-- R3: the global S-side counters. -/
structure SCounters where
  received : BitVec 32 := 0
  checkFailures : BitVec 32 := 0
  runts : BitVec 32 := 0
  oversize : BitVec 32 := 0
  forwarded : BitVec 32 := 0
  admitted : BitVec 32 := 0
  declined : BitVec 32 := 0
  answers : BitVec 32 := 0
  deriving DecidableEq, Repr

/-- R181: the global O-side counters. -/
structure OCounters where
  received : BitVec 32 := 0
  checkFailures : BitVec 32 := 0
  runts : BitVec 32 := 0
  oversize : BitVec 32 := 0
  forwarded : BitVec 32 := 0
  management : BitVec 32 := 0
  refusals : BitVec 32 := 0
  answers : BitVec 32 := 0
  notices : BitVec 32 := 0
  deriving DecidableEq, Repr

/-- The whole machine. `pending` is the queue of waiting commands; `nextId` and `draws` are the model's own (the serial
number of the next admission, and the number of uses of the free values `Config.noticeFirst` and `Config.counterTail`).
`sSent` and `oSent` are the octets that each port's transmitter has put on its line for the last frame sent (R187, log 33). -/
structure State where
  pending : List Instr := []
  sRx : Receiver := {}
  oRx : Receiver := {}
  sTx : List Frame := []
  oTx : List Frame := []
  sSent : List Octet := []
  oSent : List Octet := []
  sCount : SCounters := {}
  oCount : OCounters := {}
  unitAddress : BitVec 8 := 0xB0
  lanes : Tbl Lane := []
  inFlight : List InFlight := []
  nextId : Nat := 0
  tables : Tables := {}
  store : Store := {}
  buffer : Buffer := {}
  holds : Holds := {}
  journal : Journal := {}
  cycle : Cycle := {}
  payout : Payout := {}
  supervision : Supervision := {}
  journalOut : JournalOut := {}
  notices : Notices := {}
  clock : BitVec 32 := 0
  unit : MgmtUnit := {}
  draws : Nat := 0
  deriving DecidableEq, Repr

/-! ### Power-on reset -/

/-- The notice frame of the power-on reset event (R176): notice number 1, latch and raised categories RESET_SEEN, no mask
set, and the status summary of the power-on values, in which only the next reference and the cycle number (both 1), the
latch and the notice number are not zero. -/
def resetNotice : Frame :=
  [0x4F, 0xB0, 1, 1, 1, 0] ++ List.replicate 44 0 ++ [1] ++ List.replicate 7 0 ++ [1] ++ List.replicate 13 0
    ++ [1, 0, 1, 0xC1, 0x65]

/-- The machine right after power-on reset with the straps at 0: every block at the power-on values its rule gives (the
defaults of the structures above), RESET_SEEN latched, and the notice of the reset event handed to the O-port transmitter
(R176, log 3). -/
def State.reset : State where
  notices := { latch := 1, number := 1 }
  oTx := [resetNotice]
  oCount := { notices := 1 }

end Sys2Proof.Machine
end

