-- ==== Sys2Proof/Machine/Table.lean ====
section
/-! DEFINITION. The operations on numbered tables, and numbers as octets. A table lists the entries that differ from what
an unlisted number reads as; every write keeps that form, so that equal tables are equal data. -/

namespace Sys2Proof.Machine

/-- What the table holds at number `k`; an unlisted number reads as `d`. -/
def look {α : Type} (d : α) : Tbl α → Nat → α
  | [], _ => d
  | (j, v) :: t, k => if j = k then v else look d t k

/-- Puts the entry for `k` before the first larger number. -/
def insertAt {α : Type} (k : Nat) (v : α) : Tbl α → Tbl α
  | [] => [(k, v)]
  | (j, w) :: t => if k < j then (k, v) :: (j, w) :: t else (j, w) :: insertAt k v t

/-- The table with `v` at number `k`; writing what an unlisted number reads as removes the entry. -/
def put {α : Type} [DecidableEq α] (d : α) (t : Tbl α) (k : Nat) (v : α) : Tbl α :=
  if v = d then t.filter (fun p => p.1 != k) else insertAt k v (t.filter (fun p => p.1 != k))

/-- Every entry changed by `f` of its number and value; an unlisted number stays unlisted, so `f` is to leave `d`. -/
def remap {α : Type} [DecidableEq α] (d : α) (f : Nat → α → α) (t : Tbl α) : Tbl α :=
  (t.map (fun p => (p.1, f p.1 p.2))).filter (fun p => decide (p.2 ≠ d))

/-- The canonical form: numbers strictly rising, and no entry equal to what an unlisted number reads as. -/
def canonical {α : Type} [DecidableEq α] (d : α) : Tbl α → Bool
  | [] => true
  | (k, v) :: t => decide (v ≠ d) && t.all (fun p => decide (k < p.1)) && canonical d t

/-- A set of numbers as a strictly rising list, with `k` added. -/
def addMark (k : Nat) : List Nat → List Nat
  | [] => [k]
  | j :: t => if k < j then k :: j :: t else if k = j then j :: t else j :: addMark k t

/-- Whether a list of numbers is strictly rising. -/
def rising : List Nat → Bool
  | [] => true
  | k :: t => t.all (fun j => decide (k < j)) && rising t

/-- 00_scope "Numbers": `n` as `w` octets, most significant first. -/
def octets : Nat → Nat → List Octet
  | 0, _ => []
  | w + 1, n => BitVec.ofNat 8 (n / 256 ^ w) :: octets w n

/-- The number that octets stand for, most significant first. -/
def number (l : List Octet) : Nat := l.foldl (fun acc b => acc * 256 + b.toNat) 0

/-- R188: a signed value in two's complement of `w` octets. -/
def signedOctets (w : Nat) (z : Int) : List Octet := octets w (z % ((256 : Int) ^ w)).toNat

/-- The number in the `w` octets from offset `o`. -/
def field (l : List Octet) (o w : Nat) : Nat := number ((l.drop o).take w)

end Sys2Proof.Machine
end

