-- ==== Sys2Proof/Machine/Operands.lean ====
section
/-! DEFINITION. Fields as chapter 11 encodes them, read into the machine's values with the range checks of the rules that
own them: card numbers, gift requests, card record images, and the parameters of the loading commands. -/

namespace Sys2Proof.Machine

/-! ### Card numbers (R188, 00_scope "Card numbers") -/

/-- Digit `i` of a packed card number, 1 the leftmost. -/
def cardDigit (card : BitVec 64) (i : Nat) : Nat := (card.toNat / 16 ^ (16 - i)) % 16

/-- The six prefix digits, packed. -/
def cardPrefix (card : BitVec 64) : BitVec 24 := BitVec.ofNat 24 (card.toNat / 16 ^ 10)

/-- Whether the six packed digits of a prefix are all decimal. -/
def decimalPrefix (p : BitVec 24) : Bool := (List.range 6).all (fun i => decide ((p.toNat / 16 ^ i) % 16 ≤ 9))

/-- The serial, digits 7 to 15 read as a decimal number. -/
def cardSerial (card : BitVec 64) : Nat :=
  ((List.range 9).map (· + 7)).foldl (fun acc i => acc * 10 + cardDigit card i) 0

/-- R8: a digit doubled, less 9 when above 9. -/
def doubled (d : Nat) : Nat := if 2 * d > 9 then 2 * d - 9 else 2 * d

/-- R8: the mod-10 sum; digits 15, 13, …, 1 are doubled. -/
def checkSum (card : BitVec 64) : Nat :=
  ((List.range 16).map (fun i =>
    let d := cardDigit card (i + 1)
    if i % 2 = 0 then doubled d else d)).foldl (· + ·) 0

/-- R8: digits 7 to 16 are decimal and the number passes the mod-10 check. -/
def cardWellFormed (card : BitVec 64) : Bool :=
  (List.range 10).all (fun i => decide (cardDigit card (i + 7) ≤ 9)) && decide (checkSum card % 10 = 0)

/-! ### The gift request (11.3) -/

/-- The fields of a gift request as received, and the length of its frame. -/
structure GiftRequest where
  shop : BitVec 16
  lane : BitVec 8
  trace : BitVec 24
  kind : BitVec 8
  flags : BitVec 8
  card : BitVec 64
  amount : BitVec 24
  reference : BitVec 32
  length : Nat
  deriving DecidableEq, Repr

/-- 11.3: the fixed length of a gift request, check included. -/
def giftLength : Nat := 26

/-- 11.3: the fields of a frame of class 0x47 that is at least as long as a gift request. -/
def giftFields (f : Frame) : GiftRequest where
  shop := BitVec.ofNat 16 (field f 1 2)
  lane := BitVec.ofNat 8 (field f 3 1)
  trace := BitVec.ofNat 24 (field f 4 3)
  kind := BitVec.ofNat 8 (field f 7 1)
  flags := BitVec.ofNat 8 (field f 8 1)
  card := BitVec.ofNat 64 (field f 9 8)
  amount := BitVec.ofNat 24 (field f 17 3)
  reference := BitVec.ofNat 32 (field f 20 4)
  length := f.length

/-- 11.3: the request kinds; the codes 10 and 11 are no request. -/
def requestKind (code : BitVec 8) : Option Kind :=
  match code.toNat with
  | 1 => some .activate
  | 2 => some .reload
  | 3 => some .redeem
  | 4 => some .balance
  | 5 => some .hold
  | 6 => some .complete
  | 7 => some .release
  | 8 => some .refund
  | 9 => some .void
  | _ => none

/-- R8: the amount rule of a kind. -/
def amountFits (k : Kind) (amount : Nat) : Bool :=
  match k with
  | .balance | .release | .void => amount == 0
  | _ => decide (1 ≤ amount ∧ amount ≤ Config.maxAmount)

/-- R8: the reference rule of a kind. -/
def referenceFits (k : Kind) (r : Ref) : Bool :=
  match k with
  | .complete | .release | .void => r != 0
  | .refund => true
  | _ => r == 0

/-- R8: the format check; the kind of a well-formed request, none for FORMAT. -/
def formatCheck (q : GiftRequest) : Option Kind :=
  match requestKind q.kind with
  | none => none
  | some k =>
    if decide (q.length = giftLength) && decide (q.shop.toNat < Config.shopCount) && decide (q.lane.toNat < 16)
        && decide (q.trace.toNat ≤ 999999) && cardWellFormed q.card && amountFits k q.amount.toNat
        && referenceFits k q.reference && (q.flags == 0 || (q.flags == 1 && decide (k = .redeem)))
    then some k else none

/-! ### Card record images (R43, 11.5) -/

/-- The card state of a code. -/
def cardStateOf (code : BitVec 8) : Option CardState :=
  match code.toNat with
  | 0 => some .unissued
  | 1 => some .active
  | 2 => some .blocked
  | 3 => some .expired
  | _ => none

/-- An optional field, present when its presence bit is set. -/
def optional (present : Bool) (v : Nat) : Option Nat := if present then some v else none

/-- R43: the record of an image that passes the loading checks. -/
def loadedRecord (i : RecordImage) : Option CardRecord :=
  match cardStateOf i.state with
  | none => none
  | some st =>
    let shop := optional (i.presence.getLsbD 0) i.issueShop.toNat
    let act := optional (i.presence.getLsbD 1) i.activationDay.toNat
    let exp := optional (i.presence.getLsbD 2) i.expiryDay.toNat
    let issued := match shop with
      | some n => decide (n < Config.shopCount) && act.isSome
      | none => false
    let fits := if st = .unissued
      then i.balance == 0 && shop.isNone && act.isNone && exp.isNone
      else issued
    if decide (i.presence.toNat < 8) && decide (i.balance.toNat ≤ Config.maxAmount) && i.held == 0 && i.holdCount == 0 && fits
    then some { state := st, balance := i.balance.toNat, held := 0, holdCount := 0, issueShop := shop,
                activationDay := act, expiryDay := exp, lastActivity := i.lastActivity.toNat, sequence := i.sequence }
    else none

/-- The record an unlisted index of a block reads as (R36). -/
def unissued : CardRecord := {}

/-- The block of the listed records, from index `k` up. -/
def blockFrom (k : Nat) (b : Block) : List CardRecord → Block
  | [] => b
  | r :: t => blockFrom (k + 1) (put unissued b k r) t

/-- R43: the eight records of a FIRST and a LAST, when each passes the loading checks. -/
def loadedBlock (a b : FourImages) : Option Block :=
  match loadedRecord a.first, loadedRecord a.second, loadedRecord a.third, loadedRecord a.fourth,
        loadedRecord b.first, loadedRecord b.second, loadedRecord b.third, loadedRecord b.fourth with
  | some r0, some r1, some r2, some r3, some r4, some r5, some r6, some r7 =>
    some (blockFrom 0 [] [r0, r1, r2, r3, r4, r5, r6, r7])
  | _, _, _, _, _, _, _, _ => none

/-! ### The loading commands of the table sets (R21, R23, R24) -/

/-- R188: an optional 3-octet value whose range starts at 1; all ones is absent. The outer none is out of range. -/
def optionalAmount (v : BitVec 24) : Option (Option Nat) :=
  if v = 0xFFFFFF#24 then some none
  else if 1 ≤ v.toNat ∧ v.toNat ≤ Config.maxAmount then some (some v.toNat) else none

/-- R188: a prefix; all six digits 0xF is absent. The outer none is out of range. -/
def optionalPrefix (p : BitVec 24) : Option (Option (BitVec 24)) :=
  if p = 0xFFFFFF#24 then some none else if decimalPrefix p then some (some p) else none

/-- R21: the program entry that LOAD PROGRAM's fields describe, none when a field is out of range. -/
def programOf (f : ProgramFields) : Option Program :=
  match optionalPrefix f.digits, optionalAmount f.openCap with
  | some digits, some cap =>
    let enabled := f.flags.getLsbD 0
    let lifetime := f.lifetime.toNat
    if decide (f.flags.toNat < 32)
        && decide (f.baseSlot.toNat < Config.slotCount) && decide (f.slotCount.toNat ≤ Config.slotCount)
        && decide (f.minLoad.toNat ≤ Config.maxAmount) && decide (f.maxLoad.toNat ≤ Config.maxAmount)
        && decide (f.maxBalance.toNat ≤ Config.maxAmount) && decide (f.tolerance.toNat ≤ 50)
        && (decide (60 ≤ lifetime ∧ lifetime ≤ 604800) || (!enabled && lifetime == 0))
        && decide (f.expiryDays.toNat ≤ 3650) && decide (f.standInLimit.toNat ≤ Config.maxAmount)
        && (!enabled || (digits.isSome && f.slotCount != 0))
    then some { digits := digits, enabled := enabled, baseSlot := f.baseSlot.toNat, slotCount := f.slotCount.toNat,
                minLoad := f.minLoad.toNat, maxLoad := f.maxLoad.toNat, maxBalance := f.maxBalance.toNat,
                reloadable := f.flags.getLsbD 1, partialAllowed := f.flags.getLsbD 2, refundable := f.flags.getLsbD 3,
                openCap := cap, tolerance := f.tolerance.toNat, lifetime := lifetime,
                expiryDays := f.expiryDays.toNat, reloadExtends := f.flags.getLsbD 4,
                standInLimit := f.standInLimit.toNat }
    else none
  | _, _ => none

/-- R23: the fee class that LOAD FEE CLASS's fields describe. -/
def feeClassOf (f : FeeFields) : Option FeeClass :=
  if f.redemptionRate.toNat ≤ 1000 ∧ f.fixedFee.toNat ≤ 500 ∧ f.commissionRate.toNat ≤ 1000
      ∧ f.minPayout.toNat ≤ 100000 ∧ f.collectAt.toNat ≤ 100000 ∧ f.flags.toNat < 2
  then some { redemptionRate := f.redemptionRate.toNat, fixedFee := f.fixedFee.toNat,
              commissionRate := f.commissionRate.toNat, minPayout := f.minPayout.toNat,
              collectAt := f.collectAt.toNat, rebate := f.flags.getLsbD 0 }
  else none

/-- R24: the terms that LOAD SHOP TERMS's fields describe. -/
def termsOf (f : TermsFields) : Option ShopTerms :=
  match optionalAmount f.limit with
  | none => none
  | some limit =>
    if f.feeClass.toNat < 16 ∧ f.flags.toNat < 32
    then some { feeClass := f.feeClass.toNat, limit := limit, allowSales := f.flags.getLsbD 0,
                allowRefund := f.flags.getLsbD 1, crossRefund := f.flags.getLsbD 2,
                openRefund := f.flags.getLsbD 3, autoSuspend := f.flags.getLsbD 4 }
    else none

/-- R78, 11.6: whether CARD ADJUST's mask selects something and every selected value is in range. -/
def adjustFits (f : AdjustFields) : Bool :=
  let change := f.change.toInt
  decide (f.mask.toNat < 16) && decide ((f.mask &&& 7) ≠ 0) && (f.mask.getLsbD 1 || !f.mask.getLsbD 3)
    && (!f.mask.getLsbD 0 || f.state == 1 || f.state == 2)
    && (!f.mask.getLsbD 2 || decide (change ≠ 0 ∧ -(Config.maxAmount : Int) ≤ change ∧ change ≤ Config.maxAmount))

end Sys2Proof.Machine
end

