-- ==== Sys2Proof/Machine/Layout.lean ====
section
/-! DEFINITION. Every layout and code table of chapter 11: the frame check, the escapes of the wire, and the octets of the
records, answers, notices and the status summary that the part builds. -/

namespace Sys2Proof.Machine

/-! ### The frame check and the wire (R187) -/

/-- One shift of the check register, generator x^16 + x^12 + x^5 + 1, most significant bit first. -/
def crcBit (c : BitVec 16) : BitVec 16 := if c.msb then (c <<< 1) ^^^ 0x1021#16 else c <<< 1

/-- One octet taken into the check register. -/
def crcOctet (c : BitVec 16) (b : Octet) : BitVec 16 :=
  crcBit (crcBit (crcBit (crcBit (crcBit (crcBit (crcBit (crcBit (c ^^^ (b.zeroExtend 16 <<< 8)))))))))

/-- R187: the check of a run of octets; the register starts at all ones and is not inverted. -/
def crc (l : List Octet) : BitVec 16 := l.foldl crcOctet 0xFFFF#16

/-- The octets of a frame with its check behind it, high octet first. -/
def withCheck (l : List Octet) : Frame := l ++ octets 2 (crc l).toNat

/-- R2: whether the last two octets are the check of the others. -/
def checkAgrees (f : Frame) : Bool :=
  let body := f.take (f.length - 2)
  octets 2 (crc body).toNat == f.drop (f.length - 2)

/-- R187: the escapes of the wire. -/
def escaped : List Octet → List Octet
  | [] => []
  | b :: t => if b = 0x7E#8 ∨ b = 0x7D#8 then 0x7D#8 :: (b ^^^ 0x20#8) :: escaped t else b :: escaped t

/-- R187: a frame as it is sent: between two delimiters, with its escapes. -/
def wireFrame (f : Frame) : List Octet := 0x7E#8 :: escaped f ++ [0x7E#8]

/-! ### Codes -/

/-- 11.3: kinds, in requests, answers and journal copies. The card commands that write no entry have no code. -/
def kindCode : Kind → Nat
  | .activate => 1 | .reload => 2 | .redeem => 3 | .balance => 4 | .hold => 5 | .complete => 6 | .release => 7
  | .refund => 8 | .void => 9 | .holdExpired => 10 | .adjust => 11 | .cardRead => 0 | .cardLoad => 0

/-- 11.6: decline reasons 1 to 28. -/
def reasonCode : Reason → Nat
  | .format => 1 | .programClosed => 2 | .shopClosed => 3 | .shopSuspended => 4 | .notPermitted => 5 | .laneBusy => 6
  | .duplicate => 7 | .retry => 8 | .storeNotReady => 9 | .officeSlow => 10 | .officeUnreachable => 11 | .noCard => 12
  | .notActive => 13 | .alreadyActive => 14 | .blocked => 15 | .expired => 16 | .insufficient => 17 | .overMax => 18
  | .underMin => 19 | .overLimit => 20 | .noHoldSpace => 21 | .holdGone => 22 | .noMatch => 23 | .overOriginal => 24
  | .crossShop => 25 | .tooLate => 26 | .alreadyVoided => 27 | .laterActivity => 28

/-- 11.3: card states. -/
def cardStateCode : CardState → Nat
  | .unissued => 0 | .active => 1 | .blocked => 2 | .expired => 3

/-- 11.3: stand-in levels. -/
def levelCode : Level → Nat
  | .normal => 0 | .limited => 1 | .closed => 2

/-- 11.4: store states. -/
def phaseCode : Phase → Nat
  | .unloaded => 0 | .loading => 1 | .ready => 2

/-- 11.4: shadow states. -/
def shadowCode : ShadowState → Nat
  | .free => 0 | .loaded => 1 | .retiring => 2

/-- 11.4: closing-set states. -/
def closingCode : Closing → Nat
  | .none => 0 | .grace => 1 | .freezing => 2 | .frozen => 3 | .computing => 4 | .draining => 5

/-- 11.4: engine states. -/
def engineCode : EngineState → Nat
  | .idle => 0 | .walking => 1 | .waiting => 2

/-- 11.5: dispositions. -/
def dispositionCode : Disposition → Nat
  | .pay => 0 | .holdOver => 1 | .nil => 2 | .collect => 3 | .defer => 4

/-- R190: shop modes. -/
def modeCode : Mode → Nat
  | .closed => 0 | .opened => 1 | .training => 2

/-- R190: the shop mode of a code. -/
def modeOf (code : BitVec 8) : Option Mode :=
  match code.toNat with
  | 0 => some .closed
  | 1 => some .opened
  | 2 => some .training
  | _ => none

/-- R190: alarm states. -/
def alarmCode : Alarm → Nat
  | .normal => 0 | .watch => 1 | .alarm => 2

/-- R190: hold entry states. -/
def holdStateCode : HoldState → Nat
  | .opened => 0 | .claimed => 1 | .expiring => 2

/-- R190: accumulator sets. -/
def setCode : SetId → Nat
  | .x => 0 | .y => 1

/-- Marks as an octet, the first mark in bit 0. -/
def marksOctet (l : List Bool) : List Octet := octets 1 (l.foldr (fun b acc => acc * 2 + b.toNat) 0)

/-- A yes-or-no item (R190). -/
def yesNo (b : Bool) : List Octet := octets 1 b.toNat

/-- R190: the cause set of a shop. -/
def causeOctet (s : Shop) : List Octet := marksOctet [s.management, s.alarmCause]

/-! ### Records (11.5) -/

/-- The card record image, 21 octets. -/
def recordOctets (r : CardRecord) : List Octet :=
  octets 1 (cardStateCode r.state) ++ marksOctet [r.issueShop.isSome, r.activationDay.isSome, r.expiryDay.isSome]
    ++ octets 3 r.balance ++ octets 3 r.held ++ octets 1 r.holdCount ++ octets 2 (r.issueShop.getD 0)
    ++ octets 2 (r.activationDay.getD 0) ++ octets 2 (r.expiryDay.getD 0) ++ octets 2 r.lastActivity
    ++ octets 4 r.sequence.toNat

/-- The journal copy, 37 octets, also the layout of ENTRY READ. -/
def entryOctets (e : Entry) : List Octet :=
  let p := e.party.getD { shop := 0, lane := 0, trace := 0 }
  octets 4 e.ref.toNat ++ octets 4 e.cycle.toNat ++ octets 4 e.clock.toNat ++ octets 1 (kindCode e.kind)
    ++ marksOctet [e.party.isSome, e.party.isSome, e.refunded.isSome, e.voided, e.adjustDown]
    ++ octets 2 p.shop ++ octets 1 p.lane ++ octets 3 p.trace ++ octets 3 e.slot ++ octets 3 e.amount
    ++ octets 4 e.sequence.toNat ++ octets 4 (e.related.getD 0).toNat ++ octets 3 (e.refunded.getD 0)

/-- A hold entry in a HOLD READ answer, 22 octets (R190). -/
def holdOctets (h : HoldEntry) : List Octet :=
  octets 4 h.ref.toNat ++ octets 3 h.slot ++ octets 2 h.shop ++ octets 1 h.lane ++ octets 3 h.amount
    ++ octets 3 h.ceiling ++ octets 5 h.expiry ++ octets 1 (holdStateCode h.state)

/-- R188: an expiry or grace end time; all ones means absent. -/
def timeOctets (t : Option Nat) : List Octet := octets 5 (t.getD (2 ^ 40 - 1))

/-- The six accumulators of a shop row with their counts. -/
def rowOctets (r : Row) : List Octet :=
  octets 6 r.redeemed ++ octets 3 r.redeemCount ++ octets 6 r.sold ++ octets 3 r.soldCount
    ++ octets 6 r.refunded ++ octets 3 r.refundCount

/-- A record of the payout queue: 83 octets for a shop record, 105 for a cycle total record. -/
def payoutOctets : PayoutRecord → List Octet
  | .shop r =>
    octets 1 1 ++ octets 4 r.cycle.toNat ++ octets 2 r.shop ++ rowOctets r.row ++ octets 6 r.percentFee
      ++ octets 5 r.fixedFee ++ octets 6 r.commission ++ octets 6 r.rebate ++ signedOctets 4 r.carryIn
      ++ signedOctets 8 r.net ++ octets 1 (dispositionCode r.disposition) ++ octets 8 r.amount
      ++ signedOctets 4 r.carryOut ++ yesNo r.row.saturated
  | .total r =>
    octets 1 2 ++ octets 4 r.cycle.toNat ++ octets 8 r.totals.redeemed ++ octets 8 r.totals.sold
      ++ octets 8 r.totals.refunded ++ octets 8 r.totals.percentFee ++ octets 8 r.totals.fixedFee
      ++ octets 8 r.totals.commission ++ octets 8 r.totals.rebate ++ octets 8 r.totals.pay ++ octets 8 r.totals.collect
      ++ signedOctets 8 r.totals.carryChange ++ octets 6 r.adjustUp ++ octets 6 r.adjustDown
      ++ octets 5 r.floatAtFreeze.toNat ++ octets 2 r.totals.records ++ yesNo r.saturated

/-- R119: the cycle number of the closing set. -/
def closingCycle (c : Cycle) : BitVec 32 := c.number - 1

/-- R153: the EMPTY marker, 8 octets. -/
def emptyMarker (s : State) : List Octet :=
  let settling := decide (s.cycle.closing ≠ .none)
  octets 1 0xFF ++ marksOctet [settling] ++ octets 1 (closingCode s.cycle.closing)
    ++ octets 1 (engineCode s.payout.engine) ++ octets 4 (if settling then (closingCycle s.cycle).toNat else 0)

/-- 11.4: a READ of a queue ends with a count octet and that many records, or with count 0 and the EMPTY marker. -/
def queueOctets (s : State) (records : List (List Octet)) : List Octet :=
  octets 1 records.length ++ (if records.isEmpty then emptyMarker s else records.flatten)

/-! ### The parameter layouts that TABLE READ answers with (R190) -/

/-- A program entry as LOAD PROGRAM lays it out. -/
def programOctets (index : Nat) (p : Program) : List Octet :=
  octets 1 index ++ octets 3 (p.digits.getD 0xFFFFFF#24).toNat
    ++ marksOctet [p.enabled, p.reloadable, p.partialAllowed, p.refundable, p.reloadExtends]
    ++ octets 3 p.baseSlot ++ octets 3 p.slotCount ++ octets 3 p.minLoad ++ octets 3 p.maxLoad ++ octets 3 p.maxBalance
    ++ octets 3 (p.openCap.getD 0xFFFFFF) ++ octets 1 p.tolerance ++ octets 3 p.lifetime ++ octets 2 p.expiryDays
    ++ octets 3 p.standInLimit

/-- A fee class as LOAD FEE CLASS lays it out. -/
def feeOctets (index : Nat) (c : FeeClass) : List Octet :=
  octets 1 index ++ octets 2 c.redemptionRate ++ octets 2 c.fixedFee ++ octets 2 c.commissionRate
    ++ octets 3 c.minPayout ++ octets 3 c.collectAt ++ marksOctet [c.rebate]

/-- Shop terms as LOAD SHOP TERMS lays them out. -/
def termsOctets (shop : Nat) (t : ShopTerms) : List Octet :=
  octets 2 shop ++ octets 1 t.feeClass ++ octets 3 (t.limit.getD 0xFFFFFF)
    ++ marksOctet [t.allowSales, t.allowRefund, t.crossRefund, t.openRefund, t.autoSuspend]

/-! ### The status summary (R174, 11.4) -/

/-- The bank in the active role. -/
def activeBank (t : Tables) : Bank := match t.active with | .a => t.bankA | .b => t.bankB

/-- The bank in the shadow role. -/
def shadowBank (t : Tables) : Bank := match t.active with | .a => t.bankB | .b => t.bankA

/-- The status summary, 69 octets. The audit figures while there is no audit result, and the pending block while no FIRST
is pending, are 0 (log 12, the model's choice). -/
def summaryOctets (s : State) : List Octet :=
  let j := s.journalOut
  let a := s.store.audit
  let result := a.result.getD { matched := false, balanceSum := 0, float := 0, heldSum := 0, holdTotal := 0 }
  octets 1 (levelCode j.level) ++ octets 2 j.copies.length ++ octets 2 j.reservations
    ++ octets 1 (phaseCode s.store.phase)
    ++ marksOctet [s.store.flushPending, a.running, s.unit.progress.isSome, s.unit.first.isSome, s.holds.expiring.isSome]
    ++ octets 3 a.cursor ++ octets 1 (match a.result with | none => 0 | some r => if r.matched then 1 else 2)
    ++ octets 5 result.balanceSum.toNat ++ octets 5 result.float.toNat ++ octets 5 result.heldSum.toNat
    ++ octets 5 result.holdTotal.toNat
    ++ octets 5 s.store.float.toNat ++ octets 1 s.inFlight.length
    ++ octets 1 s.tables.generation.toNat ++ octets 1 (shadowCode s.tables.shadow)
    ++ octets 1 (activeBank s.tables).count ++ octets 1 (shadowBank s.tables).count
    ++ octets 4 s.journal.next.toNat ++ octets 2 s.journal.ring.length ++ octets 2 s.holds.entries.length
    ++ octets 4 s.cycle.number.toNat ++ octets 1 (closingCode s.cycle.closing) ++ octets 1 s.cycle.graceVoids
    ++ octets 1 (engineCode s.payout.engine) ++ octets 2 s.payout.cursor ++ octets 1 s.payout.queue.length
    ++ octets 4 s.clock.toNat ++ octets 3 ((s.unit.first.map (·.block)).getD 0)
    ++ octets 1 s.notices.latch.toNat ++ octets 1 s.notices.masks.toNat ++ octets 1 s.notices.number.toNat

/-! ### Answers and notices -/

/-- R18: the outcomes of a transaction answer. -/
inductive Ruling where
  | approved | inPart | declined
  deriving DecidableEq, Repr

/-- 11.3: outcome codes. -/
def rulingCode : Ruling → Nat
  | .approved => 0 | .inPart => 1 | .declined => 2

/-- R18: a transaction answer but for its mall status. The echoed fields have their raw widths (R189); `card` is the
card's state, balance and available value after the posting, none in an answer made at admission. -/
structure GiftAnswer where
  shop : BitVec 16
  lane : BitVec 8
  trace : BitVec 24
  kind : BitVec 8
  cardNumber : BitVec 64
  outcome : Ruling
  reason : Option Reason
  training : Bool
  amount : Nat
  reference : Ref
  card : Option (CardState × Nat × Nat)
  deriving DecidableEq, Repr

/-- R19: the mall status of an answer: level, store ready, settling. -/
def mallStatus (s : State) : Nat :=
  levelCode s.journalOut.level + 4 * (decide (s.store.phase = .ready)).toNat + 8 * (decide (s.cycle.closing ≠ .none)).toNat

/-- 11.3: the gift answer, 36 octets with its check, its mall status taken from the state given. -/
def giftFrame (s : State) (g : GiftAnswer) : Frame :=
  withCheck (octets 1 0x48 ++ octets 2 g.shop.toNat ++ octets 1 g.lane.toNat ++ octets 3 g.trace.toNat
    ++ octets 1 g.kind.toNat ++ octets 8 g.cardNumber.toNat ++ octets 1 (rulingCode g.outcome)
    ++ octets 1 ((g.reason.map reasonCode).getD 0) ++ marksOctet [g.training] ++ octets 3 g.amount
    ++ octets 4 g.reference.toNat ++ octets 1 ((g.card.map (fun c => cardStateCode c.1)).getD 0xFF)
    ++ octets 3 ((g.card.map (·.2.1)).getD 0) ++ octets 3 ((g.card.map (·.2.2)).getD 0)
    ++ octets 1 (mallStatus s))

/-- R172: the refusal codes. -/
inductive RefusalCode where
  | unknownCommand | badField | busy | wrongState | sequence | overlap
  deriving DecidableEq, Repr

/-- 11.6: the octet of a refusal. -/
def refusalOctet : RefusalCode → Nat
  | .unknownCommand => 0x80 | .badField => 0x81 | .busy => 0x82 | .wrongState => 0x83 | .sequence => 0x84 | .overlap => 0x85

/-- R171: a management answer but for its status summary. `outcome` and `reason` are a CARD ADJUST's at its posting.
The answer fields are a function of the state after the event, for the items that a rule takes "as they stand after the
event" (R125, R128, R186). A Reply is no part of State. -/
structure Reply where
  code : BitVec 8
  tag : BitVec 16
  refusal : Option RefusalCode := none
  outcome : Option Ruling := none
  reason : Option Reason := none
  fields : State → List Octet := fun _ => []

/-- 11.4: the management answer, its status summary taken from the state given. -/
def replyFrame (s : State) (r : Reply) : Frame :=
  withCheck (octets 1 0x4E ++ octets 1 s.unitAddress.toNat ++ octets 1 r.code.toNat ++ octets 2 r.tag.toNat
    ++ octets 1 ((r.refusal.map refusalOctet).getD 0) ++ octets 1 ((r.outcome.map rulingCode).getD 0xFF)
    ++ octets 1 ((r.reason.map reasonCode).getD 0) ++ summaryOctets s ++ r.fields s)

/-- R176, 11.4: the notice frame for the categories raised. -/
def noticeFrame (s : State) (raised : Categories) : Frame :=
  withCheck (octets 1 0x4F ++ octets 1 s.unitAddress.toNat ++ octets 1 s.notices.number.toNat
    ++ octets 1 s.notices.latch.toNat ++ octets 1 raised.toNat ++ octets 1 s.notices.masks.toNat ++ summaryOctets s)

end Sys2Proof.Machine
end

