-- ==== Sys2Proof/Machine/Flags.lean ====
section
/-! DEFINITION. One event and its end: the frames an event sends are built from the state after every change the event
makes (R19, R174), the stand-in level is evaluated after all of them (R184), and at most one notice is sent (R176). -/

namespace Sys2Proof.Machine

/-! ### The categories of notice (11.4) -/

/-- RESET_SEEN -/
def catReset : Categories := 1
/-- CYCLE -/
def catCycle : Categories := 2
/-- SUPERVISION -/
def catSupervision : Categories := 4
/-- STAND_IN -/
def catStandIn : Categories := 8
/-- AUDIT -/
def catAudit : Categories := 16
/-- TABLE -/
def catTable : Categories := 32

/-! ### The committed load and the stand-in level -/

/-- R183: copies held plus reservations. -/
def committedLoad (s : State) : Nat := s.journalOut.copies.length + s.journalOut.reservations

/-- R184: the level of a committed load. -/
def levelOf (load : Nat) : Level :=
  if load < Config.limitedFrom then .normal else if load < Config.journalOutPlaces then .limited else .closed

/-! ### Events -/

/-- An event under way: the state so far, the categories raised, the categories whose notice a command demands whatever
the latch held (R177, R182), and the answers to be built at its end. It is no part of State. -/
structure Event where
  st : State
  raised : Categories := 0
  demanded : Categories := 0
  gift : Option GiftAnswer := none
  reply : Option Reply := none

/-- An event changed in its state alone. -/
def Event.upd (e : Event) (f : State → State) : Event := { e with st := f e.st }

/-- R175: a category raised. -/
def Event.raising (e : Event) (c : Categories) : Event := { e with raised := e.raised ||| c }

/-- R176: a notice demanded for the categories given. -/
def Event.demanding (e : Event) (c : Categories) : Event := { e with demanded := e.demanded ||| c }

/-- R18: a transaction answer to be handed to the S-port transmitter at the event's end. -/
def Event.answering (e : Event) (g : GiftAnswer) : Event := { e with gift := some g }

/-- R171: a management answer to be handed to the O-port transmitter at the event's end. -/
def Event.replying (e : Event) (r : Reply) : Event := { e with reply := some r }

/-- R184: in an event that changed the committed load, the level is evaluated, and a new one raises STAND_IN. -/
def evaluateLevel (before : State) (e : Event) : Event :=
  if committedLoad e.st = committedLoad before then e
  else
    let level := levelOf (committedLoad e.st)
    if level = e.st.journalOut.level then e
    else (e.upd fun s => { s with journalOut := { s.journalOut with level := level } }).raising catStandIn

/-- R176: whether the event sends a notice: a raised category is unmasked and was not latched before the event, or a
command demands one. -/
def noticeDue (before : State) (e : Event) : Bool :=
  (e.raised &&& ~~~before.notices.latch &&& ~~~e.st.notices.masks) != 0 || e.demanded != 0

/-- R175, R176: the raised categories latched and, when a notice is due, the notice number raised by one. -/
def latchNotices (before : State) (e : Event) : State :=
  { e.st with notices := { e.st.notices with
      latch := e.st.notices.latch ||| e.raised
      number := if noticeDue before e then e.st.notices.number + 1 else e.st.notices.number } }

/-- R3, R6, R18: a transaction answer handed to the S-port transmitter and counted. -/
def sendGift (f : Frame) (s : State) : State :=
  { s with sTx := s.sTx ++ [f], sCount := { s.sCount with answers := s.sCount.answers + 1 } }

/-- R6, R181: a management answer handed to the O-port transmitter and counted. -/
def sendReply (f : Frame) (refused : Bool) (s : State) : State :=
  { s with
    oTx := s.oTx ++ [f]
    oCount := { s.oCount with
      answers := s.oCount.answers + 1
      refusals := if refused then s.oCount.refusals + 1 else s.oCount.refusals } }

/-- R6, R181: a notice handed to the O-port transmitter and counted. -/
def sendNotice (f : Frame) (s : State) : State :=
  { s with oTx := s.oTx ++ [f], oCount := { s.oCount with notices := s.oCount.notices + 1 } }

/-- R6, R176: the O-port frames of an event. A management answer and a notice of one event leave in either order: the
free value `Config.noticeFirst` for this draw (log 7). -/
def sendOffice (reply : Option (Frame × Bool)) (notice : Option Frame) (s : State) : State :=
  match reply, notice with
  | none, none => s
  | some r, none => sendReply r.1 r.2 s
  | none, some n => sendNotice n s
  | some r, some n =>
    { s with
      oTx := s.oTx ++ (if Config.noticeFirst s.draws then [n, r.1] else [r.1, n])
      oCount := { s.oCount with
        answers := s.oCount.answers + 1
        refusals := if r.2 then s.oCount.refusals + 1 else s.oCount.refusals
        notices := s.oCount.notices + 1 }
      draws := s.draws + 1 }

/-- The end of an event that began at `before`: level, latch, and the frames it sends, built from the state after all of
its changes. -/
def finish (before : State) (e : Event) : State :=
  let e1 := evaluateLevel before e
  let s := latchNotices before e1
  let notice := if noticeDue before e1 then some (noticeFrame s (e1.raised ||| e1.demanded)) else none
  let reply := e1.reply.map fun r => (replyFrame s r, r.refusal.isSome)
  let s1 := match e1.gift with
    | none => s
    | some g => sendGift (giftFrame s g) s
  sendOffice reply notice s1

/-- An event made by `f` on the state. -/
def event (f : Event → Event) (s : State) : State := finish s (f { st := s })

end Sys2Proof.Machine
end

