-- ==== Sys2Proof/Machine/Ops.lean ====
section
/-! DEFINITION. The named operations over the part's registers and tables that the commands share: lanes, shops, banks and
generations, the in-flight set, reservations, the journal, the hold table, the accumulators, the float. -/

namespace Sys2Proof.Machine

/-! ### Reading the tables -/

/-- R21: a program entry of a table set. -/
def TableSet.program (t : TableSet) (i : Nat) : Program := look {} t.programs i

/-- R23: a fee class of a table set. -/
def TableSet.feeClass (t : TableSet) (i : Nat) : FeeClass := look {} t.classes i

/-- R24: the terms of a shop in a table set. -/
def TableSet.shopTerms (t : TableSet) (i : Nat) : ShopTerms := look {} t.terms i

/-- The table set in force. -/
def State.activeTables (s : State) : TableSet := (activeBank s.tables).tables

/-- R30: the table set of the bank whose tag is the generation given. -/
def State.boundTables (s : State) (g : BitVec 8) : TableSet :=
  if (activeBank s.tables).tag = some g then (activeBank s.tables).tables
  else if (shadowBank s.tables).tag = some g then (shadowBank s.tables).tables
  else (activeBank s.tables).tables

/-- 1.4: the lane entry at an index. -/
def State.lane (s : State) (i : Nat) : Lane := look {} s.lanes i

/-- 1.4: the index of a lane. -/
def laneIndex (p : Party) : Nat := p.shop * 16 + p.lane

/-- The lane entry at an index replaced. -/
def State.setLane (s : State) (i : Nat) (l : Lane) : State := { s with lanes := put {} s.lanes i l }

/-- R156: the record of a shop. -/
def State.shop (s : State) (n : Nat) : Shop := look {} s.supervision.shops n

/-- The record of a shop changed. -/
def State.modifyShop (s : State) (n : Nat) (f : Shop → Shop) : State :=
  { s with supervision := { s.supervision with shops := put {} s.supervision.shops n (f (s.shop n)) } }

/-- 00_scope "Time": the day number of the clock. -/
def today (s : State) : Nat := s.clock.toNat / 86400

/-! ### Banks and generations (R30, R31) -/

/-- The active bank changed. -/
def modifyActive (f : Bank → Bank) (t : Tables) : Tables :=
  match t.active with
  | .a => { t with bankA := f t.bankA }
  | .b => { t with bankB := f t.bankB }

/-- The shadow bank changed. -/
def modifyShadow (f : Bank → Bank) (t : Tables) : Tables :=
  match t.active with
  | .a => { t with bankB := f t.bankB }
  | .b => { t with bankA := f t.bankA }

/-- R31: the shadow becomes a FREE copy of the active bank, without a tag. -/
def freeShadow (t : Tables) : Tables :=
  { modifyShadow (fun _ => { tables := (activeBank t).tables, tag := none, count := 0 }) t with shadow := .free }

/-- R30: one entry of the current generation has entered the in-flight set. -/
def countIn (t : Tables) : Tables := modifyActive (fun b => { b with count := b.count + 1 }) t

/-- R30: one entry of generation `g` has been posted. -/
def countOut (g : BitVec 8) (t : Tables) : Tables :=
  if (activeBank t).tag = some g then modifyActive (fun b => { b with count := b.count - 1 }) t
  else if (shadowBank t).tag = some g then modifyShadow (fun b => { b with count := b.count - 1 }) t
  else t

/-- R31: a RETIRING shadow whose count has reached 0 is retired, and TABLE is raised. -/
def endRetirement (e : Event) : Event :=
  let t := e.st.tables
  if t.shadow = .retiring ∧ (shadowBank t).count = 0
  then (e.upd fun s => { s with tables := freeShadow s.tables }).raising catTable
  else e

/-! ### The in-flight set (R14 to R16) -/

/-- The in-flight entry with a serial number. -/
def State.entryOf (s : State) (id : Nat) : Option InFlight := s.inFlight.find? (fun e => e.id == id)

/-- Whether the in-flight set is full. -/
def inFlightFull (s : State) : Bool := decide (Config.inFlightPlaces ≤ s.inFlight.length)

/-- R15, R30: an entry enters the set, last in admission order, under the current generation, with its reservation. -/
def enterSet (e : InFlight) (s : State) : State :=
  { s with
    inFlight := s.inFlight ++ [{ e with id := s.nextId, generation := s.tables.generation }]
    nextId := s.nextId + 1
    tables := countIn s.tables
    journalOut := { s.journalOut with
      reservations := if e.reserved then s.journalOut.reservations + 1 else s.journalOut.reservations } }

/-- R16: a posted entry leaves the set, its bank counts one fewer, and its reservation is given up (a posting that writes
an entry has put its copy into Journal Out). -/
def leaveSet (x : InFlight) (e : Event) : Event :=
  endRetirement (e.upd fun s =>
    { s with
      inFlight := s.inFlight.filter (fun y => y.id != x.id)
      tables := countOut x.generation s.tables
      journalOut := { s.journalOut with
        reservations := if x.reserved then s.journalOut.reservations - 1 else s.journalOut.reservations } })

/-- R12: whether the transaction recorded its trace at admission. -/
def recordsTrace (x : InFlight) : Bool := !x.training && decide (x.kind ≠ .balance)

/-- R12: the lane of a posted transaction; `ref` is the reference the posting assigned. -/
def leaveLane (x : InFlight) (ref : Option Ref) (s : State) : State :=
  match x.origin with
  | .request p _ =>
    let l := s.lane (laneIndex p)
    s.setLane (laneIndex p) { l with inFlight := false, lastRef := if recordsTrace x then ref else l.lastRef }
  | _ => s

/-- R160: one decline counted against a shop. -/
def countDecline (n : Nat) (s : State) : State := s.modifyShop n fun r => { r with declines := r.declines + 1 }

/-- R159: one fault charged to a shop, in its counter and in its window. -/
def chargeFault (n : Nat) (s : State) : State :=
  s.modifyShop n fun r => { r with faults := r.faults + 1, windowFaults := min (r.windowFaults + 1) 65535 }

/-! ### The journal (R99 to R102) -/

/-- R101: the entry with a reference. -/
def State.entryAt (s : State) (r : Ref) : Option Entry :=
  if r = 0 then none
  else match look none s.journal.ring (r.toNat % Config.ringPlaces) with
    | none => none
    | some e => if e.ref = r then some e else none

/-- R100: the first reference after `r` that is neither 0 nor the reference of a hold entry, in `n` tries. -/
def nextFree (held : List Ref) : Nat → Ref → Ref
  | 0, r => r
  | n + 1, r =>
    let c := if r + 1 = 0 then 1 else r + 1
    if c ∈ held then nextFree held n c else c

/-- R100, R183: the entry takes the next reference, its place in the ring, and its copy a place of Journal Out. -/
def writeEntry (make : Ref → Entry) (s : State) : State :=
  let r := s.journal.next
  let e := make r
  let held := s.holds.entries.map (·.ref)
  { s with
    journal :=
      { ring := put none s.journal.ring (r.toNat % Config.ringPlaces) (some e)
        next := nextFree held (held.length + 1) r }
    journalOut := { s.journalOut with copies := s.journalOut.copies ++ [e] } }

/-- The entry of a reference changed where it stands in the ring. -/
def modifyEntry (r : Ref) (f : Entry → Entry) (s : State) : State :=
  match s.entryAt r with
  | none => s
  | some e =>
    { s with journal := { s.journal with ring := put none s.journal.ring (r.toNat % Config.ringPlaces) (some (f e)) } }

/-- R64, R95, R102: the entry of a transaction's posting: `amount`, the record's sequence after it, and its related
reference; refunded-so-far is 0 for REDEEM and COMPLETE and absent otherwise. -/
def transactionEntry (s : State) (x : InFlight) (amount : Nat) (sequence : BitVec 32) (related : Option Ref)
    (cycle : BitVec 32) (r : Ref) : Entry where
  ref := r
  cycle := cycle
  clock := s.clock
  kind := x.kind
  party := match x.origin with
    | .request p _ => some p
    | _ => none
  slot := x.slot
  amount := amount
  adjustDown := false
  sequence := sequence
  related := related
  refunded := if x.kind = .redeem ∨ x.kind = .complete then some 0 else none
  voided := false

/-! ### The hold table (R83, R84) -/

/-- The hold entry with a reference. -/
def Holds.find (h : Holds) (r : Ref) : Option HoldEntry := h.entries.find? (fun e => e.ref == r)

/-- R83: the table order, by expiry time and then by reference. -/
def holdBefore (a b : HoldEntry) : Bool :=
  decide (a.expiry < b.expiry) || (decide (a.expiry = b.expiry) && decide (a.ref.toNat < b.ref.toNat))

/-- An entry put into the table in its order. -/
def insertHold (h : HoldEntry) : List HoldEntry → List HoldEntry
  | [] => [h]
  | g :: t => if holdBefore h g then h :: g :: t else g :: insertHold h t

/-- The entry with a reference removed. -/
def removeHold (r : Ref) (s : State) : State :=
  { s with holds := { s.holds with entries := s.holds.entries.filter (fun e => e.ref != r) } }

/-- The state of the entry with a reference changed. -/
def markHold (r : Ref) (st : HoldState) (s : State) : State :=
  { s with holds := { s.holds with
      entries := s.holds.entries.map (fun e => if e.ref = r then { e with state := st } else e) } }

/-- R83: the hold total. -/
def holdTotal (h : Holds) : Nat := (h.entries.map (·.amount)).sum

/-! ### The accumulators (R120 to R123) -/

/-- The amount and count a posting reaches in a row. -/
inductive Account where
  | redeemed | sold | refunded
  deriving DecidableEq, Repr

/-- R121: an amount with another added, stopping at its limit. -/
def addAmount (x a : Nat) : Nat := min (x + a) Config.maxSum

/-- R121: a count raised by one, stopping at its limit. -/
def raiseCount (c : Nat) : Nat := min (c + 1) Config.maxCount

/-- R122: an amount with another taken out; one that stands at its limit is left there. -/
def takeAmount (x a : Nat) : Nat := if x = Config.maxSum then x else x - a

/-- R122: a count lowered by one; one that stands at its limit is left there. -/
def lowerCount (c : Nat) : Nat := if c = Config.maxCount then c else c - 1

/-- R121: whether an amount or a count stands at its limit. -/
def atLimit (x c : Nat) : Bool := decide (x = Config.maxSum) || decide (c = Config.maxCount)

/-- R121: a posting added to a row. -/
def addToRow (k : Account) (a : Nat) (r : Row) : Row :=
  match k with
  | .redeemed =>
    let x := addAmount r.redeemed a
    let c := raiseCount r.redeemCount
    { r with redeemed := x, redeemCount := c, saturated := r.saturated || atLimit x c }
  | .sold =>
    let x := addAmount r.sold a
    let c := raiseCount r.soldCount
    { r with sold := x, soldCount := c, saturated := r.saturated || atLimit x c }
  | .refunded =>
    let x := addAmount r.refunded a
    let c := raiseCount r.refundCount
    { r with refunded := x, refundCount := c, saturated := r.saturated || atLimit x c }

/-- R122: a voided posting taken out of a row. -/
def takeFromRow (k : Account) (a : Nat) (r : Row) : Row :=
  match k with
  | .redeemed => { r with redeemed := takeAmount r.redeemed a, redeemCount := lowerCount r.redeemCount }
  | .sold => { r with sold := takeAmount r.sold a, soldCount := lowerCount r.soldCount }
  | .refunded => { r with refunded := takeAmount r.refunded a, refundCount := lowerCount r.refundCount }

/-- The row of a shop in a set. -/
def AccSet.row (a : AccSet) (n : Nat) : Row := look {} a.rows n

/-- The row of a shop in a set changed. -/
def AccSet.modifyRow (a : AccSet) (n : Nat) (f : Row → Row) : AccSet := { a with rows := put {} a.rows n (f (a.row n)) }

/-- An accumulator set of the controller. -/
def Cycle.set (c : Cycle) : SetId → AccSet
  | .x => c.setX
  | .y => c.setY

/-- An accumulator set of the controller changed. -/
def Cycle.modifySet (c : Cycle) (i : SetId) (f : AccSet → AccSet) : Cycle :=
  match i with
  | .x => { c with setX := f c.setX }
  | .y => { c with setY := f c.setY }

/-- The other accumulator set. -/
def SetId.other : SetId → SetId
  | .x => .y
  | .y => .x

/-- R123: an approved posting at shop `n` posted to the current set. -/
def postAmount (k : Account) (n a : Nat) (s : State) : State :=
  { s with cycle := s.cycle.modifySet s.cycle.current (fun t => t.modifyRow n (addToRow k a)) }

/-- R116, R122: an approved VOID taken out of its bound set. -/
def reverseAmount (i : SetId) (k : Account) (n a : Nat) (s : State) : State :=
  { s with cycle := s.cycle.modifySet i (fun t => t.modifyRow n (takeFromRow k a)) }

/-- R80, R121: a balance adjust posted to the mall row of the current set. -/
def postAdjust (d : Int) (s : State) : State :=
  { s with cycle := s.cycle.modifySet s.cycle.current (fun t =>
      if 0 < d then
        let x := addAmount t.mall.adjustUp d.natAbs
        { t with mall := { t.mall with adjustUp := x, saturated := t.mall.saturated || decide (x = Config.maxSum) } }
      else
        let x := addAmount t.mall.adjustDown d.natAbs
        { t with mall := { t.mall with adjustDown := x, saturated := t.mall.saturated || decide (x = Config.maxSum) } }) }

/-! ### The float and the audit sums (R55, R58) -/

/-- R55: the float changed by a signed amount. -/
def moveFloat (d : Int) (s : State) : State :=
  { s with store := { s.store with float := s.store.float + BitVec.ofInt 40 d } }

/-- R58: while the audit runs, a change in a block below the cursor is added to the audit sums. -/
def moveAudit (block : Nat) (dBalance dHeld : Int) (s : State) : State :=
  let a := s.store.audit
  if a.running && decide (block < a.cursor) then
    { s with store := { s.store with audit := { a with
        balanceSum := a.balanceSum + BitVec.ofInt 40 dBalance, heldSum := a.heldSum + BitVec.ofInt 40 dHeld } } }
  else s

end Sys2Proof.Machine
end

