-- ==== Sys2Proof/Machine/Buffer.lean ====
section
/-! DEFINITION. The record buffer, the bank queues and the audit walker (chapter 3): demands, claims, the serving of the
wait list, write-backs for eviction and flush, the completions of the banks, and the visits of an audit. -/

namespace Sys2Proof.Machine

/-! ### Reading the buffer and the store -/

/-- R47: a buffer line. -/
def State.line (s : State) (i : Nat) : Line := look {} s.buffer.lines i

/-- A buffer line replaced. -/
def State.setLine (s : State) (i : Nat) (l : Line) : State :=
  { s with buffer := { s.buffer with lines := put {} s.buffer.lines i l } }

/-- R38: the bank of a block. -/
def bankOf (b : Nat) : Nat := b % 4

/-- R49: the operations queued at a bank. -/
def State.queue (s : State) (k : Nat) : List BankOp := look [] s.buffer.queues k

/-- The queue of a bank replaced. -/
def State.setQueue (s : State) (k : Nat) (q : List BankOp) : State :=
  { s with buffer := { s.buffer with queues := put [] s.buffer.queues k q } }

/-- R49: whether a block's bank has room for one more operation. -/
def bankHasRoom (s : State) (b : Nat) : Bool := decide ((s.queue (bankOf b)).length < Config.bankPlaces)

/-- R49: an operation appended to the queue of its block's bank. -/
def appendOp (b : Nat) (op : BankOp) (s : State) : State := s.setQueue (bankOf b) (s.queue (bankOf b) ++ [op])

/-- R39: whether a block's valid mark is set. -/
def State.isValid (s : State) (b : Nat) : Bool := s.store.valid.contains b

/-- R38: the store copy of a block. -/
def State.storeCopy (s : State) (b : Nat) : Block := look [] s.store.copies b

/-- R36: a record of a block. -/
def recordOf (b : Block) (i : Nat) : CardRecord := look unissued b i

/-- R47: the line that holds a block. -/
def lineHolding (s : State) (b : Nat) : Option Nat :=
  (List.range Config.lineCount).find? (fun i => (s.line i).block == some b)

/-- R47, R51: a posting may take place at a line in this state. -/
def LineState.ready (st : LineState) : Bool :=
  match st with
  | .valid | .dirty | .writing => true
  | .free | .fetching => false

/-- The sum of the eight balances of a block. -/
def balances (b : Block) : Nat := ((List.range 8).map (fun i => (recordOf b i).balance)).sum

/-- The sum of the eight helds of a block. -/
def helds (b : Block) : Nat := ((List.range 8).map (fun i => (recordOf b i).held)).sum

/-! ### Rank and claims (R47) -/

/-- A line ranked most recently used. -/
def touch (i : Nat) (s : State) : State :=
  { s with buffer := { s.buffer with recency := s.buffer.recency.filter (· != i) ++ [i] } }

/-- A line ranked least recently used. -/
def rankLast (i : Nat) (s : State) : State :=
  { s with buffer := { s.buffer with recency := i :: s.buffer.recency.filter (· != i) } }

/-- R47 step 3: the FREE line with the lowest number, or else the least recently used VALID line with no waiters. -/
def findLine (s : State) : Option Nat :=
  match (List.range Config.lineCount).find? (fun i => decide ((s.line i).state = .free)) with
  | some i => some i
  | none => s.buffer.recency.find? (fun i => decide ((s.line i).state = .valid) && (s.line i).waiters.isEmpty)

/-- R47: whether a demand for a block can proceed. -/
def canProceed (s : State) (b : Nat) : Bool := !s.isValid b || bankHasRoom s b

/-- R57: when a line has been given to the block that the audit visit waits for, the visit joins its waiters. -/
def joinAudit (i b : Nat) (s : State) : State :=
  let a := s.store.audit
  if a.running && a.waiting && decide (a.cursor = b) then
    let l := s.line i
    let t := s.setLine i { l with waiters := l.waiters ++ [.audit] }
    { t with store := { t.store with audit := { a with waiting := false } } }
  else s

/-- R47: a line claimed for a block: a FETCHING line with its fetch queued, or, under a clear valid mark, a VALID line of
eight UNISSUED records (R39). -/
def claim (i b : Nat) (ws : List Waiter) (s : State) : State :=
  if s.isValid b
  then appendOp b (.fetch b) (s.setLine i { state := .fetching, block := some b, waiters := ws })
  else s.setLine i { state := .valid, block := some b, waiters := ws }

/-! ### Write-backs (R52 to R54) -/

/-- The records of a block that marks name. -/
def marked (marks : BitVec 8) (b : Block) : Block := b.filter (fun p => marks.getLsbD p.1)

/-- R52: the start of a line's write-back. It carries the records whose dirty marks are set, or all eight when the
block's valid mark is clear. -/
def startWriteBack (i : Nat) (s : State) : State :=
  let l := s.line i
  match l.block with
  | none => s
  | some b =>
    let marks := if s.isValid b then l.dirty else 0xFF#8
    appendOp b (.writeBack b marks (marked marks l.records))
      (s.setLine i { l with state := .writing, dirty := 0, changed := false })

/-- Whether a line is DIRTY with room in its block's bank queue. -/
def canWriteBack (s : State) (i : Nat) : Bool :=
  decide ((s.line i).state = .dirty) &&
    match (s.line i).block with
    | none => false
    | some b => bankHasRoom s b

/-- R53: the lines wanted by the wait list and by a waiting audit visit. -/
def linesWanted (s : State) : Nat := s.buffer.waitList.length + s.store.audit.waiting.toNat

/-- R53: the WRITING lines with empty waiter lists. -/
def writingIdle (s : State) : Nat :=
  ((List.range Config.lineCount).filter
    (fun i => decide ((s.line i).state = .writing) && (s.line i).waiters.isEmpty)).length

/-- R53: the least recently used DIRTY line with no waiters whose bank queue has room. -/
def evictChoice (s : State) : Option Nat :=
  s.buffer.recency.find? (fun i => canWriteBack s i && (s.line i).waiters.isEmpty)

/-- R53: write-backs for eviction started while the lines wanted exceed the idle WRITING lines, `n` at most. -/
def evictLoop : Nat → State → State
  | 0, s => s
  | n + 1, s =>
    if writingIdle s < linesWanted s then
      match evictChoice s with
      | some i => evictLoop n (startWriteBack i s)
      | none => s
    else s

/-- R53: the check for eviction write-backs. -/
def evict (s : State) : State := evictLoop Config.lineCount s

/-- R54: the write-back of a line started when it is DIRTY and its bank has room. -/
def flushLine (s : State) (i : Nat) : State := if canWriteBack s i then startWriteBack i s else s

/-- R54: whether a line is DIRTY or WRITING. -/
def unsettled (s : State) (i : Nat) : Bool := decide ((s.line i).state = .dirty) || decide ((s.line i).state = .writing)

/-- R54: while the flush-pending mark is set, DIRTY lines start their write-backs, least recently used first (R49), and
the mark is cleared when no line is DIRTY or WRITING. -/
def flushStep (s : State) : State :=
  if s.store.flushPending then
    let t := s.buffer.recency.foldl flushLine s
    if (List.range Config.lineCount).any (unsettled t) then t
    else { t with store := { t.store with flushPending := false } }
  else s

/-! ### Demands (R47, R48) -/

/-- The block of a waiting demand. -/
def Demand.block : Demand → Nat
  | .entry _ b => b
  | .directLoad b => b

/-- The waiter that a waiting demand becomes; a direct load becomes none. -/
def Demand.waiter : Demand → List Waiter
  | .entry id _ => [.entry id]
  | .directLoad _ => []

/-- R47 step 4, R53: a demand joins the wait list, and the eviction check is made. -/
def joinWaitList (d : Demand) (s : State) : State :=
  evict { s with buffer := { s.buffer with waitList := s.buffer.waitList ++ [d] } }

/-- R47: the demand of an in-flight entry for a block, by the first step that applies. -/
def demand (id b : Nat) (s : State) : State :=
  match lineHolding s b with
  | some i =>
    let l := s.line i
    s.setLine i { l with waiters := l.waiters ++ [.entry id] }
  | none =>
    if s.buffer.waitList.isEmpty && canProceed s b then
      match findLine s with
      | some i => joinAudit i b (touch i (claim i b [.entry id] s))
      | none => joinWaitList (.entry id b) s
    else joinWaitList (.entry id b) s

/-- R43: the answer fields of a written CARD LOAD pair: block, whether it replaced a present block, the sum of the eight
balances (3 octets, log 12), and the float after the write. -/
def loadAnswer (b : Nat) (replaced : Bool) (records : Block) (s : State) : List Octet :=
  octets 3 b ++ yesNo replaced ++ octets 3 (balances records) ++ octets 5 s.store.float.toNat

/-- R45: the event of a direct load's claim: the line takes the loaded records as DIRTY, the float rises, the command is
answered, the unit is IDLE, and the pending FIRST is gone (R43). -/
def giveDirect (i b : Nat) (tag : BitVec 16) (records : Block) (e : Event) : Event :=
  (e.upd fun s =>
    let t := touch i (s.setLine i { state := .dirty, block := some b, records := records, dirty := 0xFF })
    { moveFloat (balances records) t with unit := { progress := none, first := none } }).replying
    { code := 0x12, tag := tag, fields := loadAnswer b false records }

/-- R48: the line given to the oldest demand that can proceed, with the other demands for its block behind it. -/
def serveDemand (i : Nat) (d : Demand) (e : Event) : Event :=
  let b := d.block
  let ws := ((e.st.buffer.waitList.filter (fun x => x.block == b)).map Demand.waiter).flatten
  let e1 := e.upd fun s =>
    { s with buffer := { s.buffer with waitList := s.buffer.waitList.filter (fun x => x.block != b) } }
  match d with
  | .entry _ _ => e1.upd fun s => joinAudit i b (touch i (claim i b ws s))
  | .directLoad _ =>
    match e.st.unit.progress with
    | some { tag := tag, work := .directLoad _ records } => giveDirect i b tag records e1
    | _ => e1

/-- R48: the wait list served, `n` demands at most, while a claimable line remains and some demand can proceed. -/
def serveLoop : Nat → Event → Event
  | 0, e => e
  | n + 1, e =>
    match e.st.buffer.waitList.find? (fun d => canProceed e.st d.block), findLine e.st with
    | some d, some i => serveLoop n (serveDemand i d e)
    | _, _ => e

/-- R57: a waiting audit visit claims a claimable line when the wait list is empty and its demand can proceed. -/
def auditClaim (s : State) : State :=
  let a := s.store.audit
  if a.running && a.waiting && s.buffer.waitList.isEmpty && canProceed s a.cursor then
    match findLine s with
    | some i =>
      let t := rankLast i (claim i a.cursor [.audit] s)
      { t with store := { t.store with audit := { a with waiting := false } } }
    | none => s
  else s

/-- R48, R57: the wait list served, and then the waiting audit visit. -/
def serve (e : Event) : Event := (serveLoop e.st.buffer.waitList.length e).upd auditClaim

/-- R51, R53, R54: what follows the leaving of a waiter from line `i`: a VALID line with none is claimable and the list is
served; write-backs waiting under the flush mark start; a DIRTY line with none may be chosen for eviction. -/
def afterWaiter (i : Nat) (e : Event) : Event :=
  let l := e.st.line i
  let e1 := if decide (l.state = .valid) && l.waiters.isEmpty then serve e else e
  let e2 := e1.upd flushStep
  if decide (l.state = .dirty) && l.waiters.isEmpty then e2.upd evict else e2

/-- R49: what follows a bank's completion: the wait list is served first, and then waiting write-backs start. -/
def afterCompletion (e : Event) : Event := ((serve e).upd flushStep).upd evict

/-! ### The completions of the banks (R50, R52) -/

/-- The head operation of a bank taken off its queue. -/
def popQueue (k : Nat) (s : State) : State := s.setQueue k (s.queue k).tail

/-- R50: the fetch of a block completed into the line that is FETCHING it. -/
def fetched (b : Nat) (s : State) : State :=
  match (List.range Config.lineCount).find?
      (fun i => decide ((s.line i).state = .fetching) && (s.line i).block == some b) with
  | some i =>
    let l := s.line i
    s.setLine i { l with state := .valid, records := s.storeCopy b }
  | none => s

/-- R52: the carried records put over the same records of the store copy. -/
def merged (marks : BitVec 8) (carried old : Block) : Block :=
  (List.range 8).foldl (fun b i => if marks.getLsbD i then put unissued b i (recordOf carried i) else b) old

/-- R52: a write-back of a block completed: the store copy and the valid mark. -/
def storeWritten (b : Nat) (marks : BitVec 8) (carried : Block) (s : State) : State :=
  { s with store := { s.store with
      copies := put [] s.store.copies b (merged marks carried (s.storeCopy b))
      valid := addMark b s.store.valid } }

/-- R52: the line whose write-back has completed becomes DIRTY when it was changed meanwhile, and VALID otherwise. -/
def writtenLine (b : Nat) (s : State) : State :=
  match (List.range Config.lineCount).find?
      (fun i => decide ((s.line i).state = .writing) && (s.line i).block == some b) with
  | some i =>
    let l := s.line i
    s.setLine i { l with state := if l.changed then .dirty else .valid, changed := false }
  | none => s

/-- FETCH_COMPLETE: the head operation of the bank, when it is a fetch, completes. -/
def fetchComplete (k : Nat) (e : Event) : Event :=
  match e.st.queue k with
  | .fetch b :: _ => afterCompletion (e.upd fun s => fetched b (popQueue k s))
  | _ => e

/-- WRITE_BACK_COMPLETE: the head operation of the bank, when it is a write-back, completes. -/
def writeBackComplete (k : Nat) (e : Event) : Event :=
  match e.st.queue k with
  | .writeBack b marks carried :: _ =>
    afterCompletion (e.upd fun s => writtenLine b (storeWritten b marks carried (popQueue k s)))
  | _ => e

/-- R49, R54: whether the flush starts the write-back of line `i`: fewer DIRTY lines of its bank are less recently used
than the bank has places. -/
def flushChooses (s : State) (i : Nat) : Bool :=
  match (s.line i).block with
  | none => false
  | some b =>
    let older := (s.buffer.recency.takeWhile (· != i)).filter (fun j =>
      decide ((s.line j).state = .dirty) && decide ((s.line j).block.map bankOf = some (bankOf b)))
    s.store.flushPending && decide (older.length + (s.queue (bankOf b)).length < Config.bankPlaces)

/-- WRITE_BACK_START: the write-back of a DIRTY line whose bank has room, for the flush or as the eviction's choice. -/
def writeBackStart (i : Nat) (e : Event) : Event :=
  if canWriteBack e.st i
      && (flushChooses e.st i || (decide (writingIdle e.st < linesWanted e.st) && evictChoice e.st == some i))
  then e.upd (startWriteBack i) else e

/-! ### The audit walker (R56 to R59) -/

/-- R57: the first block from `k` up whose valid mark is set or that a line holds; 131,072 when there is none. The blocks
before it count as zero and are passed in the same event. -/
def nextPresent (s : State) (k : Nat) : Nat :=
  let held := (List.range Config.lineCount).filterMap (fun i => (s.line i).block)
  ((s.store.valid ++ held).filter (fun b => decide (k ≤ b))).foldl min Config.blockCount

/-- The walker's state changed. -/
def modifyAudit (f : Audit → Audit) (s : State) : State :=
  { s with store := { s.store with audit := f s.store.audit } }

/-- R59: the end of an audit: the sums compared, the result latched, AUDIT raised. -/
def endAudit (e : Event) : Event :=
  (e.upd fun s =>
    let total := BitVec.ofNat 40 (holdTotal s.holds)
    modifyAudit (fun a => { a with
      running := false
      waiting := false
      result := some {
        matched := a.balanceSum == s.store.float && a.heldSum == total
        balanceSum := a.balanceSum
        float := s.store.float
        heldSum := a.heldSum
        holdTotal := total } }) s).raising catAudit

/-- R57: the beginning of the visit of the block at the cursor, past the blocks that count as zero. With a demand in the
wait list, the visit waits though a line is claimable and it can proceed: step 2 of R47 keeps its place before step 3
(log 32, the model's choice). -/
def beginVisit (e : Event) : Event :=
  let k := nextPresent e.st e.st.store.audit.cursor
  let e1 := e.upd (modifyAudit fun a => { a with cursor := k })
  if Config.blockCount ≤ k then endAudit e1
  else match lineHolding e1.st k with
    | some i => e1.upd fun s =>
      let l := s.line i
      s.setLine i { l with waiters := l.waiters ++ [.audit] }
    | none =>
      if e1.st.buffer.waitList.isEmpty && canProceed e1.st k then
        match findLine e1.st with
        | some i => e1.upd fun s => rankLast i (claim i k [.audit] s)
        | none => e1.upd fun s => evict (modifyAudit (fun a => { a with waiting := true }) s)
      else e1.upd fun s => evict (modifyAudit (fun a => { a with waiting := true }) s)

/-- AUDIT_VISIT (R51, R57): the audit visit at the head of a ready line reads the block, and the next visit begins. In the
one event, what follows the leaving of the line (the wait list, write-backs) comes before the next visit (log 29, the
model's choice). -/
def auditVisit (i : Nat) (e : Event) : Event :=
  let l := e.st.line i
  match l.waiters with
  | .audit :: ws =>
    if l.state.ready then
      let e1 := e.upd fun s => modifyAudit (fun a => { a with
          balanceSum := a.balanceSum + BitVec.ofNat 40 (balances l.records)
          heldSum := a.heldSum + BitVec.ofNat 40 (helds l.records)
          cursor := a.cursor + 1 }) (s.setLine i { l with waiters := ws })
      beginVisit (afterWaiter i e1)
    else e
  | _ => e

end Sys2Proof.Machine
end

