-- ==== Sys2Proof/Machine/Sweep.lean ====
section
/-! DEFINITION. The expiry sweep (R92, R93). -/

namespace Sys2Proof.Machine

/-- R92: the sweep's candidate, the first OPEN entry in table order. -/
def candidate (h : Holds) : Option HoldEntry := h.entries.find? (fun e => decide (e.state = .opened))

/-- R92: the HOLD_EXPIRED transaction of a hold entry, with its reservation; serial number and generation are given when
it enters the set. -/
def expiryOf (h : HoldEntry) : InFlight where
  id := 0
  origin := .sweep
  kind := .holdExpired
  training := false
  program := none
  slot := h.slot
  block := h.slot / 8
  amount := 0
  partialFlag := false
  reference := some h.ref
  generation := 0
  reserved := true
  boundSet := none

/-- R92: whether an entry is due and the sweep, the in-flight set and Journal Out let it be selected. -/
def selectable (s : State) (h : HoldEntry) : Bool :=
  decide (h.expiry ≤ s.clock.toNat) && s.holds.expiring.isNone && !inFlightFull s
    && decide (committedLoad s < Config.journalOutPlaces)

/-- R92: the selection of an entry: EXPIRING, the expiry in flight, the transaction in the set and its demand made. -/
def selectHold (h : HoldEntry) (s : State) : State :=
  let t := markHold h.ref .expiring s
  demand s.nextId (h.slot / 8) (enterSet (expiryOf h) { t with holds := { t.holds with expiring := some h.ref } })

/-- R92: the sweep selects its candidate when all of its conditions hold together. -/
def sweepStep (s : State) : State :=
  match candidate s.holds with
  | some h => if selectable s h then selectHold h s else s
  | none => s

/-- SWEEP_SELECTION (R92). -/
def execSweepSelection (s : State) : Host.Outcome State Fault Refusal := .next (event (·.upd sweepStep) s)

end Sys2Proof.Machine
end

