-- ==== Sys2Proof/Machine/Office.lean ====
section
/-! DEFINITION. The management unit (chapter 10): the order of its tests, its answers, and the commands that the office
port itself owns but for the clock's (those are in Machine/Clock.lean). -/

namespace Sys2Proof.Machine

/-- R171: a command answered "accepted", with the fields its rule lists. -/
def accept (code : BitVec 8) (tag : BitVec 16) (fields : State → List Octet) (e : Event) : Event :=
  e.replying { code := code, tag := tag, fields := fields }

/-- R172: a command answered with a refusal code. -/
def refuse (code : BitVec 8) (tag : BitVec 16) (r : RefusalCode) (e : Event) : Event :=
  e.replying { code := code, tag := tag, refusal := some r }

/-- R42: no FIRST is pending. -/
def dropFirst (s : State) : State := { s with unit := { s.unit with first := none } }

/-- R181: a checked frame counted by the O-port receiver and passed to the management unit. -/
def countArrival (s : State) : State :=
  { s with oCount := { s.oCount with
      received := s.oCount.received + 1, management := s.oCount.management + 1 } }

/-- R171 steps 2 to 4, and then the command's own length, checks and effects (`body`). `completes` says that the command
is a CARD LOAD LAST for the pending block. -/
def unitGate (code : BitVec 8) (tag : BitVec 16) (completes : Bool) (body : Event → Event) (e : Event) : Event :=
  if e.st.unit.progress.isSome && code != 0x08 then refuse code tag .busy e
  else if (code == 0x11 || code == 0x12) && decide (e.st.store.phase = .ready) then refuse code tag .wrongState e
  else if e.st.unit.first.isSome && code != 0x08 && !completes then refuse code tag .sequence (e.upd dropFirst)
  else body e

/-- R171: the event of a management command: its frame, of the right length, is received, counted and dealt with. -/
def command (code : BitVec 8) (tag : BitVec 16) (body : Event → Event) (s : State) : State :=
  event (fun e => unitGate code tag false body (e.upd countArrival)) s

/-! ### Commands of the office port -/

/-- R174: the status summary alone. -/
def doStatusRead (tag : BitVec 16) (e : Event) : Event := accept 0x01 tag (fun _ => []) e

/-- R190: whether a category octet names only the six categories. -/
def categoriesFit (c : BitVec 8) : Bool := decide (c.toNat < 64)

/-- R177: the six masks replaced; latched categories that become unmasked are sent in a notice. -/
def doSetNoticeMask (tag : BitVec 16) (masks : BitVec 8) (e : Event) : Event :=
  if categoriesFit masks then
    let new : Categories := masks.truncate 6
    let unmasked := e.st.notices.masks &&& ~~~new &&& e.st.notices.latch
    accept 0x02 tag (fun _ => [])
      ((e.upd fun s => { s with notices := { s.notices with masks := new } }).demanding unmasked)
  else refuse 0x02 tag .badField e

/-- R177: the named categories removed from the latch. -/
def doNoticeAck (tag : BitVec 16) (cats : BitVec 8) (e : Event) : Event :=
  if categoriesFit cats then
    accept 0x03 tag (fun s => octets 1 s.notices.latch.toNat)
      (e.upd fun s => { s with notices := { s.notices with latch := s.notices.latch &&& ~~~(cats.truncate 6) } })
  else refuse 0x03 tag .badField e

/-- R180: the supervision configuration and the grace length, all four or none. -/
def doSetConfig (tag : BitVec 16) (trip t1 t2 : BitVec 8) (grace : BitVec 16) (e : Event) : Event :=
  if 1 ≤ trip.toNat ∧ 1 ≤ t1.toNat ∧ t1.toNat ≤ 15 ∧ 1 ≤ t2.toNat ∧ t2.toNat ≤ 60 ∧ grace.toNat ≤ 3600 then
    accept 0x05 tag
      (fun s => octets 1 s.supervision.trip ++ octets 1 s.supervision.t1 ++ octets 1 s.supervision.t2
        ++ octets 2 s.cycle.graceLength)
      (e.upd fun s => { s with
        supervision := { s.supervision with trip := trip.toNat, t1 := t1.toNat, t2 := t2.toNat }
        cycle := { s.cycle with graceLength := grace.toNat } })
  else refuse 0x05 tag .badField e

/-- R185: up to eight of the oldest copies. -/
def doJournalRead (tag : BitVec 16) (e : Event) : Event :=
  accept 0x06 tag (fun s => octets 2 s.journalOut.copies.length ++ octets 2 s.journalOut.reservations
    ++ queueOctets s ((s.journalOut.copies.take 8).map entryOctets)) e

/-- R186: the n oldest copies removed. -/
def takeCopies (n : Nat) (s : State) : State :=
  { s with journalOut := { s.journalOut with copies := s.journalOut.copies.drop n } }

/-- R186: the n oldest copies removed; in the same event the sweep may select a hold that waited for a place. -/
def doJournalTake (tag : BitVec 16) (n : BitVec 8) (e : Event) : Event :=
  if 1 ≤ n.toNat ∧ n.toNat ≤ 8 ∧ n.toNat ≤ e.st.journalOut.copies.length then
    let occupancy := e.st.journalOut.copies.length - n.toNat
    accept 0x07 tag (fun s => octets 1 n.toNat ++ octets 2 occupancy ++ octets 1 (levelCode s.journalOut.level))
      (e.upd fun s => sweepStep (takeCopies n.toNat s))
  else refuse 0x07 tag .badField e

/-- R170: one shop's alarm machine, window counts and counters reset, and ALARM removed from its causes. -/
def resetShop (r : Shop) : Shop :=
  { r with alarmCause := false, alarm := .normal, windowFaults := 0, badWindows := 0, goodWindows := 0
           admitted := 0, declines := 0, faults := 0 }

/-- R182: the changes of LINK RESET before its notice and answer. -/
def linkResetState (s : State) : State :=
  { s with
    sRx := {}
    oRx := {}
    sCount := {}
    oCount := {}
    supervision := { s.supervision with shops := remap {} (fun _ r => resetShop r) s.supervision.shops }
    unit := { s.unit with first := none }
    notices := { s.notices with latch := 0 } }

/-- R182: LINK RESET. -/
def doLinkReset (tag : BitVec 16) (e : Event) : Event :=
  let demanded := catReset &&& ~~~e.st.notices.masks
  accept 0x08 tag (fun _ => []) (((e.upd linkResetState).raising catReset).demanding demanded)

/-! ### Meanings -/

/-- STATUS_READ (R174). -/
def execStatusRead (tag : BitVec 16) (s : State) : Host.Outcome State Fault Refusal :=
  .next (command 0x01 tag (doStatusRead tag) s)

/-- SET_NOTICE_MASK (R177). -/
def execSetNoticeMask (tag : BitVec 16) (masks : BitVec 8) (s : State) : Host.Outcome State Fault Refusal :=
  .next (command 0x02 tag (doSetNoticeMask tag masks) s)

/-- NOTICE_ACK (R177). -/
def execNoticeAck (tag : BitVec 16) (cats : BitVec 8) (s : State) : Host.Outcome State Fault Refusal :=
  .next (command 0x03 tag (doNoticeAck tag cats) s)

/-- SET_CONFIG (R180). -/
def execSetConfig (tag : BitVec 16) (trip t1 t2 : BitVec 8) (grace : BitVec 16) (s : State) :
    Host.Outcome State Fault Refusal :=
  .next (command 0x05 tag (doSetConfig tag trip t1 t2 grace) s)

/-- JOURNAL_READ (R185). -/
def execJournalRead (tag : BitVec 16) (s : State) : Host.Outcome State Fault Refusal :=
  .next (command 0x06 tag (doJournalRead tag) s)

/-- JOURNAL_TAKE (R186). -/
def execJournalTake (tag : BitVec 16) (count : BitVec 8) (s : State) : Host.Outcome State Fault Refusal :=
  .next (command 0x07 tag (doJournalTake tag count) s)

/-- LINK_RESET (R182). -/
def execLinkReset (tag : BitVec 16) (s : State) : Host.Outcome State Fault Refusal :=
  .next (command 0x08 tag (doLinkReset tag) s)

end Sys2Proof.Machine
end

