-- ==== Sys2Proof/Machine/Cycle.lean ====
section
/-! DEFINITION. The cycle controller (chapter 7): cutover, grace, freeze, the frozen and the cleared closing set, and the
reading of a row. -/

namespace Sys2Proof.Machine

/-- R119: the set in the closing role while the closing-set state is not NONE. -/
def closingSet (c : Cycle) : SetId := c.current.other

/-- The cycle controller changed. -/
def modifyCycle (f : Cycle → Cycle) (s : State) : State := { s with cycle := f s.cycle }

/-- R129: a FREEZING closing set whose grace-void count is 0 becomes FROZEN, with the float as it stands written into its
mall row, and CYCLE is raised. -/
def freezeStep (e : Event) : Event :=
  if e.st.cycle.closing = .freezing ∧ e.st.cycle.graceVoids = 0 then
    (e.upd fun s => modifyCycle (fun c =>
      { c.modifySet (closingSet c) (fun a => { a with mall := { a.mall with floatAtFreeze := s.store.float } }) with
        closing := .frozen }) s).raising catCycle
  else e

/-- R127: the closing set leaves GRACE for FREEZING, and passes on to FROZEN when no grace void is counted. -/
def beginFreezing (e : Event) : Event :=
  freezeStep (e.upd (modifyCycle fun c => { c with closing := .freezing, graceEnd := none }))

/-- R127: GRACE ends when the clock is at or past the grace end time. -/
def graceStep (e : Event) : Event :=
  match e.st.cycle.closing, e.st.cycle.graceEnd with
  | .grace, some t => if t ≤ e.st.clock.toNat then beginFreezing e else e
  | _, _ => e

/-- R125 step 5: the live VOIDs in flight bound to a set. -/
def boundVoids (s : State) (i : SetId) : Nat :=
  (s.inFlight.filter (fun x => decide (x.kind = .void) && !x.training && x.boundSet == some i)).length

/-- R125 steps 1 to 5. -/
def cutoverState (s : State) : State :=
  { s with cycle := { s.cycle with
      current := s.cycle.current.other
      closing := .grace
      graceEnd := some (s.clock.toNat + s.cycle.graceLength)
      number := s.cycle.number + 1
      graceVoids := boundVoids s s.cycle.current } }

/-- R125: CUTOVER. -/
def doCutover (tag : BitVec 16) (e : Event) : Event :=
  if e.st.cycle.closing = .none then
    accept 0x38 tag
      (fun s => octets 4 s.cycle.number.toNat ++ octets 4 (closingCycle s.cycle).toNat
        ++ timeOctets s.cycle.graceEnd ++ octets 1 s.cycle.graceVoids)
      (graceStep (e.upd cutoverState))
  else refuse 0x38 tag .busy e

/-- R128: FREEZE. -/
def doFreeze (tag : BitVec 16) (e : Event) : Event :=
  if e.st.cycle.closing = .grace then
    accept 0x39 tag (fun s => octets 1 (closingCode s.cycle.closing) ++ octets 1 s.cycle.graceVoids) (beginFreezing e)
  else refuse 0x39 tag .wrongState e

/-- R132: the closing set cleared to zero and idle, the state NONE, CYCLE raised. -/
def clearClosing (e : Event) : Event :=
  (e.upd (modifyCycle fun c =>
    { c.modifySet (closingSet c) (fun _ => {}) with closing := .none, graceVoids := 0 })).raising catCycle

/-- R132: the closing set is cleared when its state is DRAINING and the payout queue is empty. -/
def clearStep (e : Event) : Event :=
  if e.st.cycle.closing = .draining ∧ e.st.payout.queue = [] then clearClosing e else e

/-- R135: the fields of a mall row. -/
def mallOctets (m : MallRow) : List Octet :=
  octets 6 m.adjustUp ++ octets 6 m.adjustDown ++ octets 5 m.floatAtFreeze.toNat ++ yesNo m.saturated

/-- R135: ROW READ. -/
def doRowRead (tag : BitVec 16) (set : BitVec 8) (row : BitVec 16) (e : Event) : Event :=
  if 1 < set.toNat ∨ (Config.shopCount ≤ row.toNat ∧ row ≠ 0xFFFF#16) then refuse 0x3A tag .badField e
  else if set = 1#8 ∧ e.st.cycle.closing = .none then refuse 0x3A tag .wrongState e
  else
    accept 0x3A tag (fun s =>
      let c := s.cycle
      let i := if set = 0#8 then c.current else closingSet c
      let carried := if set = 0#8 then c.number else closingCycle c
      (if row = 0xFFFF#16 then mallOctets (c.set i).mall
        else rowOctets ((c.set i).row row.toNat) ++ yesNo ((c.set i).row row.toNat).saturated)
        ++ octets 1 (setCode i) ++ octets 4 carried.toNat ++ octets 4 c.number.toNat
        ++ octets 1 (closingCode c.closing) ++ timeOctets c.graceEnd ++ octets 1 c.graceVoids) e

/-! ### Meanings -/

/-- GRACE_END (R127). -/
def execGraceEnd (s : State) : Host.Outcome State Fault Refusal := .next (event graceStep s)

/-- CLOSING_SET_FROZEN (R129). -/
def execClosingSetFrozen (s : State) : Host.Outcome State Fault Refusal := .next (event freezeStep s)

/-- CLOSING_SET_CLEAR (R132). -/
def execClosingSetClear (s : State) : Host.Outcome State Fault Refusal := .next (event clearStep s)

/-- CUTOVER (R125). -/
def execCutover (tag : BitVec 16) (s : State) : Host.Outcome State Fault Refusal :=
  .next (command 0x38 tag (doCutover tag) s)

/-- FREEZE (R128). -/
def execFreeze (tag : BitVec 16) (s : State) : Host.Outcome State Fault Refusal :=
  .next (command 0x39 tag (doFreeze tag) s)

/-- ROW_READ (R135). -/
def execRowRead (tag : BitVec 16) (set : BitVec 8) (row : BitVec 16) (s : State) : Host.Outcome State Fault Refusal :=
  .next (command 0x3A tag (doRowRead tag set row) s)

end Sys2Proof.Machine
end

