-- ==== Sys2Proof/Machine/Posting.lean ====
section
/-! DEFINITION. What every posting shares (R51, R60 to R66, R75): the head waiter of a ready line, the finding of an
expired card, the line after the posting, the leaving of the in-flight set, the answer, and the effects of an approval and
of a decline. -/

namespace Sys2Proof.Machine

/-! ### The head waiter (R51) -/

/-- R51: the in-flight entry at the head of a ready line, when it is of the kind given. -/
def headEntry (s : State) (i : Nat) (k : Kind) : Option InFlight :=
  let l := s.line i
  if l.state.ready then
    match l.waiters with
    | .entry id :: _ =>
      match s.entryOf id with
      | some x => if x.kind = k then some x else none
      | none => none
    | _ => none
  else none

/-- R82: the record of a transaction's slot in a line. -/
def recordFor (s : State) (i : Nat) (x : InFlight) : CardRecord := recordOf (s.line i).records (x.slot % 8)

/-- The program of a transaction in its bound bank (R30). -/
def programFor (s : State) (x : InFlight) : Program := (s.boundTables x.generation).program (x.program.getD 0)

/-- The shop, lane and trace of a transaction; internal work has none, and reads as zeros. -/
def partyOf (x : InFlight) : Party :=
  match x.origin with
  | .request p _ => p
  | _ => { shop := 0, lane := 0, trace := 0 }

/-- The requesting shop's terms in a transaction's bound bank (R30). -/
def termsFor (s : State) (x : InFlight) : ShopTerms := (s.boundTables x.generation).shopTerms (partyOf x).shop

/-! ### Decisions -/

/-- R60: what a posting decides: declined for a reason, approved for an amount, or approved in part. -/
inductive Decision where
  | declined (r : Reason)
  | approved (amount : Nat)
  | inPart (amount : Nat)
  deriving DecidableEq, Repr

/-- R66: the card is ACTIVE and today is past its expiry day. -/
def foundExpired (s : State) (r : CardRecord) : Bool :=
  decide (r.state = .active) && match r.expiryDay with
    | some d => decide (d < today s)
    | none => false

/-- R37: the posting sequence raised by one and the last activity day set to today. -/
def stamped (s : State) (r : CardRecord) : CardRecord := { r with sequence := r.sequence + 1, lastActivity := today s }

/-- R66: the record after the expiry finding. -/
def expiryWrite (s : State) (r : CardRecord) : CardRecord :=
  if foundExpired s r then stamped s { r with state := .expired } else r

/-- R66: the finding is made before a kind's own checks. -/
def afterExpiry (s : State) (r : CardRecord) (d : Decision) : Decision :=
  if foundExpired s r then .declined .expired else d

/-- R36: the available value. -/
def available (r : CardRecord) : Nat := r.balance - r.held

/-- R70: the decline of a card that is not ACTIVE. -/
def stateDecline : CardState → Option Reason
  | .active => none
  | .unissued => some .notActive
  | .blocked => some .blocked
  | .expired => some .expired

/-- R24: an amount above a present limit. -/
def aboveLimit (limit : Option Nat) (a : Nat) : Bool :=
  match limit with
  | some m => decide (m < a)
  | none => false

/-! ### The line and the leaving (R16, R51) -/

/-- The marks of record `k` alone. -/
def markOf (k : Nat) : BitVec 8 := 1#8 <<< k

/-- R51: a line after the posting of its head waiter, with its records after the posting and the marks of those that the
posting changed. -/
def lineAfter (records : Block) (marks : BitVec 8) (l : Line) : Line :=
  { l with
    records := records
    dirty := l.dirty ||| marks
    waiters := l.waiters.tail
    state := if marks ≠ 0 ∧ l.state = .valid then .dirty else l.state
    changed := l.changed || (decide (marks ≠ 0) && decide (l.state = .writing)) }

/-- R51: the posting's mark on its line, which is ranked most recently used. -/
def postLine (i : Nat) (records : Block) (marks : BitVec 8) (s : State) : State :=
  touch i (s.setLine i (lineAfter records marks (s.line i)))

/-- R51: a posting that leaves record `k` of its line as `new`. -/
def postRecord (i k : Nat) (new : CardRecord) (s : State) : State :=
  let b := (s.line i).records
  postLine i (put unissued b k new) (if new = recordOf b k then 0 else markOf k) s

/-- R18: the answer to a posted transaction, with the card's record as the posting leaves it. -/
def postedAnswer (x : InFlight) (ruling : Ruling) (reason : Option Reason) (amount : Nat) (reference : Ref)
    (r : CardRecord) : GiftAnswer :=
  let p := partyOf x
  { shop := BitVec.ofNat 16 p.shop, lane := BitVec.ofNat 8 p.lane, trace := BitVec.ofNat 24 p.trace
    kind := BitVec.ofNat 8 (kindCode x.kind)
    cardNumber := match x.origin with
      | .request _ c => c
      | _ => 0
    outcome := ruling, reason := reason, training := x.training, amount := amount, reference := reference
    card := some (r.state, r.balance, available r) }

/-- R16, R51: the end of a posting whose record changes are made: the entry leaves the set, the wait list and the
write-backs follow the line, and the sweep looks at its candidate (R92). That the wait list and the write-backs come before
the sweep's demand in the one event is the model's choice (log 30). -/
def departed (i : Nat) (x : InFlight) (e : Event) : Event := (afterWaiter i (leaveSet x e)).upd sweepStep

/-- R51, R12, R16, R18: the end of an S-port transaction's posting that leaves its record as `new` and assigned `ref`. -/
def finishPosting (i : Nat) (x : InFlight) (new : CardRecord) (ref : Option Ref) (answer : GiftAnswer) (e : Event) :
    Event :=
  departed i x ((e.upd fun s => leaveLane x ref (postRecord i (x.slot % 8) new s)).answering answer)

/-! ### Approvals, declines and training -/

/-- R61: the effects of a live approved transaction that writes an entry: `post` makes the changes of its kind outside the
record (accumulators, hold table, related entries); the record goes from `old` to `new`; the float and the audit sums
follow the record. -/
def approve (i : Nat) (x : InFlight) (old new : CardRecord) (ruling : Ruling) (amount : Nat) (related : Option Ref)
    (cycle : BitVec 32) (post : State → State) (e : Event) : Event :=
  let ref := e.st.journal.next
  let dBalance : Int := new.balance - old.balance
  let dHeld : Int := new.held - old.held
  finishPosting i x new (some ref) (postedAnswer x ruling none amount ref new)
    (e.upd fun s =>
      writeEntry (transactionEntry s x amount new.sequence related cycle)
        (moveAudit x.block dBalance dHeld (moveFloat dBalance (post s))))

/-- R62: the effects of a declined transaction; `new` is its record, changed at most by the expiry finding. -/
def decline (i : Nat) (x : InFlight) (new : CardRecord) (reason : Reason) (e : Event) : Event :=
  finishPosting i x new none (postedAnswer x .declined (some reason) 0 0 new)
    (e.upd (countDecline (partyOf x).shop))

/-- R75: a training transaction is answered as decided and changes nothing else but what its leaving changes. -/
def train (i : Nat) (x : InFlight) (r : CardRecord) (d : Decision) (e : Event) : Event :=
  match d with
  | .declined reason => decline i x r reason e
  | .approved a => finishPosting i x r none (postedAnswer x .approved none a 0 r) e
  | .inPart a => finishPosting i x r none (postedAnswer x .inPart none a 0 r) e

/-- R60, R66, R75: the posting of a transaction whose kind the expiry finding precedes: `decide` is the kind's own
checks, `live` the effects of its approval. -/
def postDecided (i : Nat) (x : InFlight) (r : CardRecord) (d : Decision) (live : Ruling → Nat → Event → Event)
    (e : Event) : Event :=
  let found := afterExpiry e.st r d
  if x.training then train i x r found e
  else match found with
    | .declined reason => decline i x (expiryWrite e.st r) reason e
    | .approved a => live .approved a e
    | .inPart a => live .inPart a e

end Sys2Proof.Machine
end

