-- ==== Sys2Proof/Machine/Authorization.lean ====
section
/-! DEFINITION. The postings of ACTIVATE, RELOAD, REDEEM and BALANCE (chapter 4). -/

namespace Sys2Proof.Machine

/-- R68: the checks of ACTIVATE. -/
def decideActivate (p : Program) (t : ShopTerms) (r : CardRecord) (a : Nat) : Decision :=
  if r.state ≠ .unissued then .declined .alreadyActive
  else if a < p.minLoad then .declined .underMin
  else if p.maxLoad < a ∨ aboveLimit t.limit a = true then .declined .overLimit
  else if p.maxBalance < a then .declined .overMax
  else .approved a

/-- R69, R71: the expiry day a program gives from today; absent when its expiry days is 0. -/
def expiryFrom (s : State) (p : Program) : Option Nat := if p.expiryDays = 0 then none else some (today s + p.expiryDays)

/-- R69: the record of an approved ACTIVATE. -/
def activated (s : State) (p : Program) (shop a : Nat) (r : CardRecord) : CardRecord :=
  stamped s { r with
    state := .active, balance := a, issueShop := some shop, activationDay := some (today s)
    expiryDay := expiryFrom s p }

/-- R68, R69: the posting of an ACTIVATE. -/
def postActivate (i : Nat) (x : InFlight) (e : Event) : Event :=
  let s := e.st
  let r := recordFor s i x
  let p := programFor s x
  let n := (partyOf x).shop
  postDecided i x r (decideActivate p (termsFor s x) r x.amount)
    (fun ruling a => approve i x r (activated s p n a r) ruling a none s.cycle.number (postAmount .sold n a)) e

/-- R70: the checks of RELOAD. -/
def decideReload (p : Program) (t : ShopTerms) (r : CardRecord) (a : Nat) : Decision :=
  if ¬ p.reloadable then .declined .notPermitted
  else match stateDecline r.state with
    | some reason => .declined reason
    | none =>
      if a < p.minLoad then .declined .underMin
      else if p.maxLoad < a ∨ aboveLimit t.limit a = true then .declined .overLimit
      else if p.maxBalance < r.balance + a then .declined .overMax
      else .approved a

/-- R71: the record of an approved RELOAD. -/
def reloaded (s : State) (p : Program) (a : Nat) (r : CardRecord) : CardRecord :=
  stamped s { r with
    balance := r.balance + a
    expiryDay := if p.reloadExtends then expiryFrom s p else r.expiryDay }

/-- R70, R71: the posting of a RELOAD. -/
def postReload (i : Nat) (x : InFlight) (e : Event) : Event :=
  let s := e.st
  let r := recordFor s i x
  let p := programFor s x
  let n := (partyOf x).shop
  postDecided i x r (decideReload p (termsFor s x) r x.amount)
    (fun ruling a => approve i x r (reloaded s p a r) ruling a none s.cycle.number (postAmount .sold n a)) e

/-- R72, R73: the checks of REDEEM and its approval in part. -/
def decideRedeem (p : Program) (t : ShopTerms) (partialFlag : Bool) (r : CardRecord) (a : Nat) : Decision :=
  match stateDecline r.state with
  | some reason => .declined reason
  | none =>
    if aboveLimit t.limit a then .declined .overLimit
    else if a ≤ available r then .approved a
    else if partialFlag && p.partialAllowed && decide (0 < available r) then .inPart (available r)
    else .declined .insufficient

/-- R61: the record with an amount redeemed. -/
def redeemed (s : State) (a : Nat) (r : CardRecord) : CardRecord := stamped s { r with balance := r.balance - a }

/-- R72, R73: the posting of a REDEEM. -/
def postRedeem (i : Nat) (x : InFlight) (e : Event) : Event :=
  let s := e.st
  let r := recordFor s i x
  let n := (partyOf x).shop
  postDecided i x r (decideRedeem (programFor s x) (termsFor s x) x.partialFlag r x.amount)
    (fun ruling a => approve i x r (redeemed s a r) ruling a none s.cycle.number (postAmount .redeemed n a)) e

/-- R74: the posting of a BALANCE: the expiry finding is written, and only an UNISSUED card is declined. -/
def postBalance (i : Nat) (x : InFlight) (e : Event) : Event :=
  let r := recordFor e.st i x
  let new := if x.training then r else expiryWrite e.st r
  if r.state = .unissued then decline i x new .notActive e
  else finishPosting i x new none (postedAnswer x .approved none 0 0 new) e

/-- The posting of the head waiter of line `i`, when it is ready and its head is of kind `k`; otherwise nothing (log 2). -/
def posting (k : Kind) (post : Nat → InFlight → Event → Event) (line : BitVec 5) (s : State) : State :=
  match headEntry s line.toNat k with
  | some x => event (post line.toNat x) s
  | none => s

/-! ### Meanings -/

/-- ACTIVATE_POSTING (R68). -/
def execActivatePosting (line : BitVec 5) (s : State) : Host.Outcome State Fault Refusal :=
  .next (posting .activate postActivate line s)

/-- RELOAD_POSTING (R70). -/
def execReloadPosting (line : BitVec 5) (s : State) : Host.Outcome State Fault Refusal :=
  .next (posting .reload postReload line s)

/-- REDEEM_POSTING (R72). -/
def execRedeemPosting (line : BitVec 5) (s : State) : Host.Outcome State Fault Refusal :=
  .next (posting .redeem postRedeem line s)

/-- BALANCE_POSTING (R74). -/
def execBalancePosting (line : BitVec 5) (s : State) : Host.Outcome State Fault Refusal :=
  .next (posting .balance postBalance line s)

end Sys2Proof.Machine
end

