-- ==== Sys2Proof/Machine/Holds.lean ====
section
/-! DEFINITION. The postings of HOLD, COMPLETE, RELEASE and HOLD_EXPIRED, and HOLD READ (chapter 5). The claim at admission
(R87) is in Machine/Admission.lean. -/

namespace Sys2Proof.Machine

/-! ### HOLD (R85, R86) -/

/-- R85: the checks of HOLD; `places` is the number of entries in the hold table. -/
def decideHold (t : ShopTerms) (places : Nat) (r : CardRecord) (a : Nat) : Decision :=
  match stateDecline r.state with
  | some reason => .declined reason
  | none =>
    if aboveLimit t.limit a then .declined .overLimit
    else if available r < a then .declined .insufficient
    else if r.holdCount < Config.holdsPerCard ∧ places < Config.holdPlaces then .approved a
    else .declined .noHoldSpace

/-- R86: the hold entry that an approved HOLD creates. -/
def newHold (s : State) (x : InFlight) (p : Program) (a : Nat) : HoldEntry where
  ref := s.journal.next
  slot := x.slot
  shop := (partyOf x).shop
  lane := (partyOf x).lane
  amount := a
  ceiling := a + a * p.tolerance / 100
  expiry := s.clock.toNat + p.lifetime
  state := .opened

/-- R83: an entry added to the hold table in its place. -/
def addHold (h : HoldEntry) (s : State) : State :=
  { s with holds := { s.holds with entries := insertHold h s.holds.entries } }

/-- R86: the record of an approved HOLD. -/
def withHold (s : State) (a : Nat) (r : CardRecord) : CardRecord :=
  stamped s { r with held := r.held + a, holdCount := r.holdCount + 1 }

/-- R85, R86, R96: the posting of a HOLD. -/
def postHold (i : Nat) (x : InFlight) (e : Event) : Event :=
  let s := e.st
  let r := recordFor s i x
  let p := programFor s x
  postDecided i x r (decideHold (termsFor s x) s.holds.entries.length r x.amount)
    (fun ruling a => approve i x r (withHold s a r) ruling a none s.cycle.number (addHold (newHold s x p a))) e

/-! ### COMPLETE and RELEASE (R88 to R91, R96) -/

/-- The hold entry that a transaction names. -/
def holdNamed (s : State) (x : InFlight) : Option HoldEntry := x.reference.bind s.holds.find

/-- R88: the available value once the hold is released. -/
def afterRelease (h : HoldEntry) (r : CardRecord) : Nat := r.balance - (r.held - h.amount)

/-- R88: the decision of a COMPLETE with final amount `f`. -/
def decideComplete (f : Nat) (h : HoldEntry) (r : CardRecord) : Decision :=
  if f ≤ afterRelease h r then .approved f else .inPart (afterRelease h r)

/-- R89, R91, R94: the record with a hold taken off it and `p` paid out of its balance. -/
def withoutHold (s : State) (h : HoldEntry) (p : Nat) (r : CardRecord) : CardRecord :=
  stamped s { r with held := r.held - h.amount, holdCount := r.holdCount - 1, balance := r.balance - p }

/-- R88, R89: the posting of a live COMPLETE that claimed `h`. -/
def completeHold (i : Nat) (x : InFlight) (h : HoldEntry) (e : Event) : Event :=
  let s := e.st
  let r := recordFor s i x
  let p := min x.amount (afterRelease h r)
  approve i x r (withoutHold s h p r) (if p = x.amount then .approved else .inPart) p (some h.ref) s.cycle.number
    (fun t => postAmount .redeemed (partyOf x).shop p (removeHold h.ref t)) e

/-- R90, R91: the posting of a live RELEASE that claimed `h`. -/
def releaseHold (i : Nat) (x : InFlight) (h : HoldEntry) (e : Event) : Event :=
  let s := e.st
  let r := recordFor s i x
  approve i x r (withoutHold s h 0 r) .approved h.amount (some h.ref) s.cycle.number (removeHold h.ref) e

/-- R96: a training COMPLETE or RELEASE asks the hold table again; `decided` is its decision against an OPEN entry of its
slot. -/
def trainingHold (s : State) (x : InFlight) (decided : HoldEntry → Decision) : Decision :=
  match holdNamed s x with
  | some h => if h.state = .opened ∧ h.slot = x.slot then decided h else .declined .holdGone
  | none => .declined .holdGone

/-- The posting of a COMPLETE or RELEASE at the head of a line: training as R96 gives, live on the entry it claimed. -/
def claimPosting (k : Kind) (decided : CardRecord → InFlight → HoldEntry → Decision)
    (live : Nat → InFlight → HoldEntry → Event → Event) (line : BitVec 5) (s : State) :
    Host.Outcome State Fault Refusal :=
  let i := line.toNat
  match headEntry s i k with
  | none => .next s
  | some x =>
    let r := recordFor s i x
    if x.training then .next (event (train i x r (trainingHold s x (decided r x))) s)
    else match holdNamed s x with
      | some h => .next (event (live i x h) s)
      | none => .fault .claimedHoldMissing

/-! ### HOLD_EXPIRED (R94) -/

/-- R94: the sweep's expiry is no longer in flight. -/
def clearExpiring (s : State) : State := { s with holds := { s.holds with expiring := none } }

/-- R94: the posting of the HOLD_EXPIRED of entry `h`. -/
def expireHold (i : Nat) (x : InFlight) (h : HoldEntry) (e : Event) : Event :=
  let r := recordFor e.st i x
  let new := withoutHold e.st h 0 r
  departed i x (e.upd fun s =>
    postRecord i (x.slot % 8) new
      (writeEntry (transactionEntry s x h.amount new.sequence (some h.ref) s.cycle.number)
        (moveAudit x.block 0 ((new.held : Int) - r.held) (clearExpiring (removeHold h.ref s)))))

/-! ### HOLD READ (R98) -/

/-- R98: HOLD READ. -/
def doHoldRead (tag : BitVec 16) (ref : BitVec 32) (e : Event) : Event :=
  accept 0x30 tag (fun s =>
    (match (if ref = 0 then none else s.holds.find ref) with
      | some h => yesNo true ++ holdOctets h
      | none => yesNo false)
      ++ octets 2 s.holds.entries.length ++ yesNo s.holds.expiring.isSome ++ octets 4 (s.holds.expiring.getD 0).toNat
      ++ timeOctets ((candidate s.holds).map (·.expiry))) e

/-! ### Meanings -/

/-- HOLD_POSTING (R85). -/
def execHoldPosting (line : BitVec 5) (s : State) : Host.Outcome State Fault Refusal :=
  .next (posting .hold postHold line s)

/-- COMPLETE_POSTING (R88). -/
def execCompletePosting (line : BitVec 5) (s : State) : Host.Outcome State Fault Refusal :=
  claimPosting .complete (fun r x h => decideComplete x.amount h r) completeHold line s

/-- RELEASE_POSTING (R91). -/
def execReleasePosting (line : BitVec 5) (s : State) : Host.Outcome State Fault Refusal :=
  claimPosting .release (fun _ _ h => .approved h.amount) releaseHold line s

/-- HOLD_EXPIRED_POSTING (R94). -/
def execHoldExpiredPosting (line : BitVec 5) (s : State) : Host.Outcome State Fault Refusal :=
  match headEntry s line.toNat .holdExpired with
  | none => .next s
  | some x =>
    match holdNamed s x with
    | some h => .next (event (expireHold line.toNat x h) s)
    | none => .fault .claimedHoldMissing

/-- HOLD_READ (R98). -/
def execHoldRead (tag : BitVec 16) (ref : BitVec 32) (s : State) : Host.Outcome State Fault Refusal :=
  .next (command 0x30 tag (doHoldRead tag ref) s)

end Sys2Proof.Machine
end

