-- ==== Sys2Proof/Machine/Refunds.lean ====
section
/-! DEFINITION. The postings of REFUND and VOID, and ENTRY READ (chapter 6). The binding of a VOID at admission (R109, R110)
is in Machine/Admission.lean. -/

namespace Sys2Proof.Machine

/-! ### REFUND (R105 to R107) -/

/-- R105 step 1, R115: an entry that a refund may stand against. -/
def refundable (e : Entry) (slot : Nat) : Bool :=
  (decide (e.kind = .redeem) || decide (e.kind = .complete)) && decide (e.slot = slot)

/-- R105 steps 6 and 7, R107 steps 4 and 5: the card's state and the card limit. -/
def decideCredit (r : CardRecord) (a : Nat) : Decision :=
  match stateDecline r.state with
  | some reason => .declined reason
  | none => if Config.maxAmount < r.balance + a then .declined .overMax else .approved a

/-- R105: the checks of a REFUND against an original. -/
def decideAgainst (p : Program) (t : ShopTerms) (shop slot : Nat) (original : Option Entry) (r : CardRecord) (a : Nat) :
    Decision :=
  match original with
  | none => .declined .noMatch
  | some o =>
    if ¬ refundable o slot then .declined .noMatch
    else if o.voided then .declined .alreadyVoided
    else if ¬ p.refundable then .declined .notPermitted
    else if o.party.map (·.shop) ≠ some shop ∧ ¬ t.crossRefund then .declined .crossShop
    else if o.amount - o.refunded.getD 0 < a then .declined .overOriginal
    else decideCredit r a

/-- R107: the checks of an open refund. -/
def decideOpen (p : Program) (t : ShopTerms) (r : CardRecord) (a : Nat) : Decision :=
  if ¬ t.openRefund then .declined .notPermitted
  else match p.openCap with
    | none => .declined .notPermitted
    | some cap => if cap < a then .declined .overLimit else decideCredit r a

/-- R105, R107: the checks of REFUND. -/
def decideRefund (s : State) (x : InFlight) (r : CardRecord) : Decision :=
  match x.reference with
  | some o => decideAgainst (programFor s x) (termsFor s x) (partyOf x).shop x.slot (s.entryAt o) r x.amount
  | none => decideOpen (programFor s x) (termsFor s x) r x.amount

/-- R106, R115: an entry's refunded-so-far changed. -/
def changeRefunded (f : Nat → Nat) (e : Entry) : Entry := { e with refunded := e.refunded.map f }

/-- R106: the original's refunded-so-far raised. -/
def raiseRefunded (o : Option Ref) (a : Nat) (s : State) : State :=
  match o with
  | some r => modifyEntry r (changeRefunded (· + a)) s
  | none => s

/-- R106: the record of an approved REFUND. -/
def credited (s : State) (a : Nat) (r : CardRecord) : CardRecord := stamped s { r with balance := r.balance + a }

/-- R105, R106, R107: the posting of a REFUND. -/
def postRefund (i : Nat) (x : InFlight) (e : Event) : Event :=
  let s := e.st
  let r := recordFor s i x
  postDecided i x r (decideRefund s x r)
    (fun ruling a => approve i x r (credited s a r) ruling a x.reference s.cycle.number
      (fun t => postAmount .refunded (partyOf x).shop a (raiseRefunded x.reference a t))) e

/-! ### VOID (R111 to R116) -/

/-- R112 to R114: the checks of a VOID by the kind of the entry it names. -/
def decideByKind (o : Entry) (r : CardRecord) : Decision :=
  match o.kind with
  | .activate => if r.sequence = o.sequence then .approved o.amount else .declined .laterActivity
  | .reload | .refund => if r.held + o.amount ≤ r.balance then .approved o.amount else .declined .insufficient
  | .redeem | .complete =>
    if o.refunded.getD 0 ≠ 0 then .declined .laterActivity
    else if Config.maxAmount < r.balance + o.amount then .declined .overMax
    else .approved o.amount
  | _ => .declined .noMatch

/-- R111: the checks of a VOID at its posting. -/
def decideVoid (slot : Nat) (named : Option Entry) (r : CardRecord) : Decision :=
  match named with
  | none => .declined .noMatch
  | some o =>
    if o.slot ≠ slot then .declined .noMatch
    else if o.voided then .declined .alreadyVoided
    else decideByKind o r

/-- R112 to R114: the record of an approved VOID. -/
def voidedRecord (s : State) (o : Entry) (r : CardRecord) : CardRecord :=
  match o.kind with
  | .activate => { state := .unissued, sequence := r.sequence + 1, lastActivity := today s }
  | .redeem | .complete => stamped s { r with balance := r.balance + o.amount }
  | _ => stamped s { r with balance := r.balance - o.amount }

/-- R116: the accumulator that a VOID of a kind reverses. -/
def accountOf : Kind → Account
  | .redeem | .complete => .redeemed
  | .refund => .refunded
  | _ => .sold

/-- R115: the original of a voided REFUND has its refunded-so-far reduced when it is still found, on the REFUND's slot and
of kind REDEEM or COMPLETE. -/
def reduceOriginal (o : Entry) (s : State) : State :=
  match o.kind, o.related with
  | .refund, some r =>
    match s.entryAt r with
    | some original => if refundable original o.slot then modifyEntry r (changeRefunded (· - o.amount)) s else s
    | none => s
  | _, _ => s

/-- R116: the bound set's row of the voiding shop with the entry taken out. -/
def reverseEntry (x : InFlight) (o : Entry) (s : State) : State :=
  match x.boundSet with
  | some i => reverseAmount i (accountOf o.kind) (partyOf x).shop o.amount s
  | none => s

/-- R115, R116: what an approved VOID of entry `o` changes outside its card. -/
def voidEffects (x : InFlight) (o : Entry) (s : State) : State :=
  reverseEntry x o (reduceOriginal o (modifyEntry o.ref (fun e => { e with voided := true }) s))

/-- R110: whether a VOID in flight is counted as a grace void. -/
def isGraceVoid (s : State) (x : InFlight) : Bool :=
  !x.training && decide (s.cycle.closing ≠ .none) && x.boundSet == some (closingSet s.cycle)

/-- R16, R110: the grace-void count at the posting of a VOID, approved or declined. -/
def leaveGrace (x : InFlight) (s : State) : State :=
  if isGraceVoid s x then modifyCycle (fun c => { c with graceVoids := c.graceVoids - 1 }) s else s

/-- R111 to R116: the posting of a VOID. When it was the last grace void of a FREEZING set, the set becomes FROZEN in the
same event, after every change of the posting (R129). -/
def postVoid (i : Nat) (x : InFlight) (e : Event) : Event :=
  let s := e.st
  let r := recordFor s i x
  let named := x.reference.bind s.entryAt
  freezeStep (postDecided i x r (decideVoid x.slot named r)
    (fun ruling a f => match named with
      | some o => approve i x r (voidedRecord s o r) ruling a (some o.ref) o.cycle (voidEffects x o) f
      | none => f)
    (e.upd (leaveGrace x)))

/-! ### ENTRY READ (R103) -/

/-- R103: ENTRY READ. -/
def doEntryRead (tag : BitVec 16) (ref : BitVec 32) (e : Event) : Event :=
  accept 0x31 tag (fun s =>
    (match s.entryAt ref with
      | some n => yesNo true ++ entryOctets n
      | none => yesNo false)
      ++ octets 4 s.journal.next.toNat ++ octets 2 s.journal.ring.length) e

/-! ### Meanings -/

/-- REFUND_POSTING (R105). -/
def execRefundPosting (line : BitVec 5) (s : State) : Host.Outcome State Fault Refusal :=
  .next (posting .refund postRefund line s)

/-- VOID_POSTING (R111). -/
def execVoidPosting (line : BitVec 5) (s : State) : Host.Outcome State Fault Refusal :=
  .next (posting .void postVoid line s)

/-- ENTRY_READ (R103). -/
def execEntryRead (tag : BitVec 16) (ref : BitVec 32) (s : State) : Host.Outcome State Fault Refusal :=
  .next (command 0x31 tag (doEntryRead tag ref) s)

end Sys2Proof.Machine
end

