-- ==== Sys2Proof/Machine/Supervision.lean ====
section
/-! DEFINITION. Shop supervision (chapter 9): window ends and the alarm machine, modes and suspension, counters, the
scan of shops. -/

namespace Sys2Proof.Machine

/-! ### Window ends (R161 to R165) -/

/-- R161: the window number of a clock value. -/
def windowOf (clock : BitVec 32) : Nat := clock.toNat / 60

/-- R163, R164: a shop enters ALARM. -/
def enterAlarm (autoSuspend : Bool) (r : Shop) : Shop :=
  { r with alarm := .alarm, badWindows := 0, goodWindows := 0, alarmCause := r.alarmCause || autoSuspend }

/-- R163, R164: a shop leaves ALARM. -/
def leaveAlarm (r : Shop) : Shop := { r with alarm := .normal, badWindows := 0, goodWindows := 0, alarmCause := false }

/-- R163: the alarm machine of a shop moves on a bad window. -/
def badWindow (t1 : Nat) (autoSuspend : Bool) (r : Shop) : Shop :=
  match r.alarm with
  | .normal => if t1 ≤ 1 then enterAlarm autoSuspend r else { r with alarm := .watch, badWindows := 1 }
  | .watch =>
    if t1 ≤ r.badWindows + 1 then enterAlarm autoSuspend r else { r with badWindows := r.badWindows + 1 }
  | .alarm => { r with goodWindows := 0 }

/-- R163: the alarm machine of a shop moves on a good window. -/
def goodWindow (t2 : Nat) (r : Shop) : Shop :=
  match r.alarm with
  | .normal => r
  | .watch => { r with alarm := .normal, badWindows := 0 }
  | .alarm => if t2 ≤ r.goodWindows + 1 then leaveAlarm r else { r with goodWindows := r.goodWindows + 1 }

/-- R162: a shop in a window end: a CLOSED shop's window fault count is cleared, any other shop's window is weighed, its
alarm machine moved and its count cleared. -/
def weighShop (v : Supervision) (autoSuspend : Bool) (r : Shop) : Shop :=
  match r.mode with
  | .closed => { r with windowFaults := 0 }
  | _ =>
    let moved := if v.trip ≤ r.windowFaults then badWindow v.t1 autoSuspend r else goodWindow v.t2 r
    { moved with windowFaults := 0 }

/-- R161, R162, R165: a window end: the kept window number, every shop weighed, and SUPERVISION raised when a shop's
alarm state changes. -/
def endWindow (e : Event) : Event :=
  let v := e.st.supervision
  let weigh := fun n r => weighShop v (e.st.activeTables.shopTerms n).autoSuspend r
  let moved := v.shops.any (fun p => decide ((weigh p.1 p.2).alarm ≠ p.2.alarm))
  let e1 := e.upd fun s => { s with supervision := { s.supervision with
      shops := remap {} weigh s.supervision.shops, keptWindow := windowOf s.clock } }
  if moved then e1.raising catSupervision else e1

/-- R161: a window end when the clock's window number is greater than the kept one. -/
def windowStep (e : Event) : Event :=
  if e.st.supervision.keptWindow < windowOf e.st.clock then endWindow e else e

/-! ### Modes and causes (R157, R158) -/

/-- R157: the effect of a mode on a shop's record. -/
def withMode (m : Mode) (r : Shop) : Shop :=
  match m with
  | .closed =>
    { r with mode := .closed, management := false, alarmCause := false, alarm := .normal
             windowFaults := 0, badWindows := 0, goodWindows := 0 }
  | m => if r.mode = .closed then { r with mode := m, windowFaults := 0 } else { r with mode := m }

/-- 9.2: the answer fields of SET SHOP MODE, SUSPEND and RESUME. -/
def shopAnswer (n : Nat) (s : State) : List Octet :=
  let r := s.shop n
  octets 1 (modeCode r.mode) ++ causeOctet r ++ octets 1 (alarmCode r.alarm)
    ++ octets 2 r.windowFaults ++ octets 1 r.badWindows ++ octets 1 r.goodWindows

/-- R157: SET SHOP MODE. -/
def doSetShopMode (tag : BitVec 16) (shop : BitVec 16) (mode : BitVec 8) (e : Event) : Event :=
  match modeOf mode with
  | none => refuse 0x48 tag .badField e
  | some m =>
    if shop.toNat < Config.shopCount then
      accept 0x48 tag (shopAnswer shop.toNat) (e.upd fun s => s.modifyShop shop.toNat (withMode m))
    else refuse 0x48 tag .badField e

/-- R158: SUSPEND. -/
def doSuspend (tag : BitVec 16) (shop : BitVec 16) (e : Event) : Event :=
  if ¬ shop.toNat < Config.shopCount then refuse 0x49 tag .badField e
  else if (e.st.shop shop.toNat).mode = .closed then refuse 0x49 tag .wrongState e
  else accept 0x49 tag (shopAnswer shop.toNat)
    (e.upd fun s => s.modifyShop shop.toNat fun r => { r with management := true })

/-- R158: RESUME. -/
def doResume (tag : BitVec 16) (shop : BitVec 16) (e : Event) : Event :=
  if ¬ shop.toNat < Config.shopCount then refuse 0x4A tag .badField e
  else if (e.st.shop shop.toNat).mode = .closed then refuse 0x4A tag .wrongState e
  else accept 0x4A tag (shopAnswer shop.toNat)
    (e.upd fun s => s.modifyShop shop.toNat fun r => { r with management := false })

/-! ### Counters (R167, R168) -/

/-- R190: the counters of COUNTER READ of GLOBAL, 4 octets each. -/
def globalCounters (s : State) : List Octet :=
  let a := s.sCount
  let b := s.oCount
  ([a.received, a.checkFailures, a.runts, a.oversize, a.forwarded, a.admitted, a.declined, a.answers,
    b.received, b.checkFailures, b.runts, b.oversize, b.forwarded, b.management, b.refusals, b.answers,
    b.notices].map (fun c => octets 4 c.toNat)).flatten

/-- R167, R190: the fields that COUNTER READ of a shop lists, in their order: 22 octets. -/
def shopCounters (n : Nat) (s : State) : List Octet :=
  let r := s.shop n
  let v := s.supervision
  octets 4 r.admitted.toNat ++ octets 4 r.declines.toNat ++ octets 4 r.faults.toNat ++ octets 1 (modeCode r.mode)
    ++ causeOctet r ++ octets 1 (alarmCode r.alarm) ++ octets 2 r.windowFaults ++ octets 1 r.badWindows
    ++ octets 1 r.goodWindows ++ octets 1 v.trip ++ octets 1 v.t1 ++ octets 1 v.t2

/-- R190: the answer fields of COUNTER READ of a shop, 24 octets: the listed fields, and behind them the two octets that the
item table counts and gives no field (log 31, the model's choice), free for each answer. -/
def shopCounterAnswer (n : Nat) (s : State) : List Octet :=
  shopCounters n s ++ octets 2 (Config.counterTail s.draws).toNat

/-- R168: a shop's three counters set to 0. -/
def clearShopCounters (r : Shop) : Shop := { r with admitted := 0, declines := 0, faults := 0 }

/-- R168: both sets of global counters set to 0. -/
def clearGlobal (s : State) : State := { s with sCount := {}, oCount := {} }

/-- R167: COUNTER READ; the values are taken before the clear. -/
def doCounterRead (tag : BitVec 16) (selector : BitVec 16) (flags : BitVec 8) (e : Event) : Event :=
  let clear := flags.getLsbD 0
  if ¬ flags.toNat < 2 then refuse 0x4B tag .badField e
  else if selector = 0xFFFF#16 then
    let taken := globalCounters e.st
    accept 0x4B tag (fun _ => taken) (if clear then e.upd clearGlobal else e)
  else if selector.toNat < Config.shopCount then
    let taken := shopCounterAnswer selector.toNat e.st
    let drawn := e.upd fun s => { s with draws := s.draws + 1 }
    accept 0x4B tag (fun _ => taken)
      (if clear then drawn.upd fun s => s.modifyShop selector.toNat clearShopCounters else drawn)
  else refuse 0x4B tag .badField e

/-- R168: COUNTER CLEAR. -/
def doCounterClear (tag : BitVec 16) (selector : BitVec 16) (e : Event) : Event :=
  if selector = 0xFFFF#16 then accept 0x4C tag (fun _ => []) (e.upd clearGlobal)
  else if selector = 0xFFFE#16 then
    accept 0x4C tag (fun _ => []) (e.upd fun s => { s with supervision := { s.supervision with
      shops := remap {} (fun _ r => clearShopCounters r) s.supervision.shops } })
  else if selector.toNat < Config.shopCount then
    accept 0x4C tag (fun _ => []) (e.upd fun s => s.modifyShop selector.toNat clearShopCounters)
  else refuse 0x4C tag .badField e

/-! ### The scan (R169) -/

/-- R169: whether SHOP SCAN lists a shop. -/
def scanned (r : Shop) : Bool := decide (r.alarm ≠ .normal) || r.management || r.alarmCause

/-- R156: whether a shop is suspended. -/
def suspended (r : Shop) : Bool := decide (r.mode = .opened) && (r.management || r.alarmCause)

/-- R169: the shops listed from a starting number: at most eight. -/
def scanFrom (s : State) (start : Nat) : List Nat :=
  (((List.range Config.shopCount).drop start).filter (fun n => scanned (s.shop n))).take 8

/-- R169: the next shop number after the last one listed; absent when the scan reached shop 511. -/
def scanNext (s : State) (start : Nat) : Option Nat :=
  match (scanFrom s start).getLast? with
  | none => none
  | some n => if (scanFrom s start).length < 8 ∨ n + 1 = Config.shopCount then none else some (n + 1)

/-- The number of shops that a predicate holds of. -/
def countShops (p : Shop → Bool) (s : State) : Nat :=
  ((List.range Config.shopCount).filter (fun n => p (s.shop n))).length

/-- R169: SHOP SCAN. -/
def doShopScan (tag : BitVec 16) (shop : BitVec 16) (e : Event) : Event :=
  if shop.toNat < Config.shopCount then
    accept 0x4D tag (fun s =>
      ((scanFrom s shop.toNat).map (fun n =>
        let r := s.shop n
        octets 2 n ++ octets 1 (modeCode r.mode) ++ causeOctet r ++ octets 1 (alarmCode r.alarm)
          ++ octets 1 r.badWindows ++ octets 1 r.goodWindows)).flatten
        ++ octets 2 ((scanNext s shop.toNat).getD 0xFFFF)
        ++ octets 2 (countShops (fun r => decide (r.alarm = .alarm)) s) ++ octets 2 (countShops suspended s)) e
  else refuse 0x4D tag .badField e

/-! ### Meanings -/

/-- WINDOW_END (R161). -/
def execWindowEnd (s : State) : Host.Outcome State Fault Refusal := .next (event windowStep s)

/-- SET_SHOP_MODE (R157). -/
def execSetShopMode (tag : BitVec 16) (shop : BitVec 16) (mode : BitVec 8) (s : State) :
    Host.Outcome State Fault Refusal :=
  .next (command 0x48 tag (doSetShopMode tag shop mode) s)

/-- SUSPEND (R158). -/
def execSuspend (tag : BitVec 16) (shop : BitVec 16) (s : State) : Host.Outcome State Fault Refusal :=
  .next (command 0x49 tag (doSuspend tag shop) s)

/-- RESUME (R158). -/
def execResume (tag : BitVec 16) (shop : BitVec 16) (s : State) : Host.Outcome State Fault Refusal :=
  .next (command 0x4A tag (doResume tag shop) s)

/-- COUNTER_READ (R167). -/
def execCounterRead (tag : BitVec 16) (selector : BitVec 16) (flags : BitVec 8) (s : State) :
    Host.Outcome State Fault Refusal :=
  .next (command 0x4B tag (doCounterRead tag selector flags) s)

/-- COUNTER_CLEAR (R168). -/
def execCounterClear (tag : BitVec 16) (selector : BitVec 16) (s : State) : Host.Outcome State Fault Refusal :=
  .next (command 0x4C tag (doCounterClear tag selector) s)

/-- SHOP_SCAN (R169). -/
def execShopScan (tag : BitVec 16) (shop : BitVec 16) (s : State) : Host.Outcome State Fault Refusal :=
  .next (command 0x4D tag (doShopScan tag shop) s)

end Sys2Proof.Machine
end

