-- ==== Sys2Proof/Machine/Admission.lean ====
section
/-! DEFINITION. The classifier and the admission of gift requests (chapter 1, R22, R87, R109, R110). -/

namespace Sys2Proof.Machine

/-! ### The classifier (R4, R22) -/

/-- R22: the entry that a prefix matches: the enabled one, or else the disabled one with the lowest index. -/
def findProgram (t : TableSet) (p : BitVec 24) : Option Nat :=
  match (List.range 16).find? (fun i => (t.program i).enabled && (t.program i).digits == some p) with
  | some i => some i
  | none => (List.range 16).find? (fun i => (t.program i).digits == some p)

/-- R4: the program of a gift request for a loaded program; none when the frame is forwarded. -/
def classify (t : TableSet) (f : Frame) : Option Nat :=
  if field f 0 1 = 0x47 ∧ giftLength ≤ f.length then
    let p := cardPrefix (giftFields f).card
    if decimalPrefix p then findProgram t p else none
  else none

/-! ### The checks (R8 to R14) -/

/-- R10: the shop mode and permission check. -/
def shopCheck (r : Shop) (t : ShopTerms) (k : Kind) : Option Reason :=
  if r.mode = .closed then some .shopClosed
  else if suspended r ∧ k ≠ .balance ∧ k ≠ .complete ∧ k ≠ .release then some .shopSuspended
  else if (k = .activate ∨ k = .reload) ∧ ¬ t.allowSales then some .notPermitted
  else if k = .refund ∧ ¬ t.allowRefund then some .notPermitted
  else none

/-- R11: the lane check. -/
def laneCheck (l : Lane) (trace : Nat) : Option Reason :=
  if l.inFlight then some .laneBusy
  else if l.lastTrace = some trace then some .duplicate
  else none

/-- R13: whether a request reserves a Journal Out place. -/
def reserving (training : Bool) (k : Kind) : Bool := !training && decide (k ≠ .balance)

/-- R13: the stand-in level check of a reserving request. -/
def standInCheck (level : Level) (k : Kind) (amount limit : Nat) : Option Reason :=
  match level with
  | .normal => none
  | .limited =>
    if k = .activate ∨ k = .reload then some .officeSlow
    else if (k = .redeem ∨ k = .hold ∨ k = .complete) ∧ limit < amount then some .officeSlow
    else none
  | .closed => some .officeUnreachable

/-! ### The binding stage (R15, R87, R109, R110) -/

/-- R87: the hold that a COMPLETE or RELEASE names, asked for at admission. -/
def holdCheck (s : State) (k : Kind) (slot amount : Nat) (ref : Ref) : Option Reason :=
  match s.holds.find ref with
  | none => some .holdGone
  | some h =>
    if h.state ≠ .opened ∨ h.slot ≠ slot then some .holdGone
    else if k = .complete ∧ h.ceiling < amount then some .overLimit
    else none

/-- R109 step 2: the kinds that can be voided. -/
def voidable : Kind → Bool
  | .activate | .reload | .redeem | .complete | .refund => true
  | _ => false

/-- R110: the accumulator set that an entry's cycle can still be changed in. -/
def bindingSet (c : Cycle) (cycle : BitVec 32) : Option SetId :=
  if cycle = c.number then some c.current
  else if c.closing = .grace ∧ cycle = closingCycle c then some (closingSet c)
  else none

/-- R109: the reason for which a VOID of an entry is declined at admission. -/
def voidCheck (s : State) (shop slot : Nat) (ref : Ref) : Option Reason :=
  match s.entryAt ref with
  | none => some .noMatch
  | some e =>
    if ¬ voidable e.kind ∨ e.slot ≠ slot then some .noMatch
    else if e.party.map (·.shop) ≠ some shop then some .crossShop
    else if e.voided then some .alreadyVoided
    else if bindingSet s.cycle e.cycle = none then some .tooLate
    else none

/-- R15: the decline of the binding stage, if any. -/
def bindCheck (s : State) (k : Kind) (shop slot amount : Nat) (ref : Ref) : Option Reason :=
  match k with
  | .complete | .release => holdCheck s k slot amount ref
  | .void => voidCheck s shop slot ref
  | _ => none

/-- R110: the set that a live VOID is bound to. -/
def boundSetOf (s : State) (training : Bool) (k : Kind) (ref : Ref) : Option SetId :=
  if decide (k = .void) && !training then (s.entryAt ref).bind (fun e => bindingSet s.cycle e.cycle) else none

/-! ### The verdict -/

/-- The answer of the admission block: declined for a reason, or admitted with an in-flight entry (whose serial number and
generation are given when it enters the set). -/
inductive Verdict where
  | declined (r : Reason)
  | admitted (x : InFlight)
  deriving DecidableEq, Repr

/-- The first check that fails. -/
def firstOf : List (Option Reason) → Option Reason
  | [] => none
  | some r :: _ => some r
  | none :: t => firstOf t

/-- R15: the in-flight entry of a well-formed request of kind `k` for program entry `i`. -/
def admittedEntry (s : State) (q : GiftRequest) (k : Kind) (i slot : Nat) (training : Bool) : InFlight where
  id := 0
  origin := .request { shop := q.shop.toNat, lane := q.lane.toNat, trace := q.trace.toNat } q.card
  kind := k
  training := training
  program := some i
  slot := slot
  block := slot / 8
  amount := q.amount.toNat
  partialFlag := q.flags.getLsbD 0
  reference := if q.reference = 0 then none else some q.reference
  generation := 0
  reserved := reserving training k
  boundSet := boundSetOf s training k q.reference

/-- The seven admission checks in their order, and the binding stage, of a request for program entry `i`. -/
def admission (s : State) (q : GiftRequest) (i : Nat) : Verdict :=
  match formatCheck q with
  | none => .declined .format
  | some k =>
    let p := s.activeTables.program i
    let serial := cardSerial q.card
    let slot := p.baseSlot + serial
    let shop := q.shop.toNat
    let amount := q.amount.toNat
    let r := s.shop shop
    let training := decide (r.mode = .training)
    match firstOf [
        if p.enabled then none else some .programClosed,
        if serial < p.slotCount then none else some .noCard,
        shopCheck r (s.activeTables.shopTerms shop) k,
        laneCheck (s.lane (shop * 16 + q.lane.toNat)) q.trace.toNat,
        if s.store.phase = .ready then none else some .storeNotReady,
        if reserving training k then standInCheck s.journalOut.level k amount p.standInLimit else none,
        if inFlightFull s then some .retry else none,
        bindCheck s k shop slot amount q.reference] with
    | some reason => .declined reason
    | none => .admitted (admittedEntry s q k i slot training)

/-! ### The effects (R7, R12, R15, R17) -/

/-- R17: the training marker of an answer made at admission. -/
def trainingShop (s : State) (shop : Nat) : Bool :=
  decide (shop < Config.shopCount) && decide ((s.shop shop).mode = .training)

/-- R7: the reasons that charge a fault. -/
def isFault : Reason → Bool
  | .format | .noCard | .programClosed => true
  | _ => false

/-- R18: the answer to a request declined at admission; a DUPLICATE carries the lane's last reference. -/
def declinedAnswer (s : State) (q : GiftRequest) (reason : Reason) : GiftAnswer where
  shop := q.shop
  lane := q.lane
  trace := q.trace
  kind := q.kind
  cardNumber := q.card
  outcome := .declined
  reason := some reason
  training := trainingShop s q.shop.toNat
  amount := 0
  reference := if reason = .duplicate then ((s.lane (q.shop.toNat * 16 + q.lane.toNat)).lastRef).getD 0 else 0
  card := none

/-- R7: the counts of a decline at admission. -/
def countAdmissionDecline (shop : Nat) (reason : Reason) (s : State) : State :=
  let t := { s with sCount := { s.sCount with declined := s.sCount.declined + 1 } }
  if shop < Config.shopCount then
    let u := countDecline shop t
    if isFault reason then chargeFault shop u else u
  else t

/-- R12: the lane of an admitted transaction. -/
def takeLane (x : InFlight) (s : State) : State :=
  let p := partyOf x
  let l := s.lane (laneIndex p)
  s.setLane (laneIndex p)
    { l with inFlight := true, lastTrace := if recordsTrace x then some p.trace else l.lastTrace }

/-- R87: a live COMPLETE or RELEASE claims its hold. -/
def claimHold (x : InFlight) (s : State) : State :=
  match x.reference with
  | some r =>
    if (decide (x.kind = .complete) || decide (x.kind = .release)) && !x.training then markHold r .claimed s else s
  | none => s

/-- R110: a VOID bound to the closing set is counted as a grace void. -/
def enterGrace (x : InFlight) (s : State) : State :=
  if isGraceVoid s x then modifyCycle (fun c => { c with graceVoids := c.graceVoids + 1 }) s else s

/-- R15 step 5: an admitted request counted globally and against its shop. -/
def countAdmitted (x : InFlight) (s : State) : State :=
  let t := { s with sCount := { s.sCount with admitted := s.sCount.admitted + 1 } }
  t.modifyShop (partyOf x).shop fun r => { r with admitted := r.admitted + 1 }

/-- R15: all the effects of an admission; the sweep then looks at its candidate (R92). -/
def admitEntry (x : InFlight) (s : State) : State :=
  sweepStep (demand s.nextId x.block
    (countAdmitted x (takeLane x (enterSet x (enterGrace x (claimHold x s))))))

/-- R7: the event of a gift request for program entry `i`. -/
def admissionEvent (q : GiftRequest) (i : Nat) (e : Event) : Event :=
  match admission e.st q i with
  | .admitted x => e.upd (admitEntry x)
  | .declined reason =>
    (e.upd (countAdmissionDecline q.shop.toNat reason)).answering (declinedAnswer e.st q reason)

/-- R4: a checked frame of the S-port. -/
def shopFrame (f : Frame) (e : Event) : Event :=
  match classify e.st.activeTables f with
  | some i => admissionEvent (giftFields f) i e
  | none => e.upd fun s =>
    { s with oTx := s.oTx ++ [f], sCount := { s.sCount with forwarded := s.sCount.forwarded + 1 } }

end Sys2Proof.Machine
end

