-- ==== Sys2Proof/Machine/Cards.lean ====
section
/-! DEFINITION. The management commands that need the card store (chapters 3 and 4): loading, STORE READY, FLUSH, AUDIT, CARD
READ and CARD ADJUST with their postings, and the events of the buffer, the banks and the audit walker. -/

namespace Sys2Proof.Machine

/-- The store controller changed. -/
def modifyStore (f : Store → Store) (s : State) : State := { s with store := f s.store }

/-! ### Loading (R40 to R46) -/

/-- R40: BEGIN LOAD. -/
def doBeginLoad (tag : BitVec 16) (e : Event) : Event :=
  if e.st.store.phase = .ready then refuse 0x10 tag .wrongState e
  else accept 0x10 tag (fun _ => []) (e.upd (modifyStore fun t => { t with phase := .loading }))

/-- R42: CARD LOAD FIRST; in READY it has been refused before (R171 step 3). -/
def doCardLoadFirst (tag : BitVec 16) (block : BitVec 24) (images : FourImages) (e : Event) : Event :=
  if block.toNat < Config.blockCount then
    accept 0x11 tag (fun _ => octets 3 block.toNat) (e.upd fun s =>
      modifyStore (fun t => { t with phase := .loading })
        { s with unit := { s.unit with first := some { block := block.toNat, images := images } } })
  else refuse 0x11 tag .badField e

/-- R43: whether a block is present. -/
def present (s : State) (b : Nat) : Bool := s.isValid b || (lineHolding s b).isSome

/-- An in-flight entry of the management unit (R46, R76, R78). -/
def unitEntry (k : Kind) (slot : Nat) (reserved : Bool) : InFlight where
  id := 0
  origin := .unit
  kind := k
  training := false
  program := none
  slot := slot
  block := slot / 8
  amount := 0
  partialFlag := false
  reference := none
  generation := 0
  reserved := reserved
  boundSet := none

/-- R173: the unit becomes IN_PROGRESS. -/
def startWork (tag : BitVec 16) (w : UnitWork) (s : State) : State :=
  { s with unit := { s.unit with progress := some { tag := tag, work := w } } }

/-- R46, R76, R78: a card command accepted: into the in-flight set, with the unit IN_PROGRESS and the demand for its block
made. -/
def takeOn (tag : BitVec 16) (w : UnitWork) (x : InFlight) (e : Event) : Event :=
  e.upd fun s => demand s.nextId x.block (startWork tag w (enterSet x s))

/-- R45: a written pair for a block that is not present. -/
def loadDirect (tag : BitVec 16) (b : Nat) (records : Block) (e : Event) : Event :=
  let wait := e.upd fun s => joinWaitList (.directLoad b) (startWork tag (.directLoad b records) s)
  if e.st.buffer.waitList.isEmpty then
    match findLine e.st with
    | some i => (giveDirect i b tag records e).upd flushStep
    | none => wait
  else wait

/-- R43, R45, R46: CARD LOAD LAST; a LAST for another block than the pending one has been refused before (R171 step 4). -/
def doCardLoadLast (tag : BitVec 16) (images : FourImages) (e : Event) : Event :=
  match e.st.unit.first with
  | none => refuse 0x12 tag .sequence e
  | some f =>
    match loadedBlock f.images images with
    | none => refuse 0x12 tag .badField (e.upd dropFirst)
    | some records =>
      if present e.st f.block then
        if inFlightFull e.st then refuse 0x12 tag .busy (e.upd dropFirst)
        else takeOn tag (.replaceBlock f.block records) (unitEntry .cardLoad (8 * f.block) false) e
      else loadDirect tag f.block records e

/-- R40: STORE READY. -/
def doStoreReady (tag : BitVec 16) (e : Event) : Event :=
  if e.st.store.phase = .ready then refuse 0x13 tag .wrongState e
  else accept 0x13 tag (fun _ => []) (e.upd (modifyStore fun t => { t with phase := .ready }))

/-! ### FLUSH and AUDIT (R54, R56) -/

/-- R54: FLUSH. -/
def doFlush (tag : BitVec 16) (e : Event) : Event :=
  accept 0x14 tag (fun _ => []) (e.upd fun s => flushStep (modifyStore (fun t => { t with flushPending := true }) s))

/-- R56: AUDIT. -/
def doAudit (tag : BitVec 16) (e : Event) : Event :=
  if e.st.store.phase ≠ .ready then refuse 0x15 tag .wrongState e
  else if e.st.store.audit.running then refuse 0x15 tag .busy e
  else accept 0x15 tag (fun _ => [])
    (beginVisit (e.upd (modifyAudit fun a => { running := true, result := a.result })))

/-! ### CARD READ and CARD ADJUST (R76, R78) -/

/-- R76: CARD READ. -/
def doCardRead (tag : BitVec 16) (slot : BitVec 24) (e : Event) : Event :=
  if ¬ slot.toNat < Config.slotCount then refuse 0x16 tag .badField e
  else if inFlightFull e.st then refuse 0x16 tag .busy e
  else takeOn tag (.cardRead slot.toNat) (unitEntry .cardRead slot.toNat false) e

/-- R78: CARD ADJUST. -/
def doCardAdjust (tag : BitVec 16) (slot : BitVec 24) (fields : AdjustFields) (e : Event) : Event :=
  if e.st.store.phase ≠ .ready then refuse 0x17 tag .wrongState e
  else if ¬ slot.toNat < Config.slotCount ∨ ¬ adjustFits fields then refuse 0x17 tag .badField e
  else if inFlightFull e.st ∨ Config.journalOutPlaces ≤ committedLoad e.st then refuse 0x17 tag .busy e
  else takeOn tag (.cardAdjust slot.toNat fields) (unitEntry .adjust slot.toNat true) e

/-! ### The postings of the card commands -/

/-- R81, R173: the unit ends its command and answers it under the command's tag; a finished CARD LOAD pair takes its FIRST
with it (R43). -/
def endWork (p : InProgress) (r : Reply) (e : Event) : Event :=
  (e.upd fun s =>
    { s with unit := { progress := none
                       first := match p.work with
                         | .replaceBlock _ _ => none
                         | _ => s.unit.first } }).replying { r with tag := p.tag }

/-- R77: the posting of a CARD READ: the record as it stands, and its block's valid mark. -/
def postCardRead (i : Nat) (x : InFlight) (e : Event) : Event :=
  let r := recordFor e.st i x
  let mark := e.st.isValid x.block
  let posted := e.upd (postLine i (e.st.line i).records 0)
  departed i x (match e.st.unit.progress with
    | some p => endWork p { code := 0x16, tag := 0, fields := fun _ => octets 3 x.slot ++ recordOctets r ++ yesNo mark }
        posted
    | none => posted)

/-- R46: the posting of a replacement CARD LOAD: the eight records, the float and the answer. -/
def postReplacement (i : Nat) (x : InFlight) (e : Event) : Event :=
  match e.st.unit.progress with
  | some { tag := tag, work := .replaceBlock b records } =>
    let old := (e.st.line i).records
    let change : Int := balances records - balances old
    let posted := e.upd fun s =>
      postLine i records 0xFF (moveAudit b change (helds records - helds old) (moveFloat change s))
    departed i x (endWork { tag := tag, work := .replaceBlock b records }
      { code := 0x12, tag := tag, fields := loadAnswer b true records } posted)
  | _ => departed i x (e.upd (postLine i (e.st.line i).records 0))

/-- R79: the signed balance change of a CARD ADJUST, 0 when balance is not selected. -/
def adjustChange (f : AdjustFields) : Int := if f.mask.getLsbD 2 then f.change.toInt else 0

/-- R79: the checks of CARD ADJUST at its posting. -/
def decideAdjust (f : AdjustFields) (r : CardRecord) : Option Reason :=
  let d := adjustChange f
  if r.state = .unissued then some .notActive
  else if d < 0 ∧ available r < d.natAbs then some .insufficient
  else if 0 < d ∧ (Config.maxAmount : Int) < r.balance + d then some .overMax
  else none

/-- R80: the record with the selected changes made. -/
def adjusted (s : State) (f : AdjustFields) (r : CardRecord) : CardRecord :=
  let new := { r with
    state := if f.mask.getLsbD 0 then (if f.state = 1#8 then .active else .blocked) else r.state
    expiryDay := if f.mask.getLsbD 1 then (if f.mask.getLsbD 3 then none else some f.expiryDay.toNat) else r.expiryDay
    balance := (r.balance + adjustChange f).toNat }
  if new.state ≠ r.state ∨ new.balance ≠ r.balance then stamped s new else new

/-- R64: the journal entry of an approved CARD ADJUST. -/
def adjustEntry (s : State) (slot : Nat) (d : Int) (sequence : BitVec 32) (ref : Ref) : Entry where
  ref := ref
  cycle := s.cycle.number
  clock := s.clock
  kind := .adjust
  party := none
  slot := slot
  amount := d.natAbs
  adjustDown := decide (d < 0)
  sequence := sequence
  related := none
  refunded := none
  voided := false

/-- R80: what an approved CARD ADJUST changes outside its record and its command. -/
def adjustEffects (x : InFlight) (d : Int) (sequence : BitVec 32) (s : State) : State :=
  let t := if d = 0 then s else moveAudit x.block d 0 (moveFloat d (postAdjust d s))
  writeEntry (adjustEntry s x.slot d sequence) t

/-- R79, R80: the posting of a CARD ADJUST. -/
def postCardAdjust (i : Nat) (x : InFlight) (e : Event) : Event :=
  match e.st.unit.progress with
  | some { tag := tag, work := .cardAdjust slot fields } =>
    let p : InProgress := { tag := tag, work := .cardAdjust slot fields }
    let r := recordFor e.st i x
    match decideAdjust fields r with
    | some reason =>
      departed i x (endWork p
        { code := 0x17, tag := tag, outcome := some .declined, reason := some reason, fields := fun _ => recordOctets r }
        (e.upd (postRecord i (x.slot % 8) r)))
    | none =>
      let new := adjusted e.st fields r
      let ref := e.st.journal.next
      departed i x (endWork p
        { code := 0x17, tag := tag, outcome := some .approved, fields := fun _ => octets 4 ref.toNat ++ recordOctets new }
        (e.upd fun s => postRecord i (x.slot % 8) new (adjustEffects x (adjustChange fields) new.sequence s)))
  | _ => departed i x (e.upd (postLine i (e.st.line i).records 0))

/-- The posting of the card command at the head of a ready line, when it is of kind `k`; otherwise nothing (log 2). -/
def cardPosting (k : Kind) (post : Nat → InFlight → Event → Event) (line : BitVec 5) (s : State) : State :=
  match headEntry s line.toNat k with
  | some x => event (post line.toNat x) s
  | none => s

/-! ### Meanings -/

/-- FETCH_COMPLETE (R50). -/
def execFetchComplete (bank : BitVec 2) (s : State) : Host.Outcome State Fault Refusal :=
  .next (event (fetchComplete bank.toNat) s)

/-- WRITE_BACK_START (R52 to R54). -/
def execWriteBackStart (line : BitVec 5) (s : State) : Host.Outcome State Fault Refusal :=
  .next (event (writeBackStart line.toNat) s)

/-- WRITE_BACK_COMPLETE (R52). -/
def execWriteBackComplete (bank : BitVec 2) (s : State) : Host.Outcome State Fault Refusal :=
  .next (event (writeBackComplete bank.toNat) s)

/-- WAIT_LIST_SERVE (R48). -/
def execWaitListServe (s : State) : Host.Outcome State Fault Refusal :=
  .next (event (fun e => (serve e).upd flushStep) s)

/-- AUDIT_VISIT (R57). -/
def execAuditVisit (line : BitVec 5) (s : State) : Host.Outcome State Fault Refusal :=
  .next (event (auditVisit line.toNat) s)

/-- CARD_READ_POSTING (R77). -/
def execCardReadPosting (line : BitVec 5) (s : State) : Host.Outcome State Fault Refusal :=
  .next (cardPosting .cardRead postCardRead line s)

/-- CARD_ADJUST_POSTING (R79, R80). -/
def execCardAdjustPosting (line : BitVec 5) (s : State) : Host.Outcome State Fault Refusal :=
  .next (cardPosting .adjust postCardAdjust line s)

/-- CARD_LOAD_REPLACEMENT_POSTING (R46). -/
def execCardLoadReplacementPosting (line : BitVec 5) (s : State) : Host.Outcome State Fault Refusal :=
  .next (cardPosting .cardLoad postReplacement line s)

/-- BEGIN_LOAD (R40). -/
def execBeginLoad (tag : BitVec 16) (s : State) : Host.Outcome State Fault Refusal :=
  .next (command 0x10 tag (doBeginLoad tag) s)

/-- CARD_LOAD_FIRST (R42). -/
def execCardLoadFirst (tag : BitVec 16) (block : BitVec 24) (images : FourImages) (s : State) :
    Host.Outcome State Fault Refusal :=
  .next (command 0x11 tag (doCardLoadFirst tag block images) s)

/-- R171 step 4: whether a block number is the pending FIRST's. -/
def pendingBlock (s : State) (block : Nat) : Bool := s.unit.first.map (·.block) == some block

/-- CARD_LOAD_LAST (R43). -/
def execCardLoadLast (tag : BitVec 16) (block : BitVec 24) (images : FourImages) (s : State) :
    Host.Outcome State Fault Refusal :=
  .next (event (fun e => unitGate 0x12 tag (pendingBlock s block.toNat) (doCardLoadLast tag images) (e.upd countArrival)) s)

/-- STORE_READY (R40). -/
def execStoreReady (tag : BitVec 16) (s : State) : Host.Outcome State Fault Refusal :=
  .next (command 0x13 tag (doStoreReady tag) s)

/-- FLUSH (R54). -/
def execFlush (tag : BitVec 16) (s : State) : Host.Outcome State Fault Refusal :=
  .next (command 0x14 tag (doFlush tag) s)

/-- AUDIT (R56). -/
def execAudit (tag : BitVec 16) (s : State) : Host.Outcome State Fault Refusal :=
  .next (command 0x15 tag (doAudit tag) s)

/-- CARD_READ (R76). -/
def execCardRead (tag : BitVec 16) (slot : BitVec 24) (s : State) : Host.Outcome State Fault Refusal :=
  .next (command 0x16 tag (doCardRead tag slot) s)

/-- CARD_ADJUST (R78). -/
def execCardAdjust (tag : BitVec 16) (slot : BitVec 24) (fields : AdjustFields) (s : State) :
    Host.Outcome State Fault Refusal :=
  .next (command 0x17 tag (doCardAdjust tag slot fields) s)

end Sys2Proof.Machine
end

