-- ==== Sys2Proof/Machine/Clock.lean ====
section
/-! DEFINITION. The mall clock (R178, R179): its advance by the 1 Hz input and SET CLOCK. The blocks that read the clock
act on the new value in the same event: a window end, the end of grace, and the selection of a due hold. -/

namespace Sys2Proof.Machine

/-- The clock at a value. -/
def withClock (c : BitVec 32) (s : State) : State := { s with clock := c }

/-- R178: what follows a clock value in its event, after supervision: the cycle controller and the sweep. -/
def clockFollowers (e : Event) : Event := (graceStep e).upd sweepStep

/-- R161, R178: an advance by one second; the wrap to 0 is a window end too. -/
def advance (e : Event) : Event :=
  let e1 := e.upd fun s => withClock (s.clock + 1) s
  clockFollowers (if e1.st.clock = 0 then endWindow e1 else windowStep e1)

/-- R161: a clock set to an earlier window sets the kept window number and ends no window. -/
def keepEarlierWindow (s : State) : State :=
  { s with supervision := { s.supervision with keptWindow := min s.supervision.keptWindow (windowOf s.clock) } }

/-- R179: SET CLOCK. -/
def doSetClock (tag : BitVec 16) (clock : BitVec 32) (e : Event) : Event :=
  let old := e.st.clock
  accept 0x04 tag (fun _ => octets 4 old.toNat ++ octets 4 clock.toNat)
    (clockFollowers (windowStep (e.upd fun s => keepEarlierWindow (withClock clock s))))

/-- CLOCK_TICK (R178). -/
def execClockTick (s : State) : Host.Outcome State Fault Refusal := .next (event advance s)

/-- SET_CLOCK (R179). -/
def execSetClock (tag : BitVec 16) (clock : BitVec 32) (s : State) : Host.Outcome State Fault Refusal :=
  .next (command 0x04 tag (doSetClock tag clock) s)

end Sys2Proof.Machine
end

