-- ==== Sys2Proof/Machine/Payout.lean ====
section
/-! DEFINITION. The payout engine and the payout queue (chapter 8). -/

namespace Sys2Proof.Machine

/-! ### The arithmetic of a record (R139 to R145) -/

/-- R139: p / 10,000 rounded half-even. -/
def halfEven (p : Nat) : Nat :=
  let q := p / 10000
  let r := p % 10000
  if r < 5000 then q
  else if r = 5000 then (if q % 2 = 0 then q else q + 1)
  else q + 1

/-- R141: an amount at a rate in basis points. -/
def proportional (amount rate : Nat) : Nat := halfEven (amount * rate)

/-- R143: the rebate. -/
def rebateOf (f : FeeClass) (r : Row) : Nat :=
  if f.rebate then min (proportional r.refunded f.redemptionRate) (proportional r.redeemed f.redemptionRate) else 0

/-- R144: the net. -/
def netOf (f : FeeClass) (r : Row) (carryIn : Int) : Int :=
  (r.redeemed : Int) - r.sold - r.refunded - proportional r.redeemed f.redemptionRate - r.redeemCount * f.fixedFee
    + proportional r.sold f.commissionRate + rebateOf f r + carryIn

/-- R145: the disposition of a net, with the record's amount and the carry-out. -/
def dispose (f : FeeClass) (net : Int) : Disposition × Nat × Int :=
  if 0 < net then
    if (f.minPayout : Int) ≤ net then (.pay, net.toNat, 0) else (.holdOver, 0, net)
  else if net = 0 then (.nil, 0, 0)
  else if (f.collectAt : Int) ≤ -net then (.collect, (-net).toNat, 0)
  else (.defer, 0, net)

/-- R140 to R147: the payout record of a shop. -/
def shopRecord (cycle : BitVec 32) (n : Nat) (f : FeeClass) (r : Row) (carryIn : Int) : ShopPayout :=
  let net := netOf f r carryIn
  let d := dispose f net
  { cycle := cycle, shop := n, row := r
    percentFee := proportional r.redeemed f.redemptionRate
    fixedFee := r.redeemCount * f.fixedFee
    commission := proportional r.sold f.commissionRate
    rebate := rebateOf f r
    carryIn := carryIn, net := net, disposition := d.1, amount := d.2.1, carryOut := d.2.2 }

/-- R149: the running totals with a record added. -/
def addTotals (t : Totals) (r : ShopPayout) : Totals where
  redeemed := t.redeemed + r.row.redeemed
  sold := t.sold + r.row.sold
  refunded := t.refunded + r.row.refunded
  percentFee := t.percentFee + r.percentFee
  fixedFee := t.fixedFee + r.fixedFee
  commission := t.commission + r.commission
  rebate := t.rebate + r.rebate
  pay := if r.disposition = .pay then t.pay + r.amount else t.pay
  collect := if r.disposition = .collect then t.collect + r.amount else t.collect
  carryChange := t.carryChange + (r.carryOut - r.carryIn)
  records := t.records + 1
  saturated := t.saturated || r.row.saturated

/-! ### The walk (R146 to R149) -/

/-- R137: the carry of a shop. -/
def State.carry (s : State) (n : Nat) : Int := look 0 s.payout.carries n

/-- The accumulator set being computed. -/
def State.closingAcc (s : State) : AccSet := s.cycle.set (closingSet s.cycle)

/-- R146: whether a shop has a record. -/
def hasRecord (s : State) (n : Nat) : Bool :=
  let r := s.closingAcc.row n
  r.redeemCount != 0 || r.soldCount != 0 || r.refundCount != 0 || s.carry n != 0

/-- R146: the first shop from `n` up that has a record, looking at `k` shops; the number reached when there is none. -/
def nextRecord (s : State) : Nat → Nat → Nat
  | 0, n => n
  | k + 1, n => if hasRecord s n then n else nextRecord s k (n + 1)

/-- R146: the shop, or 512, at which a step from the cursor stops. -/
def stopOf (s : State) : Nat := nextRecord s (Config.shopCount - s.payout.cursor) s.payout.cursor

/-- The payout engine changed. -/
def modifyPayout (f : Payout → Payout) (s : State) : State := { s with payout := f s.payout }

/-- R147: the record of shop `n` computed and appended, its carry written, the totals and the cursor moved. -/
def appendRecord (n : Nat) (s : State) : State :=
  let fees := s.activeTables.feeClass (s.activeTables.shopTerms n).feeClass
  let r := shopRecord (closingCycle s.cycle) n fees (s.closingAcc.row n) (s.carry n)
  modifyPayout (fun p => { p with
    queue := p.queue ++ [.shop r]
    carries := put 0 p.carries n r.carryOut
    totals := addTotals p.totals r
    cursor := n + 1 }) s

/-- R149: the cycle total record. -/
def totalRecord (s : State) : CycleTotal :=
  let m := s.closingAcc.mall
  { cycle := closingCycle s.cycle, totals := s.payout.totals, adjustUp := m.adjustUp, adjustDown := m.adjustDown
    floatAtFreeze := m.floatAtFreeze, saturated := s.payout.totals.saturated || m.saturated }

/-- R149: the cycle total record appended; the state becomes DRAINING and the engine IDLE. -/
def appendTotal (s : State) : State :=
  let r := totalRecord s
  { s with
    payout := { s.payout with
      queue := s.payout.queue ++ [.total r], engine := .idle, cursor := 0, cycle := none, totals := {} }
    cycle := { s.cycle with closing := .draining } }

/-- R146 to R149: one step of a WALKING engine. -/
def engineStep (s : State) : State :=
  if s.payout.engine = .walking then
    let n := stopOf s
    if s.payout.queue.length < Config.payoutPlaces then
      if n < Config.shopCount then appendRecord n s else appendTotal s
    else modifyPayout (fun p => { p with engine := .waiting, cursor := n }) s
  else s

/-- R149: the step of a WALKING engine that finds the cursor at 512 and room in the queue. -/
def totalStep (s : State) : State :=
  if s.payout.engine = .walking ∧ ¬ stopOf s < Config.shopCount ∧ s.payout.queue.length < Config.payoutPlaces
  then appendTotal s else s

/-- R131, R146: a FROZEN closing set taken up. -/
def takeUp (s : State) : State :=
  if s.cycle.closing = .frozen then
    { s with
      payout := { s.payout with engine := .walking, cursor := 0, cycle := some (closingCycle s.cycle), totals := {} }
      cycle := { s.cycle with closing := .computing } }
  else s

/-! ### Commands (R138, R151, R152) -/

/-- R138: CARRY READ. -/
def doCarryRead (tag : BitVec 16) (shop : BitVec 16) (e : Event) : Event :=
  if shop.toNat < Config.shopCount then
    accept 0x40 tag (fun s => signedOctets 4 (s.carry shop.toNat) ++ octets 1 (engineCode s.payout.engine)
      ++ octets 2 s.payout.cursor ++ octets 1 (closingCode s.cycle.closing)) e
  else refuse 0x40 tag .badField e

/-- R138: CARRY SET. A command to which both refusals apply is refused BAD_FIELD (log 20, the model's choice). -/
def doCarrySet (tag : BitVec 16) (shop : BitVec 16) (carry : BitVec 32) (e : Event) : Event :=
  let z := carry.toInt
  if ¬ shop.toNat < Config.shopCount ∨ z < -99999 ∨ 99999 < z then refuse 0x41 tag .badField e
  else if e.st.cycle.closing = .computing then refuse 0x41 tag .busy e
  else
    let old := e.st.carry shop.toNat
    accept 0x41 tag (fun _ => signedOctets 4 old ++ signedOctets 4 z)
      (e.upd (modifyPayout fun p => { p with carries := put 0 p.carries shop.toNat z }))

/-- R151: PAYOUT READ. -/
def doPayoutRead (tag : BitVec 16) (e : Event) : Event :=
  accept 0x42 tag (fun s => octets 1 s.payout.queue.length ++ octets 1 (closingCode s.cycle.closing)
    ++ octets 1 (engineCode s.payout.engine) ++ queueOctets s ((s.payout.queue.take 4).map payoutOctets)) e

/-- R148, R152: the n oldest records removed; a WAITING engine walks again once the queue has room. -/
def takeRecords (n : Nat) (s : State) : State :=
  modifyPayout (fun p =>
    let q := p.queue.drop n
    { p with
      queue := q
      engine := if p.engine = .waiting ∧ q.length < Config.payoutPlaces then .walking else p.engine }) s

/-- R152: PAYOUT TAKE. -/
def doPayoutTake (tag : BitVec 16) (n : BitVec 8) (e : Event) : Event :=
  if 1 ≤ n.toNat ∧ n.toNat ≤ 4 ∧ n.toNat ≤ e.st.payout.queue.length then
    accept 0x43 tag (fun s => octets 1 n.toNat ++ octets 1 s.payout.queue.length)
      (clearStep (e.upd (takeRecords n.toNat)))
  else refuse 0x43 tag .badField e

/-! ### Meanings -/

/-- PAYOUT_TAKE_UP (R131, R146). -/
def execPayoutTakeUp (s : State) : Host.Outcome State Fault Refusal := .next (event (·.upd takeUp) s)

/-- PAYOUT_STEP (R147, R148). -/
def execPayoutStep (s : State) : Host.Outcome State Fault Refusal := .next (event (·.upd engineStep) s)

/-- CYCLE_TOTAL_APPEND (R149). -/
def execCycleTotalAppend (s : State) : Host.Outcome State Fault Refusal := .next (event (·.upd totalStep) s)

/-- CARRY_READ (R138). -/
def execCarryRead (tag : BitVec 16) (shop : BitVec 16) (s : State) : Host.Outcome State Fault Refusal :=
  .next (command 0x40 tag (doCarryRead tag shop) s)

/-- CARRY_SET (R138). -/
def execCarrySet (tag : BitVec 16) (shop : BitVec 16) (carry : BitVec 32) (s : State) :
    Host.Outcome State Fault Refusal :=
  .next (command 0x41 tag (doCarrySet tag shop carry) s)

/-- PAYOUT_READ (R151). -/
def execPayoutRead (tag : BitVec 16) (s : State) : Host.Outcome State Fault Refusal :=
  .next (command 0x42 tag (doPayoutRead tag) s)

/-- PAYOUT_TAKE (R152). -/
def execPayoutTake (tag : BitVec 16) (count : BitVec 8) (s : State) : Host.Outcome State Fault Refusal :=
  .next (command 0x43 tag (doPayoutTake tag count) s)

end Sys2Proof.Machine
end

