-- ==== Sys2Proof/Machine/Tables.lean ====
section
/-! DEFINITION. The table-set commands (chapter 2): loading, discarding, committing and reading the table sets. -/

namespace Sys2Proof.Machine

/-- 2.5: the answer fields of a loading command and of DISCARD SHADOW. -/
def tableAnswer (s : State) : List Octet :=
  octets 1 (shadowCode s.tables.shadow) ++ octets 1 s.tables.generation.toNat

/-- The table sets changed. -/
def modifyTables (f : Tables → Tables) (s : State) : State := { s with tables := f s.tables }

/-- R25: an entry written into the shadow bank, which becomes LOADED. -/
def writeShadow (f : TableSet → TableSet) (t : Tables) : Tables :=
  { modifyShadow (fun b => { b with tables := f b.tables }) t with shadow := .loaded }

/-- R25: a well-formed LOAD by shadow state. -/
def loadShadow (code : BitVec 8) (tag : BitVec 16) (f : TableSet → TableSet) (e : Event) : Event :=
  if e.st.tables.shadow = .retiring then refuse code tag .busy e
  else accept code tag tableAnswer (e.upd (modifyTables (writeShadow f)))

/-- R21, R25: LOAD PROGRAM. -/
def doLoadProgram (tag : BitVec 16) (index : BitVec 8) (fields : ProgramFields) (e : Event) : Event :=
  match programOf fields with
  | none => refuse 0x20 tag .badField e
  | some p =>
    if index.toNat < 16
    then loadShadow 0x20 tag (fun t => { t with programs := put {} t.programs index.toNat p }) e
    else refuse 0x20 tag .badField e

/-- R23, R25: LOAD FEE CLASS. -/
def doLoadFeeClass (tag : BitVec 16) (index : BitVec 8) (fields : FeeFields) (e : Event) : Event :=
  match feeClassOf fields with
  | none => refuse 0x21 tag .badField e
  | some c =>
    if index.toNat < 16
    then loadShadow 0x21 tag (fun t => { t with classes := put {} t.classes index.toNat c }) e
    else refuse 0x21 tag .badField e

/-- R24, R25: LOAD SHOP TERMS. -/
def doLoadShopTerms (tag : BitVec 16) (shop : BitVec 16) (fields : TermsFields) (e : Event) : Event :=
  match termsOf fields with
  | none => refuse 0x22 tag .badField e
  | some m =>
    if shop.toNat < Config.shopCount
    then loadShadow 0x22 tag (fun t => { t with terms := put {} t.terms shop.toNat m }) e
    else refuse 0x22 tag .badField e

/-- R26: a LOADED shadow overwritten with a copy of the active bank. -/
def discarded (t : Tables) : Tables :=
  if t.shadow = .loaded then
    { modifyShadow (fun b => { b with tables := (activeBank t).tables }) t with shadow := .free }
  else t

/-- R26: DISCARD SHADOW. -/
def doDiscardShadow (tag : BitVec 16) (e : Event) : Event :=
  if e.st.tables.shadow = .retiring then refuse 0x23 tag .busy e
  else accept 0x23 tag tableAnswer (e.upd (modifyTables discarded))

/-! ### Validation and commit (R27 to R29) -/

/-- R28: the causes of a failing entry. -/
inductive OverlapCause where
  | rangeEnd
  /-- an earlier enabled entry with this index carries the same prefix -/
  | samePrefix (index : Nat)
  /-- an earlier enabled entry with this index shares a slot -/
  | slots (index : Nat)
  deriving DecidableEq, Repr

/-- R28: two enabled entries' slot ranges share a slot. -/
def slotsMeet (p q : Program) : Bool :=
  decide (p.baseSlot < q.baseSlot + q.slotCount) && decide (q.baseSlot < p.baseSlot + p.slotCount)

/-- R28: why entry `i` of a table set fails, if it does. Where more than one condition holds, R28 gives no order of the
causes: the model takes RANGE_END before PREFIX before SLOTS, and the lowest index in conflict by that cause alone (log
28, the model's choice). -/
def entryFault (t : TableSet) (i : Nat) : Option OverlapCause :=
  let p := t.program i
  let earlier := fun (f : Program → Bool) => (List.range i).find? (fun j => (t.program j).enabled && f (t.program j))
  if !p.enabled then none
  else if Config.slotCount < p.baseSlot + p.slotCount then some .rangeEnd
  else match earlier (fun q => decide (q.digits = p.digits)) with
    | some j => some (.samePrefix j)
    | none =>
      match earlier (slotsMeet p) with
      | some j => some (.slots j)
      | none => none

/-- R28: the first failing entry, with its cause. -/
def validation (t : TableSet) : Option (Nat × OverlapCause) :=
  (List.range 16).findSome? (fun i => (entryFault t i).map (fun c => (i, c)))

/-- R28: the detail of an OVERLAP refusal: the failing index, the cause (its code is free, log 10), and for PREFIX and
SLOTS the conflicting index. -/
def overlapDetail (i : Nat) : OverlapCause → List Octet
  | .rangeEnd => octets 1 i ++ [Config.overlapCode 0]
  | .samePrefix j => octets 1 i ++ [Config.overlapCode 1] ++ octets 1 j
  | .slots j => octets 1 i ++ [Config.overlapCode 2] ++ octets 1 j

/-- R29: the roles swapped under a new generation; the old active bank keeps its tag and count and is RETIRING. -/
def swapped (t : Tables) : Tables :=
  let g := t.generation + 1
  match t.active with
  | .a => { t with active := .b, generation := g, bankB := { t.bankB with tag := some g }, shadow := .retiring }
  | .b => { t with active := .a, generation := g, bankA := { t.bankA with tag := some g }, shadow := .retiring }

/-- R27, R29: COMMIT TABLES. -/
def doCommitTables (tag : BitVec 16) (e : Event) : Event :=
  if e.st.tables.shadow ≠ .loaded then refuse 0x24 tag .wrongState e
  else if e.st.cycle.closing = .computing then refuse 0x24 tag .busy e
  else match validation (shadowBank e.st.tables).tables with
    | some (i, c) =>
      e.replying { code := 0x24, tag := tag, refusal := some .overlap, fields := fun _ => overlapDetail i c }
    | none =>
      accept 0x24 tag
        (fun s => octets 1 s.tables.generation.toNat ++ octets 1 (shadowCode s.tables.shadow)
          ++ octets 1 (shadowBank s.tables).count)
        (endRetirement (e.upd (modifyTables swapped)))

/-- R34: TABLE READ. -/
def doTableRead (tag : BitVec 16) (bank table : BitVec 8) (index : BitVec 16) (e : Event) : Event :=
  let fits := match table.toNat with
    | 0 | 1 => decide (index.toNat < 16)
    | 2 => decide (index.toNat < Config.shopCount)
    | _ => false
  if fits && decide (bank.toNat < 2) then
    accept 0x25 tag (fun s =>
      let t := (if bank = 0#8 then activeBank s.tables else shadowBank s.tables).tables
      let i := index.toNat
      (match table.toNat with
        | 0 => programOctets i (t.program i)
        | 1 => feeOctets i (t.feeClass i)
        | _ => termsOctets i (t.shopTerms i))
        ++ octets 1 s.tables.generation.toNat ++ octets 1 (shadowCode s.tables.shadow)
        ++ octets 1 (activeBank s.tables).count ++ octets 1 (shadowBank s.tables).count) e
  else refuse 0x25 tag .badField e

/-! ### Meanings -/

/-- LOAD_PROGRAM (R21, R25). -/
def execLoadProgram (tag : BitVec 16) (index : BitVec 8) (fields : ProgramFields) (s : State) :
    Host.Outcome State Fault Refusal :=
  .next (command 0x20 tag (doLoadProgram tag index fields) s)

/-- LOAD_FEE_CLASS (R23, R25). -/
def execLoadFeeClass (tag : BitVec 16) (index : BitVec 8) (fields : FeeFields) (s : State) :
    Host.Outcome State Fault Refusal :=
  .next (command 0x21 tag (doLoadFeeClass tag index fields) s)

/-- LOAD_SHOP_TERMS (R24, R25). -/
def execLoadShopTerms (tag : BitVec 16) (shop : BitVec 16) (fields : TermsFields) (s : State) :
    Host.Outcome State Fault Refusal :=
  .next (command 0x22 tag (doLoadShopTerms tag shop fields) s)

/-- DISCARD_SHADOW (R26). -/
def execDiscardShadow (tag : BitVec 16) (s : State) : Host.Outcome State Fault Refusal :=
  .next (command 0x23 tag (doDiscardShadow tag) s)

/-- COMMIT_TABLES (R27, R29). -/
def execCommitTables (tag : BitVec 16) (s : State) : Host.Outcome State Fault Refusal :=
  .next (command 0x24 tag (doCommitTables tag) s)

/-- TABLE_READ (R34). -/
def execTableRead (tag : BitVec 16) (bank table : BitVec 8) (index : BitVec 16) (s : State) :
    Host.Outcome State Fault Refusal :=
  .next (command 0x25 tag (doTableRead tag bank table index) s)

end Sys2Proof.Machine
end

