-- ==== Sys2Proof/Machine/Frames.lean ====
section
/-! DEFINITION. Management frames (11.4, 11.6, R190): the octets of every management command, and the management unit's
dealing with the octets of a frame (R171). -/

namespace Sys2Proof.Machine

/-! ### Parameters written (R190) -/

/-- A field of the frame, most significant octet first. -/
def fieldOctets {w : Nat} (n : Nat) (b : BitVec w) : List Octet := octets n b.toNat

/-- The card record image as CARD LOAD carries it, 21 octets. -/
def imageOctets (i : RecordImage) : List Octet :=
  fieldOctets 1 i.state ++ fieldOctets 1 i.presence ++ fieldOctets 3 i.balance ++ fieldOctets 3 i.held
    ++ fieldOctets 1 i.holdCount ++ fieldOctets 2 i.issueShop ++ fieldOctets 2 i.activationDay
    ++ fieldOctets 2 i.expiryDay ++ fieldOctets 2 i.lastActivity ++ fieldOctets 4 i.sequence

/-- Four card record images. -/
def imagesOctets (i : FourImages) : List Octet :=
  imageOctets i.first ++ imageOctets i.second ++ imageOctets i.third ++ imageOctets i.fourth

/-- The parameters of CARD ADJUST after its slot. -/
def adjustOctets (f : AdjustFields) : List Octet :=
  fieldOctets 1 f.mask ++ fieldOctets 1 f.state ++ fieldOctets 2 f.expiryDay ++ fieldOctets 4 f.change

/-- The parameters of LOAD PROGRAM after its index. -/
def programFieldOctets (f : ProgramFields) : List Octet :=
  fieldOctets 3 f.digits ++ fieldOctets 1 f.flags ++ fieldOctets 3 f.baseSlot ++ fieldOctets 3 f.slotCount
    ++ fieldOctets 3 f.minLoad ++ fieldOctets 3 f.maxLoad ++ fieldOctets 3 f.maxBalance ++ fieldOctets 3 f.openCap
    ++ fieldOctets 1 f.tolerance ++ fieldOctets 3 f.lifetime ++ fieldOctets 2 f.expiryDays ++ fieldOctets 3 f.standInLimit

/-- The parameters of LOAD FEE CLASS after its index. -/
def feeFieldOctets (f : FeeFields) : List Octet :=
  fieldOctets 2 f.redemptionRate ++ fieldOctets 2 f.fixedFee ++ fieldOctets 2 f.commissionRate
    ++ fieldOctets 3 f.minPayout ++ fieldOctets 3 f.collectAt ++ fieldOctets 1 f.flags

/-- The parameters of LOAD SHOP TERMS after its shop. -/
def termsFieldOctets (f : TermsFields) : List Octet :=
  fieldOctets 1 f.feeClass ++ fieldOctets 3 f.limit ++ fieldOctets 1 f.flags

/-- What a management command carries after the destination: its code, its tag and its parameters. -/
structure Payload where
  code : BitVec 8
  tag : BitVec 16
  params : List Octet
  deriving DecidableEq, Repr

/-- 11.6, R190: the payload of a management command; none for an event. -/
def payload : Instr → Option Payload
  | .powerOnReset _ => none
  | .frameReceived _ _ => none
  | .fetchComplete _ => none
  | .writeBackStart _ => none
  | .writeBackComplete _ => none
  | .waitListServe => none
  | .activatePosting _ => none
  | .reloadPosting _ => none
  | .redeemPosting _ => none
  | .balancePosting _ => none
  | .holdPosting _ => none
  | .completePosting _ => none
  | .releasePosting _ => none
  | .holdExpiredPosting _ => none
  | .refundPosting _ => none
  | .voidPosting _ => none
  | .cardReadPosting _ => none
  | .cardAdjustPosting _ => none
  | .cardLoadReplacementPosting _ => none
  | .auditVisit _ => none
  | .clockTick => none
  | .windowEnd => none
  | .graceEnd => none
  | .sweepSelection => none
  | .closingSetFrozen => none
  | .payoutTakeUp => none
  | .payoutStep => none
  | .cycleTotalAppend => none
  | .closingSetClear => none
  | .statusRead tag => some ⟨0x01, tag, []⟩
  | .setNoticeMask tag masks => some ⟨0x02, tag, fieldOctets 1 masks⟩
  | .noticeAck tag cats => some ⟨0x03, tag, fieldOctets 1 cats⟩
  | .setClock tag clock => some ⟨0x04, tag, fieldOctets 4 clock⟩
  | .setConfig tag trip t1 t2 grace =>
    some ⟨0x05, tag, fieldOctets 1 trip ++ fieldOctets 1 t1 ++ fieldOctets 1 t2 ++ fieldOctets 2 grace⟩
  | .journalRead tag => some ⟨0x06, tag, []⟩
  | .journalTake tag count => some ⟨0x07, tag, fieldOctets 1 count⟩
  | .linkReset tag => some ⟨0x08, tag, []⟩
  | .beginLoad tag => some ⟨0x10, tag, []⟩
  | .cardLoadFirst tag block images => some ⟨0x11, tag, fieldOctets 3 block ++ imagesOctets images⟩
  | .cardLoadLast tag block images => some ⟨0x12, tag, fieldOctets 3 block ++ imagesOctets images⟩
  | .storeReady tag => some ⟨0x13, tag, []⟩
  | .flush tag => some ⟨0x14, tag, []⟩
  | .audit tag => some ⟨0x15, tag, []⟩
  | .cardRead tag slot => some ⟨0x16, tag, fieldOctets 3 slot⟩
  | .cardAdjust tag slot fields => some ⟨0x17, tag, fieldOctets 3 slot ++ adjustOctets fields⟩
  | .loadProgram tag index fields => some ⟨0x20, tag, fieldOctets 1 index ++ programFieldOctets fields⟩
  | .loadFeeClass tag index fields => some ⟨0x21, tag, fieldOctets 1 index ++ feeFieldOctets fields⟩
  | .loadShopTerms tag shop fields => some ⟨0x22, tag, fieldOctets 2 shop ++ termsFieldOctets fields⟩
  | .discardShadow tag => some ⟨0x23, tag, []⟩
  | .commitTables tag => some ⟨0x24, tag, []⟩
  | .tableRead tag bank table index =>
    some ⟨0x25, tag, fieldOctets 1 bank ++ fieldOctets 1 table ++ fieldOctets 2 index⟩
  | .holdRead tag ref => some ⟨0x30, tag, fieldOctets 4 ref⟩
  | .entryRead tag ref => some ⟨0x31, tag, fieldOctets 4 ref⟩
  | .cutover tag => some ⟨0x38, tag, []⟩
  | .freeze tag => some ⟨0x39, tag, []⟩
  | .rowRead tag set row => some ⟨0x3A, tag, fieldOctets 1 set ++ fieldOctets 2 row⟩
  | .carryRead tag shop => some ⟨0x40, tag, fieldOctets 2 shop⟩
  | .carrySet tag shop carry => some ⟨0x41, tag, fieldOctets 2 shop ++ fieldOctets 4 carry⟩
  | .payoutRead tag => some ⟨0x42, tag, []⟩
  | .payoutTake tag count => some ⟨0x43, tag, fieldOctets 1 count⟩
  | .setShopMode tag shop mode => some ⟨0x48, tag, fieldOctets 2 shop ++ fieldOctets 1 mode⟩
  | .suspend tag shop => some ⟨0x49, tag, fieldOctets 2 shop⟩
  | .resume tag shop => some ⟨0x4A, tag, fieldOctets 2 shop⟩
  | .counterRead tag selector flags => some ⟨0x4B, tag, fieldOctets 2 selector ++ fieldOctets 1 flags⟩
  | .counterClear tag selector => some ⟨0x4C, tag, fieldOctets 2 selector⟩
  | .shopScan tag shop => some ⟨0x4D, tag, fieldOctets 2 shop⟩
  | .frameStartDelimiter _ => none
  | .frameReaches601 _ => none
  | .transmitterFrameSent _ => none

/-- 11.4: the management frame of a payload, its check included. -/
def managementFrame (address : BitVec 8) (p : Payload) : Frame :=
  withCheck (octets 1 0x4D ++ octets 1 address.toNat ++ octets 1 p.code.toNat ++ octets 2 p.tag.toNat ++ p.params)

/-! ### Parameters read (R171, R190) -/

/-- The bits of the `n` octets from offset `o`. -/
def bitsAt (w : Nat) (p : List Octet) (o n : Nat) : BitVec w := BitVec.ofNat w (field p o n)

/-- A card record image at an offset. -/
def imageAt (p : List Octet) (o : Nat) : RecordImage where
  state := bitsAt 8 p o 1
  presence := bitsAt 8 p (o + 1) 1
  balance := bitsAt 24 p (o + 2) 3
  held := bitsAt 24 p (o + 5) 3
  holdCount := bitsAt 8 p (o + 8) 1
  issueShop := bitsAt 16 p (o + 9) 2
  activationDay := bitsAt 16 p (o + 11) 2
  expiryDay := bitsAt 16 p (o + 13) 2
  lastActivity := bitsAt 16 p (o + 15) 2
  sequence := bitsAt 32 p (o + 17) 4

/-- The four card record images behind a block number. -/
def imagesAt (p : List Octet) : FourImages := ⟨imageAt p 3, imageAt p 24, imageAt p 45, imageAt p 66⟩

/-- The parameters of CARD ADJUST after its slot. -/
def adjustAt (p : List Octet) : AdjustFields := ⟨bitsAt 8 p 3 1, bitsAt 8 p 4 1, bitsAt 16 p 5 2, bitsAt 32 p 7 4⟩

/-- The parameters of LOAD PROGRAM after its index. -/
def programAt (p : List Octet) : ProgramFields where
  digits := bitsAt 24 p 1 3
  flags := bitsAt 8 p 4 1
  baseSlot := bitsAt 24 p 5 3
  slotCount := bitsAt 24 p 8 3
  minLoad := bitsAt 24 p 11 3
  maxLoad := bitsAt 24 p 14 3
  maxBalance := bitsAt 24 p 17 3
  openCap := bitsAt 24 p 20 3
  tolerance := bitsAt 8 p 23 1
  lifetime := bitsAt 24 p 24 3
  expiryDays := bitsAt 16 p 27 2
  standInLimit := bitsAt 24 p 29 3

/-- The parameters of LOAD FEE CLASS after its index. -/
def feeAt (p : List Octet) : FeeFields :=
  ⟨bitsAt 16 p 1 2, bitsAt 16 p 3 2, bitsAt 16 p 5 2, bitsAt 24 p 7 3, bitsAt 24 p 10 3, bitsAt 8 p 13 1⟩

/-- The parameters of LOAD SHOP TERMS after its shop. -/
def termsAt (p : List Octet) : TermsFields := ⟨bitsAt 8 p 2 1, bitsAt 24 p 3 3, bitsAt 8 p 6 1⟩

/-- A command of 11.6: its number of parameter octets, and its checks and effects under a tag, read from them. -/
structure CommandEntry where
  length : Nat
  run : BitVec 16 → List Octet → Event → Event

/-- 11.6: the commands by code; a code outside the table is none. -/
def commandTable (code : BitVec 8) : Option CommandEntry :=
  match code.toNat with
  | 0x01 => some ⟨0, fun tag _ => doStatusRead tag⟩
  | 0x02 => some ⟨1, fun tag p => doSetNoticeMask tag (bitsAt 8 p 0 1)⟩
  | 0x03 => some ⟨1, fun tag p => doNoticeAck tag (bitsAt 8 p 0 1)⟩
  | 0x04 => some ⟨4, fun tag p => doSetClock tag (bitsAt 32 p 0 4)⟩
  | 0x05 => some ⟨5, fun tag p => doSetConfig tag (bitsAt 8 p 0 1) (bitsAt 8 p 1 1) (bitsAt 8 p 2 1) (bitsAt 16 p 3 2)⟩
  | 0x06 => some ⟨0, fun tag _ => doJournalRead tag⟩
  | 0x07 => some ⟨1, fun tag p => doJournalTake tag (bitsAt 8 p 0 1)⟩
  | 0x08 => some ⟨0, fun tag _ => doLinkReset tag⟩
  | 0x10 => some ⟨0, fun tag _ => doBeginLoad tag⟩
  | 0x11 => some ⟨87, fun tag p => doCardLoadFirst tag (bitsAt 24 p 0 3) (imagesAt p)⟩
  | 0x12 => some ⟨87, fun tag p => doCardLoadLast tag (imagesAt p)⟩
  | 0x13 => some ⟨0, fun tag _ => doStoreReady tag⟩
  | 0x14 => some ⟨0, fun tag _ => doFlush tag⟩
  | 0x15 => some ⟨0, fun tag _ => doAudit tag⟩
  | 0x16 => some ⟨3, fun tag p => doCardRead tag (bitsAt 24 p 0 3)⟩
  | 0x17 => some ⟨11, fun tag p => doCardAdjust tag (bitsAt 24 p 0 3) (adjustAt p)⟩
  | 0x20 => some ⟨32, fun tag p => doLoadProgram tag (bitsAt 8 p 0 1) (programAt p)⟩
  | 0x21 => some ⟨14, fun tag p => doLoadFeeClass tag (bitsAt 8 p 0 1) (feeAt p)⟩
  | 0x22 => some ⟨7, fun tag p => doLoadShopTerms tag (bitsAt 16 p 0 2) (termsAt p)⟩
  | 0x23 => some ⟨0, fun tag _ => doDiscardShadow tag⟩
  | 0x24 => some ⟨0, fun tag _ => doCommitTables tag⟩
  | 0x25 => some ⟨4, fun tag p => doTableRead tag (bitsAt 8 p 0 1) (bitsAt 8 p 1 1) (bitsAt 16 p 2 2)⟩
  | 0x30 => some ⟨4, fun tag p => doHoldRead tag (bitsAt 32 p 0 4)⟩
  | 0x31 => some ⟨4, fun tag p => doEntryRead tag (bitsAt 32 p 0 4)⟩
  | 0x38 => some ⟨0, fun tag _ => doCutover tag⟩
  | 0x39 => some ⟨0, fun tag _ => doFreeze tag⟩
  | 0x3A => some ⟨3, fun tag p => doRowRead tag (bitsAt 8 p 0 1) (bitsAt 16 p 1 2)⟩
  | 0x40 => some ⟨2, fun tag p => doCarryRead tag (bitsAt 16 p 0 2)⟩
  | 0x41 => some ⟨6, fun tag p => doCarrySet tag (bitsAt 16 p 0 2) (bitsAt 32 p 2 4)⟩
  | 0x42 => some ⟨0, fun tag _ => doPayoutRead tag⟩
  | 0x43 => some ⟨1, fun tag p => doPayoutTake tag (bitsAt 8 p 0 1)⟩
  | 0x48 => some ⟨3, fun tag p => doSetShopMode tag (bitsAt 16 p 0 2) (bitsAt 8 p 2 1)⟩
  | 0x49 => some ⟨2, fun tag p => doSuspend tag (bitsAt 16 p 0 2)⟩
  | 0x4A => some ⟨2, fun tag p => doResume tag (bitsAt 16 p 0 2)⟩
  | 0x4B => some ⟨3, fun tag p => doCounterRead tag (bitsAt 16 p 0 2) (bitsAt 8 p 2 1)⟩
  | 0x4C => some ⟨2, fun tag p => doCounterClear tag (bitsAt 16 p 0 2)⟩
  | 0x4D => some ⟨2, fun tag p => doShopScan tag (bitsAt 16 p 0 2)⟩
  | _ => none

/-- R171 steps 5 and 6: the fixed length of the command's octets, five before its parameters, and then the command
itself. A wrong-length CARD LOAD LAST that passes step 4 discards the pending FIRST (R43). -/
def runEntry (code : BitVec 8) (tag : BitVec 16) (c : CommandEntry) (body : List Octet) (e : Event) : Event :=
  if body.length = 5 + c.length then c.run tag (body.drop 5) e
  else refuse code tag .badField (if code = 0x12#8 then e.upd dropFirst else e)

/-- R171: the management unit deals with the octets of a frame before its check. R189: a code or tag that the frame is
too short to hold is answered as 0. -/
def dealWith (body : List Octet) (e : Event) : Event :=
  let code : BitVec 8 := if 3 ≤ body.length then bitsAt 8 body 2 1 else 0
  let tag : BitVec 16 := if 5 ≤ body.length then bitsAt 16 body 3 2 else 0
  if field body 0 1 ≠ 0x4D ∨ body.length < 3 then refuse code tag .unknownCommand e
  else match commandTable code with
    | none => refuse code tag .unknownCommand e
    | some c =>
      let completes := decide (code = 0x12#8) && decide (8 ≤ body.length) && pendingBlock e.st (field body 5 3)
      unitGate code tag completes (runEntry code tag c body) e

end Sys2Proof.Machine
end

