-- ==== Sys2Proof/Machine/Ports.lean ====
section
/-! DEFINITION. The two receivers and transmitters (R1, R2, R5, R6, R187) and power-on reset. -/

namespace Sys2Proof.Machine

/-! ### The receivers (R1, R187) -/

/-- The receiver of a port. -/
def receiver (p : Port) (s : State) : Receiver :=
  match p with
  | .shop => s.sRx
  | .office => s.oRx

/-- The receiver of a port replaced. -/
def setReceiver (p : Port) (r : Receiver) (s : State) : State :=
  match p with
  | .shop => { s with sRx := r }
  | .office => { s with oRx := r }

/-- R3, R181: one oversize frame counted. -/
def countOversize (p : Port) (s : State) : State :=
  match p with
  | .shop => { s with sCount := { s.sCount with oversize := s.sCount.oversize + 1 } }
  | .office => { s with oCount := { s.oCount with oversize := s.oCount.oversize + 1 } }

/-- R3, R181: one runt counted. -/
def countRunt (p : Port) (s : State) : State :=
  match p with
  | .shop => { s with sCount := { s.sCount with runts := s.sCount.runts + 1 } }
  | .office => { s with oCount := { s.oCount with runts := s.oCount.runts + 1 } }

/-- R3, R181: one check failure counted. -/
def countCheckFailure (p : Port) (s : State) : State :=
  match p with
  | .shop => { s with sCount := { s.sCount with checkFailures := s.sCount.checkFailures + 1 } }
  | .office => { s with oCount := { s.oCount with checkFailures := s.oCount.checkFailures + 1 } }

/-- R1: a data octet added to the frame of a RECEIVING receiver; none when the frame reaches 601 octets. -/
def addOctet (b : Octet) (r : Receiver) : Option Receiver :=
  let f := r.frame ++ [b]
  if f.length < Config.oversizeAt then some { r with frame := f, escape := false } else none

/-- R187: an octet other than a delimiter taken by a RECEIVING receiver: an escape is remembered, the octet after it has
its bit 5 inverted, and one that no escape may stand before spoils the frame. -/
def takeData (b : Octet) (r : Receiver) : Option Receiver :=
  if r.escape then
    addOctet (b ^^^ 0x20#8) { r with bad := r.bad || !(b == 0x5E#8 || b == 0x5D#8) }
  else if b = 0x7D#8 then some { r with escape := true }
  else addOctet b r

/-- R1: an octet other than a delimiter at a port. A frame that reaches 601 octets is counted oversize and nothing of it is
kept, also when it holds a bad escape, so that it is no check failure besides (log 17, the model's choice). -/
def takeOctet (p : Port) (b : Octet) (s : State) : State :=
  let r := receiver p s
  match r.state with
  | .receiving =>
    match takeData b r with
    | some r1 => setReceiver p r1 s
    | none => countOversize p (setReceiver p { state := .discarding } s)
  | _ => s

/-! ### Checked frames (R4, R5) -/

/-- R5: a checked frame of the O-port, and its counts: the unit address in octet 1 makes it a management frame. -/
def officeFrame (f : Frame) (e : Event) : Event :=
  let body := f.take (f.length - 2)
  if 2 ≤ body.length ∧ field body 1 1 = e.st.unitAddress.toNat then dealWith body (e.upd countArrival)
  else e.upd fun s =>
    { s with
      sTx := s.sTx ++ [f]
      oCount := { s.oCount with received := s.oCount.received + 1, forwarded := s.oCount.forwarded + 1 } }

/-- A checked frame counted and passed to the classifier of its port. -/
def checkedFrame (p : Port) (f : Frame) (e : Event) : Event :=
  match p with
  | .shop => shopFrame f (e.upd fun s => { s with sCount := { s.sCount with received := s.sCount.received + 1 } })
  | .office => officeFrame f e

/-- R1, R2, R187: the end of a frame of a RECEIVING receiver: idle fill, a bad escape, a runt, or the frame check. -/
def endFrame (p : Port) (r : Receiver) (e : Event) : Event :=
  if r.bad || r.escape then e.upd (countCheckFailure p)
  else if r.frame.isEmpty then e
  else if r.frame.length < 3 then e.upd (countRunt p)
  else if checkAgrees r.frame then checkedFrame p r.frame e
  else e.upd (countCheckFailure p)

/-- R1: a delimiter at a port. It leaves the receiver RECEIVING with an empty frame, whatever its state, before what the
frame it ends brings about. -/
def delimiter (p : Port) (e : Event) : Event :=
  let r := receiver p e.st
  let e1 := e.upd (setReceiver p { state := .receiving })
  match r.state with
  | .receiving => endFrame p r e1
  | _ => e1

/-- The octets of a port as they come, and then the closing delimiter, whose event deals with the frame. -/
def receive (p : Port) : List Octet → State → State
  | [], s => event (delimiter p) s
  | b :: t, s => receive p t (if b = 0x7E#8 then event (delimiter p) s else takeOctet p b s)

/-! ### The transmitters (R6, R187) -/

/-- R6, R187: the frame at the head of a transmitter has been sent whole, its octets between two delimiters and with the
escapes on the port's line; an empty transmitter has sent nothing. -/
def sendHead (p : Port) (s : State) : State :=
  match p with
  | .shop =>
    match s.sTx with
    | f :: rest => { s with sTx := rest, sSent := wireFrame f }
    | [] => s
  | .office =>
    match s.oTx with
    | f :: rest => { s with oTx := rest, oSent := wireFrame f }
    | [] => s

/-! ### Power-on reset -/

/-- The power-on values with the unit address read from the straps (R5). The queue of waiting commands is not the part's,
and the count of draws is the model's own. -/
def powerOn (straps : BitVec 4) (s : State) : State :=
  { pending := s.pending, draws := s.draws, unitAddress := 0xB0 + straps.zeroExtend 8 }

/-! ### Meanings -/

/-- POWER_ON_RESET (R133, R176): the power-on values, and RESET_SEEN raised in the reset's own event. -/
def execPowerOnReset (straps : BitVec 4) (s : State) : Host.Outcome State Fault Refusal :=
  .next (event (·.raising catReset) (powerOn straps s))

/-- FRAME_RECEIVED (R2): the octets between two delimiters, escapes included, and the closing delimiter. -/
def execFrameReceived (port : Port) (octets : List Octet) (s : State) : Host.Outcome State Fault Refusal :=
  .next (receive port octets s)

/-- FRAME_START_DELIMITER (R1). -/
def execFrameStartDelimiter (port : Port) (s : State) : Host.Outcome State Fault Refusal :=
  .next (event (delimiter port) s)

/-- FRAME_REACHES_601_OCTETS (R1). -/
def execFrameReaches601 (port : Port) (s : State) : Host.Outcome State Fault Refusal :=
  .next (match (receiver port s).state with
    | .receiving => countOversize port (setReceiver port { state := .discarding } s)
    | _ => s)

/-- TRANSMITTER_FRAME_SENT (R6, R187): the frame at the head of a transmitter has been sent in its wire form. -/
def execTransmitterFrameSent (port : Port) (s : State) : Host.Outcome State Fault Refusal :=
  .next (sendHead port s)

end Sys2Proof.Machine
end

