-- ==== Sys2Proof/Machine/Dispatch.lean ====
section
/-! DEFINITION. Which meaning each command has. -/

namespace Sys2Proof.Machine

/-- The effect of a command on everything but the queue of waiting commands. -/
def exec (i : Instr) (s : State) : Host.Outcome State Fault Refusal :=
  match i with
  | .powerOnReset straps => Sys2Proof.Machine.execPowerOnReset straps s
  | .frameReceived port octets => Sys2Proof.Machine.execFrameReceived port octets s
  | .fetchComplete bank => Sys2Proof.Machine.execFetchComplete bank s
  | .writeBackStart line => Sys2Proof.Machine.execWriteBackStart line s
  | .writeBackComplete bank => Sys2Proof.Machine.execWriteBackComplete bank s
  | .waitListServe => Sys2Proof.Machine.execWaitListServe s
  | .activatePosting line => Sys2Proof.Machine.execActivatePosting line s
  | .reloadPosting line => Sys2Proof.Machine.execReloadPosting line s
  | .redeemPosting line => Sys2Proof.Machine.execRedeemPosting line s
  | .balancePosting line => Sys2Proof.Machine.execBalancePosting line s
  | .holdPosting line => Sys2Proof.Machine.execHoldPosting line s
  | .completePosting line => Sys2Proof.Machine.execCompletePosting line s
  | .releasePosting line => Sys2Proof.Machine.execReleasePosting line s
  | .holdExpiredPosting line => Sys2Proof.Machine.execHoldExpiredPosting line s
  | .refundPosting line => Sys2Proof.Machine.execRefundPosting line s
  | .voidPosting line => Sys2Proof.Machine.execVoidPosting line s
  | .cardReadPosting line => Sys2Proof.Machine.execCardReadPosting line s
  | .cardAdjustPosting line => Sys2Proof.Machine.execCardAdjustPosting line s
  | .cardLoadReplacementPosting line => Sys2Proof.Machine.execCardLoadReplacementPosting line s
  | .auditVisit line => Sys2Proof.Machine.execAuditVisit line s
  | .clockTick => Sys2Proof.Machine.execClockTick s
  | .windowEnd => Sys2Proof.Machine.execWindowEnd s
  | .graceEnd => Sys2Proof.Machine.execGraceEnd s
  | .sweepSelection => Sys2Proof.Machine.execSweepSelection s
  | .closingSetFrozen => Sys2Proof.Machine.execClosingSetFrozen s
  | .payoutTakeUp => Sys2Proof.Machine.execPayoutTakeUp s
  | .payoutStep => Sys2Proof.Machine.execPayoutStep s
  | .cycleTotalAppend => Sys2Proof.Machine.execCycleTotalAppend s
  | .closingSetClear => Sys2Proof.Machine.execClosingSetClear s
  | .statusRead tag => Sys2Proof.Machine.execStatusRead tag s
  | .setNoticeMask tag masks => Sys2Proof.Machine.execSetNoticeMask tag masks s
  | .noticeAck tag cats => Sys2Proof.Machine.execNoticeAck tag cats s
  | .setClock tag clock => Sys2Proof.Machine.execSetClock tag clock s
  | .setConfig tag trip t1 t2 grace => Sys2Proof.Machine.execSetConfig tag trip t1 t2 grace s
  | .journalRead tag => Sys2Proof.Machine.execJournalRead tag s
  | .journalTake tag count => Sys2Proof.Machine.execJournalTake tag count s
  | .linkReset tag => Sys2Proof.Machine.execLinkReset tag s
  | .beginLoad tag => Sys2Proof.Machine.execBeginLoad tag s
  | .cardLoadFirst tag block images => Sys2Proof.Machine.execCardLoadFirst tag block images s
  | .cardLoadLast tag block images => Sys2Proof.Machine.execCardLoadLast tag block images s
  | .storeReady tag => Sys2Proof.Machine.execStoreReady tag s
  | .flush tag => Sys2Proof.Machine.execFlush tag s
  | .audit tag => Sys2Proof.Machine.execAudit tag s
  | .cardRead tag slot => Sys2Proof.Machine.execCardRead tag slot s
  | .cardAdjust tag slot fields => Sys2Proof.Machine.execCardAdjust tag slot fields s
  | .loadProgram tag index fields => Sys2Proof.Machine.execLoadProgram tag index fields s
  | .loadFeeClass tag index fields => Sys2Proof.Machine.execLoadFeeClass tag index fields s
  | .loadShopTerms tag shop fields => Sys2Proof.Machine.execLoadShopTerms tag shop fields s
  | .discardShadow tag => Sys2Proof.Machine.execDiscardShadow tag s
  | .commitTables tag => Sys2Proof.Machine.execCommitTables tag s
  | .tableRead tag bank table index => Sys2Proof.Machine.execTableRead tag bank table index s
  | .holdRead tag ref => Sys2Proof.Machine.execHoldRead tag ref s
  | .entryRead tag ref => Sys2Proof.Machine.execEntryRead tag ref s
  | .cutover tag => Sys2Proof.Machine.execCutover tag s
  | .freeze tag => Sys2Proof.Machine.execFreeze tag s
  | .rowRead tag set row => Sys2Proof.Machine.execRowRead tag set row s
  | .carryRead tag shop => Sys2Proof.Machine.execCarryRead tag shop s
  | .carrySet tag shop carry => Sys2Proof.Machine.execCarrySet tag shop carry s
  | .payoutRead tag => Sys2Proof.Machine.execPayoutRead tag s
  | .payoutTake tag count => Sys2Proof.Machine.execPayoutTake tag count s
  | .setShopMode tag shop mode => Sys2Proof.Machine.execSetShopMode tag shop mode s
  | .suspend tag shop => Sys2Proof.Machine.execSuspend tag shop s
  | .resume tag shop => Sys2Proof.Machine.execResume tag shop s
  | .counterRead tag selector flags => Sys2Proof.Machine.execCounterRead tag selector flags s
  | .counterClear tag selector => Sys2Proof.Machine.execCounterClear tag selector s
  | .shopScan tag shop => Sys2Proof.Machine.execShopScan tag shop s
  | .frameStartDelimiter port => Sys2Proof.Machine.execFrameStartDelimiter port s
  | .frameReaches601 port => Sys2Proof.Machine.execFrameReaches601 port s
  | .transmitterFrameSent port => Sys2Proof.Machine.execTransmitterFrameSent port s

end Sys2Proof.Machine
end

