-- ==== Sys2Proof/Safety.lean ====
section
/-! DEFINITION. What counts as a sound state of the part: the invariants that chapters 1 to 10 state about "every event", as
decidable conditions on plain data. Each is one obligation's, so that the ones a step keeps by itself stand apart from those
that need others. -/

namespace Sys2Proof.Machine

/-- The numbered tables of the part are in canonical form, and the sets of numbers strictly rising: equal memories are
equal data. -/
structure State.TablesCanonical (s : State) : Prop where
  lanes : canonical {} s.lanes = true
  store : canonical [] s.store.copies = true
  valid : rising s.store.valid = true
  lines : canonical {} s.buffer.lines = true
  queues : canonical [] s.buffer.queues = true
  ring : canonical none s.journal.ring = true
  shops : canonical {} s.supervision.shops = true
  carries : canonical 0 s.payout.carries = true
  rowsX : canonical {} s.cycle.setX.rows = true
  rowsY : canonical {} s.cycle.setY.rows = true
  programsA : canonical {} s.tables.bankA.tables.programs = true
  classesA : canonical {} s.tables.bankA.tables.classes = true
  termsA : canonical {} s.tables.bankA.tables.terms = true
  programsB : canonical {} s.tables.bankB.tables.programs = true
  classesB : canonical {} s.tables.bankB.tables.classes = true
  termsB : canonical {} s.tables.bankB.tables.terms = true

/-- R184: the stand-in level is the level of the committed load. -/
def State.LevelAgrees (s : State) : Prop := s.journalOut.level = levelOf (committedLoad s)

/-- R150: the payout queue holds at most 64 records. -/
def State.PayoutFits (s : State) : Prop := s.payout.queue.length ≤ Config.payoutPlaces

/-- R157: a CLOSED shop has an empty cause set and a NORMAL alarm state, and no bad or good windows counted. -/
def State.ClosedShopsRest (s : State) : Prop :=
  ∀ n, (s.shop n).mode = .closed →
    (s.shop n).management = false ∧ (s.shop n).alarmCause = false ∧ (s.shop n).alarm = .normal
      ∧ (s.shop n).badWindows = 0 ∧ (s.shop n).goodWindows = 0

/-- R49: a bank queue holds at most eight operations. -/
def State.QueuesFit (s : State) : Prop := ∀ k, (s.queue k).length ≤ Config.bankPlaces

/-- R14: the in-flight set holds at most 64 entries. -/
def State.InFlightFits (s : State) : Prop := s.inFlight.length ≤ Config.inFlightPlaces

/-- R1, R187: a frame that is being received has fewer than 601 octets. -/
def State.FramesFit (s : State) : Prop :=
  s.sRx.frame.length < Config.oversizeAt ∧ s.oRx.frame.length < Config.oversizeAt

/-- R183: the reservation count is the number of in-flight entries whose reservation mark is set; the entries have distinct
serial numbers, below the next one. -/
structure State.ReservationsAgree (s : State) : Prop where
  count : s.journalOut.reservations = (s.inFlight.filter (fun x => x.reserved)).length
  distinct : (s.inFlight.map (·.id)).Nodup
  below : ∀ x ∈ s.inFlight, x.id < s.nextId

/-- Whether an in-flight entry may write a journal entry at its posting (R100). A request in training writes none (R75);
HOLD_EXPIRED and ADJUST are never in training (R78, R92) and their postings heed no training mark. -/
def mayWrite (x : InFlight) : Bool :=
  match x.kind with
  | .balance | .cardRead | .cardLoad => false
  | .holdExpired | .adjust => true
  | .activate | .reload | .redeem | .hold | .complete | .release | .refund | .void => !x.training

/-- R183: Journal Out with its reservations never passes 512, because every entry that may write has reserved a place. -/
structure State.JournalOutFits (s : State) : Prop where
  agree : s.ReservationsAgree
  level : s.LevelAgrees
  reserved : ∀ x ∈ s.inFlight, mayWrite x = true → x.reserved = true
  fits : committedLoad s ≤ Config.journalOutPlaces

/-! ### What the record buffer keeps -/

/-- A line that no demand claims: DIRTY, WRITING, or not FREE with waiters (R47). -/
abbrev Resting (l : Line) : Prop := l.state = .dirty ∨ l.state = .writing ∨ (l.state ≠ .free ∧ l.waiters ≠ [])

/-- R52: at line `i` of `t` the write-back of the DIRTY line `l` has started: the line is WRITING without marks, and the
queue of its block's bank holds the operation with the marked records, or with all eight under a clear valid mark. -/
structure WriteBackStarted (l : Line) (t : State) (i : Nat) : Prop where
  before : l.state = .dirty
  state : (t.line i).state = .writing
  dirty : (t.line i).dirty = 0
  changed : (t.line i).changed = false
  queued : ∀ b, l.block = some b →
    let marks : BitVec 8 := if t.isValid b then l.dirty else 0xFF
    BankOp.writeBack b marks (l.records.filter fun r => marks.getLsbD r.1) ∈ t.queue (b % 4)

/-- The line `l` stands at line `i` of `t`, perhaps with further waiters: it holds its block and its records, and has kept
its state and its marks, but that its write-back may have started. -/
structure LineKept (l : Line) (t : State) (i : Nat) : Prop where
  block : (t.line i).block = l.block
  records : (t.line i).records = l.records
  waiters : ∃ w, (t.line i).waiters = l.waiters ++ w
  work : ((t.line i).state = l.state ∧ (t.line i).dirty = l.dirty ∧ (t.line i).changed = l.changed)
    ∨ WriteBackStarted l t i

/-- The order of use of the lines that rest in `s` (R47), as it stands in `t`. -/
def restingRank (s t : State) : List Nat := t.buffer.recency.filter (fun j => decide (Resting (s.line j)))

/-- Every line that rests is kept, and such lines keep their order of use. -/
structure KeepsLines (s t : State) : Prop where
  lines : ∀ i, Resting (s.line i) → LineKept (s.line i) t i
  rank : restingRank s t = restingRank s s

/-- R47, R51: among line `i` and the other lines that rest in `s`, line `i` is the most recently used in `t`, and the others
keep their order. -/
def RankedLast (s t : State) (i : Nat) : Prop :=
  t.buffer.recency.filter (fun j => j == i || decide (Resting (s.line j))) =
    s.buffer.recency.filter (fun j => j != i && decide (Resting (s.line j))) ++ [i]

/-- No demand in the wait list is a direct CARD LOAD (R45). -/
def NoDirectLoad (s : State) : Prop := ∀ b, Demand.directLoad b ∉ s.buffer.waitList

/-! ### What an event leaves -/

/-- The management unit takes a command: it is IDLE and no FIRST is pending (R171 steps 2 and 4). -/
def State.unitFree (s : State) : Prop := s.unit.progress = none ∧ s.unit.first = none

/-- The state `u` after a management command's frame has been counted and its "accepted" answer, with the answer fields
given, handed to the O-port transmitter (R171, R181). -/
def accepted (code : BitVec 8) (tag : BitVec 16) (fields : List Octet) (u : State) : State :=
  { u with
    oTx := u.oTx ++ [replyFrame u { code := code, tag := tag, fields := fun _ => fields }]
    oCount := { u.oCount with
      received := u.oCount.received + 1, management := u.oCount.management + 1, answers := u.oCount.answers + 1 } }

/-- The state `u` after a management command's frame has been counted and its refusal handed to the O-port transmitter
(R172, R181). -/
def refusedWith (code : BitVec 8) (tag : BitVec 16) (r : RefusalCode) (u : State) : State :=
  { u with
    oTx := u.oTx ++ [replyFrame u { code := code, tag := tag, refusal := some r }]
    oCount := { u.oCount with
      received := u.oCount.received + 1, management := u.oCount.management + 1, answers := u.oCount.answers + 1
      refusals := u.oCount.refusals + 1 } }

/-- The state `t` is `u` but for what the end of an event changes: the frames handed to the O-port transmitter and their
counts, the notices, and the stand-in level. -/
def SameBut (u t : State) : Prop :=
  t = { u with
    oTx := t.oTx, oCount := t.oCount, draws := t.draws, notices := t.notices
    journalOut := { u.journalOut with level := t.journalOut.level } }

/-- R31, R132, R129, R175, R184: the categories raised in an event from `s` to `t`: STAND_IN when the level changes, TABLE when
a retirement ends, CYCLE when the closing set becomes FROZEN or is cleared, and `more`, the others. -/
def raisedIn (s t : State) (more : Categories) : Categories :=
  (if t.journalOut.level = s.journalOut.level then 0 else catStandIn)
    ||| (if s.tables.shadow = .retiring ∧ t.tables.shadow = .free then catTable else 0)
    ||| (if t.cycle.closing ≠ s.cycle.closing ∧ (t.cycle.closing = .frozen ∨ t.cycle.closing = .none) then catCycle else 0)
    ||| more

/-- R176: one of the categories raised is unmasked and was not latched before the event. -/
abbrev NoticeDue (s : State) (raised : Categories) : Prop := raised &&& ~~~s.notices.latch &&& ~~~s.notices.masks ≠ 0

/-- R171, R175, R176: an event that answers a management command with `r` hands that answer over, built from the state after
it. It latches the categories raised, `more` among them, and with the answer sends one notice of them, in either order
(log 7), exactly when it is due. `s` is the state with the command's frame counted. -/
structure RepliedAs (s t : State) (r : Reply) (more : Categories) : Prop where
  alone : ¬ NoticeDue s (raisedIn s t more) →
    t.oTx = s.oTx ++ [replyFrame t r] ∧ t.notices.number = s.notices.number
      ∧ t.oCount = { s.oCount with
          answers := s.oCount.answers + 1
          refusals := if r.refusal.isSome then s.oCount.refusals + 1 else s.oCount.refusals }
  noticed : NoticeDue s (raisedIn s t more) →
    (t.oTx = s.oTx ++ [replyFrame t r, noticeFrame t (raisedIn s t more)]
        ∨ t.oTx = s.oTx ++ [noticeFrame t (raisedIn s t more), replyFrame t r])
      ∧ t.notices.number = s.notices.number + 1
      ∧ t.oCount = { s.oCount with
          answers := s.oCount.answers + 1
          refusals := if r.refusal.isSome then s.oCount.refusals + 1 else s.oCount.refusals
          notices := s.oCount.notices + 1 }
  latch : t.notices.latch = s.notices.latch ||| raisedIn s t more
  masks : t.notices.masks = s.notices.masks

/-- R47: the demand of in-flight entry `id` for block `b` has been made: it waits on the line of the block, or in the wait
list. -/
def Demanded (t : State) (id b : Nat) : Prop :=
  (∃ i, (t.line i).block = some b ∧ Waiter.entry id ∈ (t.line i).waiters) ∨ Demand.entry id b ∈ t.buffer.waitList

/-- R30: the banks `t` with `n` more entries of the current generation in flight. -/
def bankEntered (n : Nat) (t : Tables) : Tables :=
  match t.active with
  | .a => { t with bankA := { t.bankA with count := t.bankA.count + n } }
  | .b => { t with bankB := { t.bankB with count := t.bankB.count + n } }

/-- R30, R31: the banks `t` after an entry of generation `g` has left: its bank counts one fewer, and a RETIRING shadow whose
count comes to 0 becomes a FREE copy of the active bank, without a tag. -/
def bankLeft (g : BitVec 8) (t : Tables) : Tables :=
  let out : Bank → Bank := fun b => { b with count := b.count - 1 }
  let active := if (activeBank t).tag = some g then out (activeBank t) else activeBank t
  let shadow := if (activeBank t).tag ≠ some g ∧ (shadowBank t).tag = some g then out (shadowBank t) else shadowBank t
  let retired := t.shadow = .retiring ∧ shadow.count = 0
  let shadow2 : Bank := if retired then { tables := active.tables, tag := none, count := 0 } else shadow
  let state := if retired then .free else t.shadow
  match t.active with
  | .a => { t with bankA := active, bankB := shadow2, shadow := state }
  | .b => { t with bankA := shadow2, bankB := active, shadow := state }

/-- R92: the in-flight entry of the expiry of hold `g`. -/
def expiryEntry (id : Nat) (generation : BitVec 8) (g : HoldEntry) : InFlight where
  id := id
  origin := .sweep
  kind := .holdExpired
  training := false
  program := none
  slot := g.slot
  block := g.slot / 8
  amount := 0
  partialFlag := false
  reference := some g.ref
  generation := generation
  reserved := true
  boundSet := none

/-- R92: the sweep's look at the end of an event. But for it, the hold table of `t` would be `h`, its in-flight set
`entries`, its reservations `n`, and its banks `banks`. It selects nothing, or it makes the candidate of `h`, which is due,
EXPIRING, with a reservation and its demand made. -/
def SweepLooked (h : Holds) (entries : List InFlight) (n : Nat) (banks : Tables) (t : State) : Prop :=
  (t.holds = h ∧ t.inFlight = entries ∧ t.journalOut.reservations = n ∧ t.tables = banks)
  ∨ ∃ g id, candidate h = some g ∧ g.expiry ≤ t.clock.toNat ∧ h.expiring = none
      ∧ entries.length < 64 ∧ t.journalOut.copies.length + n < 512
      ∧ t.holds = { entries := h.entries.map (fun e => if e.ref = g.ref then { e with state := .expiring } else e)
                    expiring := some g.ref }
      ∧ t.inFlight = entries ++ [expiryEntry id banks.generation g] ∧ Demanded t id (g.slot / 8)
      ∧ t.journalOut.reservations = n + 1 ∧ t.tables = bankEntered 1 banks

/-- R175, R176: an event that answers no management command latches the categories raised, `more` among them, and sends one
notice of them, built from the state after it, exactly when it is due. -/
structure NoticedAs (s t : State) (more : Categories) : Prop where
  silent : ¬ NoticeDue s (raisedIn s t more) →
    t.oTx = s.oTx ∧ t.oCount = s.oCount ∧ t.notices.number = s.notices.number
  sent : NoticeDue s (raisedIn s t more) →
    t.oTx = s.oTx ++ [noticeFrame t (raisedIn s t more)]
      ∧ t.oCount = { s.oCount with notices := s.oCount.notices + 1 } ∧ t.notices.number = s.notices.number + 1
  latch : t.notices.latch = s.notices.latch ||| raisedIn s t more
  masks : t.notices.masks = s.notices.masks
  draws : t.draws = s.draws

/-- What an event of the record buffer or the banks leaves as it was: everything but the buffer and the store and, where a
direct CARD LOAD waits for a line (R45), the management unit and what it is answered. It raises `more` alone. -/
structure BooksKept (s t : State) (more : Categories) : Prop where
  kept : t = { s with
    buffer := t.buffer, store := t.store, unit := t.unit
    oTx := t.oTx, oCount := t.oCount, draws := t.draws, notices := t.notices }
  phase : t.store.phase = s.store.phase
  quiet : NoDirectLoad s → t.store.float = s.store.float ∧ t.unit = s.unit ∧ NoticedAs s t more

/-- R49: operations are only appended to the queue of bank `k`, and it stays within its eight places. -/
def QueueGrows (q r : List BankOp) : Prop :=
  (∃ more, r = q ++ more) ∧ (q.length ≤ 8 → r.length ≤ 8)

/-- What no event inside the part touches: the queue of waiting commands, both receivers, the unit address, and what the
transmitters have sent (R1, R5, R6). -/
structure LinksKept (s t : State) : Prop where
  pending : t.pending = s.pending
  receivers : t.sRx = s.sRx ∧ t.oRx = s.oRx
  address : t.unitAddress = s.unitAddress
  sent : t.sSent = s.sSent ∧ t.oSent = s.oSent

/-- The store copies, the valid marks and the store state are as before. -/
structure StoreKept (s t : State) : Prop where
  copies : t.store.copies = s.store.copies
  valid : t.store.valid = s.store.valid
  phase : t.store.phase = s.store.phase

/-- R187: the octets on a port's line for a frame: two delimiters, and between them the frame with its escapes. -/
def sentForm (f : Frame) : List Octet :=
  [0x7E] ++ (f.map (fun b => if b = 0x7E ∨ b = 0x7D then [0x7D, b ^^^ 0x20] else [b])).flatten ++ [0x7E]

/-- What every posting of entry `x` at line `i` leaves, whatever it decides: the entry has left the in-flight set and its
bank (R16, R31), where the sweep may have put an expiry (R92), the hold table but for the sweep is `holds`, and what no
posting touches is as before. -/
structure Departed (s t : State) (i : Nat) (x : InFlight) (holds : Holds) : Prop where
  left : SweepLooked holds (s.inFlight.filter (fun y => y.id != x.id))
    (if x.reserved then s.journalOut.reservations - 1 else s.journalOut.reservations) (bankLeft x.generation s.tables) t
  others : ∀ j, j ≠ i → Resting (s.line j) → LineKept (s.line j) t j
  rank : (restingRank s t).filter (· != i) = (restingRank s s).filter (· != i)
  store : StoreKept s t
  tables : t.activeTables = s.activeTables ∧ t.tables.generation = s.tables.generation
  kept : t.payout = s.payout ∧ t.clock = s.clock
  links : LinksKept s t

/-- The audit walker of `t` is that of `u`, but that a visit may have found, or not found, its line (R57). -/
def AuditIs (u t : State) : Prop := t.store.audit = { u.store.audit with waiting := t.store.audit.waiting }

/-- R51: the line `l` after the posting of its head waiter, which leaves its records as `records`, those of `marks` changed:
VALID becomes DIRTY and DIRTY and WRITING stay, with a changed WRITING line marked. -/
def postedLine (l : Line) (records : Block) (marks : BitVec 8) : Line :=
  { l with
    waiters := l.waiters.tail, records := records, dirty := l.dirty ||| marks
    state := if marks ≠ 0 ∧ l.state = .valid then .dirty else l.state
    changed := l.changed || decide (marks ≠ 0 ∧ l.state = .writing) }

/-- R51: line `i` after the posting of its head waiter `x`, which leaves the card's record as `new` and the others of the
block as they were: its mark is set when it changed, and the line is ranked most recently used. -/
structure PostedLine (s t : State) (i : Nat) (x : InFlight) (new : CardRecord) : Prop where
  record : recordFor t i x = new
  neighbours : ∀ k, k ≠ x.slot % 8 → recordOf (t.line i).records k = recordOf (s.line i).records k
  line : LineKept (postedLine (s.line i) (t.line i).records
    (if new = recordFor s i x then 0 else 1#8 <<< (x.slot % 8))) t i
  rank : RankedLast s t i

/-- What an approved posting that writes a journal entry leaves, but for the journal ring and the accumulators, which its
kind decides: `t` is the state after, `i` the line, `x` the in-flight entry, `old` and `new` the card's record before and
after, `entry` the journal entry, `holds` the hold table but for the sweep. -/
structure PostedAs (s t : State) (i : Nat) (x : InFlight) (old new : CardRecord) (entry : Entry) (holds : Holds) :
    Prop where
  departed : Departed s t i x holds
  line : PostedLine s t i x new
  /-- the float follows the balance -/
  float : t.store.float = s.store.float + BitVec.ofInt 40 ((new.balance : Int) - old.balance)
  /-- while an audit runs, a change below its cursor goes into its sums (R58) -/
  audit : AuditIs (moveAudit x.block ((new.balance : Int) - old.balance) ((new.held : Int) - old.held) s) t
  /-- the copy is appended to Journal Out -/
  copy : t.journalOut.copies = s.journalOut.copies ++ [entry]
  /-- shop supervision and the management unit are as before, and a notice that is due leaves on the O-port -/
  kept : t.supervision = s.supervision ∧ t.unit = s.unit
  noticed : NoticedAs s t 0

/-- The answer of a posted S-port transaction stands last in the S-port transmitter (R18), and its lane is free (R12). -/
structure Answered (s t : State) (x : InFlight) (ref : Option Ref) (answer : GiftAnswer) : Prop where
  frame : t.sTx = s.sTx ++ [giftFrame t answer]
  lanes : t.lanes = (leaveLane x ref s).lanes
  counted : t.sCount = { s.sCount with answers := s.sCount.answers + 1 }

/-- R18: the answer to a posted request of party `p` for the card numbered `card`, with the card as the posting leaves it. -/
def answerTo (p : Party) (card : BitVec 64) (k : Kind) (training : Bool) (ruling : Ruling) (reason : Option Reason)
    (amount : Nat) (ref : Ref) (r : CardRecord) : GiftAnswer where
  shop := BitVec.ofNat 16 p.shop
  lane := BitVec.ofNat 8 p.lane
  trace := BitVec.ofNat 24 p.trace
  kind := BitVec.ofNat 8 (kindCode k)
  cardNumber := card
  outcome := ruling
  reason := reason
  training := training
  amount := amount
  reference := ref
  card := some (r.state, r.balance, r.balance - r.held)

/-- The head waiter of a ready line is a live S-port transaction of kind `k`. -/
def LiveHead (s : State) (line : BitVec 5) (k : Kind) (x : InFlight) (p : Party) (card : BitVec 64) : Prop :=
  headEntry s line.toNat k = some x ∧ x.training = false ∧ x.origin = .request p card

/-- R64, R95, R102: the journal entry that the posting of `x` writes at the next reference. -/
def entryFor (s : State) (x : InFlight) (party : Option Party) (amount : Nat) (sequence : BitVec 32)
    (related : Option Ref) (refunded : Option Nat) (cycle : BitVec 32) : Entry where
  ref := s.journal.next
  cycle := cycle
  clock := s.clock
  kind := x.kind
  party := party
  slot := x.slot
  amount := amount
  adjustDown := false
  sequence := sequence
  related := related
  refunded := refunded
  voided := false

/-- What an approved S-port transaction that writes a journal entry leaves, answer and lane included. -/
structure ApprovedAs (s t : State) (i : Nat) (x : InFlight) (p : Party) (card : BitVec 64) (old new : CardRecord)
    (ruling : Ruling) (entry : Entry) (holds : Holds) : Prop where
  posted : PostedAs s t i x old new entry holds
  answered : Answered s t x (some s.journal.next)
    (answerTo p card x.kind false ruling none entry.amount s.journal.next new)

/-- What a posting that approves nothing live leaves as it was: the journal, the copies, the hold table but for the sweep,
the audit sums, and, but where a direct CARD LOAD takes the line that falls free, the float and the management unit. -/
structure LeavesBooks (s t : State) (i : Nat) (x : InFlight) (new : CardRecord) : Prop where
  departed : Departed s t i x s.holds
  journal : t.journal = s.journal
  copies : t.journalOut.copies = s.journalOut.copies
  audit : AuditIs s t
  line : (s.line i).waiters.tail ≠ [] ∨ ((s.line i).state = .dirty ∨ (s.line i).state = .writing)
      ∨ new ≠ recordFor s i x → PostedLine s t i x new
  quiet : NoDirectLoad s ∨ ((s.line i).state = .dirty ∨ (s.line i).state = .writing) ∨ new ≠ recordFor s i x →
    t.store.float = s.store.float ∧ t.unit = s.unit ∧ NoticedAs s t 0

/-- R81, R173: what the posting of a card command leaves besides its record and its books: the entry has left, the command
is answered with `r`, the unit is IDLE with the pending FIRST as `first`, and no shop, lane or S-port frame is touched. -/
structure UnitPosted (s t : State) (i : Nat) (x : InFlight) (r : Reply) (first : Option PendingFirst) : Prop where
  departed : Departed s t i x s.holds
  replied : RepliedAs s t r 0
  unit : t.unit = { progress := none, first := first }
  shops : t.supervision = s.supervision ∧ t.lanes = s.lanes ∧ t.sTx = s.sTx ∧ t.sCount = s.sCount

/-- R37, R66: the record of a card found expired. -/
def expiredRecord (s : State) (r : CardRecord) : CardRecord :=
  { r with state := .expired, lastActivity := s.clock.toNat / 86400, sequence := r.sequence + 1 }

/-- R62: shop supervision with one decline counted against a shop. -/
def declineCounted (n : Nat) (s : State) : Supervision :=
  (s.modifyShop n fun r => { r with declines := r.declines + 1 }).supervision

/-- The outcome, reason and amount that a decision answers with. -/
def rulingOf : Decision → Ruling × Option Reason × Nat
  | .declined reason => (.declined, some reason, 0)
  | .approved a => (.approved, none, a)
  | .inPart a => (.inPart, none, a)

/-- R66: today is not past the card's expiry day. -/
def NotExpired (s : State) (r : CardRecord) : Prop := ∀ d, r.expiryDay = some d → s.clock.toNat / 86400 ≤ d

/-- The references of the hold table. -/
def holdRefs (l : List HoldEntry) : List Ref := l.map (·.ref)

/-- A row of the current accumulator set changed (R123). -/
def currentRow (n : Nat) (f : Row → Row) (c : Cycle) : Cycle := c.modifySet c.current (fun a => a.modifyRow n f)

/-- R121: a row with an amount redeemed added: a field that reaches its limit stays there and marks the row. -/
def addRedeemed (a : Nat) (r : Row) : Row :=
  { r with
    redeemed := min (r.redeemed + a) (2 ^ 48 - 1), redeemCount := min (r.redeemCount + 1) 16777215
    saturated := r.saturated || decide (2 ^ 48 - 1 ≤ r.redeemed + a ∨ 16777215 ≤ r.redeemCount + 1) }

/-- R121: a row with an amount sold added. -/
def addSold (a : Nat) (r : Row) : Row :=
  { r with
    sold := min (r.sold + a) (2 ^ 48 - 1), soldCount := min (r.soldCount + 1) 16777215
    saturated := r.saturated || decide (2 ^ 48 - 1 ≤ r.sold + a ∨ 16777215 ≤ r.soldCount + 1) }

/-- R121: a row with an amount refunded added. -/
def addRefunded (a : Nat) (r : Row) : Row :=
  { r with
    refunded := min (r.refunded + a) (2 ^ 48 - 1), refundCount := min (r.refundCount + 1) 16777215
    saturated := r.saturated || decide (2 ^ 48 - 1 ≤ r.refunded + a ∨ 16777215 ≤ r.refundCount + 1) }

/-- R116, R122: a row with a voided entry of a kind taken out; a field that stands at its limit is left there. -/
def takenOut (k : Kind) (a : Nat) (r : Row) : Row :=
  let amount : Nat → Nat := fun x => if x = 2 ^ 48 - 1 then x else x - a
  let count : Nat → Nat := fun c => if c = 16777215 then c else c - 1
  match k with
  | .redeem | .complete => { r with redeemed := amount r.redeemed, redeemCount := count r.redeemCount }
  | .refund => { r with refunded := amount r.refunded, refundCount := count r.refundCount }
  | _ => { r with sold := amount r.sold, soldCount := count r.soldCount }

/-- R100: `n` is the next reference after `r`: the first behind it, wrapping, that is neither 0 nor one of `held`. -/
def NextReference (held : List Ref) (r n : Ref) : Prop :=
  n ≠ 0 ∧ n ∉ held ∧ ∃ d, 1 ≤ d ∧ n = r + BitVec.ofNat 32 d
    ∧ ∀ k, 1 ≤ k → k < d → r + BitVec.ofNat 32 k = 0 ∨ r + BitVec.ofNat 32 k ∈ held

/-- R100, R83: the journal `j` is the ring given with one entry written at its place, and its next reference is the one after
the entry's that the hold table, of at most 1,024 entries with the references `held`, leaves free. -/
structure JournalWritten (held : List Ref) (entry : Entry) (ring : Tbl (Option Entry)) (j : Journal) : Prop where
  ring : j.ring = put none ring (entry.ref.toNat % 8192) (some entry)
  next : held.length ≤ 1024 → NextReference held entry.ref j.next

/-- R115: the ring with the refunded-so-far of a voided REFUND's original reduced, when `original` is found for it, on its
card and of kind REDEEM or COMPLETE. -/
def reducedRing (voided : Entry) (original : Option Entry) (ring : Tbl (Option Entry)) : Tbl (Option Entry) :=
  match original with
  | some o =>
    if voided.kind = .refund ∧ (o.kind = .redeem ∨ o.kind = .complete) ∧ o.slot = voided.slot then
      put none ring (o.ref.toNat % 8192) (some { o with refunded := o.refunded.map (· - voided.amount) })
    else ring
  | none => ring

/-- R129: the cycle controller after an event in which a FREEZING closing set without grace voids becomes FROZEN, with the
float in its mall row. -/
def frozenCycle (float : BitVec 40) (c : Cycle) : Cycle :=
  if c.closing = .freezing ∧ c.graceVoids = 0 then
    { c.modifySet (closingSet c) (fun a => { a with mall := { a.mall with floatAtFreeze := float } }) with
      closing := .frozen }
  else c

/-! ### The postings of the nine request kinds -/

/-- The row that posts a request kind. -/
def postingCommand (line : BitVec 5) : Kind → Option Instr
  | .activate => some (.activatePosting line)
  | .reload => some (.reloadPosting line)
  | .redeem => some (.redeemPosting line)
  | .balance => some (.balancePosting line)
  | .hold => some (.holdPosting line)
  | .complete => some (.completePosting line)
  | .release => some (.releasePosting line)
  | .refund => some (.refundPosting line)
  | .void => some (.voidPosting line)
  | .holdExpired | .adjust | .cardRead | .cardLoad => none

/-- R70, R105: the decline of a card that is not ACTIVE. -/
def notActive : CardState → Option Reason
  | .active => none
  | .unissued => some .notActive
  | .blocked => some .blocked
  | .expired => some .expired

/-- R68, R70, R72, R85, R105, R107, R111 to R114: the first of a kind's own checks that fails, in the order of its table,
with its reason, for a card whose record is `r`; none when the kind approves. -/
def ownDecline (s : State) (x : InFlight) (r : CardRecord) : Option Reason :=
  let p := programFor s x
  let m := termsFor s x
  let a := x.amount
  let value := r.balance - r.held
  let named := x.reference.bind s.entryAt
  let hold := x.reference.bind (fun o => s.holds.entries.find? (fun h => h.ref == o))
  let shop := match x.origin with
    | .request q _ => some q.shop
    | _ => none
  match x.kind with
  | .activate =>
    if r.state ≠ .unissued then some .alreadyActive
    else if a < p.minLoad then some .underMin
    else if p.maxLoad < a ∨ m.limit.getD a < a then some .overLimit
    else if p.maxBalance < a then some .overMax
    else none
  | .reload =>
    if p.reloadable = false then some .notPermitted
    else if r.state ≠ .active then notActive r.state
    else if a < p.minLoad then some .underMin
    else if p.maxLoad < a ∨ m.limit.getD a < a then some .overLimit
    else if p.maxBalance < r.balance + a then some .overMax
    else none
  | .redeem =>
    if r.state ≠ .active then notActive r.state
    else if m.limit.getD a < a then some .overLimit
    else if value < a ∧ ¬ (x.partialFlag = true ∧ p.partialAllowed = true ∧ 0 < value) then some .insufficient
    else none
  | .hold =>
    if r.state ≠ .active then notActive r.state
    else if m.limit.getD a < a then some .overLimit
    else if value < a then some .insufficient
    else if 4 ≤ r.holdCount ∨ 1024 ≤ s.holds.entries.length then some .noHoldSpace
    else none
  | .complete | .release =>
    match hold with
    | some h => if h.state ≠ .opened ∨ h.slot ≠ x.slot then some .holdGone else none
    | none => some .holdGone
  | .refund =>
    let credit : Option Reason :=
      if r.state ≠ .active then notActive r.state
      else if 999999 < r.balance + a then some .overMax
      else none
    if x.reference = none then
      if m.openRefund = false ∨ p.openCap = none then some .notPermitted
      else if p.openCap.getD a < a then some .overLimit
      else credit
    else match named with
      | none => some .noMatch
      | some o =>
        if ¬ ((o.kind = .redeem ∨ o.kind = .complete) ∧ o.slot = x.slot) then some .noMatch
        else if o.voided = true then some .alreadyVoided
        else if p.refundable = false then some .notPermitted
        else if o.party.map (·.shop) ≠ shop ∧ m.crossRefund = false then some .crossShop
        else if o.amount - o.refunded.getD 0 < a then some .overOriginal
        else credit
  | .void =>
    match named with
    | none => some .noMatch
    | some o =>
      if o.slot ≠ x.slot then some .noMatch
      else if o.voided = true then some .alreadyVoided
      else match o.kind with
        | .activate => if r.sequence = o.sequence then none else some .laterActivity
        | .reload | .refund => if r.balance < r.held + o.amount then some .insufficient else none
        | .redeem | .complete =>
          if o.refunded.getD 0 ≠ 0 then some .laterActivity
          else if 999999 < r.balance + o.amount then some .overMax
          else none
        | _ => some .noMatch
  | .balance | .holdExpired | .adjust | .cardRead | .cardLoad =>
    if r.state = .unissued then some .notActive else none

/-- R60, R73, R88: the decision of a request kind's own checks, with the amount it approves: the whole amount, in part what a
REDEEM or a COMPLETE can have, the amount of a RELEASE's hold, of a VOID's entry, or none of a BALANCE. -/
def ownDecision (s : State) (x : InFlight) (r : CardRecord) : Decision :=
  let held := ((x.reference.bind (fun o => s.holds.entries.find? (fun h => h.ref == o))).map (·.amount)).getD 0
  let value := if x.kind = .complete then r.balance - (r.held - held) else r.balance - r.held
  match ownDecline s x r with
  | some reason => .declined reason
  | none =>
    match x.kind with
    | .redeem | .complete => if x.amount ≤ value then .approved x.amount else .inPart value
    | .release => .approved held
    | .void => .approved (((x.reference.bind s.entryAt).map (·.amount)).getD 0)
    | .balance => .approved 0
    | _ => .approved x.amount

/-- R66: the kinds whose own checks the expiry finding precedes. -/
def expiryFirst : Kind → Bool
  | .activate | .reload | .redeem | .hold | .refund | .void => true
  | .balance | .complete | .release | .holdExpired | .adjust | .cardRead | .cardLoad => false

/-! ### Notices -/

/-- R175, R176: the state `u` after an event that raises the categories `c`, answers no command and leaves the committed load:
they are latched, and one notice is sent when one of them is unmasked and was not latched. -/
def noted (c : Categories) (u : State) : State :=
  if (c &&& ~~~u.notices.latch &&& ~~~u.notices.masks) = 0 then
    { u with notices := { u.notices with latch := u.notices.latch ||| c } }
  else
    let v := { u with notices := { u.notices with latch := u.notices.latch ||| c, number := u.notices.number + 1 } }
    { v with oTx := v.oTx ++ [noticeFrame v c], oCount := { v.oCount with notices := v.oCount.notices + 1 } }

/-! ### The receivers and the wire -/

/-- Between two frames: RECEIVING, with an empty frame (R1). -/
def freshReceiver : Receiver := { state := .receiving }

/-! ### Admission, from the tables of chapter 1 -/

/-- R8: what makes a gift request of kind `k` well formed. -/
structure RequestFits (q : GiftRequest) (k : Kind) : Prop where
  kind : kindCode k = q.kind.toNat ∧ 1 ≤ q.kind.toNat ∧ q.kind.toNat ≤ 9
  length : q.length = 26
  party : q.shop.toNat < 512 ∧ q.lane.toNat < 16 ∧ q.trace.toNat ≤ 999999
  digits : ∀ i, 7 ≤ i → i ≤ 16 → cardDigit q.card i ≤ 9
  check : ((List.range 16).map (fun i =>
      let d := cardDigit q.card (16 - i)
      if i % 2 = 0 then d else if 9 < 2 * d then 2 * d - 9 else 2 * d)).sum % 10 = 0
  amount : if k = .balance ∨ k = .release ∨ k = .void then q.amount.toNat = 0
    else 1 ≤ q.amount.toNat ∧ q.amount.toNat ≤ 999999
  reference : if k = .complete ∨ k = .release ∨ k = .void then q.reference ≠ 0
    else k = .refund ∨ q.reference = 0
  flags : q.flags = 0 ∨ (q.flags = 1 ∧ k = .redeem)

/-- R22: the program entry that a prefix finds in a table set: the enabled entry that carries it, or else the disabled one
with the lowest number. -/
def FindsProgram (t : TableSet) (digits : BitVec 24) (i : Nat) : Prop :=
  i < 16 ∧ (t.program i).digits = some digits
    ∧ (((t.program i).enabled = true ∧ ∀ j < 16, (t.program j).enabled = true → (t.program j).digits = some digits → j = i)
      ∨ ((∀ j < 16, (t.program j).digits = some digits → (t.program j).enabled = false)
        ∧ ∀ j < i, (t.program j).digits ≠ some digits))

/-- R9 to R15, R87, R109: the first check of a well-formed request of kind `k` for program entry `i` that fails, in the order
of the table of 1.3, with the reason it gives; none when the request is admitted. -/
def declineReason (s : State) (q : GiftRequest) (k : Kind) (i : Nat) : Option Reason :=
  let p := s.activeTables.program i
  let n := q.shop.toNat
  let shop := s.shop n
  let terms := s.activeTables.shopTerms n
  let lane := s.lane (n * 16 + q.lane.toNat)
  let serial := cardSerial q.card
  let slot := p.baseSlot + serial
  let a := q.amount.toNat
  let reserves := shop.mode ≠ .training ∧ k ≠ .balance
  let level := s.journalOut.level
  if p.enabled = false then some .programClosed
  else if p.slotCount ≤ serial then some .noCard
  else if shop.mode = .closed then some .shopClosed
  else if shop.mode = .opened ∧ (shop.management = true ∨ shop.alarmCause = true)
      ∧ k ≠ .balance ∧ k ≠ .complete ∧ k ≠ .release then some .shopSuspended
  else if (k = .activate ∨ k = .reload) ∧ terms.allowSales = false then some .notPermitted
  else if k = .refund ∧ terms.allowRefund = false then some .notPermitted
  else if lane.inFlight = true then some .laneBusy
  else if lane.lastTrace = some q.trace.toNat then some .duplicate
  else if s.store.phase ≠ .ready then some .storeNotReady
  else if reserves ∧ level = .limited ∧ (k = .activate ∨ k = .reload
      ∨ ((k = .redeem ∨ k = .hold ∨ k = .complete) ∧ p.standInLimit < a)) then some .officeSlow
  else if reserves ∧ level = .closed then some .officeUnreachable
  else if 64 ≤ s.inFlight.length then some .retry
  else if k = .complete ∨ k = .release then
    match s.holds.find q.reference with
    | none => some .holdGone
    | some h =>
      if h.state ≠ .opened ∨ h.slot ≠ slot then some .holdGone
      else if k = .complete ∧ h.ceiling < a then some .overLimit
      else none
  else if k = .void then
    match s.entryAt q.reference with
    | none => some .noMatch
    | some e =>
      if ¬ (e.kind = .activate ∨ e.kind = .reload ∨ e.kind = .redeem ∨ e.kind = .complete ∨ e.kind = .refund)
          ∨ e.slot ≠ slot then some .noMatch
      else if e.party.map (·.shop) ≠ some n then some .crossShop
      else if e.voided = true then some .alreadyVoided
      else if ¬ (e.cycle = s.cycle.number ∨ (s.cycle.closing = .grace ∧ e.cycle = s.cycle.number - 1))
        then some .tooLate
      else none
  else none

/-- R110: the accumulator set that a live VOID of a journal entry is bound to. -/
def voidSet (c : Cycle) (e : Entry) : Option SetId :=
  if e.cycle = c.number then some c.current
  else if c.closing = .grace ∧ e.cycle = c.number - 1 then some c.current.other
  else none

/-- R15: the in-flight entry of an admitted request. -/
def entryOfRequest (s : State) (q : GiftRequest) (k : Kind) (i : Nat) : InFlight :=
  let slot := (s.activeTables.program i).baseSlot + cardSerial q.card
  let training := decide ((s.shop q.shop.toNat).mode = .training)
  { id := s.nextId
    origin := .request { shop := q.shop.toNat, lane := q.lane.toNat, trace := q.trace.toNat } q.card
    kind := k, training := training, program := some i, slot := slot, block := slot / 8, amount := q.amount.toNat
    partialFlag := decide (q.flags = 1), reference := if q.reference = 0 then none else some q.reference
    generation := s.tables.generation, reserved := !training && decide (k ≠ .balance)
    boundSet := if k = .void ∧ training = false then (s.entryAt q.reference).bind (voidSet s.cycle) else none }

/-- R18, R189: the answer to a request declined at admission. -/
def admissionAnswer (s : State) (q : GiftRequest) (reason : Reason) : GiftAnswer where
  shop := q.shop
  lane := q.lane
  trace := q.trace
  kind := q.kind
  cardNumber := q.card
  outcome := .declined
  reason := some reason
  training := decide (q.shop.toNat < 512 ∧ (s.shop q.shop.toNat).mode = .training)
  amount := 0
  reference := if reason = .duplicate then ((s.lane (q.shop.toNat * 16 + q.lane.toNat)).lastRef).getD 0 else 0
  card := none

/-- R7, R159: a shop's record after one of its requests is declined at admission. -/
def declinedShop (reason : Reason) (r : Shop) : Shop :=
  if reason = .format ∨ reason = .noCard ∨ reason = .programClosed then
    { r with declines := r.declines + 1, faults := r.faults + 1, windowFaults := min (r.windowFaults + 1) 65535 }
  else { r with declines := r.declines + 1 }

/-! ### Supervision, from the tables of chapter 9 -/

/-- R162 to R164: a shop's record after a window end. -/
def weighed (v : Supervision) (autoSuspend : Bool) (r : Shop) : Shop :=
  let bad := decide (v.trip ≤ r.windowFaults)
  let inAlarm : Shop :=
    { r with alarm := .alarm, badWindows := 0, goodWindows := 0, windowFaults := 0
             alarmCause := r.alarmCause || autoSuspend }
  if r.mode = .closed then { r with windowFaults := 0 }
  else match r.alarm, bad with
    | .normal, false => { r with windowFaults := 0 }
    | .normal, true => if v.t1 ≤ 1 then inAlarm else { r with alarm := .watch, badWindows := 1, windowFaults := 0 }
    | .watch, false => { r with alarm := .normal, badWindows := 0, windowFaults := 0 }
    | .watch, true =>
      if v.t1 ≤ r.badWindows + 1 then inAlarm else { r with badWindows := r.badWindows + 1, windowFaults := 0 }
    | .alarm, false =>
      if v.t2 ≤ r.goodWindows + 1 then
        { r with alarm := .normal, badWindows := 0, goodWindows := 0, windowFaults := 0, alarmCause := false }
      else { r with goodWindows := r.goodWindows + 1, windowFaults := 0 }
    | .alarm, true => { r with goodWindows := 0, windowFaults := 0 }

/-- R162: the record of shop `n` after a window end of `s`. -/
def weighedShop (s : State) (n : Nat) : Shop :=
  weighed s.supervision (s.activeTables.shopTerms n).autoSuspend (s.shop n)

/-- R161: supervision after a window end at a clock value: every shop weighed and the window kept. -/
def WindowEnded (s : State) (clock : BitVec 32) (v : Supervision) : Prop :=
  v.keptWindow = clock.toNat / 60 ∧ v.trip = s.supervision.trip ∧ v.t1 = s.supervision.t1 ∧ v.t2 = s.supervision.t2
    ∧ ∀ n, look {} v.shops n = weighedShop s n

/-- R165: an event whose window end may turn alarm states raises SUPERVISION exactly when one of them changes. -/
def AlarmsRaise (s t : State) (more : Categories) : Prop :=
  ((∀ n, (t.shop n).alarm = (s.shop n).alarm) → more = 0)
    ∧ ((∃ n, (t.shop n).alarm ≠ (s.shop n).alarm) → more = catSupervision)

/-! ### The cycle controller at a clock value -/

/-- R127, R129: the controller after an event in which the clock stands at a value: GRACE ends at the grace end time, and a
closing set without grace voids passes on to FROZEN. -/
def graceAt (clock : BitVec 32) (float : BitVec 40) (c : Cycle) : Cycle :=
  match c.closing, c.graceEnd with
  | .grace, some g => if g ≤ clock.toNat then frozenCycle float { c with closing := .freezing, graceEnd := none } else c
  | _, _ => c

/-! ### The payout figures -/

/-- 8.4: the identity that the totals of a cycle satisfy. -/
def Totals.Balance (t : Totals) : Prop :=
  (t.pay : Int) - t.collect + t.carryChange =
    (t.redeemed : Int) - t.sold - t.refunded - t.percentFee - t.fixedFee + t.commission + t.rebate

/-- 8.4: the running totals, and every cycle total record in the payout queue, satisfy the identity. -/
def State.TotalsBalance (s : State) : Prop :=
  s.payout.totals.Balance ∧ ∀ r, PayoutRecord.total r ∈ s.payout.queue → r.totals.Balance

/-- R146: a shop with a record in the closing set. -/
def WalksTo (s : State) (n : Nat) : Prop :=
  let r := (s.cycle.set s.cycle.current.other).row n
  r.redeemCount ≠ 0 ∨ r.soldCount ≠ 0 ∨ r.refundCount ≠ 0 ∨ s.carry n ≠ 0

/-! ### Capacities -/

/-- R14, R49, R83, R150, R187: the in-flight set, the bank queues, the hold table, the payout queue and the frames being
received stay within their places. -/
structure State.Fits (s : State) : Prop where
  inFlight : s.InFlightFits
  queues : s.QueuesFit
  holds : s.holds.entries.length ≤ Config.holdPlaces
  payout : s.PayoutFits
  frames : s.FramesFit

end Sys2Proof.Machine
end

