-- ==== Sys2Proof/Certificates/Slice0/Obligations.lean ====
section
/-! DEFINITION. The statements for the provers. -/

open Sys2Proof Sys2Proof.Machine

/-! ### Postings -/

/-- 4.3, 4.4 (R68 to R71, with R61): when the checks of ACTIVATE pass, the posting approves and the card becomes ACTIVE
with the amount as its balance; when those of RELOAD pass, the amount is added to the balance and the expiry day moves
when the program says so. Either amount goes to the shop's S and nS, which stop at their limits (R121). As in every
approved posting, the entry leaves the in-flight set and its bank, whose retirement may end (R16, R31), the sweep may
select its candidate (R92), the line's mark, state and rank follow R51, the journal entry is written and copied, and a
notice is sent when one is due. -/
def Obligations.SalesApproved : Prop :=
  (∀ (s : State) (line : BitVec 5) (x : InFlight) (p : Party) (card : BitVec 64),
      let i := line.toNat
      let old := recordFor s i x
      let program := programFor s x
      let a := x.amount
      let day := s.clock.toNat / 86400
      let new : CardRecord :=
        { state := .active, balance := a, held := old.held, holdCount := old.holdCount, issueShop := some p.shop
          activationDay := some day
          expiryDay := if program.expiryDays = 0 then none else some (day + program.expiryDays)
          lastActivity := day, sequence := old.sequence + 1 }
      let entry := entryFor s x (some p) a new.sequence none none s.cycle.number
      LiveHead s line .activate x p card → old.state = .unissued →
        program.minLoad ≤ a → a ≤ program.maxLoad → aboveLimit (termsFor s x).limit a = false → a ≤ program.maxBalance →
        ∃ t, exec (.activatePosting line) s = .next t ∧ ApprovedAs s t i x p card old new .approved entry s.holds
          ∧ JournalWritten (holdRefs s.holds.entries) entry s.journal.ring t.journal
          ∧ t.cycle = currentRow p.shop (addSold a) s.cycle)
  ∧ (∀ (s : State) (line : BitVec 5) (x : InFlight) (p : Party) (card : BitVec 64),
      let i := line.toNat
      let old := recordFor s i x
      let program := programFor s x
      let a := x.amount
      let day := s.clock.toNat / 86400
      let new : CardRecord :=
        { old with
          balance := old.balance + a
          expiryDay := if program.reloadExtends then
              (if program.expiryDays = 0 then none else some (day + program.expiryDays)) else old.expiryDay
          lastActivity := day, sequence := old.sequence + 1 }
      let entry := entryFor s x (some p) a new.sequence none none s.cycle.number
      LiveHead s line .reload x p card → NotExpired s old → program.reloadable = true → old.state = .active →
        program.minLoad ≤ a → a ≤ program.maxLoad → aboveLimit (termsFor s x).limit a = false →
        old.balance + a ≤ program.maxBalance →
        ∃ t, exec (.reloadPosting line) s = .next t ∧ ApprovedAs s t i x p card old new .approved entry s.holds
          ∧ JournalWritten (holdRefs s.holds.entries) entry s.journal.ring t.journal
          ∧ t.cycle = currentRow p.shop (addSold a) s.cycle)

/-- 4.5 (R72, R73, with R61): a REDEEM within the available value is approved for its amount, and one above it, where the
request and the program allow a part, for the available value; the sum paid leaves the balance and goes to R and nR. -/
def Obligations.RedeemApproved : Prop :=
  ∀ (s : State) (line : BitVec 5) (x : InFlight) (p : Party) (card : BitVec 64),
    let i := line.toNat
    let old := recordFor s i x
    let a := x.amount
    let value := old.balance - old.held
    let paid := if a ≤ value then a else value
    let new : CardRecord :=
      { old with balance := old.balance - paid, lastActivity := s.clock.toNat / 86400, sequence := old.sequence + 1 }
    let entry := entryFor s x (some p) paid new.sequence none (some 0) s.cycle.number
    LiveHead s line .redeem x p card → NotExpired s old → old.state = .active →
      aboveLimit (termsFor s x).limit a = false →
      (a ≤ value ∨ (x.partialFlag = true ∧ (programFor s x).partialAllowed = true ∧ 0 < value)) →
      ∃ t, exec (.redeemPosting line) s = .next t
        ∧ ApprovedAs s t i x p card old new (if a ≤ value then .approved else .inPart) entry s.holds
        ∧ JournalWritten (holdRefs s.holds.entries) entry s.journal.ring t.journal
        ∧ t.cycle = currentRow p.shop (addRedeemed paid) s.cycle

/-- 5.2 (R85, R86): when the checks of HOLD pass, an OPEN entry is created under the next reference, with its ceiling and
expiry time from the program, and the amount is added to the card's held; nothing is posted to an accumulator. The
next reference skips those of the hold table as the posting leaves it (log 13, the model's reading). -/
def Obligations.HoldApproved : Prop :=
  ∀ (s : State) (line : BitVec 5) (x : InFlight) (p : Party) (card : BitVec 64),
    let i := line.toNat
    let old := recordFor s i x
    let program := programFor s x
    let a := x.amount
    let new : CardRecord :=
      { old with
        held := old.held + a, holdCount := old.holdCount + 1
        lastActivity := s.clock.toNat / 86400, sequence := old.sequence + 1 }
    let entry := entryFor s x (some p) a new.sequence none none s.cycle.number
    let hold : HoldEntry :=
      { ref := s.journal.next, slot := x.slot, shop := p.shop, lane := p.lane, amount := a
        ceiling := a + a * program.tolerance / 100, expiry := s.clock.toNat + program.lifetime, state := .opened }
    let holds : Holds := { s.holds with entries := insertHold hold s.holds.entries }
    LiveHead s line .hold x p card → NotExpired s old → old.state = .active →
      aboveLimit (termsFor s x).limit a = false → a ≤ old.balance - old.held → old.holdCount < 4 →
      s.holds.entries.length < 1024 →
      ∃ t, exec (.holdPosting line) s = .next t ∧ ApprovedAs s t i x p card old new .approved entry holds
        ∧ JournalWritten (holdRefs holds.entries) entry s.journal.ring t.journal
        ∧ t.cycle = s.cycle

/-- 5.4 (R88 to R91): a live COMPLETE pays its final amount, or as much of it as the card has once the hold is off it, and
the sum paid goes to R and nR; a live RELEASE is always approved for the amount held, and no accumulator changes. In
both the hold leaves the table and the card. Either posting stops the model where its hold is not in the table, a case
that R84 rules out (log 9, the model's choice). The next reference skips those of the hold table as the posting leaves
it (log 13, the model's reading). -/
def Obligations.ClaimedHoldsPost : Prop :=
  (∀ (s : State) (line : BitVec 5) (x : InFlight) (p : Party) (card : BitVec 64) (h : HoldEntry),
      let i := line.toNat
      let old := recordFor s i x
      let value := old.balance - (old.held - h.amount)
      let paid := if x.amount ≤ value then x.amount else value
      let new : CardRecord :=
        { old with
          balance := old.balance - paid, held := old.held - h.amount, holdCount := old.holdCount - 1
          lastActivity := s.clock.toNat / 86400, sequence := old.sequence + 1 }
      let entry := entryFor s x (some p) paid new.sequence (some h.ref) (some 0) s.cycle.number
      let holds : Holds := { s.holds with entries := s.holds.entries.filter (fun g => g.ref != h.ref) }
      LiveHead s line .complete x p card → holdNamed s x = some h →
        ∃ t, exec (.completePosting line) s = .next t
          ∧ ApprovedAs s t i x p card old new (if x.amount ≤ value then .approved else .inPart) entry holds
          ∧ JournalWritten (holdRefs holds.entries) entry s.journal.ring t.journal
          ∧ t.cycle = currentRow p.shop (addRedeemed paid) s.cycle)
  ∧ (∀ (s : State) (line : BitVec 5) (x : InFlight) (p : Party) (card : BitVec 64) (h : HoldEntry),
      let i := line.toNat
      let old := recordFor s i x
      let new : CardRecord :=
        { old with
          held := old.held - h.amount, holdCount := old.holdCount - 1
          lastActivity := s.clock.toNat / 86400, sequence := old.sequence + 1 }
      let entry := entryFor s x (some p) h.amount new.sequence (some h.ref) none s.cycle.number
      let holds : Holds := { s.holds with entries := s.holds.entries.filter (fun g => g.ref != h.ref) }
      LiveHead s line .release x p card → holdNamed s x = some h →
        ∃ t, exec (.releasePosting line) s = .next t ∧ ApprovedAs s t i x p card old new .approved entry holds
          ∧ JournalWritten (holdRefs holds.entries) entry s.journal.ring t.journal
          ∧ t.cycle = s.cycle)
  ∧ (∀ (s : State) (line : BitVec 5) (x : InFlight), holdNamed s x = none → x.training = false →
      (headEntry s line.toNat .complete = some x → exec (.completePosting line) s = .fault .claimedHoldMissing)
      ∧ (headEntry s line.toNat .release = some x → exec (.releasePosting line) s = .fault .claimedHoldMissing))

/-- 5.5 (R94): a HOLD_EXPIRED is always approved: the hold leaves the table and the card, the expiry is no longer in
flight, the entry is written, and nothing is answered. It stops the model where its hold is not in the table, a case
that R84 rules out (log 9, the model's choice). The next reference skips those of the hold table as the posting leaves
it (log 13, the model's reading). -/
def Obligations.HoldExpiredPosts : Prop :=
  (∀ (s : State) (line : BitVec 5) (x : InFlight) (h : HoldEntry),
      let i := line.toNat
      let old := recordFor s i x
      let new : CardRecord :=
        { old with
          held := old.held - h.amount, holdCount := old.holdCount - 1
          lastActivity := s.clock.toNat / 86400, sequence := old.sequence + 1 }
      let entry := entryFor s x none h.amount new.sequence (some h.ref) none s.cycle.number
      let holds : Holds := { entries := s.holds.entries.filter (fun g => g.ref != h.ref), expiring := none }
      headEntry s i .holdExpired = some x → x.origin = .sweep → holdNamed s x = some h →
        ∃ t, exec (.holdExpiredPosting line) s = .next t ∧ PostedAs s t i x old new entry holds
          ∧ t.sTx = s.sTx ∧ t.lanes = s.lanes ∧ t.sCount = s.sCount
          ∧ JournalWritten (holdRefs holds.entries) entry s.journal.ring t.journal
          ∧ t.cycle = s.cycle)
  ∧ (∀ (s : State) (line : BitVec 5) (x : InFlight), holdNamed s x = none →
      headEntry s line.toNat .holdExpired = some x →
        exec (.holdExpiredPosting line) s = .fault .claimedHoldMissing)

/-- 6.2 (R105 to R107): a REFUND against a REDEEM or COMPLETE of the same card, within what is left of it, and an open
refund within the program's cap from a shop that may make one, are approved: the amount is added to the balance, and
goes to F and nF of the refunding shop. The first is added to the original's refunded-so-far and names it; the second
names no entry. -/
def Obligations.RefundApproved : Prop :=
  (∀ (s : State) (line : BitVec 5) (x : InFlight) (p : Party) (card : BitVec 64) (o : Ref) (original : Entry),
      let i := line.toNat
      let old := recordFor s i x
      let a := x.amount
      let new : CardRecord :=
        { old with balance := old.balance + a, lastActivity := s.clock.toNat / 86400, sequence := old.sequence + 1 }
      let entry := entryFor s x (some p) a new.sequence (some o) none s.cycle.number
      let ring := put none s.journal.ring (o.toNat % 8192)
        (some { original with refunded := original.refunded.map (· + a) })
      LiveHead s line .refund x p card → x.reference = some o → s.entryAt o = some original → NotExpired s old →
        (original.kind = .redeem ∨ original.kind = .complete) → original.slot = x.slot → original.voided = false →
        (programFor s x).refundable = true →
        (original.party.map (·.shop) = some p.shop ∨ (termsFor s x).crossRefund = true) →
        a ≤ original.amount - original.refunded.getD 0 → old.state = .active → old.balance + a ≤ 999999 →
        ∃ t, exec (.refundPosting line) s = .next t ∧ ApprovedAs s t i x p card old new .approved entry s.holds
          ∧ JournalWritten (holdRefs s.holds.entries) entry ring t.journal
          ∧ t.cycle = currentRow p.shop (addRefunded a) s.cycle)
  ∧ (∀ (s : State) (line : BitVec 5) (x : InFlight) (p : Party) (card : BitVec 64) (cap : Nat),
      let i := line.toNat
      let old := recordFor s i x
      let a := x.amount
      let new : CardRecord :=
        { old with balance := old.balance + a, lastActivity := s.clock.toNat / 86400, sequence := old.sequence + 1 }
      let entry := entryFor s x (some p) a new.sequence none none s.cycle.number
      LiveHead s line .refund x p card → x.reference = none → NotExpired s old →
        (termsFor s x).openRefund = true → (programFor s x).openCap = some cap → a ≤ cap →
        old.state = .active → old.balance + a ≤ 999999 →
        ∃ t, exec (.refundPosting line) s = .next t ∧ ApprovedAs s t i x p card old new .approved entry s.holds
          ∧ JournalWritten (holdRefs s.holds.entries) entry s.journal.ring t.journal
          ∧ t.cycle = currentRow p.shop (addRefunded a) s.cycle)

/-- 6.3 (R111 to R116, R110, R129): an approved VOID undoes the entry it names: an ACTIVATE's card is UNISSUED again, a
RELOAD's or REFUND's amount leaves the balance, a REDEEM's or COMPLETE's comes back; the entry is marked voided, the
bound set's row of the voiding shop is reversed, and a last grace void freezes a FREEZING set. -/
def Obligations.VoidApproved : Prop :=
  ∀ (s : State) (line : BitVec 5) (x : InFlight) (p : Party) (card : BitVec 64) (o : Ref) (named : Entry)
    (new : CardRecord),
    let i := line.toNat
    let old := recordFor s i x
    let day := s.clock.toNat / 86400
    let entry := entryFor s x (some p) named.amount new.sequence (some named.ref) none named.cycle
    let marked := put none s.journal.ring (o.toNat % 8192) (some { named with voided := true })
    let ring := reducedRing named (named.related.bind s.entryAt) marked
    let grace := if isGraceVoid s x then { s.cycle with graceVoids := s.cycle.graceVoids - 1 } else s.cycle
    let reversed := match x.boundSet with
      | some b => grace.modifySet b (fun a => a.modifyRow p.shop (takenOut named.kind named.amount))
      | none => grace
    LiveHead s line .void x p card → x.reference = some o → s.entryAt o = some named →
      foundExpired s old = false → named.slot = x.slot → named.voided = false →
      ((named.kind = .activate ∧ old.sequence = named.sequence
          ∧ new = { state := .unissued, sequence := old.sequence + 1, lastActivity := day })
        ∨ ((named.kind = .reload ∨ named.kind = .refund) ∧ old.held + named.amount ≤ old.balance
          ∧ new = { old with
              balance := old.balance - named.amount, lastActivity := day, sequence := old.sequence + 1 })
        ∨ ((named.kind = .redeem ∨ named.kind = .complete) ∧ named.refunded.getD 0 = 0
          ∧ old.balance + named.amount ≤ 999999
          ∧ new = { old with
              balance := old.balance + named.amount, lastActivity := day, sequence := old.sequence + 1 })) →
      ∃ t, exec (.voidPosting line) s = .next t ∧ ApprovedAs s t i x p card old new .approved entry s.holds
        ∧ JournalWritten (holdRefs s.holds.entries) entry ring t.journal
        ∧ t.cycle = frozenCycle t.store.float reversed

/-- 4.6 (R74): a BALANCE is answered NOT_ACTIVE for an UNISSUED card and with the card's figures for any other; it writes
the expiry finding and changes no book. -/
def Obligations.BalancePosts : Prop :=
  ∀ (s : State) (line : BitVec 5) (x : InFlight) (p : Party) (card : BitVec 64),
    let i := line.toNat
    let old := recordFor s i x
    let new := if foundExpired s old then expiredRecord s old else old
    LiveHead s line .balance x p card →
      ∃ t, exec (.balancePosting line) s = .next t ∧ LeavesBooks s t i x new ∧ t.cycle = s.cycle
        ∧ (old.state = .unissued →
            Answered s t x none (answerTo p card .balance false .declined (some .notActive) 0 0 new)
              ∧ t.supervision = declineCounted p.shop s)
        ∧ (old.state ≠ .unissued →
            Answered s t x none (answerTo p card .balance false .approved none 0 0 new)
              ∧ t.supervision = s.supervision)

/-- 4.1, 4.2 (R62, R66, R68, R70, R72, R85, R105, R107, R111 to R114, and R110 for a VOID): a live ACTIVATE, RELOAD,
REDEEM, HOLD, REFUND or VOID that is declined, by the first check of its kind's table that fails, or, for an expired
card, before any check of its own, changes no book: the card's record changes by the expiry finding alone, one decline
is counted against the shop, and the answer carries the reason. A declined grace void is counted out. -/
def Obligations.DeclinedPostingLeavesBooks : Prop :=
  ∀ (s : State) (line : BitVec 5) (x : InFlight) (p : Party) (card : BitVec 64) (reason : Reason) (c : Instr),
    let i := line.toNat
    let old := recordFor s i x
    let new := if foundExpired s old then expiredRecord s old else old
    let grace := if isGraceVoid s x then { s.cycle with graceVoids := s.cycle.graceVoids - 1 } else s.cycle
    postingCommand line x.kind = some c → expiryFirst x.kind = true → LiveHead s line x.kind x p card →
      (foundExpired s old = true ∧ reason = .expired
        ∨ foundExpired s old = false ∧ ownDecision s x old = .declined reason) →
      ∃ t, exec c s = .next t ∧ LeavesBooks s t i x new
        ∧ Answered s t x none (answerTo p card x.kind false .declined (some reason) 0 0 new)
        ∧ t.supervision = declineCounted p.shop s
        ∧ t.cycle = if x.kind = .void then frozenCycle t.store.float grace else s.cycle

/-- 4.7, 5.6, 6.5 (R75, R96, R118): a training transaction of any request kind is answered as a live one would be, with
the training marker and reference 0, and changes no book and no record; a decline is counted against the shop. -/
def Obligations.TrainingPostingChangesNothing : Prop :=
  ∀ (s : State) (line : BitVec 5) (x : InFlight) (p : Party) (card : BitVec 64) (c : Instr),
    let i := line.toNat
    let old := recordFor s i x
    let d := if expiryFirst x.kind = true ∧ foundExpired s old = true then .declined .expired else ownDecision s x old
    postingCommand line x.kind = some c → headEntry s i x.kind = some x → x.training = true →
      x.origin = .request p card →
      ∃ t, exec c s = .next t ∧ LeavesBooks s t i x old
        ∧ Answered s t x none
            (answerTo p card x.kind true (rulingOf d).1 (rulingOf d).2.1 (rulingOf d).2.2 0 old)
        ∧ t.supervision = (if (rulingOf d).1 = .declined then declineCounted p.shop s else s.supervision)
        ∧ t.cycle = if x.kind = .void then frozenCycle t.store.float s.cycle else s.cycle

/-! ### Card commands at their posting -/

/-- 4.8 (R77, R81): the posting of a CARD READ answers the slot, the record image and the block's valid mark, ends the
command, and changes no record and no book. -/
def Obligations.CardReadPosts : Prop :=
  ∀ (s : State) (line : BitVec 5) (x : InFlight) (tag : BitVec 16) (slot : Nat),
    let i := line.toNat
    let old := recordFor s i x
    headEntry s i .cardRead = some x → s.unit.progress = some { tag := tag, work := .cardRead slot } → NoDirectLoad s →
      ∃ t, exec (.cardReadPosting line) s = .next t
        ∧ UnitPosted s t i x
            { code := 0x16, tag := tag
              fields := fun _ => octets 3 x.slot ++ recordOctets old ++ yesNo (s.isValid x.block) } s.unit.first
        ∧ ((s.line i).waiters.tail ≠ [] ∨ (s.line i).state = .dirty ∨ (s.line i).state = .writing →
            PostedLine s t i x old)
        ∧ t.journal = s.journal ∧ t.journalOut.copies = s.journalOut.copies ∧ t.cycle = s.cycle
        ∧ t.store.float = s.store.float ∧ AuditIs s t

/-- 4.9 (R79, R80, with R64 and R37): a CARD ADJUST on an UNISSUED card, or whose balance change the card cannot take, is
declined with its reason, and nothing of the card or the books changes. An approved one makes the selected changes,
moves the float and the mall row by the balance change, writes its journal entry, and answers the new reference with
the record image. A declined one answers the image alone after the outcome and reason (log 12, the model's choice). -/
def Obligations.CardAdjustPosts : Prop :=
  (∀ (s : State) (line : BitVec 5) (x : InFlight) (tag : BitVec 16) (slot : Nat) (f : AdjustFields) (reason : Reason),
      let i := line.toNat
      let old := recordFor s i x
      let d : Int := if f.mask.getLsbD 2 then f.change.toInt else 0
      headEntry s i .adjust = some x → s.unit.progress = some { tag := tag, work := .cardAdjust slot f } → NoDirectLoad s →
        (old.state = .unissued ∧ reason = .notActive
          ∨ old.state ≠ .unissued ∧ d < 0 ∧ ((old.balance - old.held : Nat) : Int) < -d ∧ reason = .insufficient
          ∨ old.state ≠ .unissued ∧ 0 < d ∧ 999999 < (old.balance : Int) + d ∧ reason = .overMax) →
        ∃ t, exec (.cardAdjustPosting line) s = .next t
          ∧ UnitPosted s t i x
              { code := 0x17, tag := tag, outcome := some .declined, reason := some reason
                fields := fun _ => recordOctets old } s.unit.first
          ∧ ((s.line i).waiters.tail ≠ [] ∨ (s.line i).state = .dirty ∨ (s.line i).state = .writing →
              PostedLine s t i x old)
          ∧ t.journal = s.journal ∧ t.journalOut.copies = s.journalOut.copies ∧ t.cycle = s.cycle
          ∧ t.store.float = s.store.float ∧ AuditIs s t)
  ∧ (∀ (s : State) (line : BitVec 5) (x : InFlight) (tag : BitVec 16) (slot : Nat) (f : AdjustFields),
      let i := line.toNat
      let old := recordFor s i x
      let d : Int := if f.mask.getLsbD 2 then f.change.toInt else 0
      let selected : CardRecord :=
        { old with
          state := if f.mask.getLsbD 0 then (if f.state = 1#8 then .active else .blocked) else old.state
          expiryDay := if f.mask.getLsbD 1 then (if f.mask.getLsbD 3 then none else some f.expiryDay.toNat)
            else old.expiryDay
          balance := (old.balance + d).toNat }
      let new := if selected.state = old.state ∧ selected.balance = old.balance then selected
        else { selected with lastActivity := s.clock.toNat / 86400, sequence := old.sequence + 1 }
      let entry : Entry :=
        { ref := s.journal.next, cycle := s.cycle.number, clock := s.clock, kind := .adjust, party := none
          slot := x.slot, amount := d.natAbs, adjustDown := decide (d < 0), sequence := new.sequence, related := none
          refunded := none, voided := false }
      headEntry s i .adjust = some x → s.unit.progress = some { tag := tag, work := .cardAdjust slot f } → NoDirectLoad s →
        old.state ≠ .unissued → -((old.balance - old.held : Nat) : Int) ≤ d → (0 < d → (old.balance : Int) + d ≤ 999999) →
        ∃ t, exec (.cardAdjustPosting line) s = .next t
          ∧ UnitPosted s t i x
              { code := 0x17, tag := tag, outcome := some .approved
                fields := fun _ => octets 4 s.journal.next.toNat ++ recordOctets new } s.unit.first
          ∧ ((s.line i).waiters.tail ≠ [] ∨ ((s.line i).state = .dirty ∨ (s.line i).state = .writing) ∨ new ≠ old →
              PostedLine s t i x new)
          ∧ JournalWritten (holdRefs s.holds.entries) entry s.journal.ring t.journal
          ∧ t.journalOut.copies = s.journalOut.copies ++ [entry]
          ∧ t.cycle = (if d = 0 then s.cycle else s.cycle.modifySet s.cycle.current (fun a =>
              { a with mall := if 0 < d
                  then { a.mall with
                    adjustUp := min (a.mall.adjustUp + d.natAbs) (2 ^ 48 - 1)
                    saturated := a.mall.saturated || decide (2 ^ 48 - 1 ≤ a.mall.adjustUp + d.natAbs) }
                  else { a.mall with
                    adjustDown := min (a.mall.adjustDown + d.natAbs) (2 ^ 48 - 1)
                    saturated := a.mall.saturated || decide (2 ^ 48 - 1 ≤ a.mall.adjustDown + d.natAbs) } }))
          ∧ t.store.float = s.store.float + BitVec.ofInt 40 d
          ∧ AuditIs (if d = 0 then s else moveAudit x.block d 0 s) t)

/-- 3.4 (R46, R51): the posting of a replacement CARD LOAD puts the eight loaded records into the line with all its
dirty marks set; VALID becomes DIRTY, a WRITING line is marked as changed meanwhile, a write-back may start in the same
event, and the line is the most recently used. The float moves by the new sum less the old, the sums of a running audit
by what its cursor has passed (R58), and the pair is answered. The answer gives the balance sum three octets (log 12,
the model's choice). -/
def Obligations.ReplacementPosts : Prop :=
  ∀ (s : State) (line : BitVec 5) (x : InFlight) (tag : BitVec 16) (b : Nat) (records : Block),
    let i := line.toNat
    let old := (s.line i).records
    let change : Int := (balances records : Int) - balances old
    headEntry s i .cardLoad = some x → s.unit.progress = some { tag := tag, work := .replaceBlock b records } →
      ∃ t, exec (.cardLoadReplacementPosting line) s = .next t
        ∧ UnitPosted s t i x
            { code := 0x12, tag := tag
              fields := fun u => octets 3 b ++ [1] ++ octets 3 (balances records) ++ octets 5 u.store.float.toNat } none
        ∧ LineKept (postedLine (s.line i) records 0xFF) t i ∧ RankedLast s t i
        ∧ t.journal = s.journal ∧ t.journalOut.copies = s.journalOut.copies ∧ t.cycle = s.cycle
        ∧ t.store.float = s.store.float + BitVec.ofInt 40 change
        ∧ AuditIs (moveAudit b change ((helds records : Int) - helds old) s) t

/-! ### The record buffer, the banks, the audit walker and the sweep -/

/-- 3.5 (R50, R49): when the fetch at the head of a bank's queue completes, the line that was FETCHING its block is
VALID with the store copy and its waiters in their order; the operation leaves the queue, the store copies stay, and
every other line that rests keeps its block, records, marks and place in the order of use. -/
def Obligations.FetchCompletes : Prop :=
  ∀ (s : State) (bank : BitVec 2) (b i : Nat) (rest : List BankOp),
    s.queue bank.toNat = .fetch b :: rest → i < 32 → (s.line i).state = .fetching → (s.line i).block = some b →
      (∀ j < i, ¬ ((s.line j).state = .fetching ∧ (s.line j).block = some b)) → (s.line i).waiters ≠ [] →
      ∃ t, exec (.fetchComplete bank) s = .next t ∧ BooksKept s t 0
        ∧ t.store.copies = s.store.copies ∧ t.store.valid = s.store.valid
        ∧ LineKept { s.line i with state := .valid, records := s.storeCopy b } t i
        ∧ (∀ j, j ≠ i → Resting (s.line j) → LineKept (s.line j) t j) ∧ restingRank s t = restingRank s s
        ∧ QueueGrows rest (t.queue bank.toNat)
        ∧ ∀ k, k ≠ bank.toNat → QueueGrows (s.queue k) (t.queue k)

/-- 3.5 (R52, R53, R54): the write-back of a DIRTY line starts when the flush chooses it, or when the eviction check wants
lines and chooses it: the line is WRITING without marks, and its block's bank queue has the operation with the marked
records, or all eight under a clear valid mark, behind the others. That the row needs the flush or the eviction check
to choose the line is the model's choice (log 23). -/
def Obligations.WriteBackStarts : Prop :=
  ∀ (s : State) (line : BitVec 5) (b : Nat),
    let i := line.toNat
    let l := s.line i
    let marks : BitVec 8 := if s.isValid b then l.dirty else 0xFF
    let carried := l.records.filter (fun r => marks.getLsbD r.1)
    l.state = .dirty → l.block = some b → (s.queue (b % 4)).length < 8 →
      (flushChooses s i = true ∨ (writingIdle s < linesWanted s ∧ evictChoice s = some i)) →
      exec (.writeBackStart line) s =
        .next ((s.setLine i { l with state := .writing, dirty := 0, changed := false }).setQueue (b % 4)
          (s.queue (b % 4) ++ [.writeBack b marks carried]))

/-- 3.5 (R52, R39): when the write-back at the head of a bank's queue completes, its records replace the same records of
the store copy and no others, the valid mark is set, and the line is VALID, or DIRTY (and perhaps WRITING again) when
it was changed meanwhile. -/
def Obligations.WriteBackCompletes : Prop :=
  ∀ (s : State) (bank : BitVec 2) (b : Nat) (marks : BitVec 8) (carried : Block) (rest : List BankOp),
    s.queue bank.toNat = .writeBack b marks carried :: rest →
      ∃ t, exec (.writeBackComplete bank) s = .next t ∧ BooksKept s t 0
        ∧ (∀ k < 8, recordOf (t.storeCopy b) k =
            if marks.getLsbD k then recordOf carried k else recordOf (s.storeCopy b) k)
        ∧ (∀ c, c ≠ b → t.storeCopy c = s.storeCopy c)
        ∧ t.isValid b = true ∧ (∀ c, c ≠ b → t.isValid c = s.isValid c)
        ∧ QueueGrows rest (t.queue bank.toNat)
        ∧ (∀ k, k ≠ bank.toNat → QueueGrows (s.queue k) (t.queue k))
        ∧ (∀ i < 32, (s.line i).state = .writing → (s.line i).block = some b →
            (∀ j < i, ¬ ((s.line j).state = .writing ∧ (s.line j).block = some b)) →
            ((s.line i).changed = true ∨ (s.line i).waiters ≠ []) →
            LineKept { s.line i with state := if (s.line i).changed then .dirty else .valid, changed := false } t i)
        ∧ ∀ j, Resting (s.line j) → ¬ (j < 32 ∧ (s.line j).state = .writing ∧ (s.line j).block = some b) →
            LineKept (s.line j) t j

/-- 3.5, 3.4, 3.7 (R48, R47, R39, R45, R57): serving gives the claimable line to the oldest demand that can proceed. For
an in-flight entry's, the line takes its block and the waiters of every demand for the block, in their order, with a
fetch queued, or VALID with UNISSUED records under a clear valid mark; those demands leave the wait list and the line is
the most recently used. For a waiting direct CARD LOAD, the line is DIRTY, or WRITING, with the loaded records, the
float rises by their balances, the pair is answered, and the unit is IDLE without a pending FIRST. With no such demand,
or no claimable line, the list stays. With an empty list, an audit visit that waits and can proceed claims the line,
alone and as the least recently used. The pair's answer gives the balance sum three octets (log 12, the model's choice).
-/
def Obligations.WaitListServed : Prop :=
  (∀ (s : State),
      (∀ id b i, s.buffer.waitList.find? (fun d => canProceed s d.block) = some (.entry id b) → findLine s = some i →
        let joined := ((s.buffer.waitList.filter (fun d => d.block == b)).map Demand.waiter).flatten
        ∃ t, exec .waitListServe s = .next t ∧ BooksKept s t 0
          ∧ t.store.copies = s.store.copies ∧ t.store.valid = s.store.valid
          ∧ LineKept { state := if s.isValid b then .fetching else .valid, block := some b, waiters := joined } t i
          ∧ (s.isValid b = true → BankOp.fetch b ∈ t.queue (b % 4)) ∧ RankedLast s t i
          ∧ (∀ d ∈ t.buffer.waitList, d ∈ s.buffer.waitList ∧ d.block ≠ b)
          ∧ (∀ k, QueueGrows (s.queue k) (t.queue k))
          ∧ KeepsLines s t)
      ∧ (s.buffer.waitList.find? (fun d => canProceed s d.block) = none ∨ findLine s = none →
        ∃ t, exec .waitListServe s = .next t ∧ BooksKept s t 0 ∧ t.buffer.waitList = s.buffer.waitList
          ∧ t.store.copies = s.store.copies ∧ t.store.valid = s.store.valid
          ∧ (s.buffer.waitList ≠ [] ∨ s.store.audit.waiting = false ∨ findLine s = none → t.store.audit = s.store.audit)
          ∧ (∀ k, QueueGrows (s.queue k) (t.queue k)) ∧ KeepsLines s t)
      ∧ (∀ i, let c := s.store.audit.cursor
        s.buffer.waitList = [] → s.store.audit.running = true → s.store.audit.waiting = true →
        (s.isValid c = false ∨ (s.queue (c % 4)).length < 8) → findLine s = some i →
        ∃ t, exec .waitListServe s = .next t ∧ BooksKept s t 0
          ∧ t.store.copies = s.store.copies ∧ t.store.valid = s.store.valid
          ∧ t.store.audit = { s.store.audit with waiting := false }
          ∧ t.line i = { state := if s.isValid c then .fetching else .valid, block := some c, waiters := [.audit] }
          ∧ (s.isValid c = true → BankOp.fetch c ∈ t.queue (c % 4))
          ∧ t.buffer.recency = i :: s.buffer.recency.filter (· != i) ∧ t.buffer.waitList = []
          ∧ (∀ k, QueueGrows (s.queue k) (t.queue k)) ∧ KeepsLines s t))
  ∧ (∀ (s : State) (b i : Nat) (tag : BitVec 16) (records : Block),
      s.buffer.waitList.find? (fun d => canProceed s d.block) = some (.directLoad b) → findLine s = some i →
        s.unit.progress = some { tag := tag, work := .directLoad b records } →
        ∃ t, exec .waitListServe s = .next t ∧ BooksKept s t 0
          ∧ t.store.copies = s.store.copies ∧ t.store.valid = s.store.valid
          ∧ LineKept { state := .dirty, block := some b, records := records, dirty := 0xFF } t i ∧ RankedLast s t i
          ∧ t.store.float = s.store.float + BitVec.ofNat 40 (balances records)
          ∧ t.unit = { progress := none, first := none }
          ∧ RepliedAs s t
              { code := 0x12, tag := tag
                fields := fun u => octets 3 b ++ [0] ++ octets 3 (balances records) ++ octets 5 u.store.float.toNat } 0
          ∧ (∀ d ∈ t.buffer.waitList, d ∈ s.buffer.waitList ∧ d.block ≠ b))

/-- 3.7 (R57, R59): the audit visit at the head of a ready line adds the block's balances and helds to the sums and goes
on to the next block that is present, passing only blocks whose valid mark is clear and that no line holds; that next
block is present, and its visit stands at its line or waits for one. Past the last block the audit ends with its result,
the sums against the float and the hold total, and raises AUDIT. The line's marks, state and rank stay. That the wait
list and the write-backs that follow the leaving of the line come before the next visit begins (log 29), and that the
cursor stays at 131,072 after the end (log 14), is the model's choice. -/
def Obligations.AuditVisitReadsBlock : Prop :=
  ∀ (s : State) (line : BitVec 5) (ws : List Waiter),
    let i := line.toNat
    let records := (s.line i).records
    let a := s.store.audit
    let sum := a.balanceSum + BitVec.ofNat 40 (balances records)
    let held := a.heldSum + BitVec.ofNat 40 (helds records)
    let total := BitVec.ofNat 40 (holdTotal s.holds)
    (s.line i).state.ready = true → (s.line i).waiters = .audit :: ws → a.cursor < 131072 → NoDirectLoad s →
      ∃ t, exec (.auditVisit line) s = .next t ∧ BooksKept s t (if t.store.audit.cursor = 131072 then catAudit else 0)
        ∧ t.store.copies = s.store.copies ∧ t.store.valid = s.store.valid
        ∧ t.store.audit.balanceSum = sum ∧ t.store.audit.heldSum = held
        ∧ a.cursor + 1 ≤ t.store.audit.cursor ∧ t.store.audit.cursor ≤ 131072
        ∧ (∀ c, a.cursor + 1 ≤ c → c < t.store.audit.cursor →
            s.isValid c = false ∧ ∀ j < 32, (t.line j).block ≠ some c)
        ∧ (t.store.audit.cursor < 131072 →
            (s.isValid t.store.audit.cursor = true ∨ ∃ j < 32, (t.line j).block = some t.store.audit.cursor)
              ∧ (t.store.audit.waiting = true
                ∨ ∃ j, (t.line j).block = some t.store.audit.cursor ∧ Waiter.audit ∈ (t.line j).waiters))
        ∧ (ws ≠ [] ∨ (s.line i).state = .dirty ∨ (s.line i).state = .writing →
            LineKept { s.line i with waiters := ws } t i ∧ restingRank s t = restingRank s s)
        ∧ (∀ j, j ≠ i → Resting (s.line j) → LineKept (s.line j) t j)
        ∧ (if t.store.audit.cursor = 131072 then
            t.store.audit.running = false
              ∧ t.store.audit.result = some {
                  matched := sum == s.store.float && held == total
                  balanceSum := sum, float := s.store.float, heldSum := held, holdTotal := total }
          else t.store.audit.running = a.running ∧ t.store.audit.result = a.result)
        ∧ (∀ k, QueueGrows (s.queue k) (t.queue k))

/-- 5.5 (R92): when the first OPEN hold in table order is due and no expiry is in flight, the in-flight set and Journal
Out have a place, it becomes EXPIRING and its HOLD_EXPIRED enters the set, counted in the current bank (R30), with a
reservation and its demand made; when one of the conditions fails, nothing changes. The serial number of the new entry
is the model's own (log 5). -/
def Obligations.SweepSelects : Prop :=
  ∀ (s : State),
    (∀ h, candidate s.holds = some h → h.expiry ≤ s.clock.toNat → s.holds.expiring = none →
      s.inFlight.length < 64 → s.journalOut.copies.length + s.journalOut.reservations < 512 →
      let x : InFlight := expiryEntry s.nextId s.tables.generation h
      ∃ t, exec .sweepSelection s = .next t
        ∧ SameBut { s with
            holds := {
              entries := s.holds.entries.map (fun e => if e.ref = h.ref then { e with state := .expiring } else e)
              expiring := some h.ref }
            inFlight := s.inFlight ++ [x], nextId := s.nextId + 1, tables := bankEntered 1 s.tables
            journalOut := { s.journalOut with reservations := s.journalOut.reservations + 1 }
            buffer := t.buffer
            store := { s.store with audit := { s.store.audit with waiting := t.store.audit.waiting } } } t
        ∧ Demanded t s.nextId (h.slot / 8) ∧ KeepsLines s t ∧ NoticedAs s t 0
        ∧ (s.LevelAgrees → t.LevelAgrees))
    ∧ ((candidate s.holds = none ∨ (∃ h, candidate s.holds = some h ∧ s.clock.toNat < h.expiry)
        ∨ s.holds.expiring.isSome = true ∨ 64 ≤ s.inFlight.length
        ∨ 512 ≤ s.journalOut.copies.length + s.journalOut.reservations) →
      exec .sweepSelection s = .next s)

/-! ### The queue, the reset and the ports -/

/-- A step runs the command at the front of the queue on the state with the queue's rest, and an empty queue idles (log 1,
the model's choice). -/
def Obligations.StepRunsTheFrontCommand : Prop :=
  (∀ (c : Instr) (rest : List Instr) (s : State),
    step { s with pending := c :: rest } = exec c { s with pending := rest })
    ∧ ∀ s : State, s.pending = [] → step s = .next s

/-- 1.2, 10.4 (R5, R176, and the reset values of every chapter): a power-on reset in any state leaves every block at its
power-on values, the unit address read from the straps, and notice 1 of the reset's own event as the only frame in a
transmitter. The model's choices in it: the queue of waiting commands and the draws are kept (logs 1, 7), the notice is
the reset event's own (log 3), the straps are an operand (log 4), the serial numbers begin again at 0 (log 5), the store
copies of the DRAM are cleared to UNISSUED records (log 6), and nothing stands on the ports' outputs (log 33). -/
def Obligations.PowerOnResetRestoresEveryBlock : Prop :=
  ∀ (s : State) (straps : BitVec 4), ∃ t, exec (.powerOnReset straps) s = .next t
    ∧ t = {
        pending := s.pending, draws := s.draws, unitAddress := 0xB0 + straps.zeroExtend 8
        notices := { latch := catReset, masks := 0, number := 1 }
        sTx := [], oTx := [noticeFrame t catReset], sSent := [], oSent := [], oCount := { notices := 1 }
        tables := { bankA := { tag := some 0 }, bankB := { tag := none }, active := .a, generation := 0, shadow := .free }
        store := { phase := .unloaded, valid := [], flushPending := false, float := 0 }
        journal := { next := 1 }
        cycle := { number := 1, current := .x, closing := .none, graceEnd := none, graceVoids := 0, graceLength := 900 }
        payout := { engine := .idle, cursor := 0 }
        supervision := { keptWindow := 0, trip := 20, t1 := 3, t2 := 10 }
        journalOut := { copies := [], reservations := 0, level := .normal }
        clock := 0 }

/-- The state after reset meets every invariant that is stated to be kept. -/
def Obligations.ResetMeetsTheInvariants : Prop :=
  State.reset.TablesCanonical ∧ State.reset.LevelAgrees ∧ State.reset.ClosedShopsRest ∧ State.reset.Fits
    ∧ State.reset.JournalOutFits ∧ State.reset.TotalsBalance

/-- 1.1 (R1, R2, R187): a delimiter makes an IDLE or DISCARDING receiver RECEIVING with an empty frame, and is idle fill
between two frames. One that ends a frame leaves the receiver RECEIVING with an empty frame and counts a bad or
unfinished escape, or a wrong check, as a check failure and a shorter frame as a runt; a frame without escape marks is
dealt with as FRAME_RECEIVED of the same octets deals with it. A frame that reaches 601 octets is counted oversize and
discarded, also when it holds a bad escape (log 17, the model's choice). 1.2, 11.1 (R6, R187): the frame at the head of
a transmitter leaves it, and stands on the port's output between two delimiters with its escapes (log 33 for the output
as a field); where a transmitter is empty nothing happens, and a FRAME_REACHES_601_OCTETS at a receiver that receives no
frame does nothing (log 2, the model's choice). -/
def Obligations.ReceiversAndTransmitters : Prop :=
  ∀ s : State,
    (s.sRx.state ≠ .receiving ∨ s.sRx = freshReceiver →
      exec (.frameStartDelimiter .shop) s = .next { s with sRx := freshReceiver })
    ∧ (s.oRx.state ≠ .receiving ∨ s.oRx = freshReceiver →
      exec (.frameStartDelimiter .office) s = .next { s with oRx := freshReceiver })
    ∧ (s.sRx.state = .receiving →
      (s.sRx.bad = true ∨ s.sRx.escape = true ∨ (3 ≤ s.sRx.frame.length ∧ checkAgrees s.sRx.frame = false)) →
      exec (.frameStartDelimiter .shop) s = .next { s with
        sRx := freshReceiver, sCount := { s.sCount with checkFailures := s.sCount.checkFailures + 1 } })
    ∧ (s.oRx.state = .receiving →
      (s.oRx.bad = true ∨ s.oRx.escape = true ∨ (3 ≤ s.oRx.frame.length ∧ checkAgrees s.oRx.frame = false)) →
      exec (.frameStartDelimiter .office) s = .next { s with
        oRx := freshReceiver, oCount := { s.oCount with checkFailures := s.oCount.checkFailures + 1 } })
    ∧ (s.sRx.state = .receiving → s.sRx.bad = false → s.sRx.escape = false →
      1 ≤ s.sRx.frame.length → s.sRx.frame.length ≤ 2 →
      exec (.frameStartDelimiter .shop) s = .next { s with
        sRx := freshReceiver, sCount := { s.sCount with runts := s.sCount.runts + 1 } })
    ∧ (s.oRx.state = .receiving → s.oRx.bad = false → s.oRx.escape = false →
      1 ≤ s.oRx.frame.length → s.oRx.frame.length ≤ 2 →
      exec (.frameStartDelimiter .office) s = .next { s with
        oRx := freshReceiver, oCount := { s.oCount with runts := s.oCount.runts + 1 } })
    ∧ (∀ (port : Port) (f : Frame), f.length ≤ 600 → receiver port s = { freshReceiver with frame := f } →
      exec (.frameStartDelimiter port) s = exec (.frameReceived port (escaped f)) (setReceiver port freshReceiver s))
    ∧ (s.sRx.state = .receiving →
      exec (.frameReaches601 .shop) s = .next { s with
        sRx := { state := .discarding, frame := [] }
        sCount := { s.sCount with oversize := s.sCount.oversize + 1 } })
    ∧ (s.oRx.state = .receiving →
      exec (.frameReaches601 .office) s = .next { s with
        oRx := { state := .discarding, frame := [] }
        oCount := { s.oCount with oversize := s.oCount.oversize + 1 } })
    ∧ (s.sRx.state ≠ .receiving → exec (.frameReaches601 .shop) s = .next s)
    ∧ (s.oRx.state ≠ .receiving → exec (.frameReaches601 .office) s = .next s)
    ∧ (∀ f rest, s.sTx = f :: rest →
      exec (.transmitterFrameSent .shop) s = .next { s with sTx := rest, sSent := sentForm f })
    ∧ (∀ f rest, s.oTx = f :: rest →
      exec (.transmitterFrameSent .office) s = .next { s with oTx := rest, oSent := sentForm f })
    ∧ (s.sTx = [] → exec (.transmitterFrameSent .shop) s = .next s)
    ∧ (s.oTx = [] → exec (.transmitterFrameSent .office) s = .next s)

/-- 11.1 (R187) and 1.1 (R1): a frame of at most 600 octets, its escapes written, comes back whole from a receiver that
has been given its octets one by one; no delimiter stands among them. -/
def Obligations.EscapesRoundTrip : Prop :=
  ∀ (s : State) (port : Port) (f : Frame), receiver port s = freshReceiver → f.length ≤ 600 →
    (escaped f).foldl (fun t b => takeOctet port b t) s = setReceiver port { state := .receiving, frame := f } s
      ∧ (0x7E : Octet) ∉ escaped f ∧ (Instr.frameReceived port (escaped f)).wellFormed = true

/-- 1.1, 1.2 (R1, R2, R4, R5) and 11.1 (R187): an empty frame is idle fill; one of one or two octets is a runt, and one
whose check differs, or that holds a bad or an unfinished escape, a check failure; each is dropped and counted. A
checked S-port frame of another class, or a gift request that is short, has a half-octet above 9 in its prefix, or
whose prefix no program of the active bank carries, goes unchanged to the O-port transmitter; a checked O-port frame
that carries no destination field, or another address, to the S-port transmitter. That a frame carries a destination
field when two octets stand before its check is the model's reading (log 18). -/
def Obligations.FramesAreSorted : Prop :=
  (∀ (s : State) (f g : Frame) (b : Octet),
      (s.sRx = freshReceiver →
        exec (.frameReceived .shop []) s = .next s
        ∧ (1 ≤ f.length → f.length ≤ 2 → exec (.frameReceived .shop (escaped f)) s =
            .next { s with sCount := { s.sCount with runts := s.sCount.runts + 1 } })
        ∧ (3 ≤ f.length → f.length ≤ 600 → checkAgrees f = false → exec (.frameReceived .shop (escaped f)) s =
            .next { s with sCount := { s.sCount with checkFailures := s.sCount.checkFailures + 1 } })
        ∧ (f.length + g.length ≤ 598 → b ≠ 0x5D → b ≠ 0x5E → b ≠ 0x7E →
            exec (.frameReceived .shop (escaped f ++ [0x7D, b] ++ escaped g)) s =
              .next { s with sCount := { s.sCount with checkFailures := s.sCount.checkFailures + 1 } })
        ∧ (f.length ≤ 600 → exec (.frameReceived .shop (escaped f ++ [0x7D])) s =
            .next { s with sCount := { s.sCount with checkFailures := s.sCount.checkFailures + 1 } }))
      ∧ (s.oRx = freshReceiver →
        exec (.frameReceived .office []) s = .next s
        ∧ (1 ≤ f.length → f.length ≤ 2 → exec (.frameReceived .office (escaped f)) s =
            .next { s with oCount := { s.oCount with runts := s.oCount.runts + 1 } })
        ∧ (3 ≤ f.length → f.length ≤ 600 → checkAgrees f = false → exec (.frameReceived .office (escaped f)) s =
            .next { s with oCount := { s.oCount with checkFailures := s.oCount.checkFailures + 1 } })
        ∧ (f.length + g.length ≤ 598 → b ≠ 0x5D → b ≠ 0x5E → b ≠ 0x7E →
            exec (.frameReceived .office (escaped f ++ [0x7D, b] ++ escaped g)) s =
              .next { s with oCount := { s.oCount with checkFailures := s.oCount.checkFailures + 1 } })
        ∧ (f.length ≤ 600 → exec (.frameReceived .office (escaped f ++ [0x7D])) s =
            .next { s with oCount := { s.oCount with checkFailures := s.oCount.checkFailures + 1 } })))
  ∧ (∀ (s : State) (l : List Octet), 1 ≤ l.length → l.length ≤ 598 →
      let f := withCheck l
      let digits := cardPrefix (giftFields f).card
      (s.sRx = freshReceiver →
        (field f 0 1 ≠ 0x47 ∨ f.length < 26 ∨ (∃ i < 6, 9 < (digits.toNat / 16 ^ i) % 16)
          ∨ ∀ i < 16, (s.activeTables.program i).digits ≠ some digits) →
        exec (.frameReceived .shop (escaped f)) s = .next { s with
          oTx := s.oTx ++ [f]
          sCount := { s.sCount with received := s.sCount.received + 1, forwarded := s.sCount.forwarded + 1 } })
      ∧ (s.oRx = freshReceiver → (l.length = 1 ∨ field l 1 1 ≠ s.unitAddress.toNat) →
        exec (.frameReceived .office (escaped f)) s = .next { s with
          sTx := s.sTx ++ [f]
          oCount := { s.oCount with received := s.oCount.received + 1, forwarded := s.oCount.forwarded + 1 } }))

/-- 11.4, 11.6 (R190, R171): every management command, its frame written with the codes and layouts of chapter 11 and
received whole at the O-port, does exactly what the command does. That a command's own row counts its frame as
received is the model's choice (log 8). -/
def Obligations.ManagementFrameIsItsCommand : Prop :=
  ∀ (s : State) (c : Instr) (p : Payload), payload c = some p → s.oRx = freshReceiver →
    exec (.frameReceived .office (escaped (managementFrame s.unitAddress p))) s = exec c s

/-- 10.1 (R171, R172, R189) and 3.4 (R43, R44): a management frame of another class, too short for a command code, or with an
unknown code, is refused UNKNOWN_COMMAND, and a FIRST stays pending. One of the wrong length for its command is refused by
the steps in their order: BUSY while a command is in progress; WRONG_STATE for a CARD LOAD in READY; with a FIRST pending
SEQUENCE, unless it is the LAST for that block, and the FIRST is discarded; and else BAD_FIELD, which discards the FIRST of
a LAST. A LINK RESET passes the first steps. The code and tag are echoed, or 0 where the frame is too short to hold them
(log 11 for a frame that holds a code and no tag). That a wrong-length LAST is for the pending block by its first three
parameter octets, and that a wrong-length LINK RESET leaves the FIRST, is the model's reading (log 16). -/
def Obligations.UnknownAndMisshapenFramesRefused : Prop :=
  ∀ (s : State) (l : List Octet), s.oRx = freshReceiver → 2 ≤ l.length → l.length ≤ 598 →
    field l 1 1 = s.unitAddress.toNat →
    let code : BitVec 8 := if 3 ≤ l.length then BitVec.ofNat 8 (field l 2 1) else 0
    let tag : BitVec 16 := if 5 ≤ l.length then BitVec.ofNat 16 (field l 3 2) else 0
    (field l 0 1 ≠ 0x4D ∨ l.length = 2 ∨ commandTable code = none →
      exec (.frameReceived .office (escaped (withCheck l))) s = .next (refusedWith code tag .unknownCommand s))
    ∧ ∀ entry, field l 0 1 = 0x4D → 3 ≤ l.length → commandTable code = some entry → l.length ≠ 5 + entry.length →
        let dropped : State := { s with unit := { s.unit with first := none } }
        let loading := code = 0x11 ∨ code = 0x12
        let refusal : RefusalCode → State → Prop := fun r u =>
          exec (.frameReceived .office (escaped (withCheck l))) s = .next (refusedWith code tag r u)
        (code = 0x08 → refusal .badField s)
        ∧ (code ≠ 0x08 → s.unit.progress.isSome = true → refusal .busy s)
        ∧ (s.unit.progress = none → loading → s.store.phase = .ready → refusal .wrongState s)
        ∧ (s.unitFree → ¬ (loading ∧ s.store.phase = .ready) → refusal .badField s)
        ∧ ∀ first, code ≠ 0x08 → s.unit.progress = none → s.unit.first = some first →
            ¬ (loading ∧ s.store.phase = .ready) →
            (code = 0x12 → 8 ≤ l.length → field l 5 3 = first.block → refusal .badField dropped)
            ∧ (¬ (code = 0x12 ∧ 8 ≤ l.length ∧ field l 5 3 = first.block) → refusal .sequence dropped)

/-- 10.1 (R171 steps 2 to 4, R173) and 3.4 (R43, R44): a command other than LINK RESET is refused BUSY while another is in
progress; with a FIRST pending it is refused SEQUENCE and the FIRST is discarded, unless it is the LAST for that block; a
CARD LOAD in READY is refused WRONG_STATE before that, and the FIRST stays; a LAST with no FIRST pending is refused
SEQUENCE. A LAST is for the pending block by its first three parameter octets (log 16, the model's reading). -/
def Obligations.BusyAndBrokenPairsRefused : Prop :=
  ∀ (s : State) (c : Instr) (p : Payload), payload c = some p → p.code ≠ 0x08 →
    (s.unit.progress.isSome = true → exec c s = .next (refusedWith p.code p.tag .busy s))
    ∧ (s.unit.progress = none → (p.code = 0x11 ∨ p.code = 0x12) → s.store.phase = .ready →
        exec c s = .next (refusedWith p.code p.tag .wrongState s))
    ∧ (∀ first, s.unit.progress = none → s.unit.first = some first →
        ¬ ((p.code = 0x11 ∨ p.code = 0x12) ∧ s.store.phase = .ready) →
        (∀ images, c ≠ .cardLoadLast p.tag (BitVec.ofNat 24 first.block) images) →
        exec c s = .next (refusedWith p.code p.tag .sequence { s with unit := { s.unit with first := none } }))
    ∧ (s.unit.progress = none → s.unit.first = none → p.code = 0x12 → s.store.phase ≠ .ready →
        exec c s = .next (refusedWith p.code p.tag .sequence s))

/-! ### Admission -/

/-- 1.3, 2.2 (R4, R7 to R15, R22, R30, R87, R109): a gift request of a decimal prefix that passes every check in order
is admitted in one event: its entry enters the in-flight set with its reservation and is counted in the current bank,
its lane is taken, a COMPLETE or RELEASE claims its hold, a grace void is counted, it is counted globally and for its
shop, and its demand is made. The sweep may select its candidate after it. The serial number of the new entry is the
model's own (log 5), and the sweep's look in the same event is the model's choice (log 22). -/
def Obligations.RequestAdmitted : Prop :=
  ∀ (s : State) (l : List Octet) (k : Kind) (i : Nat),
    let f := withCheck l
    let q := giftFields f
    let x := entryOfRequest s q k i
    let n := q.shop.toNat
    let lane := s.lane (n * 16 + q.lane.toNat)
    let live := (s.shop n).mode ≠ .training
    let grace := live ∧ k = .void ∧ x.boundSet = some s.cycle.current.other ∧ s.cycle.closing ≠ .none
    let holds : Holds := if live ∧ (k = .complete ∨ k = .release) then
        { s.holds with entries := s.holds.entries.map (fun h =>
            if h.ref = q.reference then { h with state := .claimed } else h) }
      else s.holds
    s.sRx = freshReceiver → l.length = 24 → field l 0 1 = 0x47 →
      (∀ j < 6, ((cardPrefix q.card).toNat / 16 ^ j) % 16 ≤ 9) → FindsProgram s.activeTables (cardPrefix q.card) i →
      RequestFits q k → declineReason s q k i = none →
      ∃ t, exec (.frameReceived .shop (escaped f)) s = .next t
        ∧ SweepLooked holds (s.inFlight ++ [x])
            (if x.reserved then s.journalOut.reservations + 1 else s.journalOut.reservations) (bankEntered 1 s.tables) t
        ∧ Demanded t x.id x.block ∧ KeepsLines s t
        ∧ t.lanes = (s.setLane (n * 16 + q.lane.toNat) { lane with
            inFlight := true
            lastTrace := if live ∧ k ≠ .balance then some q.trace.toNat else lane.lastTrace }).lanes
        ∧ t.supervision = (s.modifyShop n fun r => { r with admitted := r.admitted + 1 }).supervision
        ∧ t.sCount = { s.sCount with received := s.sCount.received + 1, admitted := s.sCount.admitted + 1 }
        ∧ t.cycle = (if grace then { s.cycle with graceVoids := s.cycle.graceVoids + 1 } else s.cycle)
        ∧ t.sTx = s.sTx ∧ t.journal = s.journal ∧ t.journalOut.copies = s.journalOut.copies
        ∧ t.activeTables = s.activeTables ∧ t.tables.generation = s.tables.generation ∧ t.payout = s.payout
        ∧ t.store.float = s.store.float ∧ StoreKept s t ∧ t.unit = s.unit ∧ t.clock = s.clock ∧ LinksKept s t
        ∧ NoticedAs s t 0

/-- 1.3 (R4, R7 to R15, R22, R87, R109, R159, R160): a gift request for a loaded program, of a decimal prefix, that is
malformed, or fails a check, is answered DECLINED for the first reason in order, counted globally and against its shop,
with a fault for FORMAT, NO_CARD and PROGRAM_CLOSED; everything else stays. -/
def Obligations.RequestDeclined : Prop :=
  ∀ (s : State) (l : List Octet) (i : Nat) (reason : Reason),
    let f := withCheck l
    let q := giftFields f
    let n := q.shop.toNat
    s.sRx = freshReceiver → 24 ≤ l.length → l.length ≤ 598 → field l 0 1 = 0x47 →
      (∀ j < 6, ((cardPrefix q.card).toNat / 16 ^ j) % 16 ≤ 9) → FindsProgram s.activeTables (cardPrefix q.card) i →
      ((reason = .format ∧ ∀ k, ¬ RequestFits q k)
        ∨ ∃ k, RequestFits q k ∧ declineReason s q k i = some reason) →
      exec (.frameReceived .shop (escaped f)) s = .next { s with
        sTx := s.sTx ++ [giftFrame s (admissionAnswer s q reason)]
        sCount := { s.sCount with
          received := s.sCount.received + 1, declined := s.sCount.declined + 1, answers := s.sCount.answers + 1 }
        supervision := if n < 512 then (s.modifyShop n (declinedShop reason)).supervision else s.supervision }

/-! ### The clock, supervision windows, the cycle and the payout engine -/

/-- 9.4, 9.5 (R161 to R165): when the clock has passed into a later window, the window end weighs every shop by the table
of the alarm machine, keeps the window, and raises SUPERVISION when an alarm state changes. A WINDOW_END while the clock
stands in the kept window or an earlier one does nothing (log 2, the model's choice). -/
def Obligations.WindowEndWeighsEveryShop : Prop :=
  ∀ s : State,
    (canonical {} s.supervision.shops = true → s.supervision.keptWindow < s.clock.toNat / 60 →
      ∃ v, WindowEnded s s.clock v
        ∧ ((∀ n, (weighedShop s n).alarm = (s.shop n).alarm) →
          exec .windowEnd s = .next { s with supervision := v })
        ∧ ((∃ n, (weighedShop s n).alarm ≠ (s.shop n).alarm) →
          exec .windowEnd s = .next (noted catSupervision { s with supervision := v })))
    ∧ (s.clock.toNat / 60 ≤ s.supervision.keptWindow → exec .windowEnd s = .next s)

/-- 10.5 (R178, R179, with R161, R165, R127, R92, R176): a clock tick advances the clock by one, wrapping, and SET CLOCK
puts it at a value and answers both values. In the same event a window that has passed ends (the wrap ends one too; a
value in an earlier window is kept without ending any) and raises SUPERVISION when an alarm state changes, GRACE ends at
its time, and the sweep selects a hold that is due, whose entry alone joins the in-flight set; a notice is sent exactly
when one is due. -/
def Obligations.ClockActsOnTheNewValue : Prop :=
  (∀ s : State, canonical {} s.supervision.shops = true →
      let clock := s.clock + 1
      ∃ t, exec .clockTick s = .next t ∧ t.clock = clock
        ∧ (if clock = 0 ∨ s.supervision.keptWindow < clock.toNat / 60 then WindowEnded s clock t.supervision
          else t.supervision = s.supervision)
        ∧ t.cycle = graceAt clock s.store.float s.cycle
        ∧ SweepLooked s.holds s.inFlight s.journalOut.reservations s.tables t
        ∧ (∀ h, candidate s.holds = some h → h.expiry ≤ clock.toNat → s.holds.expiring = none → s.inFlight.length < 64 →
            s.journalOut.copies.length + s.journalOut.reservations < 512 → t.holds.expiring = some h.ref)
        ∧ KeepsLines s t ∧ (∃ more, AlarmsRaise s t more ∧ NoticedAs s t more)
        ∧ t.journal = s.journal ∧ t.journalOut.copies = s.journalOut.copies ∧ t.payout = s.payout ∧ t.lanes = s.lanes
        ∧ t.sTx = s.sTx ∧ t.sCount = s.sCount ∧ t.activeTables = s.activeTables ∧ t.unit = s.unit
        ∧ t.store.float = s.store.float ∧ StoreKept s t ∧ LinksKept s t)
  ∧ (∀ (s : State) (tag : BitVec 16) (clock : BitVec 32), canonical {} s.supervision.shops = true → s.unitFree →
      ∃ t, exec (.setClock tag clock) s = .next t ∧ t.clock = clock
        ∧ (∃ more, AlarmsRaise s t more ∧ RepliedAs (countArrival s) t
            { code := 0x04, tag := tag, fields := fun _ => octets 4 s.clock.toNat ++ octets 4 clock.toNat } more)
        ∧ (if s.supervision.keptWindow < clock.toNat / 60 then WindowEnded s clock t.supervision
          else t.supervision = { s.supervision with keptWindow := clock.toNat / 60 })
        ∧ t.cycle = graceAt clock s.store.float s.cycle
        ∧ SweepLooked s.holds s.inFlight s.journalOut.reservations s.tables t
        ∧ (∀ h, candidate s.holds = some h → h.expiry ≤ clock.toNat → s.holds.expiring = none → s.inFlight.length < 64 →
            s.journalOut.copies.length + s.journalOut.reservations < 512 → t.holds.expiring = some h.ref)
        ∧ KeepsLines s t
        ∧ t.journal = s.journal ∧ t.journalOut.copies = s.journalOut.copies ∧ t.payout = s.payout ∧ t.lanes = s.lanes
        ∧ t.sTx = s.sTx ∧ t.sCount = s.sCount ∧ t.activeTables = s.activeTables ∧ t.unit = s.unit
        ∧ t.store.float = s.store.float ∧ StoreKept s t ∧ LinksKept s t)

/-- 7.4, 7.5, 8.1, 8.4 (R127, R129, R131, R132, R146): GRACE ends when the clock is at its end time, and passes on to
FROZEN without grace voids; a FREEZING set without grace voids becomes FROZEN with the float in its mall row; a FROZEN
set is taken up by the engine, WALKING from cursor 0 with every running total 0, and is COMPUTING; a DRAINING set with
an empty payout queue is cleared to zero and idle. CYCLE is raised at FROZEN and at the clearing alone. Where its
condition does not stand, each row does nothing (log 2, the model's choice). -/
def Obligations.ClosingSetMovesOn : Prop :=
  (∀ s : State,
      let c := s.cycle
      let other := c.current.other
      let freezing : Cycle := { c with closing := .freezing, graceEnd := none }
      let frozen : Cycle → Cycle := fun d =>
        { d.modifySet other (fun a => { a with mall := { a.mall with floatAtFreeze := s.store.float } }) with
          closing := .frozen }
      let cleared : Cycle := { c.modifySet other (fun _ => { rows := [], mall := {} }) with closing := .none, graceVoids := 0 }
      (∀ g, c.closing = .grace → c.graceEnd = some g → g ≤ s.clock.toNat →
        exec .graceEnd s = .next (if c.graceVoids = 0 then noted catCycle { s with cycle := frozen freezing }
          else { s with cycle := freezing }))
      ∧ (¬ (c.closing = .grace ∧ ∃ g, c.graceEnd = some g ∧ g ≤ s.clock.toNat) → exec .graceEnd s = .next s)
      ∧ (c.closing = .freezing → c.graceVoids = 0 →
          exec .closingSetFrozen s = .next (noted catCycle { s with cycle := frozen c }))
      ∧ (¬ (c.closing = .freezing ∧ c.graceVoids = 0) → exec .closingSetFrozen s = .next s)
      ∧ (c.closing = .draining → s.payout.queue = [] →
          exec .closingSetClear s = .next (noted catCycle { s with cycle := cleared }))
      ∧ (¬ (c.closing = .draining ∧ s.payout.queue = []) → exec .closingSetClear s = .next s))
  ∧ (∀ s : State,
      (s.cycle.closing = .frozen → exec .payoutTakeUp s = .next { s with
        cycle := { s.cycle with closing := .computing }
        payout := { s.payout with
          engine := .walking, cursor := 0, cycle := some (s.cycle.number - 1), totals := {} } })
      ∧ (s.cycle.closing ≠ .frozen → exec .payoutTakeUp s = .next s))

/-- 7.3, 7.4 (R125, R127, R128): an accepted CUTOVER closes the current set, starts GRACE for the grace length, raises the
cycle number and counts the live VOIDs bound to the closed set; an accepted FREEZE ends GRACE whatever the clock. Each
is answered with the state after the event; CUTOVER is refused BUSY and FREEZE WRONG_STATE in the other states. -/
def Obligations.CutoverAndFreeze : Prop :=
  ∀ (s : State) (tag : BitVec 16), s.unitFree →
    let voids := (s.inFlight.filter (fun x =>
      decide (x.kind = .void ∧ x.training = false ∧ x.boundSet = some s.cycle.current))).length
    let grace : Cycle :=
      { s.cycle with
        current := s.cycle.current.other, closing := .grace, graceEnd := some (s.clock.toNat + s.cycle.graceLength)
        number := s.cycle.number + 1, graceVoids := voids }
    let ended : Cycle := frozenCycle s.store.float { s.cycle with closing := .freezing, graceEnd := none }
    (s.cycle.closing = .none → ∃ t, exec (.cutover tag) s = .next t
      ∧ SameBut { s with cycle := graceAt s.clock s.store.float grace } t ∧ t.journalOut.level = s.journalOut.level
      ∧ RepliedAs (countArrival s) t
          { code := 0x38, tag := tag
            fields := fun u => octets 4 (s.cycle.number + 1).toNat ++ octets 4 s.cycle.number.toNat
              ++ octets 5 (u.cycle.graceEnd.getD (2 ^ 40 - 1)) ++ octets 1 voids } 0
      ∧ t.notices.latch = s.notices.latch ||| (if t.cycle.closing = .frozen then catCycle else 0))
    ∧ (s.cycle.closing ≠ .none → exec (.cutover tag) s = .next (refusedWith 0x38 tag .busy s))
    ∧ (s.cycle.closing = .grace → ∃ t, exec (.freeze tag) s = .next t
      ∧ SameBut { s with cycle := ended } t ∧ t.journalOut.level = s.journalOut.level
      ∧ RepliedAs (countArrival s) t
          { code := 0x39, tag := tag
            fields := fun u => octets 1 (if u.cycle.closing = .frozen then 3 else 2) ++ octets 1 s.cycle.graceVoids } 0
      ∧ t.notices.latch = s.notices.latch ||| (if s.cycle.graceVoids = 0 then catCycle else 0))
    ∧ (s.cycle.closing ≠ .grace → exec (.freeze tag) s = .next (refusedWith 0x39 tag .wrongState s))

/-- 8.4 (R146 to R149): a step of a WALKING engine goes on to the next shop with a record. With room in the queue it
appends that shop's record, writes its carry, adds to the totals and moves on; past shop 511 it appends the cycle
total record, and the set is DRAINING and the engine IDLE; with the queue full it waits there. CYCLE_TOTAL_APPEND is
that last append alone, and either row does nothing where the engine is not WALKING (log 2, the model's choice). That
PAYOUT_STEP past shop 511 makes that append itself is the model's choice (log 21). -/
def Obligations.PayoutWalkSteps : Prop :=
  ∀ s : State,
    let p := s.payout
    let closing := s.cycle.set s.cycle.current.other
    (∀ n, p.engine = .walking → p.cursor ≤ n → n < 512 → (∀ j, p.cursor ≤ j → j < n → ¬ WalksTo s j) → WalksTo s n →
      let fees := s.activeTables.feeClass (s.activeTables.shopTerms n).feeClass
      let r := shopRecord (s.cycle.number - 1) n fees (closing.row n) (s.carry n)
      let totals : Totals :=
        { redeemed := p.totals.redeemed + r.row.redeemed, sold := p.totals.sold + r.row.sold
          refunded := p.totals.refunded + r.row.refunded, percentFee := p.totals.percentFee + r.percentFee
          fixedFee := p.totals.fixedFee + r.fixedFee, commission := p.totals.commission + r.commission
          rebate := p.totals.rebate + r.rebate
          pay := p.totals.pay + (if r.disposition = .pay then r.amount else 0)
          collect := p.totals.collect + (if r.disposition = .collect then r.amount else 0)
          carryChange := p.totals.carryChange + r.carryOut - r.carryIn, records := p.totals.records + 1
          saturated := p.totals.saturated || r.row.saturated }
      (p.queue.length < 64 → exec .payoutStep s = .next { s with payout := { p with
        queue := p.queue ++ [.shop r], carries := put 0 p.carries n r.carryOut, totals := totals
        cursor := n + 1 } })
      ∧ (64 ≤ p.queue.length → exec .payoutStep s = .next { s with payout := { p with engine := .waiting, cursor := n } })
      ∧ exec .cycleTotalAppend s = .next s)
    ∧ (p.engine = .walking → p.cursor ≤ 512 → (∀ j, p.cursor ≤ j → j < 512 → ¬ WalksTo s j) →
      let total : CycleTotal :=
        { cycle := s.cycle.number - 1, totals := p.totals, adjustUp := closing.mall.adjustUp
          adjustDown := closing.mall.adjustDown, floatAtFreeze := closing.mall.floatAtFreeze
          saturated := p.totals.saturated || closing.mall.saturated }
      let after : State := { s with
        cycle := { s.cycle with closing := .draining }
        payout := { p with
          queue := p.queue ++ [.total total], engine := .idle, cursor := 0, cycle := none, totals := {} } }
      (p.queue.length < 64 → exec .payoutStep s = .next after ∧ exec .cycleTotalAppend s = .next after)
      ∧ (64 ≤ p.queue.length → exec .payoutStep s = .next { s with payout := { p with engine := .waiting, cursor := 512 } }
        ∧ exec .cycleTotalAppend s = .next s))
    ∧ (p.engine ≠ .walking → exec .payoutStep s = .next s ∧ exec .cycleTotalAppend s = .next s)

/-- 8.2, 8.3 (R139, R141 to R145): the figures of a shop's payout record: each rate charge is the nearest whole number of
cents, an exact half going to the even neighbour; the rebate is capped at the percentage fee; the net is exact; and
the disposition splits it into an amount paid or collected and a carry, which stays within −99,999 to 99,999. -/
def Obligations.PayoutRecordFigures : Prop :=
  ∀ (cycle : BitVec 32) (n : Nat) (f : FeeClass) (row : Row) (carry : Int),
    let r := shopRecord cycle n f row carry
    let rounds : Nat → Nat → Prop := fun p h =>
      2 * p ≤ 20000 * h + 10000 ∧ 20000 * h ≤ 2 * p + 10000 ∧ (p % 10000 = 5000 → h % 2 = 0)
    rounds (row.redeemed * f.redemptionRate) r.percentFee
      ∧ rounds (row.sold * f.commissionRate) r.commission
      ∧ r.fixedFee = row.redeemCount * f.fixedFee
      ∧ (if f.rebate then ∃ h, rounds (row.refunded * f.redemptionRate) h ∧ r.rebate = min h r.percentFee
        else r.rebate = 0)
      ∧ r.net = (row.redeemed : Int) - row.sold - row.refunded - r.percentFee - r.fixedFee + r.commission + r.rebate
          + r.carryIn
      ∧ r.cycle = cycle ∧ r.shop = n ∧ r.row = row ∧ r.carryIn = carry
      ∧ (0 < r.net → (f.minPayout : Int) ≤ r.net →
          r.disposition = .pay ∧ (r.amount : Int) = r.net ∧ r.carryOut = 0)
      ∧ (0 < r.net → r.net < f.minPayout → r.disposition = .holdOver ∧ r.amount = 0 ∧ r.carryOut = r.net)
      ∧ (r.net = 0 → r.disposition = .nil ∧ r.amount = 0 ∧ r.carryOut = 0)
      ∧ (r.net < 0 → (f.collectAt : Int) ≤ -r.net →
          r.disposition = .collect ∧ (r.amount : Int) = -r.net ∧ r.carryOut = 0)
      ∧ (r.net < 0 → -r.net < f.collectAt → r.disposition = .defer ∧ r.amount = 0 ∧ r.carryOut = r.net)
      ∧ (f.minPayout ≤ 100000 → f.collectAt ≤ 100000 → -99999 ≤ r.carryOut ∧ r.carryOut ≤ 99999)

/-! ### Management commands that read -/

/-- 10.2, 10.9, 8.5, 2.6, 5.6, 6.1 (R174, R185, R151, R153, R34, R98, R103) with 11.4 and R190: STATUS READ answers the
summary alone; JOURNAL READ and PAYOUT READ the oldest records of their queue, eight and four at most, or count 0 and
the EMPTY marker, and remove none; TABLE READ the entry of the selected bank with the figures of the banks, and is
refused BAD_FIELD out of range; HOLD READ and ENTRY READ whether the reference is found, the entry when it is (left
out when it is not, log 12), and the figures of their block. Nothing but the answer changes. -/
def Obligations.StoredEntriesAnswered : Prop :=
  (∀ (s : State) (tag : BitVec 16), s.unitFree →
      let settling := s.cycle.closing ≠ .none
      let marker := [0xFF, if settling then 1 else 0] ++ octets 1 (closingCode s.cycle.closing)
        ++ octets 1 (engineCode s.payout.engine) ++ octets 4 (if settling then (s.cycle.number - 1).toNat else 0)
      let copies := s.journalOut.copies
      let records := s.payout.queue
      exec (.statusRead tag) s = .next (accepted 0x01 tag [] s)
      ∧ exec (.journalRead tag) s = .next (accepted 0x06 tag
          (octets 2 copies.length ++ octets 2 s.journalOut.reservations ++ octets 1 (min copies.length 8)
            ++ (if copies = [] then marker else ((copies.take 8).map entryOctets).flatten)) s)
      ∧ exec (.payoutRead tag) s = .next (accepted 0x42 tag
          (octets 1 records.length ++ octets 1 (closingCode s.cycle.closing) ++ octets 1 (engineCode s.payout.engine)
            ++ octets 1 (min records.length 4)
            ++ (if records = [] then marker else ((records.take 4).map payoutOctets).flatten)) s))
  ∧ (∀ (s : State) (tag : BitVec 16), s.unitFree →
      (∀ (bank table : BitVec 8) (index : BitVec 16),
        let n := index.toNat
        let t := if bank = 0 then (activeBank s.tables).tables else (shadowBank s.tables).tables
        let figures := octets 1 s.tables.generation.toNat ++ octets 1 (shadowCode s.tables.shadow)
          ++ octets 1 (activeBank s.tables).count ++ octets 1 (shadowBank s.tables).count
        ((bank = 0 ∨ bank = 1) →
          (table = 0 → n < 16 → exec (.tableRead tag bank table index) s =
            .next (accepted 0x25 tag (programOctets n (look {} t.programs n) ++ figures) s))
          ∧ (table = 1 → n < 16 → exec (.tableRead tag bank table index) s =
            .next (accepted 0x25 tag (feeOctets n (look {} t.classes n) ++ figures) s))
          ∧ (table = 2 → n < 512 → exec (.tableRead tag bank table index) s =
            .next (accepted 0x25 tag (termsOctets n (look {} t.terms n) ++ figures) s)))
        ∧ (1 < bank.toNat ∨ 2 < table.toNat ∨ (table.toNat < 2 ∧ 16 ≤ n) ∨ 512 ≤ n →
          exec (.tableRead tag bank table index) s = .next (refusedWith 0x25 tag .badField s)))
      ∧ (∀ ref : BitVec 32,
        let figures := octets 2 s.holds.entries.length ++ [if s.holds.expiring.isSome then 1 else 0]
          ++ octets 4 (s.holds.expiring.getD 0).toNat
          ++ octets 5 (((s.holds.entries.find? (fun h => decide (h.state = .opened))).map (·.expiry)).getD (2 ^ 40 - 1))
        (∀ h, ref ≠ 0 → s.holds.entries.find? (fun g => g.ref == ref) = some h →
          exec (.holdRead tag ref) s = .next (accepted 0x30 tag ([1] ++ holdOctets h ++ figures) s))
        ∧ ((ref = 0 ∨ ∀ h ∈ s.holds.entries, h.ref ≠ ref) →
          exec (.holdRead tag ref) s = .next (accepted 0x30 tag ([0] ++ figures) s)))
      ∧ ∀ ref : BitVec 32,
        let figures := octets 4 s.journal.next.toNat ++ octets 2 s.journal.ring.length
        (∀ entry, ref ≠ 0 → look none s.journal.ring (ref.toNat % 8192) = some entry → entry.ref = ref →
          exec (.entryRead tag ref) s = .next (accepted 0x31 tag ([1] ++ entryOctets entry ++ figures) s))
        ∧ ((ref = 0 ∨ ∀ entry, look none s.journal.ring (ref.toNat % 8192) = some entry → entry.ref ≠ ref) →
          exec (.entryRead tag ref) s = .next (accepted 0x31 tag ([0] ++ figures) s)))

/-- 7.6 (R135) with R190: ROW READ answers the selected row of the current or closing set with which set it is, its cycle
and the controller's figures. An out-of-range row is refused BAD_FIELD, and, where the row is in range, the closing
set WRONG_STATE while there is none. Nothing else changes. That the row is checked before the set is the model's
choice (log 20). -/
def Obligations.RowReadAnswers : Prop :=
  ∀ (s : State) (tag : BitVec 16) (set : BitVec 8) (row : BitVec 16), s.unitFree →
    let which := if set = 0 then s.cycle.current else s.cycle.current.other
    let a := if which = .x then s.cycle.setX else s.cycle.setY
    let r := look {} a.rows row.toNat
    let fields :=
      (if row = 0xFFFF then
          octets 6 a.mall.adjustUp ++ octets 6 a.mall.adjustDown ++ octets 5 a.mall.floatAtFreeze.toNat
            ++ [if a.mall.saturated then 1 else 0]
        else octets 6 r.redeemed ++ octets 3 r.redeemCount ++ octets 6 r.sold ++ octets 3 r.soldCount
          ++ octets 6 r.refunded ++ octets 3 r.refundCount ++ [if r.saturated then 1 else 0])
        ++ [if which = .x then 0 else 1]
        ++ octets 4 (if set = 0 then s.cycle.number else s.cycle.number - 1).toNat
        ++ octets 4 s.cycle.number.toNat ++ octets 1 (closingCode s.cycle.closing)
        ++ octets 5 (s.cycle.graceEnd.getD (2 ^ 40 - 1)) ++ octets 1 s.cycle.graceVoids
    ((row.toNat < 512 ∨ row = 0xFFFF) → (set = 0 ∨ (set = 1 ∧ s.cycle.closing ≠ .none)) →
      exec (.rowRead tag set row) s = .next (accepted 0x3A tag fields s))
    ∧ ((row.toNat < 512 ∨ row = 0xFFFF) → set = 1 → s.cycle.closing = .none →
      exec (.rowRead tag set row) s = .next (refusedWith 0x3A tag .wrongState s))
    ∧ (1 < set.toNat ∨ (512 ≤ row.toNat ∧ row ≠ 0xFFFF) →
      exec (.rowRead tag set row) s = .next (refusedWith 0x3A tag .badField s))

/-- 9.7 (R167 to R169, R181) with R190: COUNTER READ answers a shop's counters and supervision figures, or both global
sets, and with its flag clears what it answers in the same event; COUNTER CLEAR clears a shop's three counters, every
shop's, or both global sets, the answer being counted after the clear. SHOP SCAN answers at most the first eight
shops, from the starting number up, that are in WATCH or ALARM or hold a cause, then the next number, all ones when
the scan reached shop 511, and the numbers of shops in ALARM and suspended. Other selectors, flags and shops are
refused BAD_FIELD. The list of a scan has no count octet, and its next number is the model's reading (log 12). The answer
for a shop has 24 octets: behind the 22 of its listed fields stand two that R190 gives no field, a free value drawn for
each answer (log 31, the model's choice). -/
def Obligations.CountersAndShopScan : Prop :=
  (∀ (s : State) (tag selector : BitVec 16) (flags : BitVec 8), s.unitFree →
      let n := selector.toNat
      let r := s.shop n
      let clear : Shop → Shop := fun r => { r with admitted := 0, declines := 0, faults := 0 }
      let shopFields := octets 4 r.admitted.toNat ++ octets 4 r.declines.toNat ++ octets 4 r.faults.toNat
        ++ octets 1 (modeCode r.mode) ++ [(if r.management then 1 else 0) + (if r.alarmCause then 2 else 0)]
        ++ octets 1 (alarmCode r.alarm) ++ octets 2 r.windowFaults ++ octets 1 r.badWindows ++ octets 1 r.goodWindows
        ++ octets 1 s.supervision.trip ++ octets 1 s.supervision.t1 ++ octets 1 s.supervision.t2
        ++ octets 2 (Config.counterTail s.draws).toNat
      let a := s.sCount
      let b := (countArrival s).oCount
      let global := ([a.received, a.checkFailures, a.runts, a.oversize, a.forwarded, a.admitted, a.declined, a.answers,
        b.received, b.checkFailures, b.runts, b.oversize, b.forwarded, b.management, b.refusals, b.answers,
        b.notices].map (fun c => octets 4 c.toNat)).flatten
      let emptied : Reply → State := fun reply => { s with
        oTx := s.oTx ++ [replyFrame s reply], sCount := {}, oCount := { answers := 1 } }
      (n < 512 → flags = 0 → exec (.counterRead tag selector flags) s =
          .next (accepted 0x4B tag shopFields { s with draws := s.draws + 1 }))
      ∧ (n < 512 → flags = 1 → exec (.counterRead tag selector flags) s =
          .next (accepted 0x4B tag shopFields { s.modifyShop n clear with draws := s.draws + 1 }))
      ∧ (selector = 0xFFFF → flags = 0 → exec (.counterRead tag selector flags) s = .next (accepted 0x4B tag global s))
      ∧ (selector = 0xFFFF → flags = 1 → exec (.counterRead tag selector flags) s =
          .next (emptied { code := 0x4B, tag := tag, fields := fun _ => global }))
      ∧ (1 < flags.toNat ∨ (512 ≤ n ∧ selector ≠ 0xFFFF) →
          exec (.counterRead tag selector flags) s = .next (refusedWith 0x4B tag .badField s))
      ∧ (n < 512 → exec (.counterClear tag selector) s = .next (accepted 0x4C tag [] (s.modifyShop n clear)))
      ∧ (selector = 0xFFFE → canonical {} s.supervision.shops = true → ∃ shops,
          exec (.counterClear tag selector) s =
            .next (accepted 0x4C tag [] { s with supervision := { s.supervision with shops := shops } })
          ∧ ∀ m, look {} shops m = clear (s.shop m))
      ∧ (selector = 0xFFFF → exec (.counterClear tag selector) s = .next (emptied { code := 0x4C, tag := tag }))
      ∧ (512 ≤ n → selector ≠ 0xFFFE → selector ≠ 0xFFFF →
          exec (.counterClear tag selector) s = .next (refusedWith 0x4C tag .badField s)))
  ∧ (∀ (s : State) (tag shop : BitVec 16), s.unitFree →
      let holds : Nat → Bool := fun n =>
        decide ((s.shop n).alarm ≠ .normal) || (s.shop n).management || (s.shop n).alarmCause
      let all := (List.range 512).filter (fun n => decide (shop.toNat ≤ n) && holds n)
      let listed := all.take 8
      let next := if listed.length = 8 ∧ listed.getLast? ≠ some 511 then listed.getLast?.elim 0xFFFF (· + 1) else 0xFFFF
      let alarms := ((List.range 512).filter (fun n => decide ((s.shop n).alarm = .alarm))).length
      let stopped := ((List.range 512).filter (fun n =>
        decide ((s.shop n).mode = .opened) && ((s.shop n).management || (s.shop n).alarmCause))).length
      (shop.toNat < 512 → exec (.shopScan tag shop) s = .next (accepted 0x4D tag
        ((listed.map (fun n =>
          octets 2 n ++ octets 1 (modeCode (s.shop n).mode)
            ++ [(if (s.shop n).management then 1 else 0) + (if (s.shop n).alarmCause then 2 else 0)]
            ++ octets 1 (alarmCode (s.shop n).alarm) ++ octets 1 (s.shop n).badWindows ++ octets 1 (s.shop n).goodWindows
          )).flatten ++ octets 2 next ++ octets 2 alarms ++ octets 2 stopped) s))
      ∧ (512 ≤ shop.toNat → exec (.shopScan tag shop) s = .next (refusedWith 0x4D tag .badField s)))

/-! ### Management commands that write -/

/-- 10.6 (R180): SET CONFIG writes the trip threshold, T1, T2 and the grace length, all four in one event, and answers the
values now in force; when one lies outside its range it is refused BAD_FIELD and writes none. After a power-on reset
they are 20, 3, 10 and 900, and LINK RESET leaves all four unchanged. -/
def Obligations.SetConfigWritesAllOrNone : Prop :=
  (∀ (s : State) (tag : BitVec 16) (trip t1 t2 : BitVec 8) (grace : BitVec 16), s.unitFree →
    let fits := 1 ≤ trip.toNat ∧ 1 ≤ t1.toNat ∧ t1.toNat ≤ 15 ∧ 1 ≤ t2.toNat ∧ t2.toNat ≤ 60 ∧ grace.toNat ≤ 3600
    (fits → exec (.setConfig tag trip t1 t2 grace) s = .next (accepted 0x05 tag
      (octets 1 trip.toNat ++ octets 1 t1.toNat ++ octets 1 t2.toNat ++ octets 2 grace.toNat) { s with
        supervision := { s.supervision with trip := trip.toNat, t1 := t1.toNat, t2 := t2.toNat }
        cycle := { s.cycle with graceLength := grace.toNat } }))
    ∧ (¬ fits → exec (.setConfig tag trip t1 t2 grace) s = .next (refusedWith 0x05 tag .badField s)))
  ∧ (∀ (s : State) (straps : BitVec 4), ∃ t, exec (.powerOnReset straps) s = .next t
      ∧ t.supervision.trip = 20 ∧ t.supervision.t1 = 3 ∧ t.supervision.t2 = 10 ∧ t.cycle.graceLength = 900)
  ∧ (∀ (s : State) (tag : BitVec 16), ∃ t, exec (.linkReset tag) s = .next t
      ∧ t.supervision.trip = s.supervision.trip ∧ t.supervision.t1 = s.supervision.t1
      ∧ t.supervision.t2 = s.supervision.t2 ∧ t.cycle.graceLength = s.cycle.graceLength)

/-- 10.4 (R177): NOTICE ACK takes the named categories out of the latch and answers the latch; SET NOTICE MASK replaces
the six masks, and when that unmasks latched categories one notice naming them is sent with the answer, in either
order (log 7). A bit above the six categories is refused BAD_FIELD. -/
def Obligations.NoticeMasksAndAcks : Prop :=
  ∀ (s : State) (tag : BitVec 16) (b : BitVec 8), s.unitFree →
    let c : Categories := b.truncate 6
    let unmasked := s.notices.masks &&& ~~~c &&& s.notices.latch
    let acked := { s with notices := { s.notices with latch := s.notices.latch &&& ~~~c } }
    let masked := { s with notices := { s.notices with masks := c } }
    (b.toNat < 64 → exec (.noticeAck tag b) s =
      .next (accepted 0x03 tag (octets 1 (s.notices.latch &&& ~~~c).toNat) acked))
    ∧ (b.toNat < 64 → unmasked = 0 → exec (.setNoticeMask tag b) s = .next (accepted 0x02 tag [] masked))
    ∧ (b.toNat < 64 → unmasked ≠ 0 → ∃ t, exec (.setNoticeMask tag b) s = .next t ∧ SameBut masked t
        ∧ t.journalOut.level = s.journalOut.level
        ∧ t.notices = { s.notices with masks := c, number := s.notices.number + 1 }
        ∧ t.oCount = { s.oCount with
            received := s.oCount.received + 1, management := s.oCount.management + 1
            answers := s.oCount.answers + 1, notices := s.oCount.notices + 1 }
        ∧ (t.oTx = s.oTx ++ [replyFrame t { code := 0x02, tag := tag }, noticeFrame t unmasked]
          ∨ t.oTx = s.oTx ++ [noticeFrame t unmasked, replyFrame t { code := 0x02, tag := tag }]))
    ∧ (64 ≤ b.toNat → exec (.noticeAck tag b) s = .next (refusedWith 0x03 tag .badField s)
        ∧ exec (.setNoticeMask tag b) s = .next (refusedWith 0x02 tag .badField s))

/-- 10.9 (R186, R183, R184, R93): JOURNAL TAKE removes the n oldest copies, 1 to 8 and no more than there are, answers
n, the occupancy and the level after the removal, and may let the sweep select a hold that waited for a place, whose
entry alone joins the in-flight set; other counts are refused BAD_FIELD and remove nothing. The level answered is the
one at the end of the event (log 15, the model's choice). -/
def Obligations.JournalTakeRemovesOldest : Prop :=
  ∀ (s : State) (tag : BitVec 16) (count : BitVec 8), s.unitFree →
    let n := count.toNat
    let left := s.journalOut.copies.drop n
    (1 ≤ n → n ≤ 8 → n ≤ s.journalOut.copies.length → ∃ t, exec (.journalTake tag count) s = .next t
      ∧ t.journalOut.copies = left
      ∧ (s.LevelAgrees → t.LevelAgrees)
      ∧ RepliedAs (countArrival s) t
          { code := 0x07, tag := tag
            fields := fun u => octets 1 n ++ octets 2 left.length ++ octets 1 (levelCode u.journalOut.level) } 0
      ∧ SweepLooked s.holds s.inFlight s.journalOut.reservations s.tables t
      ∧ (∀ h, candidate s.holds = some h → h.expiry ≤ s.clock.toNat → s.holds.expiring = none → s.inFlight.length < 64 →
          left.length + s.journalOut.reservations < 512 → t.holds.expiring = some h.ref)
      ∧ KeepsLines s t ∧ t.journal = s.journal ∧ t.cycle = s.cycle ∧ t.payout = s.payout
      ∧ t.supervision = s.supervision ∧ t.lanes = s.lanes ∧ t.sTx = s.sTx ∧ t.sCount = s.sCount ∧ t.clock = s.clock
      ∧ t.activeTables = s.activeTables ∧ t.unit = s.unit ∧ t.store.float = s.store.float ∧ StoreKept s t ∧ LinksKept s t)
    ∧ (n = 0 ∨ 8 < n ∨ s.journalOut.copies.length < n →
      exec (.journalTake tag count) s = .next (refusedWith 0x07 tag .badField s))

/-- 10.8, 9.8 (R182, R170, R1): LINK RESET, in every state of the unit, makes both receivers IDLE, clears the global
counters, every shop's alarm machine, window counts and counters and its ALARM cause, drops a pending FIRST, and raises
RESET_SEEN into an empty latch, so that it alone is latched and a notice of it is sent when it is unmasked; a command in
progress goes on. -/
def Obligations.LinkResetClearsLinksAndAlarms : Prop :=
  ∀ (s : State) (tag : BitVec 16), canonical {} s.supervision.shops = true →
    ∃ shops t, exec (.linkReset tag) s = .next t
      ∧ (∀ n, look {} shops n = { s.shop n with
          alarmCause := false, alarm := .normal, windowFaults := 0, badWindows := 0, goodWindows := 0
          admitted := 0, declines := 0, faults := 0 })
      ∧ (let u : State := { s with
            sRx := { state := .idle }, oRx := { state := .idle }, sCount := {}, oCount := {}
            supervision := { s.supervision with shops := shops }, unit := { s.unit with first := none } }
        SameBut u t ∧ RepliedAs { u with notices := { u.notices with latch := 0 } } t { code := 0x08, tag := tag } catReset)
      ∧ t.journalOut.level = s.journalOut.level
      ∧ t.notices = { s.notices with
          latch := catReset
          number := if s.notices.masks &&& catReset = 0 then s.notices.number + 1 else s.notices.number }

/-- 3.4 (R40, R42) and 10.1 (R171 step 3): outside READY, BEGIN LOAD makes the store LOADING, CARD LOAD FIRST keeps the
block and its four images as the pending FIRST and makes it LOADING, and STORE READY makes it READY; in READY each is
refused WRONG_STATE, and a FIRST for a block above 131,071 BAD_FIELD. -/
def Obligations.LoadingCommands : Prop :=
  ∀ (s : State) (tag : BitVec 16) (block : BitVec 24) (images : FourImages), s.unitFree →
    (s.store.phase ≠ .ready →
      exec (.beginLoad tag) s = .next (accepted 0x10 tag [] { s with store := { s.store with phase := .loading } })
      ∧ exec (.storeReady tag) s = .next (accepted 0x13 tag [] { s with store := { s.store with phase := .ready } })
      ∧ (block.toNat < 131072 → exec (.cardLoadFirst tag block images) s =
          .next (accepted 0x11 tag (octets 3 block.toNat) { s with
            store := { s.store with phase := .loading }
            unit := { s.unit with first := some { block := block.toNat, images := images } } }))
      ∧ (131072 ≤ block.toNat →
          exec (.cardLoadFirst tag block images) s = .next (refusedWith 0x11 tag .badField s)))
    ∧ (s.store.phase = .ready →
      exec (.beginLoad tag) s = .next (refusedWith 0x10 tag .wrongState s)
      ∧ exec (.storeReady tag) s = .next (refusedWith 0x13 tag .wrongState s)
      ∧ exec (.cardLoadFirst tag block images) s = .next (refusedWith 0x11 tag .wrongState s))

/-- 3.4 (R43 to R46, R173): the LAST for the pending block, with eight records that pass their checks. For a block that
is not present and with a line to be had, the line takes the records, DIRTY or already WRITING, the float rises and the
pair is answered; with none it waits in the list; for a block that is present, a replacement enters the in-flight set,
or is refused BUSY when that is full. Records that fail are refused BAD_FIELD. A refusal discards the FIRST. That the
FIRST stays pending while the LAST waits for a line or for its posting is the model's reading (log 16); the
replacement's serial number and slot are the model's own, and the answer gives the balance sum three octets (logs 5, 12,
19, the model's choices). -/
def Obligations.CardLoadLastWrites : Prop :=
  ∀ (s : State) (tag : BitVec 16) (block : BitVec 24) (first : PendingFirst) (images : FourImages),
    let b := block.toNat
    let dropped : State := { s with unit := { s.unit with first := none } }
    let present := s.isValid b = true ∨ ∃ i < 32, (s.line i).block = some b
    s.unit.progress = none → s.unit.first = some first → first.block = b → s.store.phase ≠ .ready →
      (loadedBlock first.images images = none →
        exec (.cardLoadLast tag block images) s = .next (refusedWith 0x12 tag .badField dropped))
      ∧ ∀ records, loadedBlock first.images images = some records →
        (present → 64 ≤ s.inFlight.length →
          exec (.cardLoadLast tag block images) s = .next (refusedWith 0x12 tag .busy dropped))
        ∧ (present → s.inFlight.length < 64 →
          let x : InFlight :=
            { id := s.nextId, origin := .unit, kind := .cardLoad, training := false, program := none, slot := 8 * b
              block := b, amount := 0, partialFlag := false, reference := none, generation := s.tables.generation
              reserved := false, boundSet := none }
          ∃ t, exec (.cardLoadLast tag block images) s = .next t
            ∧ t = { s with
                oCount := { s.oCount with
                  received := s.oCount.received + 1, management := s.oCount.management + 1 }
                unit := { s.unit with progress := some { tag := tag, work := .replaceBlock b records } }
                inFlight := s.inFlight ++ [x], nextId := s.nextId + 1, tables := bankEntered 1 s.tables
                buffer := t.buffer
                store := { s.store with audit := { s.store.audit with waiting := t.store.audit.waiting } } }
            ∧ Demanded t x.id b ∧ KeepsLines s t)
        ∧ (¬ present → ∀ i, s.buffer.waitList = [] → findLine s = some i → ∃ t,
          exec (.cardLoadLast tag block images) s = .next t
            ∧ t = { s with
                oCount := t.oCount, oTx := t.oTx, unit := { progress := none, first := none }, buffer := t.buffer
                store := { s.store with
                  float := s.store.float + BitVec.ofNat 40 (balances records), flushPending := t.store.flushPending } }
            ∧ RepliedAs (countArrival s) t
                { code := 0x12, tag := tag
                  fields := fun u => octets 3 b ++ [0] ++ octets 3 (balances records) ++ octets 5 u.store.float.toNat } 0
            ∧ LineKept { state := .dirty, block := some b, records := records, dirty := 0xFF } t i
            ∧ t.buffer.recency = s.buffer.recency.filter (· != i) ++ [i] ∧ KeepsLines s t)
        ∧ (¬ present → (s.buffer.waitList ≠ [] ∨ findLine s = none) → ∃ t,
          exec (.cardLoadLast tag block images) s = .next t
            ∧ t = { s with
                oCount := { s.oCount with
                  received := s.oCount.received + 1, management := s.oCount.management + 1 }
                unit := { s.unit with progress := some { tag := tag, work := .directLoad b records } }
                buffer := t.buffer }
            ∧ t.buffer.waitList = s.buffer.waitList ++ [.directLoad b] ∧ KeepsLines s t)

/-- 3.4, 4.9, 2.2 to 2.4 (R43, R78, R21, R23, R24): the range checks of the fields that commands load, and the values
that fields which pass them load: a card record image, a program entry, a fee class and a shop's terms; of CARD ADJUST's
selected values the checks alone. Fields that are absent and values that are not selected are not checked (log 24, the
model's reading). -/
def Obligations.FieldRangesChecked : Prop :=
  (∀ (image : RecordImage) (r : CardRecord), loadedRecord image = some r ↔
    (image.state.toNat ≤ 3 ∧ image.presence.toNat < 8 ∧ image.balance.toNat ≤ 999999 ∧ image.held = 0
      ∧ image.holdCount = 0
      ∧ (if image.state = 0 then image.presence = 0 ∧ image.balance = 0
        else image.presence.getLsbD 0 = true ∧ image.issueShop.toNat < 512 ∧ image.presence.getLsbD 1 = true))
    ∧ r = {
        state := if image.state = 0 then .unissued else if image.state = 1 then .active
          else if image.state = 2 then .blocked else .expired
        balance := image.balance.toNat, held := 0, holdCount := 0
        issueShop := if image.presence.getLsbD 0 then some image.issueShop.toNat else none
        activationDay := if image.presence.getLsbD 1 then some image.activationDay.toNat else none
        expiryDay := if image.presence.getLsbD 2 then some image.expiryDay.toNat else none
        lastActivity := image.lastActivity.toNat, sequence := image.sequence })
  ∧ (∀ f : AdjustFields, adjustFits f = true ↔
    f.mask.toNat < 16 ∧ f.mask &&& 7 ≠ 0 ∧ (f.mask.getLsbD 3 = true → f.mask.getLsbD 1 = true)
      ∧ (f.mask.getLsbD 0 = true → f.state = 1 ∨ f.state = 2)
      ∧ (f.mask.getLsbD 2 = true → f.change ≠ 0 ∧ -999999 ≤ f.change.toInt ∧ f.change.toInt ≤ 999999))
  ∧ (∀ (f : ProgramFields) (p : Program), programOf f = some p ↔
    ((f.digits = 0xFFFFFF ∨ ∀ i < 6, (f.digits.toNat / 16 ^ i) % 16 ≤ 9) ∧ f.flags.toNat < 32
      ∧ f.baseSlot.toNat ≤ 1048575 ∧ f.slotCount.toNat ≤ 1048576
      ∧ f.minLoad.toNat ≤ 999999 ∧ f.maxLoad.toNat ≤ 999999 ∧ f.maxBalance.toNat ≤ 999999
      ∧ (f.openCap = 0xFFFFFF ∨ (1 ≤ f.openCap.toNat ∧ f.openCap.toNat ≤ 999999)) ∧ f.tolerance.toNat ≤ 50
      ∧ ((60 ≤ f.lifetime.toNat ∧ f.lifetime.toNat ≤ 604800) ∨ (f.flags.getLsbD 0 = false ∧ f.lifetime = 0))
      ∧ f.expiryDays.toNat ≤ 3650 ∧ f.standInLimit.toNat ≤ 999999
      ∧ (f.flags.getLsbD 0 = true → f.digits ≠ 0xFFFFFF ∧ f.slotCount ≠ 0))
    ∧ p = {
        digits := if f.digits = 0xFFFFFF then none else some f.digits
        enabled := f.flags.getLsbD 0, reloadable := f.flags.getLsbD 1, partialAllowed := f.flags.getLsbD 2
        refundable := f.flags.getLsbD 3, reloadExtends := f.flags.getLsbD 4
        baseSlot := f.baseSlot.toNat, slotCount := f.slotCount.toNat
        minLoad := f.minLoad.toNat, maxLoad := f.maxLoad.toNat, maxBalance := f.maxBalance.toNat
        openCap := if f.openCap = 0xFFFFFF then none else some f.openCap.toNat
        tolerance := f.tolerance.toNat, lifetime := f.lifetime.toNat, expiryDays := f.expiryDays.toNat
        standInLimit := f.standInLimit.toNat })
  ∧ (∀ (f : FeeFields) (c : FeeClass), feeClassOf f = some c ↔
    (f.redemptionRate.toNat ≤ 1000 ∧ f.fixedFee.toNat ≤ 500 ∧ f.commissionRate.toNat ≤ 1000
      ∧ f.minPayout.toNat ≤ 100000 ∧ f.collectAt.toNat ≤ 100000 ∧ f.flags.toNat ≤ 1)
    ∧ c = {
        redemptionRate := f.redemptionRate.toNat, fixedFee := f.fixedFee.toNat
        commissionRate := f.commissionRate.toNat, minPayout := f.minPayout.toNat, collectAt := f.collectAt.toNat
        rebate := decide (f.flags = 1) })
  ∧ (∀ (f : TermsFields) (m : ShopTerms), termsOf f = some m ↔
    (f.feeClass.toNat ≤ 15 ∧ f.flags.toNat < 32
      ∧ (f.limit = 0xFFFFFF ∨ (1 ≤ f.limit.toNat ∧ f.limit.toNat ≤ 999999)))
    ∧ m = {
        feeClass := f.feeClass.toNat, limit := if f.limit = 0xFFFFFF then none else some f.limit.toNat
        allowSales := f.flags.getLsbD 0, allowRefund := f.flags.getLsbD 1, crossRefund := f.flags.getLsbD 2
        openRefund := f.flags.getLsbD 3, autoSuspend := f.flags.getLsbD 4 })

/-- 3.6, 3.7 (R54, R56, R57, R59): FLUSH is accepted in every state and starts the write-back of every DIRTY line whose
bank has room; the flush-pending mark stays set while a line is DIRTY or WRITING, and is clear when none is. AUDIT, in
READY and with none running, starts an audit with both sums 0 at the first block that is present, its valid mark set or
held by a line, whose visit waits at its line or for a line; with no block present it ends in the same event, latches
its result and raises AUDIT. It is refused WRONG_STATE outside READY and BUSY while an audit runs. The cursor stays at
131,072 after the end (log 14, the model's choice). -/
def Obligations.FlushAndAuditStart : Prop :=
  (∀ (s : State) (tag : BitVec 16), s.unitFree →
      ∃ t, exec (.flush tag) s = .next t
        ∧ t = { s with
            oTx := t.oTx, oCount := t.oCount, buffer := t.buffer
            store := { s.store with flushPending := t.store.flushPending } }
        ∧ RepliedAs (countArrival s) t { code := 0x14, tag := tag } 0
        ∧ (t.store.flushPending = true ↔ ∃ i < 32, (t.line i).state = .dirty ∨ (t.line i).state = .writing)
        ∧ (∀ i ∈ s.buffer.recency, ∀ b, (t.line i).state = .dirty → (t.line i).block = some b →
            8 ≤ (t.queue (b % 4)).length)
        ∧ (∀ k, QueueGrows (s.queue k) (t.queue k)) ∧ KeepsLines s t)
  ∧ (∀ (s : State) (tag : BitVec 16), s.unitFree →
      (s.store.phase = .ready → s.store.audit.running = false → ∃ t, exec (.audit tag) s = .next t
        ∧ SameBut { s with buffer := t.buffer, store := { s.store with audit := t.store.audit } } t
        ∧ t.journalOut.level = s.journalOut.level
        ∧ RepliedAs (countArrival s) t { code := 0x15, tag := tag }
            (if t.store.audit.cursor = 131072 then catAudit else 0)
        ∧ KeepsLines s t ∧ (∀ k, QueueGrows (s.queue k) (t.queue k))
        ∧ t.store.audit.balanceSum = 0 ∧ t.store.audit.heldSum = 0
        ∧ (∀ c < t.store.audit.cursor, s.isValid c = false ∧ ∀ i < 32, (s.line i).block ≠ some c)
        ∧ (t.store.audit.cursor < 131072 →
            t.store.audit.running = true ∧ t.store.audit.result = s.store.audit.result
              ∧ (s.isValid t.store.audit.cursor = true ∨ ∃ i < 32, (s.line i).block = some t.store.audit.cursor)
              ∧ (t.store.audit.waiting = true
                ∨ ∃ i, (t.line i).block = some t.store.audit.cursor ∧ Waiter.audit ∈ (t.line i).waiters))
        ∧ t.store.audit.cursor ≤ 131072
        ∧ (t.store.audit.cursor = 131072 →
            t.store.audit.running = false
              ∧ t.store.audit.result = some {
                  matched := (0 : BitVec 40) == s.store.float
                    && (0 : BitVec 40) == BitVec.ofNat 40 ((s.holds.entries.map (·.amount)).sum)
                  balanceSum := 0, float := s.store.float, heldSum := 0
                  holdTotal := BitVec.ofNat 40 ((s.holds.entries.map (·.amount)).sum) }))
      ∧ (s.store.phase ≠ .ready → exec (.audit tag) s = .next (refusedWith 0x15 tag .wrongState s))
      ∧ (s.store.phase = .ready → s.store.audit.running = true →
          exec (.audit tag) s = .next (refusedWith 0x15 tag .busy s)))

/-- 4.8, 4.9 (R76, R78, R173): an accepted CARD READ or CARD ADJUST enters the in-flight set, the latter with a
reservation that moves the committed load, the unit is IN_PROGRESS with the tag, and the demand for its block is made;
no answer is sent yet. Each refusal comes in its order and changes nothing. The serial number of the new entry is the
model's own (log 5). -/
def Obligations.CardCommandsTakenOn : Prop :=
  ∀ (s : State) (tag : BitVec 16) (slot : BitVec 24) (f : AdjustFields), s.unitFree →
    let n := slot.toNat
    let x : Kind → Bool → InFlight := fun k reserved =>
      { id := s.nextId, origin := .unit, kind := k, training := false, program := none, slot := n, block := n / 8
        amount := 0, partialFlag := false, reference := none, generation := s.tables.generation, reserved := reserved
        boundSet := none }
    let taken : UnitWork → InFlight → State → State := fun work y t => { countArrival s with
      unit := { s.unit with progress := some { tag := tag, work := work } }
      inFlight := s.inFlight ++ [y], nextId := s.nextId + 1, tables := bankEntered 1 s.tables
      journalOut := { s.journalOut with
        reservations := if y.reserved then s.journalOut.reservations + 1 else s.journalOut.reservations }
      buffer := t.buffer
      store := { s.store with audit := { s.store.audit with waiting := t.store.audit.waiting } } }
    let load := s.journalOut.copies.length + s.journalOut.reservations
    (n < 1048576 → s.inFlight.length < 64 → ∃ t, exec (.cardRead tag slot) s = .next t
        ∧ t = taken (.cardRead n) (x .cardRead false) t ∧ Demanded t s.nextId (n / 8) ∧ KeepsLines s t)
    ∧ (1048576 ≤ n → exec (.cardRead tag slot) s = .next (refusedWith 0x16 tag .badField s))
    ∧ (n < 1048576 → 64 ≤ s.inFlight.length → exec (.cardRead tag slot) s = .next (refusedWith 0x16 tag .busy s))
    ∧ (s.store.phase = .ready → n < 1048576 → adjustFits f = true → s.inFlight.length < 64 → load < 512 →
        ∃ t, exec (.cardAdjust tag slot f) s = .next t
          ∧ SameBut (taken (.cardAdjust n f) (x .adjust true) t) t
          ∧ NoticedAs (countArrival s) t 0 ∧ (s.LevelAgrees → t.LevelAgrees)
          ∧ Demanded t s.nextId (n / 8) ∧ KeepsLines s t)
    ∧ (s.store.phase ≠ .ready → exec (.cardAdjust tag slot f) s = .next (refusedWith 0x17 tag .wrongState s))
    ∧ (s.store.phase = .ready → (1048576 ≤ n ∨ adjustFits f = false) →
        exec (.cardAdjust tag slot f) s = .next (refusedWith 0x17 tag .badField s))
    ∧ (s.store.phase = .ready → n < 1048576 → adjustFits f = true → (64 ≤ s.inFlight.length ∨ 512 ≤ load) →
        exec (.cardAdjust tag slot f) s = .next (refusedWith 0x17 tag .busy s))

/-- 2.2 to 2.5 (R21, R23, R24, R25): a LOAD whose fields are in range writes its entry into the shadow bank, which is
LOADED, and answers that with the generation; malformed fields are refused BAD_FIELD first, and a RETIRING shadow
BUSY. The active bank is not changed. -/
def Obligations.LoadsWriteTheShadow : Prop :=
  ∀ (s : State) (tag : BitVec 16) (index : BitVec 8) (shop : BitVec 16) (p : ProgramFields) (c : FeeFields)
    (m : TermsFields), s.unitFree →
    let written : (TableSet → TableSet) → State := fun f => { s with tables :=
      match s.tables.active with
      | .a => { s.tables with bankB := { s.tables.bankB with tables := f s.tables.bankB.tables }, shadow := .loaded }
      | .b => { s.tables with bankA := { s.tables.bankA with tables := f s.tables.bankA.tables }, shadow := .loaded } }
    let answer := octets 1 1 ++ octets 1 s.tables.generation.toNat
    (s.tables.shadow ≠ .retiring →
      (∀ entry, programOf p = some entry → index.toNat < 16 → exec (.loadProgram tag index p) s = .next
        (accepted 0x20 tag answer (written fun t => { t with programs := put {} t.programs index.toNat entry })))
      ∧ (∀ entry, feeClassOf c = some entry → index.toNat < 16 → exec (.loadFeeClass tag index c) s = .next
        (accepted 0x21 tag answer (written fun t => { t with classes := put {} t.classes index.toNat entry })))
      ∧ (∀ entry, termsOf m = some entry → shop.toNat < 512 → exec (.loadShopTerms tag shop m) s = .next
        (accepted 0x22 tag answer (written fun t => { t with terms := put {} t.terms shop.toNat entry }))))
    ∧ (programOf p = none ∨ 16 ≤ index.toNat →
        exec (.loadProgram tag index p) s = .next (refusedWith 0x20 tag .badField s))
    ∧ (feeClassOf c = none ∨ 16 ≤ index.toNat →
        exec (.loadFeeClass tag index c) s = .next (refusedWith 0x21 tag .badField s))
    ∧ (termsOf m = none ∨ 512 ≤ shop.toNat →
        exec (.loadShopTerms tag shop m) s = .next (refusedWith 0x22 tag .badField s))
    ∧ (s.tables.shadow = .retiring →
      ((programOf p).isSome → index.toNat < 16 →
        exec (.loadProgram tag index p) s = .next (refusedWith 0x20 tag .busy s))
      ∧ ((feeClassOf c).isSome → index.toNat < 16 →
        exec (.loadFeeClass tag index c) s = .next (refusedWith 0x21 tag .busy s))
      ∧ ((termsOf m).isSome → shop.toNat < 512 →
        exec (.loadShopTerms tag shop m) s = .next (refusedWith 0x22 tag .busy s)))

/-- 2.5 (R26): DISCARD SHADOW overwrites a LOADED shadow with a copy of the active bank and makes it FREE, leaves a FREE
one FREE, is refused BUSY in RETIRING, raises no notice, and answers the resulting state. -/
def Obligations.DiscardShadowByState : Prop :=
  ∀ (s : State) (tag : BitVec 16), s.unitFree →
    let answer := octets 1 0 ++ octets 1 s.tables.generation.toNat
    (s.tables.shadow = .loaded → s.tables.active = .a → exec (.discardShadow tag) s = .next (accepted 0x23 tag answer
      { s with tables := { s.tables with
          bankB := { s.tables.bankB with tables := s.tables.bankA.tables }, shadow := .free } }))
    ∧ (s.tables.shadow = .loaded → s.tables.active = .b → exec (.discardShadow tag) s = .next (accepted 0x23 tag answer
      { s with tables := { s.tables with
          bankA := { s.tables.bankA with tables := s.tables.bankB.tables }, shadow := .free } }))
    ∧ (s.tables.shadow = .free → exec (.discardShadow tag) s = .next (accepted 0x23 tag answer s))
    ∧ (s.tables.shadow = .retiring → exec (.discardShadow tag) s = .next (refusedWith 0x23 tag .busy s))

/-- 2.5, 2.6 (R27, R28, R29, R31): COMMIT TABLES is refused WRONG_STATE without a LOADED shadow, BUSY while COMPUTING, and
OVERLAP when an enabled entry of the shadow fails: with the first failing index, and RANGE_END when its range runs past
the last slot, or PREFIX or SLOTS with the lowest earlier enabled index in conflict. Otherwise the banks swap their
roles under the next generation, and the old active bank retires, at once when no entry of its generation is in flight,
which raises TABLE. The code of the cause is a free value (log 10); the sizes of the detail (log 12) and, where more than
one condition holds, the order of the causes with an index by that cause alone (log 28) are the model's choice. -/
def Obligations.CommitTablesChecksAndSwaps : Prop :=
  ∀ (s : State) (tag : BitVec 16), s.unitFree →
    let t := s.tables
    let set := (shadowBank t).tables
    let g := t.generation + 1
    let beyond : Nat → Prop := fun i => 1048576 < (set.program i).baseSlot + (set.program i).slotCount
    let samePrefix : Nat → Nat → Prop := fun j i =>
      (set.program j).enabled = true ∧ (set.program j).digits = (set.program i).digits
    let sharesSlot : Nat → Nat → Prop := fun j i => (set.program j).enabled = true
      ∧ (set.program i).baseSlot < (set.program j).baseSlot + (set.program j).slotCount
      ∧ (set.program j).baseSlot < (set.program i).baseSlot + (set.program i).slotCount
    let fails : Nat → Prop := fun i =>
      (set.program i).enabled = true ∧ (beyond i ∨ ∃ j < i, samePrefix j i ∨ sharesSlot j i)
    let overlapping : List Octet → State := fun detail => sendReply
      (replyFrame s { code := 0x24, tag := tag, refusal := some .overlap, fields := fun _ => detail }) true (countArrival s)
    let swapped : Tables := match t.active with
      | .a => { t with active := .b, generation := g, bankB := { t.bankB with tag := some g }, shadow := .retiring }
      | .b => { t with active := .a, generation := g, bankA := { t.bankA with tag := some g }, shadow := .retiring }
    let copied : Tables := match t.active with
      | .a => { swapped with bankA := { tables := t.bankB.tables, tag := none, count := 0 }, shadow := .free }
      | .b => { swapped with bankB := { tables := t.bankA.tables, tag := none, count := 0 }, shadow := .free }
    (t.shadow ≠ .loaded → exec (.commitTables tag) s = .next (refusedWith 0x24 tag .wrongState s))
    ∧ (t.shadow = .loaded → s.cycle.closing = .computing →
        exec (.commitTables tag) s = .next (refusedWith 0x24 tag .busy s))
    ∧ (∀ i < 16, t.shadow = .loaded → s.cycle.closing ≠ .computing → fails i → (∀ j < i, ¬ fails j) →
        (beyond i → exec (.commitTables tag) s = .next (overlapping (octets 1 i ++ [Config.overlapCode 0])))
        ∧ (¬ beyond i → ∀ j < i, samePrefix j i → (∀ k < j, ¬ samePrefix k i) →
          exec (.commitTables tag) s = .next (overlapping (octets 1 i ++ [Config.overlapCode 1] ++ octets 1 j)))
        ∧ (¬ beyond i → (∀ j < i, ¬ samePrefix j i) → ∀ j < i, sharesSlot j i → (∀ k < j, ¬ sharesSlot k i) →
          exec (.commitTables tag) s = .next (overlapping (octets 1 i ++ [Config.overlapCode 2] ++ octets 1 j))))
    ∧ (t.shadow = .loaded → s.cycle.closing ≠ .computing → (∀ i < 16, ¬ fails i) →
        ((activeBank t).count ≠ 0 → exec (.commitTables tag) s = .next (accepted 0x24 tag
          (octets 1 g.toNat ++ octets 1 2 ++ octets 1 (activeBank t).count) { s with tables := swapped }))
        ∧ ((activeBank t).count = 0 → ∃ u, exec (.commitTables tag) s = .next u
          ∧ SameBut { s with tables := copied } u ∧ u.journalOut.level = s.journalOut.level
          ∧ RepliedAs (countArrival s) u
              { code := 0x24, tag := tag, fields := fun _ => octets 1 g.toNat ++ octets 1 0 ++ octets 1 0 } catTable))

/-- 8.1 (R138): CARRY READ answers a shop's carry with the engine state, the cursor and the closing-set state, and changes
nothing; CARRY SET writes a shop's carry and answers it before and after. A shop above 511, or a value outside −99,999
to 99,999, is refused BAD_FIELD, and CARRY SET BUSY while COMPUTING; where both refusals apply it is refused with one of
the two codes, as R138 leaves open. -/
def Obligations.CarriesReadAndSet : Prop :=
  (∀ (s : State) (tag shop : BitVec 16), s.unitFree →
      (shop.toNat < 512 → exec (.carryRead tag shop) s = .next (accepted 0x40 tag
        (signedOctets 4 (s.carry shop.toNat) ++ octets 1 (engineCode s.payout.engine) ++ octets 2 s.payout.cursor
          ++ octets 1 (closingCode s.cycle.closing)) s))
      ∧ (512 ≤ shop.toNat → exec (.carryRead tag shop) s = .next (refusedWith 0x40 tag .badField s)))
  ∧ (∀ (s : State) (tag shop : BitVec 16) (carry : BitVec 32), s.unitFree →
      let n := shop.toNat
      let z := carry.toInt
      let fits := n < 512 ∧ -99999 ≤ z ∧ z ≤ 99999
      (fits → s.cycle.closing ≠ .computing → ∃ carries,
        exec (.carrySet tag shop carry) s = .next (accepted 0x41 tag
          (signedOctets 4 (s.carry n) ++ signedOctets 4 z) { s with payout := { s.payout with carries := carries } })
        ∧ look 0 carries n = z ∧ ∀ m, m ≠ n → look 0 carries m = s.carry m)
      ∧ (¬ fits → s.cycle.closing ≠ .computing →
        exec (.carrySet tag shop carry) s = .next (refusedWith 0x41 tag .badField s))
      ∧ (¬ fits → s.cycle.closing = .computing →
        exec (.carrySet tag shop carry) s = .next (refusedWith 0x41 tag .badField s)
          ∨ exec (.carrySet tag shop carry) s = .next (refusedWith 0x41 tag .busy s))
      ∧ (fits → s.cycle.closing = .computing → exec (.carrySet tag shop carry) s = .next (refusedWith 0x41 tag .busy s)))

/-- 8.5 (R152, R148, R132): PAYOUT TAKE removes the n oldest records, 1 to 4 and no more than there are, answers n and the
occupancy, and sets a WAITING engine walking; when it empties the queue of a DRAINING set, that set is cleared to
zero, its state is NONE, and CYCLE is raised. Other counts are refused BAD_FIELD and remove nothing. -/
def Obligations.PayoutTakeRemovesOldest : Prop :=
  ∀ (s : State) (tag : BitVec 16) (count : BitVec 8), s.unitFree →
    let n := count.toNat
    let left := s.payout.queue.drop n
    let taken : Payout := { s.payout with
      queue := left, engine := if s.payout.engine = .waiting ∧ left.length < 64 then .walking else s.payout.engine }
    let cleared : Cycle :=
      { s.cycle.modifySet s.cycle.current.other (fun _ => { rows := [], mall := {} }) with
        closing := .none, graceVoids := 0 }
    let answer := octets 1 n ++ octets 1 left.length
    (1 ≤ n → n ≤ 4 → n ≤ s.payout.queue.length → ¬ (s.cycle.closing = .draining ∧ left = []) →
      exec (.payoutTake tag count) s = .next (accepted 0x43 tag answer { s with payout := taken }))
    ∧ (1 ≤ n → n ≤ 4 → n ≤ s.payout.queue.length → s.cycle.closing = .draining → left = [] →
      ∃ t, exec (.payoutTake tag count) s = .next t
        ∧ SameBut { s with payout := taken, cycle := cleared } t ∧ t.journalOut.level = s.journalOut.level
        ∧ RepliedAs (countArrival s) t { code := 0x43, tag := tag, fields := fun _ => answer } 0)
    ∧ (n = 0 ∨ 4 < n ∨ s.payout.queue.length < n →
      exec (.payoutTake tag count) s = .next (refusedWith 0x43 tag .badField s))

/-- 9.2 (R157, R158): SET SHOP MODE, SUSPEND and RESUME change the shop's mode, cause set, alarm state and window counts
as their rules give, raise no notice, and answer them as they stand after the command; the three counters stay. -/
def Obligations.ShopModesAndCauses : Prop :=
  ∀ (s : State) (tag shop : BitVec 16) (mode : BitVec 8), s.unitFree →
    let n := shop.toNat
    let r := s.shop n
    let answer : Shop → List Octet := fun v =>
      octets 1 (modeCode v.mode) ++ [(if v.management then 1 else 0) + (if v.alarmCause then 2 else 0)]
        ++ octets 1 (alarmCode v.alarm) ++ octets 2 v.windowFaults ++ octets 1 v.badWindows ++ octets 1 v.goodWindows
    let put : Shop → State := fun v => s.modifyShop n (fun _ => v)
    let becomes : Instr → BitVec 8 → Shop → Prop := fun c code v =>
      exec c s = .next (accepted code tag (answer v) (put v))
    (n < 512 →
      (mode = 0 → becomes (.setShopMode tag shop mode) 0x48 { r with
        mode := .closed, management := false, alarmCause := false, alarm := .normal
        windowFaults := 0, badWindows := 0, goodWindows := 0 })
      ∧ (mode = 1 → r.mode = .closed →
        becomes (.setShopMode tag shop mode) 0x48 { r with mode := .opened, windowFaults := 0 })
      ∧ (mode = 1 → r.mode ≠ .closed → becomes (.setShopMode tag shop mode) 0x48 { r with mode := .opened })
      ∧ (mode = 2 → r.mode = .closed →
        becomes (.setShopMode tag shop mode) 0x48 { r with mode := .training, windowFaults := 0 })
      ∧ (mode = 2 → r.mode ≠ .closed → becomes (.setShopMode tag shop mode) 0x48 { r with mode := .training })
      ∧ (r.mode ≠ .closed →
        becomes (.suspend tag shop) 0x49 { r with management := true }
        ∧ becomes (.resume tag shop) 0x4A { r with management := false })
      ∧ (r.mode = .closed →
        exec (.suspend tag shop) s = .next (refusedWith 0x49 tag .wrongState s)
        ∧ exec (.resume tag shop) s = .next (refusedWith 0x4A tag .wrongState s)))
    ∧ (512 ≤ n ∨ 2 < mode.toNat → exec (.setShopMode tag shop mode) s = .next (refusedWith 0x48 tag .badField s))
    ∧ (512 ≤ n → exec (.suspend tag shop) s = .next (refusedWith 0x49 tag .badField s)
        ∧ exec (.resume tag shop) s = .next (refusedWith 0x4A tag .badField s))

/-! ### What every step keeps -/

/-- 10.9 (R184): in every state, if the stand-in level is the level of the committed load, it is so after every step. -/
def Obligations.LevelAgreesIsKept : Prop :=
  ∀ s t : State, s.LevelAgrees → step s = .next t → t.LevelAgrees

/-- 01 to 09: every numbered table of the part (the store copies, the lines, the lanes, the ring, the shops, the rows, the
carries, the table sets) stays in its canonical form at every step, so that equal memories are equal data. -/
def Obligations.TablesStayCanonical : Prop :=
  ∀ s t : State, s.TablesCanonical → step s = .next t → t.TablesCanonical

/-- 9.1 (R156, R157): at every step, a CLOSED shop keeps an empty cause set, a NORMAL alarm state and bad and good window counts of 0. -/
def Obligations.ClosedShopsStayAtRest : Prop :=
  ∀ s t : State, canonical {} s.supervision.shops = true → s.ClosedShopsRest → step s = .next t → t.ClosedShopsRest

/-- 1.6, 3.5, 5.1, 8.5, 1.1 (R14, R49, R83, R150, R1): at every step, the in-flight set, the bank queues, the hold
table, the payout queue and the frames being received stay within their places. -/
def Obligations.CapacitiesAreKept : Prop :=
  ∀ s t : State, s.Fits → step s = .next t → t.Fits

/-- 10.9 (R183): at every step, the reservation count is the number of in-flight entries with the mark, and the copies
held with the reservations never pass 512, since every entry that may write has reserved its place. -/
def Obligations.JournalOutNeverOverflows : Prop :=
  ∀ s t : State, s.JournalOutFits → step s = .next t → t.JournalOutFits

/-- 8.4 (R149, "What the office can check"): the identity PAY less COLLECT plus carry change equals the sum of the nets
without their carries holds of the running totals and of every cycle total record in the queue, at every step. -/
def Obligations.PayoutTotalsBalance : Prop :=
  ∀ s t : State, s.TotalsBalance → step s = .next t → t.TotalsBalance
end

