-- ==== Sys2Proof/Laws/State.lean ====
section
/-! SUPPORT. One lemma per field for each named update of State, true by rfl, so that no proof unfolds a record update. -/

namespace Sys2Proof.Machine

variable (s : State)


/-! ### State.setLane -/

@[simp] theorem State.setLane_pending (i : Nat) (l : Lane) : (s.setLane i l).pending = s.pending := rfl
@[simp] theorem State.setLane_sRx (i : Nat) (l : Lane) : (s.setLane i l).sRx = s.sRx := rfl
@[simp] theorem State.setLane_oRx (i : Nat) (l : Lane) : (s.setLane i l).oRx = s.oRx := rfl
@[simp] theorem State.setLane_sTx (i : Nat) (l : Lane) : (s.setLane i l).sTx = s.sTx := rfl
@[simp] theorem State.setLane_oTx (i : Nat) (l : Lane) : (s.setLane i l).oTx = s.oTx := rfl
@[simp] theorem State.setLane_sSent (i : Nat) (l : Lane) : (s.setLane i l).sSent = s.sSent := rfl
@[simp] theorem State.setLane_oSent (i : Nat) (l : Lane) : (s.setLane i l).oSent = s.oSent := rfl
@[simp] theorem State.setLane_sCount (i : Nat) (l : Lane) : (s.setLane i l).sCount = s.sCount := rfl
@[simp] theorem State.setLane_oCount (i : Nat) (l : Lane) : (s.setLane i l).oCount = s.oCount := rfl
@[simp] theorem State.setLane_unitAddress (i : Nat) (l : Lane) : (s.setLane i l).unitAddress = s.unitAddress := rfl
@[simp] theorem State.setLane_lanes (i : Nat) (l : Lane) : (s.setLane i l).lanes = put {} s.lanes i l := rfl
@[simp] theorem State.setLane_inFlight (i : Nat) (l : Lane) : (s.setLane i l).inFlight = s.inFlight := rfl
@[simp] theorem State.setLane_nextId (i : Nat) (l : Lane) : (s.setLane i l).nextId = s.nextId := rfl
@[simp] theorem State.setLane_tables (i : Nat) (l : Lane) : (s.setLane i l).tables = s.tables := rfl
@[simp] theorem State.setLane_store (i : Nat) (l : Lane) : (s.setLane i l).store = s.store := rfl
@[simp] theorem State.setLane_buffer (i : Nat) (l : Lane) : (s.setLane i l).buffer = s.buffer := rfl
@[simp] theorem State.setLane_holds (i : Nat) (l : Lane) : (s.setLane i l).holds = s.holds := rfl
@[simp] theorem State.setLane_journal (i : Nat) (l : Lane) : (s.setLane i l).journal = s.journal := rfl
@[simp] theorem State.setLane_cycle (i : Nat) (l : Lane) : (s.setLane i l).cycle = s.cycle := rfl
@[simp] theorem State.setLane_payout (i : Nat) (l : Lane) : (s.setLane i l).payout = s.payout := rfl
@[simp] theorem State.setLane_supervision (i : Nat) (l : Lane) : (s.setLane i l).supervision = s.supervision := rfl
@[simp] theorem State.setLane_journalOut (i : Nat) (l : Lane) : (s.setLane i l).journalOut = s.journalOut := rfl
@[simp] theorem State.setLane_notices (i : Nat) (l : Lane) : (s.setLane i l).notices = s.notices := rfl
@[simp] theorem State.setLane_clock (i : Nat) (l : Lane) : (s.setLane i l).clock = s.clock := rfl
@[simp] theorem State.setLane_unit (i : Nat) (l : Lane) : (s.setLane i l).unit = s.unit := rfl
@[simp] theorem State.setLane_draws (i : Nat) (l : Lane) : (s.setLane i l).draws = s.draws := rfl

/-! ### State.modifyShop -/

@[simp] theorem State.modifyShop_pending (n : Nat) (f : Shop → Shop) : (s.modifyShop n f).pending = s.pending := rfl
@[simp] theorem State.modifyShop_sRx (n : Nat) (f : Shop → Shop) : (s.modifyShop n f).sRx = s.sRx := rfl
@[simp] theorem State.modifyShop_oRx (n : Nat) (f : Shop → Shop) : (s.modifyShop n f).oRx = s.oRx := rfl
@[simp] theorem State.modifyShop_sTx (n : Nat) (f : Shop → Shop) : (s.modifyShop n f).sTx = s.sTx := rfl
@[simp] theorem State.modifyShop_oTx (n : Nat) (f : Shop → Shop) : (s.modifyShop n f).oTx = s.oTx := rfl
@[simp] theorem State.modifyShop_sSent (n : Nat) (f : Shop → Shop) : (s.modifyShop n f).sSent = s.sSent := rfl
@[simp] theorem State.modifyShop_oSent (n : Nat) (f : Shop → Shop) : (s.modifyShop n f).oSent = s.oSent := rfl
@[simp] theorem State.modifyShop_sCount (n : Nat) (f : Shop → Shop) : (s.modifyShop n f).sCount = s.sCount := rfl
@[simp] theorem State.modifyShop_oCount (n : Nat) (f : Shop → Shop) : (s.modifyShop n f).oCount = s.oCount := rfl
@[simp] theorem State.modifyShop_unitAddress (n : Nat) (f : Shop → Shop) : (s.modifyShop n f).unitAddress = s.unitAddress := rfl
@[simp] theorem State.modifyShop_lanes (n : Nat) (f : Shop → Shop) : (s.modifyShop n f).lanes = s.lanes := rfl
@[simp] theorem State.modifyShop_inFlight (n : Nat) (f : Shop → Shop) : (s.modifyShop n f).inFlight = s.inFlight := rfl
@[simp] theorem State.modifyShop_nextId (n : Nat) (f : Shop → Shop) : (s.modifyShop n f).nextId = s.nextId := rfl
@[simp] theorem State.modifyShop_tables (n : Nat) (f : Shop → Shop) : (s.modifyShop n f).tables = s.tables := rfl
@[simp] theorem State.modifyShop_store (n : Nat) (f : Shop → Shop) : (s.modifyShop n f).store = s.store := rfl
@[simp] theorem State.modifyShop_buffer (n : Nat) (f : Shop → Shop) : (s.modifyShop n f).buffer = s.buffer := rfl
@[simp] theorem State.modifyShop_holds (n : Nat) (f : Shop → Shop) : (s.modifyShop n f).holds = s.holds := rfl
@[simp] theorem State.modifyShop_journal (n : Nat) (f : Shop → Shop) : (s.modifyShop n f).journal = s.journal := rfl
@[simp] theorem State.modifyShop_cycle (n : Nat) (f : Shop → Shop) : (s.modifyShop n f).cycle = s.cycle := rfl
@[simp] theorem State.modifyShop_payout (n : Nat) (f : Shop → Shop) : (s.modifyShop n f).payout = s.payout := rfl
@[simp] theorem State.modifyShop_supervision (n : Nat) (f : Shop → Shop) : (s.modifyShop n f).supervision = { s.supervision with shops := put {} s.supervision.shops n (f (s.shop n)) } := rfl
@[simp] theorem State.modifyShop_journalOut (n : Nat) (f : Shop → Shop) : (s.modifyShop n f).journalOut = s.journalOut := rfl
@[simp] theorem State.modifyShop_notices (n : Nat) (f : Shop → Shop) : (s.modifyShop n f).notices = s.notices := rfl
@[simp] theorem State.modifyShop_clock (n : Nat) (f : Shop → Shop) : (s.modifyShop n f).clock = s.clock := rfl
@[simp] theorem State.modifyShop_unit (n : Nat) (f : Shop → Shop) : (s.modifyShop n f).unit = s.unit := rfl
@[simp] theorem State.modifyShop_draws (n : Nat) (f : Shop → Shop) : (s.modifyShop n f).draws = s.draws := rfl

/-! ### State.setLine -/

@[simp] theorem State.setLine_pending (i : Nat) (l : Line) : (s.setLine i l).pending = s.pending := rfl
@[simp] theorem State.setLine_sRx (i : Nat) (l : Line) : (s.setLine i l).sRx = s.sRx := rfl
@[simp] theorem State.setLine_oRx (i : Nat) (l : Line) : (s.setLine i l).oRx = s.oRx := rfl
@[simp] theorem State.setLine_sTx (i : Nat) (l : Line) : (s.setLine i l).sTx = s.sTx := rfl
@[simp] theorem State.setLine_oTx (i : Nat) (l : Line) : (s.setLine i l).oTx = s.oTx := rfl
@[simp] theorem State.setLine_sSent (i : Nat) (l : Line) : (s.setLine i l).sSent = s.sSent := rfl
@[simp] theorem State.setLine_oSent (i : Nat) (l : Line) : (s.setLine i l).oSent = s.oSent := rfl
@[simp] theorem State.setLine_sCount (i : Nat) (l : Line) : (s.setLine i l).sCount = s.sCount := rfl
@[simp] theorem State.setLine_oCount (i : Nat) (l : Line) : (s.setLine i l).oCount = s.oCount := rfl
@[simp] theorem State.setLine_unitAddress (i : Nat) (l : Line) : (s.setLine i l).unitAddress = s.unitAddress := rfl
@[simp] theorem State.setLine_lanes (i : Nat) (l : Line) : (s.setLine i l).lanes = s.lanes := rfl
@[simp] theorem State.setLine_inFlight (i : Nat) (l : Line) : (s.setLine i l).inFlight = s.inFlight := rfl
@[simp] theorem State.setLine_nextId (i : Nat) (l : Line) : (s.setLine i l).nextId = s.nextId := rfl
@[simp] theorem State.setLine_tables (i : Nat) (l : Line) : (s.setLine i l).tables = s.tables := rfl
@[simp] theorem State.setLine_store (i : Nat) (l : Line) : (s.setLine i l).store = s.store := rfl
@[simp] theorem State.setLine_buffer (i : Nat) (l : Line) : (s.setLine i l).buffer = { s.buffer with lines := put {} s.buffer.lines i l } := rfl
@[simp] theorem State.setLine_holds (i : Nat) (l : Line) : (s.setLine i l).holds = s.holds := rfl
@[simp] theorem State.setLine_journal (i : Nat) (l : Line) : (s.setLine i l).journal = s.journal := rfl
@[simp] theorem State.setLine_cycle (i : Nat) (l : Line) : (s.setLine i l).cycle = s.cycle := rfl
@[simp] theorem State.setLine_payout (i : Nat) (l : Line) : (s.setLine i l).payout = s.payout := rfl
@[simp] theorem State.setLine_supervision (i : Nat) (l : Line) : (s.setLine i l).supervision = s.supervision := rfl
@[simp] theorem State.setLine_journalOut (i : Nat) (l : Line) : (s.setLine i l).journalOut = s.journalOut := rfl
@[simp] theorem State.setLine_notices (i : Nat) (l : Line) : (s.setLine i l).notices = s.notices := rfl
@[simp] theorem State.setLine_clock (i : Nat) (l : Line) : (s.setLine i l).clock = s.clock := rfl
@[simp] theorem State.setLine_unit (i : Nat) (l : Line) : (s.setLine i l).unit = s.unit := rfl
@[simp] theorem State.setLine_draws (i : Nat) (l : Line) : (s.setLine i l).draws = s.draws := rfl

/-! ### State.setQueue -/

@[simp] theorem State.setQueue_pending (k : Nat) (q : List BankOp) : (s.setQueue k q).pending = s.pending := rfl
@[simp] theorem State.setQueue_sRx (k : Nat) (q : List BankOp) : (s.setQueue k q).sRx = s.sRx := rfl
@[simp] theorem State.setQueue_oRx (k : Nat) (q : List BankOp) : (s.setQueue k q).oRx = s.oRx := rfl
@[simp] theorem State.setQueue_sTx (k : Nat) (q : List BankOp) : (s.setQueue k q).sTx = s.sTx := rfl
@[simp] theorem State.setQueue_oTx (k : Nat) (q : List BankOp) : (s.setQueue k q).oTx = s.oTx := rfl
@[simp] theorem State.setQueue_sSent (k : Nat) (q : List BankOp) : (s.setQueue k q).sSent = s.sSent := rfl
@[simp] theorem State.setQueue_oSent (k : Nat) (q : List BankOp) : (s.setQueue k q).oSent = s.oSent := rfl
@[simp] theorem State.setQueue_sCount (k : Nat) (q : List BankOp) : (s.setQueue k q).sCount = s.sCount := rfl
@[simp] theorem State.setQueue_oCount (k : Nat) (q : List BankOp) : (s.setQueue k q).oCount = s.oCount := rfl
@[simp] theorem State.setQueue_unitAddress (k : Nat) (q : List BankOp) : (s.setQueue k q).unitAddress = s.unitAddress := rfl
@[simp] theorem State.setQueue_lanes (k : Nat) (q : List BankOp) : (s.setQueue k q).lanes = s.lanes := rfl
@[simp] theorem State.setQueue_inFlight (k : Nat) (q : List BankOp) : (s.setQueue k q).inFlight = s.inFlight := rfl
@[simp] theorem State.setQueue_nextId (k : Nat) (q : List BankOp) : (s.setQueue k q).nextId = s.nextId := rfl
@[simp] theorem State.setQueue_tables (k : Nat) (q : List BankOp) : (s.setQueue k q).tables = s.tables := rfl
@[simp] theorem State.setQueue_store (k : Nat) (q : List BankOp) : (s.setQueue k q).store = s.store := rfl
@[simp] theorem State.setQueue_buffer (k : Nat) (q : List BankOp) : (s.setQueue k q).buffer = { s.buffer with queues := put [] s.buffer.queues k q } := rfl
@[simp] theorem State.setQueue_holds (k : Nat) (q : List BankOp) : (s.setQueue k q).holds = s.holds := rfl
@[simp] theorem State.setQueue_journal (k : Nat) (q : List BankOp) : (s.setQueue k q).journal = s.journal := rfl
@[simp] theorem State.setQueue_cycle (k : Nat) (q : List BankOp) : (s.setQueue k q).cycle = s.cycle := rfl
@[simp] theorem State.setQueue_payout (k : Nat) (q : List BankOp) : (s.setQueue k q).payout = s.payout := rfl
@[simp] theorem State.setQueue_supervision (k : Nat) (q : List BankOp) : (s.setQueue k q).supervision = s.supervision := rfl
@[simp] theorem State.setQueue_journalOut (k : Nat) (q : List BankOp) : (s.setQueue k q).journalOut = s.journalOut := rfl
@[simp] theorem State.setQueue_notices (k : Nat) (q : List BankOp) : (s.setQueue k q).notices = s.notices := rfl
@[simp] theorem State.setQueue_clock (k : Nat) (q : List BankOp) : (s.setQueue k q).clock = s.clock := rfl
@[simp] theorem State.setQueue_unit (k : Nat) (q : List BankOp) : (s.setQueue k q).unit = s.unit := rfl
@[simp] theorem State.setQueue_draws (k : Nat) (q : List BankOp) : (s.setQueue k q).draws = s.draws := rfl

/-! ### touch -/

@[simp] theorem touch_pending (i : Nat) : (touch i s).pending = s.pending := rfl
@[simp] theorem touch_sRx (i : Nat) : (touch i s).sRx = s.sRx := rfl
@[simp] theorem touch_oRx (i : Nat) : (touch i s).oRx = s.oRx := rfl
@[simp] theorem touch_sTx (i : Nat) : (touch i s).sTx = s.sTx := rfl
@[simp] theorem touch_oTx (i : Nat) : (touch i s).oTx = s.oTx := rfl
@[simp] theorem touch_sSent (i : Nat) : (touch i s).sSent = s.sSent := rfl
@[simp] theorem touch_oSent (i : Nat) : (touch i s).oSent = s.oSent := rfl
@[simp] theorem touch_sCount (i : Nat) : (touch i s).sCount = s.sCount := rfl
@[simp] theorem touch_oCount (i : Nat) : (touch i s).oCount = s.oCount := rfl
@[simp] theorem touch_unitAddress (i : Nat) : (touch i s).unitAddress = s.unitAddress := rfl
@[simp] theorem touch_lanes (i : Nat) : (touch i s).lanes = s.lanes := rfl
@[simp] theorem touch_inFlight (i : Nat) : (touch i s).inFlight = s.inFlight := rfl
@[simp] theorem touch_nextId (i : Nat) : (touch i s).nextId = s.nextId := rfl
@[simp] theorem touch_tables (i : Nat) : (touch i s).tables = s.tables := rfl
@[simp] theorem touch_store (i : Nat) : (touch i s).store = s.store := rfl
@[simp] theorem touch_buffer (i : Nat) : (touch i s).buffer = { s.buffer with recency := s.buffer.recency.filter (· != i) ++ [i] } := rfl
@[simp] theorem touch_holds (i : Nat) : (touch i s).holds = s.holds := rfl
@[simp] theorem touch_journal (i : Nat) : (touch i s).journal = s.journal := rfl
@[simp] theorem touch_cycle (i : Nat) : (touch i s).cycle = s.cycle := rfl
@[simp] theorem touch_payout (i : Nat) : (touch i s).payout = s.payout := rfl
@[simp] theorem touch_supervision (i : Nat) : (touch i s).supervision = s.supervision := rfl
@[simp] theorem touch_journalOut (i : Nat) : (touch i s).journalOut = s.journalOut := rfl
@[simp] theorem touch_notices (i : Nat) : (touch i s).notices = s.notices := rfl
@[simp] theorem touch_clock (i : Nat) : (touch i s).clock = s.clock := rfl
@[simp] theorem touch_unit (i : Nat) : (touch i s).unit = s.unit := rfl
@[simp] theorem touch_draws (i : Nat) : (touch i s).draws = s.draws := rfl

/-! ### rankLast -/

@[simp] theorem rankLast_pending (i : Nat) : (rankLast i s).pending = s.pending := rfl
@[simp] theorem rankLast_sRx (i : Nat) : (rankLast i s).sRx = s.sRx := rfl
@[simp] theorem rankLast_oRx (i : Nat) : (rankLast i s).oRx = s.oRx := rfl
@[simp] theorem rankLast_sTx (i : Nat) : (rankLast i s).sTx = s.sTx := rfl
@[simp] theorem rankLast_oTx (i : Nat) : (rankLast i s).oTx = s.oTx := rfl
@[simp] theorem rankLast_sSent (i : Nat) : (rankLast i s).sSent = s.sSent := rfl
@[simp] theorem rankLast_oSent (i : Nat) : (rankLast i s).oSent = s.oSent := rfl
@[simp] theorem rankLast_sCount (i : Nat) : (rankLast i s).sCount = s.sCount := rfl
@[simp] theorem rankLast_oCount (i : Nat) : (rankLast i s).oCount = s.oCount := rfl
@[simp] theorem rankLast_unitAddress (i : Nat) : (rankLast i s).unitAddress = s.unitAddress := rfl
@[simp] theorem rankLast_lanes (i : Nat) : (rankLast i s).lanes = s.lanes := rfl
@[simp] theorem rankLast_inFlight (i : Nat) : (rankLast i s).inFlight = s.inFlight := rfl
@[simp] theorem rankLast_nextId (i : Nat) : (rankLast i s).nextId = s.nextId := rfl
@[simp] theorem rankLast_tables (i : Nat) : (rankLast i s).tables = s.tables := rfl
@[simp] theorem rankLast_store (i : Nat) : (rankLast i s).store = s.store := rfl
@[simp] theorem rankLast_buffer (i : Nat) : (rankLast i s).buffer = { s.buffer with recency := i :: s.buffer.recency.filter (· != i) } := rfl
@[simp] theorem rankLast_holds (i : Nat) : (rankLast i s).holds = s.holds := rfl
@[simp] theorem rankLast_journal (i : Nat) : (rankLast i s).journal = s.journal := rfl
@[simp] theorem rankLast_cycle (i : Nat) : (rankLast i s).cycle = s.cycle := rfl
@[simp] theorem rankLast_payout (i : Nat) : (rankLast i s).payout = s.payout := rfl
@[simp] theorem rankLast_supervision (i : Nat) : (rankLast i s).supervision = s.supervision := rfl
@[simp] theorem rankLast_journalOut (i : Nat) : (rankLast i s).journalOut = s.journalOut := rfl
@[simp] theorem rankLast_notices (i : Nat) : (rankLast i s).notices = s.notices := rfl
@[simp] theorem rankLast_clock (i : Nat) : (rankLast i s).clock = s.clock := rfl
@[simp] theorem rankLast_unit (i : Nat) : (rankLast i s).unit = s.unit := rfl
@[simp] theorem rankLast_draws (i : Nat) : (rankLast i s).draws = s.draws := rfl

/-! ### modifyCycle -/

@[simp] theorem modifyCycle_pending (f : Cycle → Cycle) : (modifyCycle f s).pending = s.pending := rfl
@[simp] theorem modifyCycle_sRx (f : Cycle → Cycle) : (modifyCycle f s).sRx = s.sRx := rfl
@[simp] theorem modifyCycle_oRx (f : Cycle → Cycle) : (modifyCycle f s).oRx = s.oRx := rfl
@[simp] theorem modifyCycle_sTx (f : Cycle → Cycle) : (modifyCycle f s).sTx = s.sTx := rfl
@[simp] theorem modifyCycle_oTx (f : Cycle → Cycle) : (modifyCycle f s).oTx = s.oTx := rfl
@[simp] theorem modifyCycle_sSent (f : Cycle → Cycle) : (modifyCycle f s).sSent = s.sSent := rfl
@[simp] theorem modifyCycle_oSent (f : Cycle → Cycle) : (modifyCycle f s).oSent = s.oSent := rfl
@[simp] theorem modifyCycle_sCount (f : Cycle → Cycle) : (modifyCycle f s).sCount = s.sCount := rfl
@[simp] theorem modifyCycle_oCount (f : Cycle → Cycle) : (modifyCycle f s).oCount = s.oCount := rfl
@[simp] theorem modifyCycle_unitAddress (f : Cycle → Cycle) : (modifyCycle f s).unitAddress = s.unitAddress := rfl
@[simp] theorem modifyCycle_lanes (f : Cycle → Cycle) : (modifyCycle f s).lanes = s.lanes := rfl
@[simp] theorem modifyCycle_inFlight (f : Cycle → Cycle) : (modifyCycle f s).inFlight = s.inFlight := rfl
@[simp] theorem modifyCycle_nextId (f : Cycle → Cycle) : (modifyCycle f s).nextId = s.nextId := rfl
@[simp] theorem modifyCycle_tables (f : Cycle → Cycle) : (modifyCycle f s).tables = s.tables := rfl
@[simp] theorem modifyCycle_store (f : Cycle → Cycle) : (modifyCycle f s).store = s.store := rfl
@[simp] theorem modifyCycle_buffer (f : Cycle → Cycle) : (modifyCycle f s).buffer = s.buffer := rfl
@[simp] theorem modifyCycle_holds (f : Cycle → Cycle) : (modifyCycle f s).holds = s.holds := rfl
@[simp] theorem modifyCycle_journal (f : Cycle → Cycle) : (modifyCycle f s).journal = s.journal := rfl
@[simp] theorem modifyCycle_cycle (f : Cycle → Cycle) : (modifyCycle f s).cycle = f s.cycle := rfl
@[simp] theorem modifyCycle_payout (f : Cycle → Cycle) : (modifyCycle f s).payout = s.payout := rfl
@[simp] theorem modifyCycle_supervision (f : Cycle → Cycle) : (modifyCycle f s).supervision = s.supervision := rfl
@[simp] theorem modifyCycle_journalOut (f : Cycle → Cycle) : (modifyCycle f s).journalOut = s.journalOut := rfl
@[simp] theorem modifyCycle_notices (f : Cycle → Cycle) : (modifyCycle f s).notices = s.notices := rfl
@[simp] theorem modifyCycle_clock (f : Cycle → Cycle) : (modifyCycle f s).clock = s.clock := rfl
@[simp] theorem modifyCycle_unit (f : Cycle → Cycle) : (modifyCycle f s).unit = s.unit := rfl
@[simp] theorem modifyCycle_draws (f : Cycle → Cycle) : (modifyCycle f s).draws = s.draws := rfl

/-! ### modifyPayout -/

@[simp] theorem modifyPayout_pending (f : Payout → Payout) : (modifyPayout f s).pending = s.pending := rfl
@[simp] theorem modifyPayout_sRx (f : Payout → Payout) : (modifyPayout f s).sRx = s.sRx := rfl
@[simp] theorem modifyPayout_oRx (f : Payout → Payout) : (modifyPayout f s).oRx = s.oRx := rfl
@[simp] theorem modifyPayout_sTx (f : Payout → Payout) : (modifyPayout f s).sTx = s.sTx := rfl
@[simp] theorem modifyPayout_oTx (f : Payout → Payout) : (modifyPayout f s).oTx = s.oTx := rfl
@[simp] theorem modifyPayout_sSent (f : Payout → Payout) : (modifyPayout f s).sSent = s.sSent := rfl
@[simp] theorem modifyPayout_oSent (f : Payout → Payout) : (modifyPayout f s).oSent = s.oSent := rfl
@[simp] theorem modifyPayout_sCount (f : Payout → Payout) : (modifyPayout f s).sCount = s.sCount := rfl
@[simp] theorem modifyPayout_oCount (f : Payout → Payout) : (modifyPayout f s).oCount = s.oCount := rfl
@[simp] theorem modifyPayout_unitAddress (f : Payout → Payout) : (modifyPayout f s).unitAddress = s.unitAddress := rfl
@[simp] theorem modifyPayout_lanes (f : Payout → Payout) : (modifyPayout f s).lanes = s.lanes := rfl
@[simp] theorem modifyPayout_inFlight (f : Payout → Payout) : (modifyPayout f s).inFlight = s.inFlight := rfl
@[simp] theorem modifyPayout_nextId (f : Payout → Payout) : (modifyPayout f s).nextId = s.nextId := rfl
@[simp] theorem modifyPayout_tables (f : Payout → Payout) : (modifyPayout f s).tables = s.tables := rfl
@[simp] theorem modifyPayout_store (f : Payout → Payout) : (modifyPayout f s).store = s.store := rfl
@[simp] theorem modifyPayout_buffer (f : Payout → Payout) : (modifyPayout f s).buffer = s.buffer := rfl
@[simp] theorem modifyPayout_holds (f : Payout → Payout) : (modifyPayout f s).holds = s.holds := rfl
@[simp] theorem modifyPayout_journal (f : Payout → Payout) : (modifyPayout f s).journal = s.journal := rfl
@[simp] theorem modifyPayout_cycle (f : Payout → Payout) : (modifyPayout f s).cycle = s.cycle := rfl
@[simp] theorem modifyPayout_payout (f : Payout → Payout) : (modifyPayout f s).payout = f s.payout := rfl
@[simp] theorem modifyPayout_supervision (f : Payout → Payout) : (modifyPayout f s).supervision = s.supervision := rfl
@[simp] theorem modifyPayout_journalOut (f : Payout → Payout) : (modifyPayout f s).journalOut = s.journalOut := rfl
@[simp] theorem modifyPayout_notices (f : Payout → Payout) : (modifyPayout f s).notices = s.notices := rfl
@[simp] theorem modifyPayout_clock (f : Payout → Payout) : (modifyPayout f s).clock = s.clock := rfl
@[simp] theorem modifyPayout_unit (f : Payout → Payout) : (modifyPayout f s).unit = s.unit := rfl
@[simp] theorem modifyPayout_draws (f : Payout → Payout) : (modifyPayout f s).draws = s.draws := rfl

/-! ### modifyStore -/

@[simp] theorem modifyStore_pending (f : Store → Store) : (modifyStore f s).pending = s.pending := rfl
@[simp] theorem modifyStore_sRx (f : Store → Store) : (modifyStore f s).sRx = s.sRx := rfl
@[simp] theorem modifyStore_oRx (f : Store → Store) : (modifyStore f s).oRx = s.oRx := rfl
@[simp] theorem modifyStore_sTx (f : Store → Store) : (modifyStore f s).sTx = s.sTx := rfl
@[simp] theorem modifyStore_oTx (f : Store → Store) : (modifyStore f s).oTx = s.oTx := rfl
@[simp] theorem modifyStore_sSent (f : Store → Store) : (modifyStore f s).sSent = s.sSent := rfl
@[simp] theorem modifyStore_oSent (f : Store → Store) : (modifyStore f s).oSent = s.oSent := rfl
@[simp] theorem modifyStore_sCount (f : Store → Store) : (modifyStore f s).sCount = s.sCount := rfl
@[simp] theorem modifyStore_oCount (f : Store → Store) : (modifyStore f s).oCount = s.oCount := rfl
@[simp] theorem modifyStore_unitAddress (f : Store → Store) : (modifyStore f s).unitAddress = s.unitAddress := rfl
@[simp] theorem modifyStore_lanes (f : Store → Store) : (modifyStore f s).lanes = s.lanes := rfl
@[simp] theorem modifyStore_inFlight (f : Store → Store) : (modifyStore f s).inFlight = s.inFlight := rfl
@[simp] theorem modifyStore_nextId (f : Store → Store) : (modifyStore f s).nextId = s.nextId := rfl
@[simp] theorem modifyStore_tables (f : Store → Store) : (modifyStore f s).tables = s.tables := rfl
@[simp] theorem modifyStore_store (f : Store → Store) : (modifyStore f s).store = f s.store := rfl
@[simp] theorem modifyStore_buffer (f : Store → Store) : (modifyStore f s).buffer = s.buffer := rfl
@[simp] theorem modifyStore_holds (f : Store → Store) : (modifyStore f s).holds = s.holds := rfl
@[simp] theorem modifyStore_journal (f : Store → Store) : (modifyStore f s).journal = s.journal := rfl
@[simp] theorem modifyStore_cycle (f : Store → Store) : (modifyStore f s).cycle = s.cycle := rfl
@[simp] theorem modifyStore_payout (f : Store → Store) : (modifyStore f s).payout = s.payout := rfl
@[simp] theorem modifyStore_supervision (f : Store → Store) : (modifyStore f s).supervision = s.supervision := rfl
@[simp] theorem modifyStore_journalOut (f : Store → Store) : (modifyStore f s).journalOut = s.journalOut := rfl
@[simp] theorem modifyStore_notices (f : Store → Store) : (modifyStore f s).notices = s.notices := rfl
@[simp] theorem modifyStore_clock (f : Store → Store) : (modifyStore f s).clock = s.clock := rfl
@[simp] theorem modifyStore_unit (f : Store → Store) : (modifyStore f s).unit = s.unit := rfl
@[simp] theorem modifyStore_draws (f : Store → Store) : (modifyStore f s).draws = s.draws := rfl

/-! ### modifyAudit -/

@[simp] theorem modifyAudit_pending (f : Audit → Audit) : (modifyAudit f s).pending = s.pending := rfl
@[simp] theorem modifyAudit_sRx (f : Audit → Audit) : (modifyAudit f s).sRx = s.sRx := rfl
@[simp] theorem modifyAudit_oRx (f : Audit → Audit) : (modifyAudit f s).oRx = s.oRx := rfl
@[simp] theorem modifyAudit_sTx (f : Audit → Audit) : (modifyAudit f s).sTx = s.sTx := rfl
@[simp] theorem modifyAudit_oTx (f : Audit → Audit) : (modifyAudit f s).oTx = s.oTx := rfl
@[simp] theorem modifyAudit_sSent (f : Audit → Audit) : (modifyAudit f s).sSent = s.sSent := rfl
@[simp] theorem modifyAudit_oSent (f : Audit → Audit) : (modifyAudit f s).oSent = s.oSent := rfl
@[simp] theorem modifyAudit_sCount (f : Audit → Audit) : (modifyAudit f s).sCount = s.sCount := rfl
@[simp] theorem modifyAudit_oCount (f : Audit → Audit) : (modifyAudit f s).oCount = s.oCount := rfl
@[simp] theorem modifyAudit_unitAddress (f : Audit → Audit) : (modifyAudit f s).unitAddress = s.unitAddress := rfl
@[simp] theorem modifyAudit_lanes (f : Audit → Audit) : (modifyAudit f s).lanes = s.lanes := rfl
@[simp] theorem modifyAudit_inFlight (f : Audit → Audit) : (modifyAudit f s).inFlight = s.inFlight := rfl
@[simp] theorem modifyAudit_nextId (f : Audit → Audit) : (modifyAudit f s).nextId = s.nextId := rfl
@[simp] theorem modifyAudit_tables (f : Audit → Audit) : (modifyAudit f s).tables = s.tables := rfl
@[simp] theorem modifyAudit_store (f : Audit → Audit) : (modifyAudit f s).store = { s.store with audit := f s.store.audit } := rfl
@[simp] theorem modifyAudit_buffer (f : Audit → Audit) : (modifyAudit f s).buffer = s.buffer := rfl
@[simp] theorem modifyAudit_holds (f : Audit → Audit) : (modifyAudit f s).holds = s.holds := rfl
@[simp] theorem modifyAudit_journal (f : Audit → Audit) : (modifyAudit f s).journal = s.journal := rfl
@[simp] theorem modifyAudit_cycle (f : Audit → Audit) : (modifyAudit f s).cycle = s.cycle := rfl
@[simp] theorem modifyAudit_payout (f : Audit → Audit) : (modifyAudit f s).payout = s.payout := rfl
@[simp] theorem modifyAudit_supervision (f : Audit → Audit) : (modifyAudit f s).supervision = s.supervision := rfl
@[simp] theorem modifyAudit_journalOut (f : Audit → Audit) : (modifyAudit f s).journalOut = s.journalOut := rfl
@[simp] theorem modifyAudit_notices (f : Audit → Audit) : (modifyAudit f s).notices = s.notices := rfl
@[simp] theorem modifyAudit_clock (f : Audit → Audit) : (modifyAudit f s).clock = s.clock := rfl
@[simp] theorem modifyAudit_unit (f : Audit → Audit) : (modifyAudit f s).unit = s.unit := rfl
@[simp] theorem modifyAudit_draws (f : Audit → Audit) : (modifyAudit f s).draws = s.draws := rfl

/-! ### moveFloat -/

@[simp] theorem moveFloat_pending (d : Int) : (moveFloat d s).pending = s.pending := rfl
@[simp] theorem moveFloat_sRx (d : Int) : (moveFloat d s).sRx = s.sRx := rfl
@[simp] theorem moveFloat_oRx (d : Int) : (moveFloat d s).oRx = s.oRx := rfl
@[simp] theorem moveFloat_sTx (d : Int) : (moveFloat d s).sTx = s.sTx := rfl
@[simp] theorem moveFloat_oTx (d : Int) : (moveFloat d s).oTx = s.oTx := rfl
@[simp] theorem moveFloat_sSent (d : Int) : (moveFloat d s).sSent = s.sSent := rfl
@[simp] theorem moveFloat_oSent (d : Int) : (moveFloat d s).oSent = s.oSent := rfl
@[simp] theorem moveFloat_sCount (d : Int) : (moveFloat d s).sCount = s.sCount := rfl
@[simp] theorem moveFloat_oCount (d : Int) : (moveFloat d s).oCount = s.oCount := rfl
@[simp] theorem moveFloat_unitAddress (d : Int) : (moveFloat d s).unitAddress = s.unitAddress := rfl
@[simp] theorem moveFloat_lanes (d : Int) : (moveFloat d s).lanes = s.lanes := rfl
@[simp] theorem moveFloat_inFlight (d : Int) : (moveFloat d s).inFlight = s.inFlight := rfl
@[simp] theorem moveFloat_nextId (d : Int) : (moveFloat d s).nextId = s.nextId := rfl
@[simp] theorem moveFloat_tables (d : Int) : (moveFloat d s).tables = s.tables := rfl
@[simp] theorem moveFloat_store (d : Int) : (moveFloat d s).store = { s.store with float := s.store.float + BitVec.ofInt 40 d } := rfl
@[simp] theorem moveFloat_buffer (d : Int) : (moveFloat d s).buffer = s.buffer := rfl
@[simp] theorem moveFloat_holds (d : Int) : (moveFloat d s).holds = s.holds := rfl
@[simp] theorem moveFloat_journal (d : Int) : (moveFloat d s).journal = s.journal := rfl
@[simp] theorem moveFloat_cycle (d : Int) : (moveFloat d s).cycle = s.cycle := rfl
@[simp] theorem moveFloat_payout (d : Int) : (moveFloat d s).payout = s.payout := rfl
@[simp] theorem moveFloat_supervision (d : Int) : (moveFloat d s).supervision = s.supervision := rfl
@[simp] theorem moveFloat_journalOut (d : Int) : (moveFloat d s).journalOut = s.journalOut := rfl
@[simp] theorem moveFloat_notices (d : Int) : (moveFloat d s).notices = s.notices := rfl
@[simp] theorem moveFloat_clock (d : Int) : (moveFloat d s).clock = s.clock := rfl
@[simp] theorem moveFloat_unit (d : Int) : (moveFloat d s).unit = s.unit := rfl
@[simp] theorem moveFloat_draws (d : Int) : (moveFloat d s).draws = s.draws := rfl

/-! ### modifyTables -/

@[simp] theorem modifyTables_pending (f : Tables → Tables) : (modifyTables f s).pending = s.pending := rfl
@[simp] theorem modifyTables_sRx (f : Tables → Tables) : (modifyTables f s).sRx = s.sRx := rfl
@[simp] theorem modifyTables_oRx (f : Tables → Tables) : (modifyTables f s).oRx = s.oRx := rfl
@[simp] theorem modifyTables_sTx (f : Tables → Tables) : (modifyTables f s).sTx = s.sTx := rfl
@[simp] theorem modifyTables_oTx (f : Tables → Tables) : (modifyTables f s).oTx = s.oTx := rfl
@[simp] theorem modifyTables_sSent (f : Tables → Tables) : (modifyTables f s).sSent = s.sSent := rfl
@[simp] theorem modifyTables_oSent (f : Tables → Tables) : (modifyTables f s).oSent = s.oSent := rfl
@[simp] theorem modifyTables_sCount (f : Tables → Tables) : (modifyTables f s).sCount = s.sCount := rfl
@[simp] theorem modifyTables_oCount (f : Tables → Tables) : (modifyTables f s).oCount = s.oCount := rfl
@[simp] theorem modifyTables_unitAddress (f : Tables → Tables) : (modifyTables f s).unitAddress = s.unitAddress := rfl
@[simp] theorem modifyTables_lanes (f : Tables → Tables) : (modifyTables f s).lanes = s.lanes := rfl
@[simp] theorem modifyTables_inFlight (f : Tables → Tables) : (modifyTables f s).inFlight = s.inFlight := rfl
@[simp] theorem modifyTables_nextId (f : Tables → Tables) : (modifyTables f s).nextId = s.nextId := rfl
@[simp] theorem modifyTables_tables (f : Tables → Tables) : (modifyTables f s).tables = f s.tables := rfl
@[simp] theorem modifyTables_store (f : Tables → Tables) : (modifyTables f s).store = s.store := rfl
@[simp] theorem modifyTables_buffer (f : Tables → Tables) : (modifyTables f s).buffer = s.buffer := rfl
@[simp] theorem modifyTables_holds (f : Tables → Tables) : (modifyTables f s).holds = s.holds := rfl
@[simp] theorem modifyTables_journal (f : Tables → Tables) : (modifyTables f s).journal = s.journal := rfl
@[simp] theorem modifyTables_cycle (f : Tables → Tables) : (modifyTables f s).cycle = s.cycle := rfl
@[simp] theorem modifyTables_payout (f : Tables → Tables) : (modifyTables f s).payout = s.payout := rfl
@[simp] theorem modifyTables_supervision (f : Tables → Tables) : (modifyTables f s).supervision = s.supervision := rfl
@[simp] theorem modifyTables_journalOut (f : Tables → Tables) : (modifyTables f s).journalOut = s.journalOut := rfl
@[simp] theorem modifyTables_notices (f : Tables → Tables) : (modifyTables f s).notices = s.notices := rfl
@[simp] theorem modifyTables_clock (f : Tables → Tables) : (modifyTables f s).clock = s.clock := rfl
@[simp] theorem modifyTables_unit (f : Tables → Tables) : (modifyTables f s).unit = s.unit := rfl
@[simp] theorem modifyTables_draws (f : Tables → Tables) : (modifyTables f s).draws = s.draws := rfl

/-! ### withClock -/

@[simp] theorem withClock_pending (c : BitVec 32) : (withClock c s).pending = s.pending := rfl
@[simp] theorem withClock_sRx (c : BitVec 32) : (withClock c s).sRx = s.sRx := rfl
@[simp] theorem withClock_oRx (c : BitVec 32) : (withClock c s).oRx = s.oRx := rfl
@[simp] theorem withClock_sTx (c : BitVec 32) : (withClock c s).sTx = s.sTx := rfl
@[simp] theorem withClock_oTx (c : BitVec 32) : (withClock c s).oTx = s.oTx := rfl
@[simp] theorem withClock_sSent (c : BitVec 32) : (withClock c s).sSent = s.sSent := rfl
@[simp] theorem withClock_oSent (c : BitVec 32) : (withClock c s).oSent = s.oSent := rfl
@[simp] theorem withClock_sCount (c : BitVec 32) : (withClock c s).sCount = s.sCount := rfl
@[simp] theorem withClock_oCount (c : BitVec 32) : (withClock c s).oCount = s.oCount := rfl
@[simp] theorem withClock_unitAddress (c : BitVec 32) : (withClock c s).unitAddress = s.unitAddress := rfl
@[simp] theorem withClock_lanes (c : BitVec 32) : (withClock c s).lanes = s.lanes := rfl
@[simp] theorem withClock_inFlight (c : BitVec 32) : (withClock c s).inFlight = s.inFlight := rfl
@[simp] theorem withClock_nextId (c : BitVec 32) : (withClock c s).nextId = s.nextId := rfl
@[simp] theorem withClock_tables (c : BitVec 32) : (withClock c s).tables = s.tables := rfl
@[simp] theorem withClock_store (c : BitVec 32) : (withClock c s).store = s.store := rfl
@[simp] theorem withClock_buffer (c : BitVec 32) : (withClock c s).buffer = s.buffer := rfl
@[simp] theorem withClock_holds (c : BitVec 32) : (withClock c s).holds = s.holds := rfl
@[simp] theorem withClock_journal (c : BitVec 32) : (withClock c s).journal = s.journal := rfl
@[simp] theorem withClock_cycle (c : BitVec 32) : (withClock c s).cycle = s.cycle := rfl
@[simp] theorem withClock_payout (c : BitVec 32) : (withClock c s).payout = s.payout := rfl
@[simp] theorem withClock_supervision (c : BitVec 32) : (withClock c s).supervision = s.supervision := rfl
@[simp] theorem withClock_journalOut (c : BitVec 32) : (withClock c s).journalOut = s.journalOut := rfl
@[simp] theorem withClock_notices (c : BitVec 32) : (withClock c s).notices = s.notices := rfl
@[simp] theorem withClock_clock (c : BitVec 32) : (withClock c s).clock = c := rfl
@[simp] theorem withClock_unit (c : BitVec 32) : (withClock c s).unit = s.unit := rfl
@[simp] theorem withClock_draws (c : BitVec 32) : (withClock c s).draws = s.draws := rfl

/-! ### dropFirst -/

@[simp] theorem dropFirst_pending : (dropFirst s).pending = s.pending := rfl
@[simp] theorem dropFirst_sRx : (dropFirst s).sRx = s.sRx := rfl
@[simp] theorem dropFirst_oRx : (dropFirst s).oRx = s.oRx := rfl
@[simp] theorem dropFirst_sTx : (dropFirst s).sTx = s.sTx := rfl
@[simp] theorem dropFirst_oTx : (dropFirst s).oTx = s.oTx := rfl
@[simp] theorem dropFirst_sSent : (dropFirst s).sSent = s.sSent := rfl
@[simp] theorem dropFirst_oSent : (dropFirst s).oSent = s.oSent := rfl
@[simp] theorem dropFirst_sCount : (dropFirst s).sCount = s.sCount := rfl
@[simp] theorem dropFirst_oCount : (dropFirst s).oCount = s.oCount := rfl
@[simp] theorem dropFirst_unitAddress : (dropFirst s).unitAddress = s.unitAddress := rfl
@[simp] theorem dropFirst_lanes : (dropFirst s).lanes = s.lanes := rfl
@[simp] theorem dropFirst_inFlight : (dropFirst s).inFlight = s.inFlight := rfl
@[simp] theorem dropFirst_nextId : (dropFirst s).nextId = s.nextId := rfl
@[simp] theorem dropFirst_tables : (dropFirst s).tables = s.tables := rfl
@[simp] theorem dropFirst_store : (dropFirst s).store = s.store := rfl
@[simp] theorem dropFirst_buffer : (dropFirst s).buffer = s.buffer := rfl
@[simp] theorem dropFirst_holds : (dropFirst s).holds = s.holds := rfl
@[simp] theorem dropFirst_journal : (dropFirst s).journal = s.journal := rfl
@[simp] theorem dropFirst_cycle : (dropFirst s).cycle = s.cycle := rfl
@[simp] theorem dropFirst_payout : (dropFirst s).payout = s.payout := rfl
@[simp] theorem dropFirst_supervision : (dropFirst s).supervision = s.supervision := rfl
@[simp] theorem dropFirst_journalOut : (dropFirst s).journalOut = s.journalOut := rfl
@[simp] theorem dropFirst_notices : (dropFirst s).notices = s.notices := rfl
@[simp] theorem dropFirst_clock : (dropFirst s).clock = s.clock := rfl
@[simp] theorem dropFirst_unit : (dropFirst s).unit = { s.unit with first := none } := rfl
@[simp] theorem dropFirst_draws : (dropFirst s).draws = s.draws := rfl

/-! ### startWork -/

@[simp] theorem startWork_pending (tag : BitVec 16) (w : UnitWork) : (startWork tag w s).pending = s.pending := rfl
@[simp] theorem startWork_sRx (tag : BitVec 16) (w : UnitWork) : (startWork tag w s).sRx = s.sRx := rfl
@[simp] theorem startWork_oRx (tag : BitVec 16) (w : UnitWork) : (startWork tag w s).oRx = s.oRx := rfl
@[simp] theorem startWork_sTx (tag : BitVec 16) (w : UnitWork) : (startWork tag w s).sTx = s.sTx := rfl
@[simp] theorem startWork_oTx (tag : BitVec 16) (w : UnitWork) : (startWork tag w s).oTx = s.oTx := rfl
@[simp] theorem startWork_sSent (tag : BitVec 16) (w : UnitWork) : (startWork tag w s).sSent = s.sSent := rfl
@[simp] theorem startWork_oSent (tag : BitVec 16) (w : UnitWork) : (startWork tag w s).oSent = s.oSent := rfl
@[simp] theorem startWork_sCount (tag : BitVec 16) (w : UnitWork) : (startWork tag w s).sCount = s.sCount := rfl
@[simp] theorem startWork_oCount (tag : BitVec 16) (w : UnitWork) : (startWork tag w s).oCount = s.oCount := rfl
@[simp] theorem startWork_unitAddress (tag : BitVec 16) (w : UnitWork) : (startWork tag w s).unitAddress = s.unitAddress := rfl
@[simp] theorem startWork_lanes (tag : BitVec 16) (w : UnitWork) : (startWork tag w s).lanes = s.lanes := rfl
@[simp] theorem startWork_inFlight (tag : BitVec 16) (w : UnitWork) : (startWork tag w s).inFlight = s.inFlight := rfl
@[simp] theorem startWork_nextId (tag : BitVec 16) (w : UnitWork) : (startWork tag w s).nextId = s.nextId := rfl
@[simp] theorem startWork_tables (tag : BitVec 16) (w : UnitWork) : (startWork tag w s).tables = s.tables := rfl
@[simp] theorem startWork_store (tag : BitVec 16) (w : UnitWork) : (startWork tag w s).store = s.store := rfl
@[simp] theorem startWork_buffer (tag : BitVec 16) (w : UnitWork) : (startWork tag w s).buffer = s.buffer := rfl
@[simp] theorem startWork_holds (tag : BitVec 16) (w : UnitWork) : (startWork tag w s).holds = s.holds := rfl
@[simp] theorem startWork_journal (tag : BitVec 16) (w : UnitWork) : (startWork tag w s).journal = s.journal := rfl
@[simp] theorem startWork_cycle (tag : BitVec 16) (w : UnitWork) : (startWork tag w s).cycle = s.cycle := rfl
@[simp] theorem startWork_payout (tag : BitVec 16) (w : UnitWork) : (startWork tag w s).payout = s.payout := rfl
@[simp] theorem startWork_supervision (tag : BitVec 16) (w : UnitWork) : (startWork tag w s).supervision = s.supervision := rfl
@[simp] theorem startWork_journalOut (tag : BitVec 16) (w : UnitWork) : (startWork tag w s).journalOut = s.journalOut := rfl
@[simp] theorem startWork_notices (tag : BitVec 16) (w : UnitWork) : (startWork tag w s).notices = s.notices := rfl
@[simp] theorem startWork_clock (tag : BitVec 16) (w : UnitWork) : (startWork tag w s).clock = s.clock := rfl
@[simp] theorem startWork_unit (tag : BitVec 16) (w : UnitWork) : (startWork tag w s).unit = { s.unit with progress := some { tag := tag, work := w } } := rfl
@[simp] theorem startWork_draws (tag : BitVec 16) (w : UnitWork) : (startWork tag w s).draws = s.draws := rfl

/-! ### countArrival -/

@[simp] theorem countArrival_pending : (countArrival s).pending = s.pending := rfl
@[simp] theorem countArrival_sRx : (countArrival s).sRx = s.sRx := rfl
@[simp] theorem countArrival_oRx : (countArrival s).oRx = s.oRx := rfl
@[simp] theorem countArrival_sTx : (countArrival s).sTx = s.sTx := rfl
@[simp] theorem countArrival_oTx : (countArrival s).oTx = s.oTx := rfl
@[simp] theorem countArrival_sSent : (countArrival s).sSent = s.sSent := rfl
@[simp] theorem countArrival_oSent : (countArrival s).oSent = s.oSent := rfl
@[simp] theorem countArrival_sCount : (countArrival s).sCount = s.sCount := rfl
@[simp] theorem countArrival_oCount : (countArrival s).oCount = { s.oCount with received := s.oCount.received + 1, management := s.oCount.management + 1 } := rfl
@[simp] theorem countArrival_unitAddress : (countArrival s).unitAddress = s.unitAddress := rfl
@[simp] theorem countArrival_lanes : (countArrival s).lanes = s.lanes := rfl
@[simp] theorem countArrival_inFlight : (countArrival s).inFlight = s.inFlight := rfl
@[simp] theorem countArrival_nextId : (countArrival s).nextId = s.nextId := rfl
@[simp] theorem countArrival_tables : (countArrival s).tables = s.tables := rfl
@[simp] theorem countArrival_store : (countArrival s).store = s.store := rfl
@[simp] theorem countArrival_buffer : (countArrival s).buffer = s.buffer := rfl
@[simp] theorem countArrival_holds : (countArrival s).holds = s.holds := rfl
@[simp] theorem countArrival_journal : (countArrival s).journal = s.journal := rfl
@[simp] theorem countArrival_cycle : (countArrival s).cycle = s.cycle := rfl
@[simp] theorem countArrival_payout : (countArrival s).payout = s.payout := rfl
@[simp] theorem countArrival_supervision : (countArrival s).supervision = s.supervision := rfl
@[simp] theorem countArrival_journalOut : (countArrival s).journalOut = s.journalOut := rfl
@[simp] theorem countArrival_notices : (countArrival s).notices = s.notices := rfl
@[simp] theorem countArrival_clock : (countArrival s).clock = s.clock := rfl
@[simp] theorem countArrival_unit : (countArrival s).unit = s.unit := rfl
@[simp] theorem countArrival_draws : (countArrival s).draws = s.draws := rfl

/-! ### sendGift -/

@[simp] theorem sendGift_pending (f : Frame) : (sendGift f s).pending = s.pending := rfl
@[simp] theorem sendGift_sRx (f : Frame) : (sendGift f s).sRx = s.sRx := rfl
@[simp] theorem sendGift_oRx (f : Frame) : (sendGift f s).oRx = s.oRx := rfl
@[simp] theorem sendGift_sTx (f : Frame) : (sendGift f s).sTx = s.sTx ++ [f] := rfl
@[simp] theorem sendGift_oTx (f : Frame) : (sendGift f s).oTx = s.oTx := rfl
@[simp] theorem sendGift_sSent (f : Frame) : (sendGift f s).sSent = s.sSent := rfl
@[simp] theorem sendGift_oSent (f : Frame) : (sendGift f s).oSent = s.oSent := rfl
@[simp] theorem sendGift_sCount (f : Frame) : (sendGift f s).sCount = { s.sCount with answers := s.sCount.answers + 1 } := rfl
@[simp] theorem sendGift_oCount (f : Frame) : (sendGift f s).oCount = s.oCount := rfl
@[simp] theorem sendGift_unitAddress (f : Frame) : (sendGift f s).unitAddress = s.unitAddress := rfl
@[simp] theorem sendGift_lanes (f : Frame) : (sendGift f s).lanes = s.lanes := rfl
@[simp] theorem sendGift_inFlight (f : Frame) : (sendGift f s).inFlight = s.inFlight := rfl
@[simp] theorem sendGift_nextId (f : Frame) : (sendGift f s).nextId = s.nextId := rfl
@[simp] theorem sendGift_tables (f : Frame) : (sendGift f s).tables = s.tables := rfl
@[simp] theorem sendGift_store (f : Frame) : (sendGift f s).store = s.store := rfl
@[simp] theorem sendGift_buffer (f : Frame) : (sendGift f s).buffer = s.buffer := rfl
@[simp] theorem sendGift_holds (f : Frame) : (sendGift f s).holds = s.holds := rfl
@[simp] theorem sendGift_journal (f : Frame) : (sendGift f s).journal = s.journal := rfl
@[simp] theorem sendGift_cycle (f : Frame) : (sendGift f s).cycle = s.cycle := rfl
@[simp] theorem sendGift_payout (f : Frame) : (sendGift f s).payout = s.payout := rfl
@[simp] theorem sendGift_supervision (f : Frame) : (sendGift f s).supervision = s.supervision := rfl
@[simp] theorem sendGift_journalOut (f : Frame) : (sendGift f s).journalOut = s.journalOut := rfl
@[simp] theorem sendGift_notices (f : Frame) : (sendGift f s).notices = s.notices := rfl
@[simp] theorem sendGift_clock (f : Frame) : (sendGift f s).clock = s.clock := rfl
@[simp] theorem sendGift_unit (f : Frame) : (sendGift f s).unit = s.unit := rfl
@[simp] theorem sendGift_draws (f : Frame) : (sendGift f s).draws = s.draws := rfl

/-! ### sendNotice -/

@[simp] theorem sendNotice_pending (f : Frame) : (sendNotice f s).pending = s.pending := rfl
@[simp] theorem sendNotice_sRx (f : Frame) : (sendNotice f s).sRx = s.sRx := rfl
@[simp] theorem sendNotice_oRx (f : Frame) : (sendNotice f s).oRx = s.oRx := rfl
@[simp] theorem sendNotice_sTx (f : Frame) : (sendNotice f s).sTx = s.sTx := rfl
@[simp] theorem sendNotice_oTx (f : Frame) : (sendNotice f s).oTx = s.oTx ++ [f] := rfl
@[simp] theorem sendNotice_sSent (f : Frame) : (sendNotice f s).sSent = s.sSent := rfl
@[simp] theorem sendNotice_oSent (f : Frame) : (sendNotice f s).oSent = s.oSent := rfl
@[simp] theorem sendNotice_sCount (f : Frame) : (sendNotice f s).sCount = s.sCount := rfl
@[simp] theorem sendNotice_oCount (f : Frame) : (sendNotice f s).oCount = { s.oCount with notices := s.oCount.notices + 1 } := rfl
@[simp] theorem sendNotice_unitAddress (f : Frame) : (sendNotice f s).unitAddress = s.unitAddress := rfl
@[simp] theorem sendNotice_lanes (f : Frame) : (sendNotice f s).lanes = s.lanes := rfl
@[simp] theorem sendNotice_inFlight (f : Frame) : (sendNotice f s).inFlight = s.inFlight := rfl
@[simp] theorem sendNotice_nextId (f : Frame) : (sendNotice f s).nextId = s.nextId := rfl
@[simp] theorem sendNotice_tables (f : Frame) : (sendNotice f s).tables = s.tables := rfl
@[simp] theorem sendNotice_store (f : Frame) : (sendNotice f s).store = s.store := rfl
@[simp] theorem sendNotice_buffer (f : Frame) : (sendNotice f s).buffer = s.buffer := rfl
@[simp] theorem sendNotice_holds (f : Frame) : (sendNotice f s).holds = s.holds := rfl
@[simp] theorem sendNotice_journal (f : Frame) : (sendNotice f s).journal = s.journal := rfl
@[simp] theorem sendNotice_cycle (f : Frame) : (sendNotice f s).cycle = s.cycle := rfl
@[simp] theorem sendNotice_payout (f : Frame) : (sendNotice f s).payout = s.payout := rfl
@[simp] theorem sendNotice_supervision (f : Frame) : (sendNotice f s).supervision = s.supervision := rfl
@[simp] theorem sendNotice_journalOut (f : Frame) : (sendNotice f s).journalOut = s.journalOut := rfl
@[simp] theorem sendNotice_notices (f : Frame) : (sendNotice f s).notices = s.notices := rfl
@[simp] theorem sendNotice_clock (f : Frame) : (sendNotice f s).clock = s.clock := rfl
@[simp] theorem sendNotice_unit (f : Frame) : (sendNotice f s).unit = s.unit := rfl
@[simp] theorem sendNotice_draws (f : Frame) : (sendNotice f s).draws = s.draws := rfl

/-! ### sendReply -/

@[simp] theorem sendReply_pending (f : Frame) (b : Bool) : (sendReply f b s).pending = s.pending := rfl
@[simp] theorem sendReply_sRx (f : Frame) (b : Bool) : (sendReply f b s).sRx = s.sRx := rfl
@[simp] theorem sendReply_oRx (f : Frame) (b : Bool) : (sendReply f b s).oRx = s.oRx := rfl
@[simp] theorem sendReply_sTx (f : Frame) (b : Bool) : (sendReply f b s).sTx = s.sTx := rfl
@[simp] theorem sendReply_oTx (f : Frame) (b : Bool) : (sendReply f b s).oTx = s.oTx ++ [f] := rfl
@[simp] theorem sendReply_sSent (f : Frame) (b : Bool) : (sendReply f b s).sSent = s.sSent := rfl
@[simp] theorem sendReply_oSent (f : Frame) (b : Bool) : (sendReply f b s).oSent = s.oSent := rfl
@[simp] theorem sendReply_sCount (f : Frame) (b : Bool) : (sendReply f b s).sCount = s.sCount := rfl
@[simp] theorem sendReply_unitAddress (f : Frame) (b : Bool) : (sendReply f b s).unitAddress = s.unitAddress := rfl
@[simp] theorem sendReply_lanes (f : Frame) (b : Bool) : (sendReply f b s).lanes = s.lanes := rfl
@[simp] theorem sendReply_inFlight (f : Frame) (b : Bool) : (sendReply f b s).inFlight = s.inFlight := rfl
@[simp] theorem sendReply_nextId (f : Frame) (b : Bool) : (sendReply f b s).nextId = s.nextId := rfl
@[simp] theorem sendReply_tables (f : Frame) (b : Bool) : (sendReply f b s).tables = s.tables := rfl
@[simp] theorem sendReply_store (f : Frame) (b : Bool) : (sendReply f b s).store = s.store := rfl
@[simp] theorem sendReply_buffer (f : Frame) (b : Bool) : (sendReply f b s).buffer = s.buffer := rfl
@[simp] theorem sendReply_holds (f : Frame) (b : Bool) : (sendReply f b s).holds = s.holds := rfl
@[simp] theorem sendReply_journal (f : Frame) (b : Bool) : (sendReply f b s).journal = s.journal := rfl
@[simp] theorem sendReply_cycle (f : Frame) (b : Bool) : (sendReply f b s).cycle = s.cycle := rfl
@[simp] theorem sendReply_payout (f : Frame) (b : Bool) : (sendReply f b s).payout = s.payout := rfl
@[simp] theorem sendReply_supervision (f : Frame) (b : Bool) : (sendReply f b s).supervision = s.supervision := rfl
@[simp] theorem sendReply_journalOut (f : Frame) (b : Bool) : (sendReply f b s).journalOut = s.journalOut := rfl
@[simp] theorem sendReply_notices (f : Frame) (b : Bool) : (sendReply f b s).notices = s.notices := rfl
@[simp] theorem sendReply_clock (f : Frame) (b : Bool) : (sendReply f b s).clock = s.clock := rfl
@[simp] theorem sendReply_unit (f : Frame) (b : Bool) : (sendReply f b s).unit = s.unit := rfl
@[simp] theorem sendReply_draws (f : Frame) (b : Bool) : (sendReply f b s).draws = s.draws := rfl

/-! ### markHold -/

@[simp] theorem markHold_pending (r : Ref) (st : HoldState) : (markHold r st s).pending = s.pending := rfl
@[simp] theorem markHold_sRx (r : Ref) (st : HoldState) : (markHold r st s).sRx = s.sRx := rfl
@[simp] theorem markHold_oRx (r : Ref) (st : HoldState) : (markHold r st s).oRx = s.oRx := rfl
@[simp] theorem markHold_sTx (r : Ref) (st : HoldState) : (markHold r st s).sTx = s.sTx := rfl
@[simp] theorem markHold_oTx (r : Ref) (st : HoldState) : (markHold r st s).oTx = s.oTx := rfl
@[simp] theorem markHold_sSent (r : Ref) (st : HoldState) : (markHold r st s).sSent = s.sSent := rfl
@[simp] theorem markHold_oSent (r : Ref) (st : HoldState) : (markHold r st s).oSent = s.oSent := rfl
@[simp] theorem markHold_sCount (r : Ref) (st : HoldState) : (markHold r st s).sCount = s.sCount := rfl
@[simp] theorem markHold_oCount (r : Ref) (st : HoldState) : (markHold r st s).oCount = s.oCount := rfl
@[simp] theorem markHold_unitAddress (r : Ref) (st : HoldState) : (markHold r st s).unitAddress = s.unitAddress := rfl
@[simp] theorem markHold_lanes (r : Ref) (st : HoldState) : (markHold r st s).lanes = s.lanes := rfl
@[simp] theorem markHold_inFlight (r : Ref) (st : HoldState) : (markHold r st s).inFlight = s.inFlight := rfl
@[simp] theorem markHold_nextId (r : Ref) (st : HoldState) : (markHold r st s).nextId = s.nextId := rfl
@[simp] theorem markHold_tables (r : Ref) (st : HoldState) : (markHold r st s).tables = s.tables := rfl
@[simp] theorem markHold_store (r : Ref) (st : HoldState) : (markHold r st s).store = s.store := rfl
@[simp] theorem markHold_buffer (r : Ref) (st : HoldState) : (markHold r st s).buffer = s.buffer := rfl
@[simp] theorem markHold_journal (r : Ref) (st : HoldState) : (markHold r st s).journal = s.journal := rfl
@[simp] theorem markHold_cycle (r : Ref) (st : HoldState) : (markHold r st s).cycle = s.cycle := rfl
@[simp] theorem markHold_payout (r : Ref) (st : HoldState) : (markHold r st s).payout = s.payout := rfl
@[simp] theorem markHold_supervision (r : Ref) (st : HoldState) : (markHold r st s).supervision = s.supervision := rfl
@[simp] theorem markHold_journalOut (r : Ref) (st : HoldState) : (markHold r st s).journalOut = s.journalOut := rfl
@[simp] theorem markHold_notices (r : Ref) (st : HoldState) : (markHold r st s).notices = s.notices := rfl
@[simp] theorem markHold_clock (r : Ref) (st : HoldState) : (markHold r st s).clock = s.clock := rfl
@[simp] theorem markHold_unit (r : Ref) (st : HoldState) : (markHold r st s).unit = s.unit := rfl
@[simp] theorem markHold_draws (r : Ref) (st : HoldState) : (markHold r st s).draws = s.draws := rfl

/-! ### removeHold -/

@[simp] theorem removeHold_pending (r : Ref) : (removeHold r s).pending = s.pending := rfl
@[simp] theorem removeHold_sRx (r : Ref) : (removeHold r s).sRx = s.sRx := rfl
@[simp] theorem removeHold_oRx (r : Ref) : (removeHold r s).oRx = s.oRx := rfl
@[simp] theorem removeHold_sTx (r : Ref) : (removeHold r s).sTx = s.sTx := rfl
@[simp] theorem removeHold_oTx (r : Ref) : (removeHold r s).oTx = s.oTx := rfl
@[simp] theorem removeHold_sSent (r : Ref) : (removeHold r s).sSent = s.sSent := rfl
@[simp] theorem removeHold_oSent (r : Ref) : (removeHold r s).oSent = s.oSent := rfl
@[simp] theorem removeHold_sCount (r : Ref) : (removeHold r s).sCount = s.sCount := rfl
@[simp] theorem removeHold_oCount (r : Ref) : (removeHold r s).oCount = s.oCount := rfl
@[simp] theorem removeHold_unitAddress (r : Ref) : (removeHold r s).unitAddress = s.unitAddress := rfl
@[simp] theorem removeHold_lanes (r : Ref) : (removeHold r s).lanes = s.lanes := rfl
@[simp] theorem removeHold_inFlight (r : Ref) : (removeHold r s).inFlight = s.inFlight := rfl
@[simp] theorem removeHold_nextId (r : Ref) : (removeHold r s).nextId = s.nextId := rfl
@[simp] theorem removeHold_tables (r : Ref) : (removeHold r s).tables = s.tables := rfl
@[simp] theorem removeHold_store (r : Ref) : (removeHold r s).store = s.store := rfl
@[simp] theorem removeHold_buffer (r : Ref) : (removeHold r s).buffer = s.buffer := rfl
@[simp] theorem removeHold_holds (r : Ref) : (removeHold r s).holds = { s.holds with entries := s.holds.entries.filter (fun e => e.ref != r) } := rfl
@[simp] theorem removeHold_journal (r : Ref) : (removeHold r s).journal = s.journal := rfl
@[simp] theorem removeHold_cycle (r : Ref) : (removeHold r s).cycle = s.cycle := rfl
@[simp] theorem removeHold_payout (r : Ref) : (removeHold r s).payout = s.payout := rfl
@[simp] theorem removeHold_supervision (r : Ref) : (removeHold r s).supervision = s.supervision := rfl
@[simp] theorem removeHold_journalOut (r : Ref) : (removeHold r s).journalOut = s.journalOut := rfl
@[simp] theorem removeHold_notices (r : Ref) : (removeHold r s).notices = s.notices := rfl
@[simp] theorem removeHold_clock (r : Ref) : (removeHold r s).clock = s.clock := rfl
@[simp] theorem removeHold_unit (r : Ref) : (removeHold r s).unit = s.unit := rfl
@[simp] theorem removeHold_draws (r : Ref) : (removeHold r s).draws = s.draws := rfl

/-! ### addHold -/

@[simp] theorem addHold_pending (h : HoldEntry) : (addHold h s).pending = s.pending := rfl
@[simp] theorem addHold_sRx (h : HoldEntry) : (addHold h s).sRx = s.sRx := rfl
@[simp] theorem addHold_oRx (h : HoldEntry) : (addHold h s).oRx = s.oRx := rfl
@[simp] theorem addHold_sTx (h : HoldEntry) : (addHold h s).sTx = s.sTx := rfl
@[simp] theorem addHold_oTx (h : HoldEntry) : (addHold h s).oTx = s.oTx := rfl
@[simp] theorem addHold_sSent (h : HoldEntry) : (addHold h s).sSent = s.sSent := rfl
@[simp] theorem addHold_oSent (h : HoldEntry) : (addHold h s).oSent = s.oSent := rfl
@[simp] theorem addHold_sCount (h : HoldEntry) : (addHold h s).sCount = s.sCount := rfl
@[simp] theorem addHold_oCount (h : HoldEntry) : (addHold h s).oCount = s.oCount := rfl
@[simp] theorem addHold_unitAddress (h : HoldEntry) : (addHold h s).unitAddress = s.unitAddress := rfl
@[simp] theorem addHold_lanes (h : HoldEntry) : (addHold h s).lanes = s.lanes := rfl
@[simp] theorem addHold_inFlight (h : HoldEntry) : (addHold h s).inFlight = s.inFlight := rfl
@[simp] theorem addHold_nextId (h : HoldEntry) : (addHold h s).nextId = s.nextId := rfl
@[simp] theorem addHold_tables (h : HoldEntry) : (addHold h s).tables = s.tables := rfl
@[simp] theorem addHold_store (h : HoldEntry) : (addHold h s).store = s.store := rfl
@[simp] theorem addHold_buffer (h : HoldEntry) : (addHold h s).buffer = s.buffer := rfl
@[simp] theorem addHold_holds (h : HoldEntry) : (addHold h s).holds = { s.holds with entries := insertHold h s.holds.entries } := rfl
@[simp] theorem addHold_journal (h : HoldEntry) : (addHold h s).journal = s.journal := rfl
@[simp] theorem addHold_cycle (h : HoldEntry) : (addHold h s).cycle = s.cycle := rfl
@[simp] theorem addHold_payout (h : HoldEntry) : (addHold h s).payout = s.payout := rfl
@[simp] theorem addHold_supervision (h : HoldEntry) : (addHold h s).supervision = s.supervision := rfl
@[simp] theorem addHold_journalOut (h : HoldEntry) : (addHold h s).journalOut = s.journalOut := rfl
@[simp] theorem addHold_notices (h : HoldEntry) : (addHold h s).notices = s.notices := rfl
@[simp] theorem addHold_clock (h : HoldEntry) : (addHold h s).clock = s.clock := rfl
@[simp] theorem addHold_unit (h : HoldEntry) : (addHold h s).unit = s.unit := rfl
@[simp] theorem addHold_draws (h : HoldEntry) : (addHold h s).draws = s.draws := rfl

/-! ### clearExpiring -/

@[simp] theorem clearExpiring_pending : (clearExpiring s).pending = s.pending := rfl
@[simp] theorem clearExpiring_sRx : (clearExpiring s).sRx = s.sRx := rfl
@[simp] theorem clearExpiring_oRx : (clearExpiring s).oRx = s.oRx := rfl
@[simp] theorem clearExpiring_sTx : (clearExpiring s).sTx = s.sTx := rfl
@[simp] theorem clearExpiring_oTx : (clearExpiring s).oTx = s.oTx := rfl
@[simp] theorem clearExpiring_sSent : (clearExpiring s).sSent = s.sSent := rfl
@[simp] theorem clearExpiring_oSent : (clearExpiring s).oSent = s.oSent := rfl
@[simp] theorem clearExpiring_sCount : (clearExpiring s).sCount = s.sCount := rfl
@[simp] theorem clearExpiring_oCount : (clearExpiring s).oCount = s.oCount := rfl
@[simp] theorem clearExpiring_unitAddress : (clearExpiring s).unitAddress = s.unitAddress := rfl
@[simp] theorem clearExpiring_lanes : (clearExpiring s).lanes = s.lanes := rfl
@[simp] theorem clearExpiring_inFlight : (clearExpiring s).inFlight = s.inFlight := rfl
@[simp] theorem clearExpiring_nextId : (clearExpiring s).nextId = s.nextId := rfl
@[simp] theorem clearExpiring_tables : (clearExpiring s).tables = s.tables := rfl
@[simp] theorem clearExpiring_store : (clearExpiring s).store = s.store := rfl
@[simp] theorem clearExpiring_buffer : (clearExpiring s).buffer = s.buffer := rfl
@[simp] theorem clearExpiring_holds : (clearExpiring s).holds = { s.holds with expiring := none } := rfl
@[simp] theorem clearExpiring_journal : (clearExpiring s).journal = s.journal := rfl
@[simp] theorem clearExpiring_cycle : (clearExpiring s).cycle = s.cycle := rfl
@[simp] theorem clearExpiring_payout : (clearExpiring s).payout = s.payout := rfl
@[simp] theorem clearExpiring_supervision : (clearExpiring s).supervision = s.supervision := rfl
@[simp] theorem clearExpiring_journalOut : (clearExpiring s).journalOut = s.journalOut := rfl
@[simp] theorem clearExpiring_notices : (clearExpiring s).notices = s.notices := rfl
@[simp] theorem clearExpiring_clock : (clearExpiring s).clock = s.clock := rfl
@[simp] theorem clearExpiring_unit : (clearExpiring s).unit = s.unit := rfl
@[simp] theorem clearExpiring_draws : (clearExpiring s).draws = s.draws := rfl

/-! ### enterSet -/

@[simp] theorem enterSet_pending (x : InFlight) : (enterSet x s).pending = s.pending := rfl
@[simp] theorem enterSet_sRx (x : InFlight) : (enterSet x s).sRx = s.sRx := rfl
@[simp] theorem enterSet_oRx (x : InFlight) : (enterSet x s).oRx = s.oRx := rfl
@[simp] theorem enterSet_sTx (x : InFlight) : (enterSet x s).sTx = s.sTx := rfl
@[simp] theorem enterSet_oTx (x : InFlight) : (enterSet x s).oTx = s.oTx := rfl
@[simp] theorem enterSet_sSent (x : InFlight) : (enterSet x s).sSent = s.sSent := rfl
@[simp] theorem enterSet_oSent (x : InFlight) : (enterSet x s).oSent = s.oSent := rfl
@[simp] theorem enterSet_sCount (x : InFlight) : (enterSet x s).sCount = s.sCount := rfl
@[simp] theorem enterSet_oCount (x : InFlight) : (enterSet x s).oCount = s.oCount := rfl
@[simp] theorem enterSet_unitAddress (x : InFlight) : (enterSet x s).unitAddress = s.unitAddress := rfl
@[simp] theorem enterSet_lanes (x : InFlight) : (enterSet x s).lanes = s.lanes := rfl
@[simp] theorem enterSet_inFlight (x : InFlight) : (enterSet x s).inFlight = s.inFlight ++ [{ x with id := s.nextId, generation := s.tables.generation }] := rfl
@[simp] theorem enterSet_nextId (x : InFlight) : (enterSet x s).nextId = s.nextId + 1 := rfl
@[simp] theorem enterSet_tables (x : InFlight) : (enterSet x s).tables = countIn s.tables := rfl
@[simp] theorem enterSet_store (x : InFlight) : (enterSet x s).store = s.store := rfl
@[simp] theorem enterSet_buffer (x : InFlight) : (enterSet x s).buffer = s.buffer := rfl
@[simp] theorem enterSet_holds (x : InFlight) : (enterSet x s).holds = s.holds := rfl
@[simp] theorem enterSet_journal (x : InFlight) : (enterSet x s).journal = s.journal := rfl
@[simp] theorem enterSet_cycle (x : InFlight) : (enterSet x s).cycle = s.cycle := rfl
@[simp] theorem enterSet_payout (x : InFlight) : (enterSet x s).payout = s.payout := rfl
@[simp] theorem enterSet_supervision (x : InFlight) : (enterSet x s).supervision = s.supervision := rfl
@[simp] theorem enterSet_notices (x : InFlight) : (enterSet x s).notices = s.notices := rfl
@[simp] theorem enterSet_clock (x : InFlight) : (enterSet x s).clock = s.clock := rfl
@[simp] theorem enterSet_unit (x : InFlight) : (enterSet x s).unit = s.unit := rfl
@[simp] theorem enterSet_draws (x : InFlight) : (enterSet x s).draws = s.draws := rfl

/-! ### writeEntry -/

@[simp] theorem writeEntry_pending (make : Ref → Entry) : (writeEntry make s).pending = s.pending := rfl
@[simp] theorem writeEntry_sRx (make : Ref → Entry) : (writeEntry make s).sRx = s.sRx := rfl
@[simp] theorem writeEntry_oRx (make : Ref → Entry) : (writeEntry make s).oRx = s.oRx := rfl
@[simp] theorem writeEntry_sTx (make : Ref → Entry) : (writeEntry make s).sTx = s.sTx := rfl
@[simp] theorem writeEntry_oTx (make : Ref → Entry) : (writeEntry make s).oTx = s.oTx := rfl
@[simp] theorem writeEntry_sSent (make : Ref → Entry) : (writeEntry make s).sSent = s.sSent := rfl
@[simp] theorem writeEntry_oSent (make : Ref → Entry) : (writeEntry make s).oSent = s.oSent := rfl
@[simp] theorem writeEntry_sCount (make : Ref → Entry) : (writeEntry make s).sCount = s.sCount := rfl
@[simp] theorem writeEntry_oCount (make : Ref → Entry) : (writeEntry make s).oCount = s.oCount := rfl
@[simp] theorem writeEntry_unitAddress (make : Ref → Entry) : (writeEntry make s).unitAddress = s.unitAddress := rfl
@[simp] theorem writeEntry_lanes (make : Ref → Entry) : (writeEntry make s).lanes = s.lanes := rfl
@[simp] theorem writeEntry_inFlight (make : Ref → Entry) : (writeEntry make s).inFlight = s.inFlight := rfl
@[simp] theorem writeEntry_nextId (make : Ref → Entry) : (writeEntry make s).nextId = s.nextId := rfl
@[simp] theorem writeEntry_tables (make : Ref → Entry) : (writeEntry make s).tables = s.tables := rfl
@[simp] theorem writeEntry_store (make : Ref → Entry) : (writeEntry make s).store = s.store := rfl
@[simp] theorem writeEntry_buffer (make : Ref → Entry) : (writeEntry make s).buffer = s.buffer := rfl
@[simp] theorem writeEntry_holds (make : Ref → Entry) : (writeEntry make s).holds = s.holds := rfl
@[simp] theorem writeEntry_cycle (make : Ref → Entry) : (writeEntry make s).cycle = s.cycle := rfl
@[simp] theorem writeEntry_payout (make : Ref → Entry) : (writeEntry make s).payout = s.payout := rfl
@[simp] theorem writeEntry_supervision (make : Ref → Entry) : (writeEntry make s).supervision = s.supervision := rfl
@[simp] theorem writeEntry_journalOut (make : Ref → Entry) : (writeEntry make s).journalOut = { s.journalOut with copies := s.journalOut.copies ++ [make s.journal.next] } := rfl
@[simp] theorem writeEntry_notices (make : Ref → Entry) : (writeEntry make s).notices = s.notices := rfl
@[simp] theorem writeEntry_clock (make : Ref → Entry) : (writeEntry make s).clock = s.clock := rfl
@[simp] theorem writeEntry_unit (make : Ref → Entry) : (writeEntry make s).unit = s.unit := rfl
@[simp] theorem writeEntry_draws (make : Ref → Entry) : (writeEntry make s).draws = s.draws := rfl

/-! ### postAmount -/

@[simp] theorem postAmount_pending (k : Account) (n a : Nat) : (postAmount k n a s).pending = s.pending := rfl
@[simp] theorem postAmount_sRx (k : Account) (n a : Nat) : (postAmount k n a s).sRx = s.sRx := rfl
@[simp] theorem postAmount_oRx (k : Account) (n a : Nat) : (postAmount k n a s).oRx = s.oRx := rfl
@[simp] theorem postAmount_sTx (k : Account) (n a : Nat) : (postAmount k n a s).sTx = s.sTx := rfl
@[simp] theorem postAmount_oTx (k : Account) (n a : Nat) : (postAmount k n a s).oTx = s.oTx := rfl
@[simp] theorem postAmount_sSent (k : Account) (n a : Nat) : (postAmount k n a s).sSent = s.sSent := rfl
@[simp] theorem postAmount_oSent (k : Account) (n a : Nat) : (postAmount k n a s).oSent = s.oSent := rfl
@[simp] theorem postAmount_sCount (k : Account) (n a : Nat) : (postAmount k n a s).sCount = s.sCount := rfl
@[simp] theorem postAmount_oCount (k : Account) (n a : Nat) : (postAmount k n a s).oCount = s.oCount := rfl
@[simp] theorem postAmount_unitAddress (k : Account) (n a : Nat) : (postAmount k n a s).unitAddress = s.unitAddress := rfl
@[simp] theorem postAmount_lanes (k : Account) (n a : Nat) : (postAmount k n a s).lanes = s.lanes := rfl
@[simp] theorem postAmount_inFlight (k : Account) (n a : Nat) : (postAmount k n a s).inFlight = s.inFlight := rfl
@[simp] theorem postAmount_nextId (k : Account) (n a : Nat) : (postAmount k n a s).nextId = s.nextId := rfl
@[simp] theorem postAmount_tables (k : Account) (n a : Nat) : (postAmount k n a s).tables = s.tables := rfl
@[simp] theorem postAmount_store (k : Account) (n a : Nat) : (postAmount k n a s).store = s.store := rfl
@[simp] theorem postAmount_buffer (k : Account) (n a : Nat) : (postAmount k n a s).buffer = s.buffer := rfl
@[simp] theorem postAmount_holds (k : Account) (n a : Nat) : (postAmount k n a s).holds = s.holds := rfl
@[simp] theorem postAmount_journal (k : Account) (n a : Nat) : (postAmount k n a s).journal = s.journal := rfl
@[simp] theorem postAmount_payout (k : Account) (n a : Nat) : (postAmount k n a s).payout = s.payout := rfl
@[simp] theorem postAmount_supervision (k : Account) (n a : Nat) : (postAmount k n a s).supervision = s.supervision := rfl
@[simp] theorem postAmount_journalOut (k : Account) (n a : Nat) : (postAmount k n a s).journalOut = s.journalOut := rfl
@[simp] theorem postAmount_notices (k : Account) (n a : Nat) : (postAmount k n a s).notices = s.notices := rfl
@[simp] theorem postAmount_clock (k : Account) (n a : Nat) : (postAmount k n a s).clock = s.clock := rfl
@[simp] theorem postAmount_unit (k : Account) (n a : Nat) : (postAmount k n a s).unit = s.unit := rfl
@[simp] theorem postAmount_draws (k : Account) (n a : Nat) : (postAmount k n a s).draws = s.draws := rfl

/-! ### reverseAmount -/

@[simp] theorem reverseAmount_pending (i : SetId) (k : Account) (n a : Nat) : (reverseAmount i k n a s).pending = s.pending := rfl
@[simp] theorem reverseAmount_sRx (i : SetId) (k : Account) (n a : Nat) : (reverseAmount i k n a s).sRx = s.sRx := rfl
@[simp] theorem reverseAmount_oRx (i : SetId) (k : Account) (n a : Nat) : (reverseAmount i k n a s).oRx = s.oRx := rfl
@[simp] theorem reverseAmount_sTx (i : SetId) (k : Account) (n a : Nat) : (reverseAmount i k n a s).sTx = s.sTx := rfl
@[simp] theorem reverseAmount_oTx (i : SetId) (k : Account) (n a : Nat) : (reverseAmount i k n a s).oTx = s.oTx := rfl
@[simp] theorem reverseAmount_sSent (i : SetId) (k : Account) (n a : Nat) : (reverseAmount i k n a s).sSent = s.sSent := rfl
@[simp] theorem reverseAmount_oSent (i : SetId) (k : Account) (n a : Nat) : (reverseAmount i k n a s).oSent = s.oSent := rfl
@[simp] theorem reverseAmount_sCount (i : SetId) (k : Account) (n a : Nat) : (reverseAmount i k n a s).sCount = s.sCount := rfl
@[simp] theorem reverseAmount_oCount (i : SetId) (k : Account) (n a : Nat) : (reverseAmount i k n a s).oCount = s.oCount := rfl
@[simp] theorem reverseAmount_unitAddress (i : SetId) (k : Account) (n a : Nat) : (reverseAmount i k n a s).unitAddress = s.unitAddress := rfl
@[simp] theorem reverseAmount_lanes (i : SetId) (k : Account) (n a : Nat) : (reverseAmount i k n a s).lanes = s.lanes := rfl
@[simp] theorem reverseAmount_inFlight (i : SetId) (k : Account) (n a : Nat) : (reverseAmount i k n a s).inFlight = s.inFlight := rfl
@[simp] theorem reverseAmount_nextId (i : SetId) (k : Account) (n a : Nat) : (reverseAmount i k n a s).nextId = s.nextId := rfl
@[simp] theorem reverseAmount_tables (i : SetId) (k : Account) (n a : Nat) : (reverseAmount i k n a s).tables = s.tables := rfl
@[simp] theorem reverseAmount_store (i : SetId) (k : Account) (n a : Nat) : (reverseAmount i k n a s).store = s.store := rfl
@[simp] theorem reverseAmount_buffer (i : SetId) (k : Account) (n a : Nat) : (reverseAmount i k n a s).buffer = s.buffer := rfl
@[simp] theorem reverseAmount_holds (i : SetId) (k : Account) (n a : Nat) : (reverseAmount i k n a s).holds = s.holds := rfl
@[simp] theorem reverseAmount_journal (i : SetId) (k : Account) (n a : Nat) : (reverseAmount i k n a s).journal = s.journal := rfl
@[simp] theorem reverseAmount_payout (i : SetId) (k : Account) (n a : Nat) : (reverseAmount i k n a s).payout = s.payout := rfl
@[simp] theorem reverseAmount_supervision (i : SetId) (k : Account) (n a : Nat) : (reverseAmount i k n a s).supervision = s.supervision := rfl
@[simp] theorem reverseAmount_journalOut (i : SetId) (k : Account) (n a : Nat) : (reverseAmount i k n a s).journalOut = s.journalOut := rfl
@[simp] theorem reverseAmount_notices (i : SetId) (k : Account) (n a : Nat) : (reverseAmount i k n a s).notices = s.notices := rfl
@[simp] theorem reverseAmount_clock (i : SetId) (k : Account) (n a : Nat) : (reverseAmount i k n a s).clock = s.clock := rfl
@[simp] theorem reverseAmount_unit (i : SetId) (k : Account) (n a : Nat) : (reverseAmount i k n a s).unit = s.unit := rfl
@[simp] theorem reverseAmount_draws (i : SetId) (k : Account) (n a : Nat) : (reverseAmount i k n a s).draws = s.draws := rfl

/-! ### postAdjust -/

@[simp] theorem postAdjust_pending (d : Int) : (postAdjust d s).pending = s.pending := rfl
@[simp] theorem postAdjust_sRx (d : Int) : (postAdjust d s).sRx = s.sRx := rfl
@[simp] theorem postAdjust_oRx (d : Int) : (postAdjust d s).oRx = s.oRx := rfl
@[simp] theorem postAdjust_sTx (d : Int) : (postAdjust d s).sTx = s.sTx := rfl
@[simp] theorem postAdjust_oTx (d : Int) : (postAdjust d s).oTx = s.oTx := rfl
@[simp] theorem postAdjust_sSent (d : Int) : (postAdjust d s).sSent = s.sSent := rfl
@[simp] theorem postAdjust_oSent (d : Int) : (postAdjust d s).oSent = s.oSent := rfl
@[simp] theorem postAdjust_sCount (d : Int) : (postAdjust d s).sCount = s.sCount := rfl
@[simp] theorem postAdjust_oCount (d : Int) : (postAdjust d s).oCount = s.oCount := rfl
@[simp] theorem postAdjust_unitAddress (d : Int) : (postAdjust d s).unitAddress = s.unitAddress := rfl
@[simp] theorem postAdjust_lanes (d : Int) : (postAdjust d s).lanes = s.lanes := rfl
@[simp] theorem postAdjust_inFlight (d : Int) : (postAdjust d s).inFlight = s.inFlight := rfl
@[simp] theorem postAdjust_nextId (d : Int) : (postAdjust d s).nextId = s.nextId := rfl
@[simp] theorem postAdjust_tables (d : Int) : (postAdjust d s).tables = s.tables := rfl
@[simp] theorem postAdjust_store (d : Int) : (postAdjust d s).store = s.store := rfl
@[simp] theorem postAdjust_buffer (d : Int) : (postAdjust d s).buffer = s.buffer := rfl
@[simp] theorem postAdjust_holds (d : Int) : (postAdjust d s).holds = s.holds := rfl
@[simp] theorem postAdjust_journal (d : Int) : (postAdjust d s).journal = s.journal := rfl
@[simp] theorem postAdjust_payout (d : Int) : (postAdjust d s).payout = s.payout := rfl
@[simp] theorem postAdjust_supervision (d : Int) : (postAdjust d s).supervision = s.supervision := rfl
@[simp] theorem postAdjust_journalOut (d : Int) : (postAdjust d s).journalOut = s.journalOut := rfl
@[simp] theorem postAdjust_notices (d : Int) : (postAdjust d s).notices = s.notices := rfl
@[simp] theorem postAdjust_clock (d : Int) : (postAdjust d s).clock = s.clock := rfl
@[simp] theorem postAdjust_unit (d : Int) : (postAdjust d s).unit = s.unit := rfl
@[simp] theorem postAdjust_draws (d : Int) : (postAdjust d s).draws = s.draws := rfl

/-! ### takeCopies -/

@[simp] theorem takeCopies_pending (n : Nat) : (takeCopies n s).pending = s.pending := rfl
@[simp] theorem takeCopies_sRx (n : Nat) : (takeCopies n s).sRx = s.sRx := rfl
@[simp] theorem takeCopies_oRx (n : Nat) : (takeCopies n s).oRx = s.oRx := rfl
@[simp] theorem takeCopies_sTx (n : Nat) : (takeCopies n s).sTx = s.sTx := rfl
@[simp] theorem takeCopies_oTx (n : Nat) : (takeCopies n s).oTx = s.oTx := rfl
@[simp] theorem takeCopies_sSent (n : Nat) : (takeCopies n s).sSent = s.sSent := rfl
@[simp] theorem takeCopies_oSent (n : Nat) : (takeCopies n s).oSent = s.oSent := rfl
@[simp] theorem takeCopies_sCount (n : Nat) : (takeCopies n s).sCount = s.sCount := rfl
@[simp] theorem takeCopies_oCount (n : Nat) : (takeCopies n s).oCount = s.oCount := rfl
@[simp] theorem takeCopies_unitAddress (n : Nat) : (takeCopies n s).unitAddress = s.unitAddress := rfl
@[simp] theorem takeCopies_lanes (n : Nat) : (takeCopies n s).lanes = s.lanes := rfl
@[simp] theorem takeCopies_inFlight (n : Nat) : (takeCopies n s).inFlight = s.inFlight := rfl
@[simp] theorem takeCopies_nextId (n : Nat) : (takeCopies n s).nextId = s.nextId := rfl
@[simp] theorem takeCopies_tables (n : Nat) : (takeCopies n s).tables = s.tables := rfl
@[simp] theorem takeCopies_store (n : Nat) : (takeCopies n s).store = s.store := rfl
@[simp] theorem takeCopies_buffer (n : Nat) : (takeCopies n s).buffer = s.buffer := rfl
@[simp] theorem takeCopies_holds (n : Nat) : (takeCopies n s).holds = s.holds := rfl
@[simp] theorem takeCopies_journal (n : Nat) : (takeCopies n s).journal = s.journal := rfl
@[simp] theorem takeCopies_cycle (n : Nat) : (takeCopies n s).cycle = s.cycle := rfl
@[simp] theorem takeCopies_payout (n : Nat) : (takeCopies n s).payout = s.payout := rfl
@[simp] theorem takeCopies_supervision (n : Nat) : (takeCopies n s).supervision = s.supervision := rfl
@[simp] theorem takeCopies_journalOut (n : Nat) : (takeCopies n s).journalOut = { s.journalOut with copies := s.journalOut.copies.drop n } := rfl
@[simp] theorem takeCopies_notices (n : Nat) : (takeCopies n s).notices = s.notices := rfl
@[simp] theorem takeCopies_clock (n : Nat) : (takeCopies n s).clock = s.clock := rfl
@[simp] theorem takeCopies_unit (n : Nat) : (takeCopies n s).unit = s.unit := rfl
@[simp] theorem takeCopies_draws (n : Nat) : (takeCopies n s).draws = s.draws := rfl

/-! ### cutoverState -/

@[simp] theorem cutoverState_pending : (cutoverState s).pending = s.pending := rfl
@[simp] theorem cutoverState_sRx : (cutoverState s).sRx = s.sRx := rfl
@[simp] theorem cutoverState_oRx : (cutoverState s).oRx = s.oRx := rfl
@[simp] theorem cutoverState_sTx : (cutoverState s).sTx = s.sTx := rfl
@[simp] theorem cutoverState_oTx : (cutoverState s).oTx = s.oTx := rfl
@[simp] theorem cutoverState_sSent : (cutoverState s).sSent = s.sSent := rfl
@[simp] theorem cutoverState_oSent : (cutoverState s).oSent = s.oSent := rfl
@[simp] theorem cutoverState_sCount : (cutoverState s).sCount = s.sCount := rfl
@[simp] theorem cutoverState_oCount : (cutoverState s).oCount = s.oCount := rfl
@[simp] theorem cutoverState_unitAddress : (cutoverState s).unitAddress = s.unitAddress := rfl
@[simp] theorem cutoverState_lanes : (cutoverState s).lanes = s.lanes := rfl
@[simp] theorem cutoverState_inFlight : (cutoverState s).inFlight = s.inFlight := rfl
@[simp] theorem cutoverState_nextId : (cutoverState s).nextId = s.nextId := rfl
@[simp] theorem cutoverState_tables : (cutoverState s).tables = s.tables := rfl
@[simp] theorem cutoverState_store : (cutoverState s).store = s.store := rfl
@[simp] theorem cutoverState_buffer : (cutoverState s).buffer = s.buffer := rfl
@[simp] theorem cutoverState_holds : (cutoverState s).holds = s.holds := rfl
@[simp] theorem cutoverState_journal : (cutoverState s).journal = s.journal := rfl
@[simp] theorem cutoverState_payout : (cutoverState s).payout = s.payout := rfl
@[simp] theorem cutoverState_supervision : (cutoverState s).supervision = s.supervision := rfl
@[simp] theorem cutoverState_journalOut : (cutoverState s).journalOut = s.journalOut := rfl
@[simp] theorem cutoverState_notices : (cutoverState s).notices = s.notices := rfl
@[simp] theorem cutoverState_clock : (cutoverState s).clock = s.clock := rfl
@[simp] theorem cutoverState_unit : (cutoverState s).unit = s.unit := rfl
@[simp] theorem cutoverState_draws : (cutoverState s).draws = s.draws := rfl

/-! ### sendHead -/

theorem sendHead_shop (f : Frame) (rest : List Frame) (h : s.sTx = f :: rest) :
    sendHead .shop s = { s with sTx := rest, sSent := wireFrame f } := by simp only [sendHead, h]

theorem sendHead_office (f : Frame) (rest : List Frame) (h : s.oTx = f :: rest) :
    sendHead .office s = { s with oTx := rest, oSent := wireFrame f } := by simp only [sendHead, h]

theorem sendHead_shop_nil (h : s.sTx = []) : sendHead .shop s = s := by simp only [sendHead, h]

theorem sendHead_office_nil (h : s.oTx = []) : sendHead .office s = s := by simp only [sendHead, h]

end Sys2Proof.Machine
end

