-- ==== Sys2Proof/Laws/Table.lean ====
section
/-! SUPPORT. What the operations on numbered tables do: reading what was written, leaving every other number alone, and
keeping the canonical form. -/

namespace Sys2Proof.Machine

variable {α : Type}

/-! ### Reading after writing -/

theorem look_filter_self (d : α) (t : Tbl α) (k : Nat) : look d (t.filter (fun p => p.1 != k)) k = d := by
  induction t with
  | nil => rfl
  | cons p t ih =>
    obtain ⟨j, v⟩ := p
    by_cases h : j = k
    · simpa [List.filter_cons, h] using ih
    · simp [h, look, ih]

theorem look_filter_other (d : α) (t : Tbl α) {k n : Nat} (h : n ≠ k) :
    look d (t.filter (fun p => p.1 != k)) n = look d t n := by
  induction t with
  | nil => rfl
  | cons p t ih =>
    obtain ⟨j, v⟩ := p
    by_cases hj : j = k
    · have : j ≠ n := fun e => h (e ▸ hj)
      simp [hj, look]
      simpa [hj ▸ this] using ih
    · simp [hj, look, ih]

theorem look_insertAt_other (d : α) (t : Tbl α) {k n : Nat} (v : α) (h : n ≠ k) :
    look d (insertAt k v t) n = look d t n := by
  induction t with
  | nil => simp [insertAt, look, h.symm]
  | cons p t ih =>
    obtain ⟨j, w⟩ := p
    simp only [insertAt]
    split
    · simp [look, h.symm]
    · simp [look, ih]

theorem look_insertAt_self (d : α) (t : Tbl α) (k : Nat) (v : α) (h : ∀ p ∈ t, p.1 ≠ k) :
    look d (insertAt k v t) k = v := by
  induction t with
  | nil => simp [insertAt, look]
  | cons p t ih =>
    obtain ⟨j, w⟩ := p
    simp only [insertAt]
    split
    · simp [look]
    · simp only [List.mem_cons, forall_eq_or_imp] at h
      simp [look, h.1, ih h.2]

/-- A table reads at the number written as the value written. -/
@[simp] theorem look_put_self [DecidableEq α] (d : α) (t : Tbl α) (k : Nat) (v : α) : look d (put d t k v) k = v := by
  unfold put
  split
  · next h => rw [look_filter_self, h]
  · exact look_insertAt_self _ _ _ _ (by simp)

/-- A write leaves every other number of the table alone. -/
theorem look_put_other [DecidableEq α] (d : α) (t : Tbl α) {k n : Nat} (v : α) (h : n ≠ k) :
    look d (put d t k v) n = look d t n := by
  unfold put
  split
  · exact look_filter_other d t h
  · rw [look_insertAt_other d _ v h, look_filter_other d t h]

/-- Reading after a write, both cases. -/
theorem look_put [DecidableEq α] (d : α) (t : Tbl α) (k n : Nat) (v : α) :
    look d (put d t k v) n = if n = k then v else look d t n := by
  split
  · next h => rw [h, look_put_self]
  · next h => exact look_put_other d t v h

/-! ### The canonical form -/

/-- The canonical form as a statement about the list. -/
theorem canonical_iff [DecidableEq α] (d : α) (t : Tbl α) :
    canonical d t = true ↔ t.Pairwise (fun p q => p.1 < q.1) ∧ ∀ p ∈ t, p.2 ≠ d := by
  induction t with
  | nil => simp [canonical]
  | cons p t ih =>
    obtain ⟨k, v⟩ := p
    simp only [canonical, Bool.and_eq_true, decide_eq_true_eq, List.all_eq_true, ih, List.pairwise_cons,
      List.mem_cons, forall_eq_or_imp]
    tauto

theorem mem_insertAt {k : Nat} {v : α} {t : Tbl α} {p : Nat × α} (h : p ∈ insertAt k v t) : p = (k, v) ∨ p ∈ t := by
  induction t with
  | nil => simpa [insertAt] using h
  | cons q t ih =>
    obtain ⟨j, w⟩ := q
    simp only [insertAt] at h
    split at h
    · simpa using h
    · rcases List.mem_cons.1 h with h | h
      · exact .inr (h ▸ List.mem_cons_self)
      · rcases ih h with h | h
        · exact .inl h
        · exact .inr (List.mem_cons_of_mem _ h)

theorem pairwise_insertAt {k : Nat} {v : α} {t : Tbl α} (h : t.Pairwise (fun p q => p.1 < q.1))
    (hk : ∀ p ∈ t, p.1 ≠ k) : (insertAt k v t).Pairwise (fun p q => p.1 < q.1) := by
  induction t with
  | nil => simp [insertAt]
  | cons q t ih =>
    obtain ⟨j, w⟩ := q
    simp only [List.mem_cons, forall_eq_or_imp] at hk
    rw [List.pairwise_cons] at h
    simp only [insertAt]
    split
    · next hlt =>
      refine List.pairwise_cons.2 ⟨?_, List.pairwise_cons.2 h⟩
      intro p hp
      rcases List.mem_cons.1 hp with rfl | hp
      · exact hlt
      · exact lt_trans hlt (h.1 p hp)
    · next hlt =>
      refine List.pairwise_cons.2 ⟨?_, ih h.2 hk.2⟩
      intro p hp
      rcases mem_insertAt hp with rfl | hp
      · exact lt_of_le_of_ne (not_lt.1 hlt) hk.1
      · exact h.1 p hp

/-- A write keeps the canonical form. -/
theorem canonical_put [DecidableEq α] (d : α) (t : Tbl α) (k : Nat) (v : α) (h : canonical d t = true) :
    canonical d (put d t k v) = true := by
  rw [canonical_iff] at h ⊢
  have hf : (t.filter (fun p => p.1 != k)).Pairwise (fun p q => p.1 < q.1) := h.1.filter _
  have hd : ∀ p ∈ t.filter (fun p => p.1 != k), p.2 ≠ d := fun p hp => h.2 p (List.mem_of_mem_filter hp)
  unfold put
  split
  · exact ⟨hf, hd⟩
  · next hv =>
    refine ⟨pairwise_insertAt hf (by simp), fun p hp => ?_⟩
    rcases mem_insertAt hp with rfl | hp
    · exact hv
    · exact hd p hp

/-- A change of every entry keeps the canonical form. -/
theorem canonical_remap [DecidableEq α] (d : α) (f : Nat → α → α) (t : Tbl α) (h : canonical d t = true) :
    canonical d (remap d f t) = true := by
  rw [canonical_iff] at h ⊢
  refine ⟨List.Pairwise.filter _ ?_, fun p hp => by simpa using (List.mem_filter.1 hp).2⟩
  exact List.pairwise_map.2 h.1

theorem look_of_lt (d : α) (t : Tbl α) (n : Nat) (h : ∀ p ∈ t, n < p.1) : look d t n = d := by
  induction t with
  | nil => rfl
  | cons p t ih =>
    simp only [List.mem_cons, forall_eq_or_imp] at h
    simp [look, h.1.ne', ih h.2]

theorem remap_cons [DecidableEq α] (d : α) (f : Nat → α → α) (j : Nat) (v : α) (t : Tbl α) :
    remap d f ((j, v) :: t) = if f j v = d then remap d f t else (j, f j v) :: remap d f t := by
  by_cases h : f j v = d <;> simp [remap, h]

/-- On a canonical table, changing every entry by an `f` that leaves `d` changes what each number reads as by `f`. -/
theorem look_remap [DecidableEq α] (d : α) (f : Nat → α → α) (t : Tbl α) (n : Nat) (h : canonical d t = true)
    (hf : f n d = d) : look d (remap d f t) n = f n (look d t n) := by
  rw [canonical_iff] at h
  obtain ⟨hp, -⟩ := h
  induction t with
  | nil => simpa [remap, look] using hf.symm
  | cons p t ih =>
    obtain ⟨j, v⟩ := p
    rw [List.pairwise_cons] at hp
    have ht := ih hp.2
    rw [remap_cons]
    by_cases hj : j = n
    · subst hj
      by_cases hv : f j v = d
      · rw [if_pos hv, ht, look_of_lt d t j hp.1]
        simp [look, hv, hf]
      · simp [look, hv]
    · by_cases hv : f j v = d <;> simp [look, hv, hj, ht]

theorem rising_iff (l : List Nat) : rising l = true ↔ l.Pairwise (· < ·) := by
  induction l with
  | nil => simp [rising]
  | cons k t ih => simp [rising, ih]

theorem mem_addMark (k j : Nat) (l : List Nat) : j ∈ addMark k l ↔ j = k ∨ j ∈ l := by
  induction l with
  | nil => simp [addMark]
  | cons a t ih =>
    simp only [addMark]
    split
    · simp
    · split
      · next h => subst h; simp
      · simp only [List.mem_cons, ih]; tauto

/-- Adding a mark keeps a set of numbers rising. -/
theorem rising_addMark (k : Nat) (l : List Nat) (h : rising l = true) : rising (addMark k l) = true := by
  rw [rising_iff] at h ⊢
  induction l with
  | nil => simp [addMark]
  | cons a t ih =>
    rw [List.pairwise_cons] at h
    simp only [addMark]
    split
    · next hk =>
      refine List.pairwise_cons.2 ⟨fun j hj => ?_, List.pairwise_cons.2 h⟩
      rcases List.mem_cons.1 hj with rfl | hj
      · exact hk
      · exact lt_trans hk (h.1 j hj)
    · split
      · exact List.pairwise_cons.2 h
      · next h1 h2 =>
        refine List.pairwise_cons.2 ⟨fun j hj => ?_, ih h.2⟩
        rcases (mem_addMark k j t).1 hj with rfl | hj
        · omega
        · exact h.1 j hj

/-! ### Numbers as octets -/

@[simp] theorem length_octets (w n : Nat) : (octets w n).length = w := by
  induction w with
  | zero => rfl
  | succ w ih => simp [octets, ih]

theorem number_append (a b : List Octet) : number (a ++ b) = number a * 256 ^ b.length + number b := by
  induction b using List.reverseRecOn with
  | nil => simp [number]
  | append_singleton b x ih =>
    have : number (a ++ (b ++ [x])) = number (a ++ b) * 256 + x.toNat := by
      simp [number, List.foldl_append]
    have h2 : number (b ++ [x]) = number b * 256 + x.toNat := by simp [number, List.foldl_append]
    rw [this, ih, h2]
    simp only [List.length_append, List.length_cons, List.length_nil]
    ring

/-- Octets written and read again give the number, when it fits. -/
theorem number_octets (w n : Nat) : number (octets w n) = n % 256 ^ w := by
  induction w with
  | zero => simp [octets, number, Nat.mod_one]
  | succ w ih =>
    have h : octets (w + 1) n = [BitVec.ofNat 8 (n / 256 ^ w)] ++ octets w n := rfl
    rw [h, number_append, ih, length_octets]
    have h1 : number [BitVec.ofNat 8 (n / 256 ^ w)] = n / 256 ^ w % 256 := by simp [number]
    rw [h1, pow_succ, Nat.mod_mul]
    ring

end Sys2Proof.Machine
end

