-- ==== Sys2Proof/Laws/Buffer.lean ====
section
/-! SUPPORT. What the record buffer's operations can change: which parts of the state, and that a line that rests is kept,
in the order of use, until its write-back completes. -/

namespace Sys2Proof.Machine

/-- `t` is `s` but for the buffer. -/
def OnlyBuffer (s t : State) : Prop := ∃ b, t = { s with buffer := b }

theorem OnlyBuffer.refl (s : State) : OnlyBuffer s s := ⟨s.buffer, rfl⟩

theorem OnlyBuffer.trans {s t u : State} (h : OnlyBuffer s t) (k : OnlyBuffer t u) : OnlyBuffer s u := by
  obtain ⟨b, rfl⟩ := h
  obtain ⟨c, rfl⟩ := k
  exact ⟨c, rfl⟩

/-- `t` is `s` but for the buffer and the audit walker's waiting mark. -/
def OnlyDemand (s t : State) : Prop :=
  ∃ b w, t = { s with buffer := b, store := { s.store with audit := { s.store.audit with waiting := w } } }

theorem OnlyBuffer.demand {s t : State} (h : OnlyBuffer s t) : OnlyDemand s t := by
  obtain ⟨b, rfl⟩ := h
  exact ⟨b, s.store.audit.waiting, rfl⟩

theorem OnlyDemand.refl (s : State) : OnlyDemand s s := (OnlyBuffer.refl s).demand

theorem OnlyDemand.trans {s t u : State} (h : OnlyDemand s t) (k : OnlyDemand t u) : OnlyDemand s u := by
  obtain ⟨b, w, rfl⟩ := h
  obtain ⟨c, v, rfl⟩ := k
  exact ⟨c, v, rfl⟩

/-! ### Lines -/

theorem line_setLine (s : State) (i j : Nat) (l : Line) : (s.setLine i l).line j = if j = i then l else s.line j := by
  simp [State.line, State.setLine, look_put]

@[simp] theorem line_setQueue (s : State) (k : Nat) (q : List BankOp) (j : Nat) : (s.setQueue k q).line j = s.line j := rfl

@[simp] theorem line_touch (s : State) (i j : Nat) : (touch i s).line j = s.line j := rfl

@[simp] theorem line_rankLast (s : State) (i j : Nat) : (rankLast i s).line j = s.line j := rfl

theorem queue_setQueue (s : State) (k j : Nat) (q : List BankOp) :
    (s.setQueue k q).queue j = if j = k then q else s.queue j := by
  simp [State.queue, State.setQueue, look_put]

@[simp] theorem queue_setLine (s : State) (i : Nat) (l : Line) (j : Nat) : (s.setLine i l).queue j = s.queue j := rfl

@[simp] theorem queue_touch (s : State) (i j : Nat) : (touch i s).queue j = s.queue j := rfl

@[simp] theorem queue_rankLast (s : State) (i j : Nat) : (rankLast i s).queue j = s.queue j := rfl

/-! ### Write-backs -/

theorem appendOp_only (b : Nat) (op : BankOp) (s : State) : OnlyBuffer s (appendOp b op s) := ⟨_, rfl⟩

theorem startWriteBack_only (i : Nat) (s : State) : OnlyBuffer s (startWriteBack i s) := by
  unfold startWriteBack
  dsimp only
  split
  · exact OnlyBuffer.refl s
  · exact ⟨_, rfl⟩

theorem canWriteBack_dirty {s : State} {i : Nat} (h : canWriteBack s i = true) : (s.line i).state = .dirty := by
  unfold canWriteBack at h
  simp only [Bool.and_eq_true, decide_eq_true_eq] at h
  exact h.1

theorem evictChoice_can {s : State} {i : Nat} (h : evictChoice s = some i) : canWriteBack s i = true := by
  have := List.find?_some h
  simp only [Bool.and_eq_true] at this
  exact this.1

theorem flushLine_only (s : State) (i : Nat) : OnlyBuffer s (flushLine s i) := by
  unfold flushLine
  split
  · exact startWriteBack_only i s
  · exact OnlyBuffer.refl s

theorem flushLines_only (l : List Nat) (s : State) : OnlyBuffer s (l.foldl flushLine s) := by
  induction l generalizing s with
  | nil => exact OnlyBuffer.refl s
  | cons i l ih => exact (flushLine_only s i).trans (ih _)

/-- The flush step changes the buffer and, at most, clears its own mark. -/
theorem flushStep_only (s : State) :
    ∃ b p, flushStep s = { s with buffer := b, store := { s.store with flushPending := p } } := by
  unfold flushStep
  split
  · obtain ⟨b, hb⟩ := flushLines_only s.buffer.recency s
    dsimp only
    rw [hb]
    split
    · exact ⟨b, s.store.flushPending, rfl⟩
    · exact ⟨b, false, rfl⟩
  · exact ⟨s.buffer, s.store.flushPending, rfl⟩

theorem evictLoop_only (n : Nat) (s : State) : OnlyBuffer s (evictLoop n s) := by
  induction n generalizing s with
  | zero => exact OnlyBuffer.refl s
  | succ n ih =>
    unfold evictLoop
    split
    · split
      · exact (startWriteBack_only _ s).trans (ih _)
      · exact OnlyBuffer.refl s
    · exact OnlyBuffer.refl s

/-- The eviction check changes the buffer alone. -/
theorem evict_only (s : State) : OnlyBuffer s (evict s) := evictLoop_only _ s

/-! ### Demands -/

theorem claim_only (i b : Nat) (ws : List Waiter) (s : State) : OnlyBuffer s (claim i b ws s) := by
  unfold claim
  split <;> exact ⟨_, rfl⟩

theorem joinAudit_only (i b : Nat) (s : State) : OnlyDemand s (joinAudit i b s) := by
  unfold joinAudit
  dsimp only
  split
  · exact ⟨_, false, rfl⟩
  · exact OnlyDemand.refl s

theorem joinWaitList_only (d : Demand) (s : State) : OnlyBuffer s (joinWaitList d s) := by
  unfold joinWaitList
  exact OnlyBuffer.trans ⟨_, rfl⟩ (evict_only _)

/-- A claimable line does not rest. -/
theorem findLine_not_resting {s : State} {i : Nat} (h : findLine s = some i) : ¬ Resting (s.line i) := by
  unfold findLine at h
  unfold Resting
  split at h
  · next j hj =>
    injection h with h
    subst h
    have := List.find?_some hj
    simp only [decide_eq_true_eq] at this
    simp [this]
  · have := List.find?_some h
    simp only [Bool.and_eq_true, decide_eq_true_eq, List.isEmpty_iff] at this
    simp [this.1, this.2]

/-- A demand changes the buffer and, at most, the audit walker's waiting mark. -/
theorem demand_only (id b : Nat) (s : State) : OnlyDemand s (demand id b s) := by
  unfold demand
  split
  · exact OnlyBuffer.demand ⟨_, rfl⟩
  · split
    · split
      · refine OnlyDemand.trans (OnlyBuffer.demand ?_) (joinAudit_only _ _ _)
        exact (claim_only _ _ _ s).trans ⟨_, rfl⟩
      · exact (joinWaitList_only _ s).demand
    · exact (joinWaitList_only _ s).demand

/-! ### The serving of the wait list -/

/-- `d` is `e` but for the buffer, the audit walker's waiting mark and, where a direct CARD LOAD waited, the float, the
management unit and the answer under way. -/
def OnlyServed (e d : Event) : Prop :=
  (∃ b w f u r, d =
    { e with
      st := { e.st with
        buffer := b, unit := u
        store := { e.st.store with float := f, audit := { e.st.store.audit with waiting := w } } }
      reply := r })
    ∧ (NoDirectLoad e.st →
        NoDirectLoad d.st ∧ d.st.store.float = e.st.store.float ∧ d.st.unit = e.st.unit ∧ d.reply = e.reply)

theorem OnlyServed.refl (e : Event) : OnlyServed e e := ⟨⟨_, _, _, _, _, rfl⟩, fun h => ⟨h, rfl, rfl, rfl⟩⟩

theorem OnlyServed.trans {e d c : Event} (h : OnlyServed e d) (k : OnlyServed d c) : OnlyServed e c := by
  obtain ⟨⟨b, w, f, u, r, rfl⟩, h2⟩ := h
  obtain ⟨⟨b', w', f', u', r', rfl⟩, k2⟩ := k
  refine ⟨⟨b', w', f', u', r', rfl⟩, fun hn => ?_⟩
  obtain ⟨a1, a2, a3, a4⟩ := h2 hn
  obtain ⟨b1, b2, b3, b4⟩ := k2 a1
  exact ⟨b1, b2.trans a2, b3.trans a3, b4.trans a4⟩

/-- A change of the buffer that puts no direct load into the wait list. -/
theorem OnlyServed.of_demand {e : Event} {t : State} (h : OnlyDemand e.st t)
    (hw : ∀ d ∈ t.buffer.waitList, d ∈ e.st.buffer.waitList) : OnlyServed e { e with st := t } := by
  obtain ⟨b, w, rfl⟩ := h
  exact ⟨⟨b, w, _, _, _, rfl⟩, fun hn => ⟨fun c hc => hn c (hw _ hc), rfl, rfl, rfl⟩⟩

theorem claim_waitList (i b : Nat) (ws : List Waiter) (s : State) :
    (claim i b ws s).buffer.waitList = s.buffer.waitList := by
  unfold claim
  split <;> rfl

theorem joinAudit_waitList (i b : Nat) (s : State) : (joinAudit i b s).buffer.waitList = s.buffer.waitList := by
  unfold joinAudit
  dsimp only
  split <;> rfl

/-- A line given to a demand: claimed, ranked, and joined by the audit visit that waits for its block. -/
theorem given_only (i b : Nat) (ws : List Waiter) (s : State) :
    OnlyDemand s (joinAudit i b (touch i (claim i b ws s))) :=
  OnlyDemand.trans (OnlyBuffer.demand ((claim_only i b ws s).trans ⟨_, rfl⟩)) (joinAudit_only _ _ _)

theorem given_waitList (i b : Nat) (ws : List Waiter) (s : State) :
    (joinAudit i b (touch i (claim i b ws s))).buffer.waitList = s.buffer.waitList := by
  rw [joinAudit_waitList]
  exact claim_waitList i b ws s

theorem giveDirect_only (i b : Nat) (tag : BitVec 16) (records : Block) (e : Event) :
    ∃ c f u r, giveDirect i b tag records e =
      { e with st := { e.st with buffer := c, store := { e.st.store with float := f }, unit := u }, reply := r } := by
  unfold giveDirect Event.replying Event.upd moveFloat
  generalize (balances records : Int) = v
  exact ⟨_, _, _, _, rfl⟩

/-- The demands for a block taken off the wait list. -/
def withoutDemands (b : Nat) (s : State) : State :=
  { s with buffer := { s.buffer with waitList := s.buffer.waitList.filter (fun x => x.block != b) } }

theorem serveDemand_cases (i : Nat) (d : Demand) (e : Event) :
    (∃ ws, serveDemand i d e =
        { e with st := joinAudit i d.block (touch i (claim i d.block ws (withoutDemands d.block e.st))) })
      ∨ (∃ b, d = .directLoad b ∧ ((∃ tag records, serveDemand i d e =
          giveDirect i b tag records { e with st := withoutDemands b e.st })
        ∨ serveDemand i d e = { e with st := withoutDemands b e.st })) := by
  unfold serveDemand
  dsimp only
  cases d with
  | entry id b => exact .inl ⟨_, rfl⟩
  | directLoad b =>
    refine .inr ⟨b, rfl, ?_⟩
    dsimp only
    split
    · exact .inl ⟨_, _, rfl⟩
    · exact .inr rfl

theorem serveDemand_only (i : Nat) (d : Demand) (e : Event) (hd : d ∈ e.st.buffer.waitList) :
    OnlyServed e (serveDemand i d e) := by
  have h0 : ∀ b, OnlyServed e { e with st := withoutDemands b e.st } := fun b =>
    OnlyServed.of_demand (OnlyBuffer.demand ⟨_, rfl⟩) fun x hx => (List.mem_filter.1 hx).1
  rcases serveDemand_cases i d e with ⟨ws, h⟩ | ⟨b, hb, ⟨tag, records, h⟩ | h⟩
  · rw [h]
    refine (h0 d.block).trans (OnlyServed.of_demand (e := { e with st := withoutDemands d.block e.st })
      (given_only i d.block ws _) fun x hx => ?_)
    rwa [given_waitList] at hx
  · rw [h]
    obtain ⟨c, f, u, r, hg⟩ := giveDirect_only i b tag records { e with st := withoutDemands b e.st }
    rw [hg]
    exact ⟨⟨c, _, f, u, r, rfl⟩, fun hn => absurd (hb ▸ hd) (hn b)⟩
  · rw [h]
    exact h0 b

theorem serveLoop_only (n : Nat) (e : Event) : OnlyServed e (serveLoop n e) := by
  induction n generalizing e with
  | zero => exact OnlyServed.refl e
  | succ n ih =>
    unfold serveLoop
    split
    · next d i hd hi => exact (serveDemand_only i d e (List.mem_of_find?_eq_some hd)).trans (ih _)
    · exact OnlyServed.refl e

theorem auditClaim_only (s : State) : OnlyDemand s (auditClaim s) := by
  unfold auditClaim
  dsimp only
  split
  · split
    · obtain ⟨b, h⟩ := claim_only ‹_› s.store.audit.cursor [.audit] s
      refine ⟨(rankLast ‹_› (claim ‹_› s.store.audit.cursor [.audit] s)).buffer, false, ?_⟩
      rw [h]
      rfl
    · exact OnlyDemand.refl s
  · exact OnlyDemand.refl s

theorem auditClaim_waitList (s : State) : (auditClaim s).buffer.waitList = s.buffer.waitList := by
  unfold auditClaim
  dsimp only
  split
  · split
    · exact claim_waitList _ _ _ _
    · rfl
  · rfl

/-- Serving changes the buffer, and the float, the management unit and the answer where a direct CARD LOAD waited. -/
theorem serve_only (e : Event) : OnlyServed e (serve e) := by
  unfold serve
  refine (serveLoop_only e.st.buffer.waitList.length e).trans ?_
  refine OnlyServed.of_demand (auditClaim_only _) fun d hd => ?_
  rwa [auditClaim_waitList] at hd

/-! ### The sweep -/

/-- The sweep selects nothing, or makes its candidate EXPIRING and puts one HOLD_EXPIRED of its own into the in-flight set
under the next serial number, with a reservation. -/
theorem sweepStep_cases (s : State) :
    sweepStep s = s ∨ ∃ h, candidate s.holds = some h ∧ selectable s h = true ∧ sweepStep s = selectHold h s := by
  unfold sweepStep
  split
  · next h hh =>
    split
    · next hs => exact .inr ⟨h, hh, hs, rfl⟩
    · exact .inl rfl
  · exact .inl rfl

theorem selectHold_only (h : HoldEntry) (s : State) :
    ∃ b w, selectHold h s =
      { s with
        holds := { entries := s.holds.entries.map (fun e => if e.ref = h.ref then { e with state := .expiring } else e)
                   expiring := some h.ref }
        inFlight := s.inFlight ++ [{ expiryOf h with id := s.nextId, generation := s.tables.generation }]
        nextId := s.nextId + 1
        tables := countIn s.tables
        journalOut := { s.journalOut with reservations := s.journalOut.reservations + 1 }
        buffer := b
        store := { s.store with audit := { s.store.audit with waiting := w } } } := by
  unfold selectHold
  dsimp only
  obtain ⟨b, w, h⟩ := demand_only s.nextId (h.slot / 8)
    (enterSet (expiryOf h) { markHold h.ref .expiring s with
      holds := { (markHold h.ref .expiring s).holds with expiring := some h.ref } })
  exact ⟨b, w, h⟩

/-- What a sweep step can leave other than it was. -/
theorem sweepStep_only (s : State) :
    ∃ ho fl ni ta re b w, sweepStep s =
      { s with
        holds := ho, inFlight := fl, nextId := ni, tables := ta
        journalOut := { s.journalOut with reservations := re }
        buffer := b
        store := { s.store with audit := { s.store.audit with waiting := w } } } := by
  rcases sweepStep_cases s with h | ⟨h, -, -, e⟩
  · exact ⟨s.holds, s.inFlight, s.nextId, s.tables, s.journalOut.reservations, s.buffer, s.store.audit.waiting, by
      rw [h]⟩
  · obtain ⟨b, w, k⟩ := selectHold_only h s
    exact ⟨_, _, _, _, _, b, w, e.trans k⟩

/-! ### The bank queues -/

/-- Operations are only appended to the bank queues, and each stays within its places. -/
def QueuesGrow (s t : State) : Prop := ∀ k, QueueGrows (s.queue k) (t.queue k)

theorem QueueGrows.refl (q : List BankOp) : QueueGrows q q := ⟨⟨[], by simp⟩, id⟩

theorem QueueGrows.trans {q r u : List BankOp} (h : QueueGrows q r) (k : QueueGrows r u) : QueueGrows q u := by
  obtain ⟨⟨a, ha⟩, h2⟩ := h
  obtain ⟨⟨b, hb⟩, k2⟩ := k
  exact ⟨⟨a ++ b, by rw [hb, ha, List.append_assoc]⟩, fun hq => k2 (h2 hq)⟩

theorem QueuesGrow.trans {s t u : State} (h : QueuesGrow s t) (k : QueuesGrow t u) : QueuesGrow s u := fun j =>
  (h j).trans (k j)

theorem queuesGrow_of_queues {s t : State} (h : ∀ k, t.queue k = s.queue k) : QueuesGrow s t := by
  intro k
  rw [h]
  exact QueueGrows.refl _

theorem appendOp_grows {s t : State} {b : Nat} (op : BankOp) (hq : ∀ k, t.queue k = s.queue k)
    (h : bankHasRoom s b = true) : QueuesGrow s (appendOp b op t) := by
  intro k
  unfold bankHasRoom at h
  simp only [decide_eq_true_eq] at h
  unfold appendOp
  rw [queue_setQueue, hq]
  split
  · next e =>
    subst e
    refine ⟨⟨[op], rfl⟩, fun _ => ?_⟩
    rw [List.length_append]
    exact h
  · rw [hq]
    exact QueueGrows.refl _

theorem startWriteBack_grows {s : State} {i : Nat} (h : canWriteBack s i = true) : QueuesGrow s (startWriteBack i s) := by
  unfold canWriteBack at h
  unfold startWriteBack
  dsimp only
  simp only [Bool.and_eq_true] at h
  split
  · exact queuesGrow_of_queues fun _ => rfl
  · next b hb =>
    rw [hb] at h
    refine appendOp_grows _ (fun k => ?_) h.2
    exact queue_setLine s i _ k

theorem flushStep_grows (s : State) : QueuesGrow s (flushStep s) := by
  have hl : ∀ (l : List Nat) (s : State), QueuesGrow s (l.foldl flushLine s) := by
    intro l
    induction l with
    | nil => exact fun s => queuesGrow_of_queues fun _ => rfl
    | cons i l ih =>
      intro s
      refine QueuesGrow.trans ?_ (ih _)
      unfold flushLine
      split
      · next h => exact startWriteBack_grows h
      · exact queuesGrow_of_queues fun _ => rfl
  unfold flushStep
  split
  · dsimp only
    split
    · exact hl _ s
    · exact (hl _ s).trans (queuesGrow_of_queues fun _ => rfl)
  · exact queuesGrow_of_queues fun _ => rfl

theorem evict_grows (s : State) : QueuesGrow s (evict s) := by
  have hl : ∀ (n : Nat) (s : State), QueuesGrow s (evictLoop n s) := by
    intro n
    induction n with
    | zero => exact fun s => queuesGrow_of_queues fun _ => rfl
    | succ n ih =>
      intro s
      unfold evictLoop
      split
      · split
        · next h => exact (startWriteBack_grows (evictChoice_can h)).trans (ih _)
        · exact queuesGrow_of_queues fun _ => rfl
      · exact queuesGrow_of_queues fun _ => rfl
  exact hl _ s

theorem joinWaitList_grows (d : Demand) (s : State) : QueuesGrow s (joinWaitList d s) := by
  unfold joinWaitList
  exact QueuesGrow.trans (queuesGrow_of_queues fun _ => rfl) (evict_grows _)

theorem claim_grows {s : State} (i : Nat) {b : Nat} (ws : List Waiter) (h : canProceed s b = true) :
    QueuesGrow s (claim i b ws s) := by
  unfold canProceed at h
  unfold claim
  split
  · next hv =>
    rw [hv] at h
    exact appendOp_grows _ (fun k => queue_setLine s i _ k) h
  · exact queuesGrow_of_queues fun k => queue_setLine s i _ k

theorem joinAudit_grows (i b : Nat) (s : State) : QueuesGrow s (joinAudit i b s) := by
  unfold joinAudit
  dsimp only
  split
  · exact queuesGrow_of_queues fun k => queue_setLine s i _ k
  · exact queuesGrow_of_queues fun _ => rfl

theorem given_grows {s : State} (i : Nat) {b : Nat} (ws : List Waiter) (h : canProceed s b = true) :
    QueuesGrow s (joinAudit i b (touch i (claim i b ws s))) :=
  ((claim_grows i ws h).trans (queuesGrow_of_queues fun k => queue_touch _ i k)).trans (joinAudit_grows _ _ _)

theorem demand_grows (id b : Nat) (s : State) : QueuesGrow s (demand id b s) := by
  unfold demand
  split
  · exact queuesGrow_of_queues fun k => queue_setLine s _ _ k
  · split
    · next h =>
      simp only [Bool.and_eq_true] at h
      split
      · exact given_grows _ _ h.2
      · exact joinWaitList_grows _ s
    · exact joinWaitList_grows _ s

theorem giveDirect_queue (i b : Nat) (tag : BitVec 16) (records : Block) (e : Event) (k : Nat) :
    (giveDirect i b tag records e).st.queue k = e.st.queue k := by
  unfold giveDirect Event.replying Event.upd moveFloat
  generalize (balances records : Int) = v
  rfl

theorem serveDemand_grows (i : Nat) (d : Demand) (e : Event) (h : canProceed e.st d.block = true) :
    QueuesGrow e.st (serveDemand i d e).st := by
  rcases serveDemand_cases i d e with ⟨ws, hs⟩ | ⟨b, -, ⟨tag, records, hs⟩ | hs⟩
  · rw [hs]
    exact QueuesGrow.trans (t := withoutDemands d.block e.st) (queuesGrow_of_queues fun _ => rfl)
      (given_grows i ws (by exact h))
  · rw [hs]
    exact queuesGrow_of_queues fun k => giveDirect_queue i b tag records _ k
  · rw [hs]
    exact queuesGrow_of_queues fun _ => rfl

theorem serveLoop_grows (n : Nat) (e : Event) : QueuesGrow e.st (serveLoop n e).st := by
  induction n generalizing e with
  | zero => exact queuesGrow_of_queues fun _ => rfl
  | succ n ih =>
    unfold serveLoop
    split
    · next d i hd hi =>
      have hp := List.find?_some hd
      exact (serveDemand_grows i d e hp).trans (ih _)
    · exact queuesGrow_of_queues fun _ => rfl

theorem auditClaim_grows (s : State) : QueuesGrow s (auditClaim s) := by
  unfold auditClaim
  dsimp only
  split
  · next h =>
    simp only [Bool.and_eq_true] at h
    split
    · exact QueuesGrow.trans (claim_grows _ _ h.2) (queuesGrow_of_queues fun _ => rfl)
    · exact queuesGrow_of_queues fun _ => rfl
  · exact queuesGrow_of_queues fun _ => rfl

theorem serve_grows (e : Event) : QueuesGrow e.st (serve e).st :=
  (serveLoop_grows e.st.buffer.waitList.length e).trans (auditClaim_grows _)

theorem sweepStep_grows (s : State) : QueuesGrow s (sweepStep s) := by
  rcases sweepStep_cases s with h | ⟨g, -, -, h⟩
  · rw [h]; exact queuesGrow_of_queues fun _ => rfl
  · rw [h]
    unfold selectHold
    exact QueuesGrow.trans (queuesGrow_of_queues fun _ => rfl) (demand_grows _ _ _)

/-! ### What the work of the buffer keeps -/

/-- What every operation of the buffer does between two of the banks' completions: lines that rest are kept, in their order
of use, operations are only appended to the queues, and no valid mark changes. -/
structure Works (s t : State) : Prop where
  lines : ∀ i, Resting (s.line i) → LineKept (s.line i) t i
  rank : restingRank s t = restingRank s s
  grows : QueuesGrow s t
  valid : t.store.valid = s.store.valid

theorem Works.keeps {s t : State} (h : Works s t) : KeepsLines s t := ⟨h.lines, h.rank⟩

theorem QueueGrows.mem {q r : List BankOp} (h : QueueGrows q r) {op : BankOp} (m : op ∈ q) : op ∈ r := by
  obtain ⟨⟨a, rfl⟩, -⟩ := h
  exact List.mem_append_left _ m

/-- A line kept at line `i` of a state that has the line itself there. -/
theorem LineKept.same {l : Line} {t : State} {i : Nat} (h : t.line i = l) : LineKept l t i := by
  subst h
  exact ⟨rfl, rfl, ⟨[], by simp⟩, .inl ⟨rfl, rfl, rfl⟩⟩

/-- A line with further waiters behind its own. -/
theorem LineKept.joined {l : Line} {t : State} {i : Nat} {w : List Waiter}
    (h : t.line i = { l with waiters := l.waiters ++ w }) : LineKept l t i := by
  refine ⟨?_, ?_, ⟨w, ?_⟩, .inl ?_⟩ <;> rw [h]
  exact ⟨rfl, rfl, rfl⟩

theorem LineKept.resting {l : Line} {t : State} {i : Nat} (h : LineKept l t i) (r : Resting l) : Resting (t.line i) := by
  obtain ⟨-, -, ⟨w, hw⟩, h4⟩ := h
  rcases h4 with ⟨h4, -, -⟩ | h4
  · unfold Resting at r ⊢
    rw [h4, hw]
    rcases r with r | r | ⟨r, r2⟩
    · exact .inl r
    · exact .inr (.inl r)
    · exact .inr (.inr ⟨r, by simp [r2]⟩)
  · exact .inr (.inl h4.state)

/-- What follows keeps a kept line kept. -/
theorem LineKept.then {l : Line} {s t : State} {i : Nat} (h : LineKept l s i) (r : Resting (s.line i)) (k : Works s t) :
    LineKept l t i := by
  have k1 := k.lines i r
  obtain ⟨h1, h2, ⟨w, hw⟩, h4⟩ := h
  obtain ⟨k1, k2, ⟨v, hv⟩, k4⟩ := k1
  refine ⟨k1.trans h1, k2.trans h2, ⟨w ++ v, by rw [hv, hw, List.append_assoc]⟩, ?_⟩
  rcases h4 with ⟨h4, h5, h6⟩ | h4 <;> rcases k4 with ⟨k4, k5, k6⟩ | k4
  · exact .inl ⟨k4.trans h4, k5.trans h5, k6.trans h6⟩
  · refine .inr ⟨h4 ▸ k4.before, k4.state, k4.dirty, k4.changed, fun b hb => ?_⟩
    have := k4.queued b (h1.trans hb)
    rwa [h5, h2] at this
  · refine .inr ⟨h4.before, k4.trans h4.state, k5.trans h4.dirty, k6.trans h4.changed, fun b hb => ?_⟩
    have := (k.grows (b % 4)).mem (h4.queued b hb)
    unfold State.isValid at this ⊢
    rwa [k.valid]
  · have := h4.state.symm.trans k4.before
    cases this

/-- A line that is DIRTY or WRITING. -/
def LineHeld (s : State) (i : Nat) : Prop := (s.line i).state = .dirty ∨ (s.line i).state = .writing

theorem LineHeld.resting {s : State} {i : Nat} (h : LineHeld s i) : Resting (s.line i) := h.elim .inl (.inr ∘ .inl)

theorem filter_sub {p q : Nat → Bool} (h : ∀ j, p j = true → q j = true) (l : List Nat) :
    (l.filter q).filter p = l.filter p := by
  rw [List.filter_filter]
  congr 1
  funext j
  cases hp : p j with
  | false => rfl
  | true => rw [h j hp]; rfl

theorem filter_moved {p : Nat → Bool} {i : Nat} (h : p i = false) (l : List Nat) :
    (l.filter (· != i)).filter p = l.filter p := by
  refine filter_sub (fun j hj => ?_) l
  simp only [bne_iff_ne]
  rintro rfl
  rw [h] at hj
  cases hj

theorem filter_last {p : Nat → Bool} {i : Nat} (h : p i = false) (l : List Nat) :
    (l.filter (· != i) ++ [i]).filter p = l.filter p := by
  rw [List.filter_append, filter_moved h]
  simp [h]

theorem filter_first {p : Nat → Bool} {i : Nat} (h : p i = false) (l : List Nat) :
    (i :: l.filter (· != i)).filter p = l.filter p := by
  rw [List.filter_cons_of_neg (by simp [h]), filter_moved h]

theorem Works.refl (s : State) : Works s s :=
  ⟨fun _ _ => .same rfl, rfl, fun _ => QueueGrows.refl _, rfl⟩

theorem Works.trans {s t u : State} (h : Works s t) (k : Works t u) : Works s u := by
  refine ⟨fun i r => (h.lines i r).then ((h.lines i r).resting r) k, ?_, h.grows.trans k.grows, k.valid.trans h.valid⟩
  have hsub : ∀ j, decide (Resting (s.line j)) = true → decide (Resting (t.line j)) = true := by
    intro j hj
    simp only [decide_eq_true_eq] at hj ⊢
    exact (h.lines j hj).resting hj
  have h1 := congrArg (List.filter fun j => decide (Resting (s.line j))) k.rank
  unfold restingRank at h1
  rw [filter_sub hsub, filter_sub hsub] at h1
  unfold restingRank
  rw [h1]
  exact h.rank

theorem Works.held {s t : State} (h : Works s t) {i : Nat} (r : LineHeld s i) : LineHeld t i := by
  rcases (h.lines i r.resting).work with ⟨h4, -, -⟩ | h4
  · unfold LineHeld at r ⊢
    rwa [h4]
  · exact .inr h4.state

/-- Work at line `i` alone that keeps it where it rests. -/
theorem works_at {s t : State} {i : Nat} (hl : ∀ j, j ≠ i → t.line j = s.line j)
    (h : Resting (s.line i) → LineKept (s.line i) t i) (hr : restingRank s t = restingRank s s) (hg : QueuesGrow s t)
    (hv : t.store.valid = s.store.valid) : Works s t := by
  refine ⟨fun j hj => ?_, hr, hg, hv⟩
  by_cases e : j = i
  · subst e; exact h hj
  · exact .same (hl j e)

/-- A change of nothing that the work of the buffer is about. -/
theorem works_same {s t : State} (hl : t.buffer.lines = s.buffer.lines) (hr : t.buffer.recency = s.buffer.recency)
    (hq : t.buffer.queues = s.buffer.queues) (hv : t.store.valid = s.store.valid) : Works s t := by
  have h1 : ∀ i, t.line i = s.line i := fun i => by unfold State.line; rw [hl]
  refine ⟨fun i _ => .same (h1 i), ?_, queuesGrow_of_queues fun k => ?_, hv⟩
  · unfold restingRank; rw [hr]
  · unfold State.queue; rw [hq]

theorem OnlyDemand.valid {s t : State} (h : OnlyDemand s t) : t.store.valid = s.store.valid := by
  obtain ⟨b, w, rfl⟩ := h
  rfl

theorem startWriteBack_works {s : State} {i : Nat} (h : canWriteBack s i = true) : Works s (startWriteBack i s) := by
  have hg := startWriteBack_grows h
  have hd := canWriteBack_dirty h
  cases hb : (s.line i).block with
  | none =>
    have : startWriteBack i s = s := by unfold startWriteBack; dsimp only; rw [hb]
    rw [this]
    exact Works.refl s
  | some b =>
    obtain ⟨u, hu⟩ : ∃ u, u = s.setLine i { s.line i with state := .writing, dirty := 0, changed := false } := ⟨_, rfl⟩
    obtain ⟨op, hop⟩ : ∃ op, op = BankOp.writeBack b (if s.isValid b then (s.line i).dirty else 0xFF#8)
        (marked (if s.isValid b then (s.line i).dirty else 0xFF#8) (s.line i).records) := ⟨_, rfl⟩
    have he : startWriteBack i s = appendOp b op u := by
      rw [hop, hu]; unfold startWriteBack; dsimp only; rw [hb]
    rw [he] at hg ⊢
    have hline : ∀ j, (appendOp b op u).line j = if j = i then
        { s.line i with state := .writing, dirty := 0, changed := false } else s.line j := by
      intro j
      rw [appendOp, line_setQueue, hu, line_setLine]
    have hself := hline i
    rw [if_pos rfl] at hself
    refine works_at (i := i) (fun j hj => by rw [hline, if_neg hj]) (fun _ => ?_) (by rw [hu]; rfl) hg (by rw [hu]; rfl)
    refine ⟨by rw [hself], by rw [hself], ⟨[], by rw [hself]; simp⟩, .inr ⟨hd, by rw [hself], by rw [hself],
      by rw [hself], fun c hc => ?_⟩⟩
    obtain rfl : b = c := Option.some.inj (hb.symm.trans hc)
    have hval : (appendOp b op u).isValid b = s.isValid b := by rw [hu]; rfl
    rw [hval]
    unfold appendOp
    rw [queue_setQueue]
    change _ ∈ if bankOf b = bankOf b then _ else _
    rw [if_pos rfl, hop]
    exact List.mem_append_right _ (List.mem_singleton.2 rfl)

theorem flushLine_works (s : State) (i : Nat) : Works s (flushLine s i) := by
  unfold flushLine
  split
  · next h => exact startWriteBack_works h
  · exact Works.refl s

theorem flushLines_works (l : List Nat) (s : State) : Works s (l.foldl flushLine s) := by
  induction l generalizing s with
  | nil => exact Works.refl s
  | cons i l ih => exact (flushLine_works s i).trans (ih _)

theorem flushStep_works (s : State) : Works s (flushStep s) := by
  unfold flushStep
  split
  · dsimp only
    split
    · exact flushLines_works _ s
    · exact (flushLines_works _ s).trans (works_same rfl rfl rfl rfl)
  · exact Works.refl s

/-- The eviction check only starts write-backs. -/
theorem evict_works (s : State) : Works s (evict s) := by
  have hl : ∀ (n : Nat) (s : State), Works s (evictLoop n s) := by
    intro n
    induction n with
    | zero => exact Works.refl
    | succ n ih =>
      intro s
      unfold evictLoop
      split
      · split
        · next h => exact (startWriteBack_works (evictChoice_can h)).trans (ih _)
        · exact Works.refl s
      · exact Works.refl s
  exact hl _ s

theorem joinWaitList_works (d : Demand) (s : State) : Works s (joinWaitList d s) := by
  unfold joinWaitList
  refine Works.trans ?_ (evict_works _)
  exact works_same rfl rfl rfl rfl

theorem claim_line (i b : Nat) (ws : List Waiter) (s : State) (j : Nat) :
    (claim i b ws s).line j =
      if j = i then { state := if s.isValid b then .fetching else .valid, block := some b, waiters := ws }
      else s.line j := by
  unfold claim
  split
  · next h => rw [appendOp, line_setQueue, line_setLine]
  · next h => rw [line_setLine]

theorem claim_recency (i b : Nat) (ws : List Waiter) (s : State) :
    (claim i b ws s).buffer.recency = s.buffer.recency := by
  unfold claim
  split <;> rfl

theorem joinAudit_recency (i b : Nat) (s : State) : (joinAudit i b s).buffer.recency = s.buffer.recency := by
  unfold joinAudit
  dsimp only
  split <;> rfl

/-- A line claimed while it does not rest, wherever it is ranked. -/
theorem claim_works {s t : State} {i b : Nat} {ws : List Waiter} (h : ¬ Resting (s.line i)) (hp : canProceed s b = true)
    (hl : ∀ j, t.line j = (claim i b ws s).line j) (hq : ∀ k, t.queue k = (claim i b ws s).queue k)
    (hv : t.store.valid = s.store.valid)
    (hr : t.buffer.recency = s.buffer.recency.filter (· != i) ++ [i]
      ∨ t.buffer.recency = i :: s.buffer.recency.filter (· != i)) : Works s t := by
  refine works_at (i := i) (fun j hj => by rw [hl, claim_line, if_neg hj]) (fun r => absurd r h) ?_ (fun k => ?_) hv
  · have hi : decide (Resting (s.line i)) = false := by simp only [h, decide_false]
    unfold restingRank
    rcases hr with hr | hr <;> rw [hr]
    · exact filter_last hi _
    · exact filter_first hi _
  · rw [hq]
    exact claim_grows i ws hp k

theorem joinAudit_works (i b : Nat) (s : State) : Works s (joinAudit i b s) := by
  have hg := joinAudit_grows i b s
  have hv := (joinAudit_only i b s).valid
  have hr := joinAudit_recency i b s
  by_cases hc : (s.store.audit.running && s.store.audit.waiting && decide (s.store.audit.cursor = b)) = true
  · have hline : ∀ j, (joinAudit i b s).line j =
        if j = i then { s.line i with waiters := (s.line i).waiters ++ [.audit] } else s.line j := by
      intro j
      unfold joinAudit
      dsimp only
      rw [if_pos hc]
      exact line_setLine s i j _
    refine works_at (i := i) (fun j hj => by rw [hline, if_neg hj]) (fun _ => .joined (w := [.audit]) ?_)
      (by unfold restingRank; rw [hr]) hg hv
    rw [hline, if_pos rfl]
  · have : joinAudit i b s = s := by unfold joinAudit; dsimp only; rw [if_neg hc]
    rw [this]
    exact Works.refl s

theorem given_works {s : State} {i b : Nat} (ws : List Waiter) (h : ¬ Resting (s.line i))
    (hp : canProceed s b = true) : Works s (joinAudit i b (touch i (claim i b ws s))) := by
  refine Works.trans ?_ (joinAudit_works i b _)
  refine claim_works h hp (fun _ => rfl) (fun _ => rfl) ?_ (.inl ?_)
  · exact (claim_only i b ws s).demand.valid
  · unfold touch
    dsimp only
    rw [claim_recency]

theorem demand_works (id b : Nat) (s : State) : Works s (demand id b s) := by
  unfold demand
  split
  · next i hi =>
    refine works_at (i := i) (fun j hj => ?_) (fun _ => .joined (w := [.entry id]) ?_) rfl
      (queuesGrow_of_queues fun k => queue_setLine s _ _ k) rfl
    · dsimp only
      rw [line_setLine, if_neg hj]
    · dsimp only
      rw [line_setLine, if_pos rfl]
  · split
    · next h =>
      simp only [Bool.and_eq_true] at h
      split
      · next i hi => exact given_works _ (findLine_not_resting hi) h.2
      · exact joinWaitList_works _ s
    · exact joinWaitList_works _ s

theorem giveDirect_buffer (i b : Nat) (tag : BitVec 16) (records : Block) (e : Event) :
    (giveDirect i b tag records e).st.buffer =
      (touch i (e.st.setLine i { state := .dirty, block := some b, records := records, dirty := 0xFF })).buffer := by
  unfold giveDirect Event.replying Event.upd moveFloat
  generalize (balances records : Int) = v
  rfl

theorem giveDirect_works (i b : Nat) (tag : BitVec 16) (records : Block) (e : Event) (h : ¬ Resting (e.st.line i)) :
    Works e.st (giveDirect i b tag records e).st := by
  have hi : decide (Resting (e.st.line i)) = false := by simp only [h, decide_false]
  have hb := giveDirect_buffer i b tag records e
  have hv : (giveDirect i b tag records e).st.store.valid = e.st.store.valid := by
    obtain ⟨c, f, u, r, hg⟩ := giveDirect_only i b tag records e
    rw [hg]
  generalize giveDirect i b tag records e = d at hb hv
  have hl : ∀ j, d.st.line j =
      if j = i then { state := .dirty, block := some b, records := records, dirty := 0xFF } else e.st.line j := by
    intro j
    unfold State.line
    rw [hb]
    exact line_setLine e.st i j { state := .dirty, block := some b, records := records, dirty := 0xFF }
  refine works_at (i := i) (fun j hj => by rw [hl, if_neg hj]) (fun r => absurd r h) ?_
    (queuesGrow_of_queues fun k => by unfold State.queue; rw [hb]; rfl) hv
  unfold restingRank
  rw [hb]
  exact filter_last hi _

theorem serveDemand_works (i : Nat) (d : Demand) (e : Event) (hi : ¬ Resting (e.st.line i))
    (hp : canProceed e.st d.block = true) : Works e.st (serveDemand i d e).st := by
  have h0 : ∀ b, Works e.st (withoutDemands b e.st) := fun b => works_same rfl rfl rfl rfl
  rcases serveDemand_cases i d e with ⟨ws, h⟩ | ⟨b, -, ⟨tag, records, h⟩ | h⟩
  · rw [h]
    exact (h0 d.block).trans (given_works (s := withoutDemands d.block e.st) ws hi hp)
  · rw [h]
    exact (h0 b).trans (giveDirect_works i b tag records { e with st := withoutDemands b e.st } hi)
  · rw [h]
    exact h0 b

theorem serveLoop_works (n : Nat) (e : Event) : Works e.st (serveLoop n e).st := by
  induction n generalizing e with
  | zero => exact Works.refl _
  | succ n ih =>
    unfold serveLoop
    split
    · next d i hd hi =>
      have hp := List.find?_some hd
      exact (serveDemand_works i d e (findLine_not_resting hi) hp).trans (ih _)
    · exact Works.refl _

/-- R57: a waiting audit visit claims the line found when the list is empty and its demand can proceed; otherwise nothing
changes. -/
theorem auditClaim_cases (s : State) :
    auditClaim s = s ∨ ∃ i, findLine s = some i ∧ canProceed s s.store.audit.cursor = true ∧ s.store.audit.waiting = true
      ∧ s.buffer.waitList = []
      ∧ auditClaim s =
        { rankLast i (claim i s.store.audit.cursor [.audit] s) with
          store := { s.store with audit := { s.store.audit with waiting := false } } } := by
  unfold auditClaim
  dsimp only
  split
  · next h =>
    simp only [Bool.and_eq_true, List.isEmpty_iff] at h
    split
    · next i hi =>
      refine .inr ⟨i, hi, h.2, h.1.1.2, h.1.2, ?_⟩
      obtain ⟨b, hb⟩ := claim_only i s.store.audit.cursor [.audit] s
      rw [hb]
      rfl
    · exact .inl rfl
  · exact .inl rfl

theorem auditClaim_works (s : State) : Works s (auditClaim s) := by
  rcases auditClaim_cases s with h | ⟨i, hi, hp, -, -, h⟩
  · rw [h]; exact Works.refl s
  · rw [h]
    refine claim_works (findLine_not_resting hi) hp (fun _ => rfl) (fun _ => rfl) rfl (.inr ?_)
    unfold rankLast
    dsimp only
    rw [claim_recency]

theorem serve_works (e : Event) : Works e.st (serve e).st := (serveLoop_works _ e).trans (auditClaim_works _)

theorem sweepStep_works (s : State) : Works s (sweepStep s) := by
  rcases sweepStep_cases s with h | ⟨h, -, -, e⟩
  · rw [h]; exact Works.refl s
  · rw [e]
    unfold selectHold
    dsimp only
    refine Works.trans ?_ (demand_works _ _ _)
    exact works_same rfl rfl rfl rfl

/-! ### The demand of an entry -/

theorem startWriteBack_waitList (i : Nat) (s : State) :
    (startWriteBack i s).buffer.waitList = s.buffer.waitList := by
  unfold startWriteBack
  dsimp only
  split <;> rfl

theorem evict_waitList (s : State) : (evict s).buffer.waitList = s.buffer.waitList := by
  have hl : ∀ (n : Nat) (s : State), (evictLoop n s).buffer.waitList = s.buffer.waitList := by
    intro n
    induction n with
    | zero => exact fun s => rfl
    | succ n ih =>
      intro s
      unfold evictLoop
      split
      · split
        · rw [ih, startWriteBack_waitList]
        · rfl
      · rfl
  exact hl _ s

theorem flushStep_waitList (s : State) : (flushStep s).buffer.waitList = s.buffer.waitList := by
  have hl : ∀ (l : List Nat) (s : State), (l.foldl flushLine s).buffer.waitList = s.buffer.waitList := by
    intro l
    induction l with
    | nil => exact fun s => rfl
    | cons i l ih =>
      intro s
      rw [List.foldl_cons, ih]
      unfold flushLine
      split
      · exact startWriteBack_waitList i s
      · rfl
  unfold flushStep
  split
  · dsimp only
    split <;> exact hl _ s
  · rfl

/-- A line given to a demand holds its block, with the waiters given in front, FETCHING or VALID. -/
theorem given_line (i b : Nat) (ws : List Waiter) (s : State) :
    let l := (joinAudit i b (touch i (claim i b ws s))).line i
    l.block = some b ∧ l.records = [] ∧ (∃ w, l.waiters = ws ++ w)
      ∧ l.state = if s.isValid b then .fetching else .valid := by
  have hc : (touch i (claim i b ws s)).line i =
      { state := if s.isValid b then .fetching else .valid, block := some b, waiters := ws } := by
    rw [line_touch]
    unfold claim
    split
    · next h => rw [appendOp, line_setQueue, line_setLine, if_pos rfl]
    · next h => rw [line_setLine, if_pos rfl]
  intro l
  have hl : ∃ w, l = { (touch i (claim i b ws s)).line i with
      waiters := ((touch i (claim i b ws s)).line i).waiters ++ w } := by
    unfold l joinAudit
    dsimp only
    split
    · refine ⟨[.audit], ?_⟩
      exact (line_setLine _ i i _).trans (if_pos rfl)
    · exact ⟨[], by simp⟩
  obtain ⟨w, hw⟩ := hl
  rw [hw, hc]
  exact ⟨rfl, rfl, ⟨w, rfl⟩, rfl⟩

theorem joinWaitList_mem (d : Demand) (s : State) : d ∈ (joinWaitList d s).buffer.waitList := by
  unfold joinWaitList
  rw [evict_waitList]
  simp

theorem lineHolding_block {s : State} {b i : Nat} (h : lineHolding s b = some i) : (s.line i).block = some b := by
  have := List.find?_some h
  simpa using this

/-- R47: the demand of an entry is made. -/
theorem demand_demanded (id b : Nat) (s : State) : Demanded (demand id b s) id b := by
  unfold demand
  split
  · next i hi =>
    refine .inl ⟨i, ?_⟩
    dsimp only
    rw [line_setLine, if_pos rfl]
    exact ⟨lineHolding_block hi, by simp⟩
  · split
    · split
      · next i hi =>
        obtain ⟨h1, -, ⟨w, hw⟩, -⟩ := given_line i b [.entry id] s
        exact .inl ⟨i, h1, by rw [hw]; simp⟩
      · exact .inr (joinWaitList_mem _ s)
    · exact .inr (joinWaitList_mem _ s)

/-! ### The wait list while it is served -/

theorem serveDemand_waitList (i : Nat) (d : Demand) (e : Event) :
    (serveDemand i d e).st.buffer.waitList = e.st.buffer.waitList.filter (fun x => x.block != d.block) := by
  rcases serveDemand_cases i d e with ⟨ws, h⟩ | ⟨b, hb, ⟨tag, records, h⟩ | h⟩
  · rw [h]
    dsimp only
    rw [given_waitList]
    rfl
  · rw [h, hb]
    unfold giveDirect Event.replying Event.upd moveFloat
    generalize (balances records : Int) = v
    rfl
  · rw [h, hb]
    rfl

theorem serveLoop_waitList (n : Nat) (e : Event) :
    ∀ d ∈ (serveLoop n e).st.buffer.waitList, d ∈ e.st.buffer.waitList := by
  induction n generalizing e with
  | zero => exact fun d h => h
  | succ n ih =>
    unfold serveLoop
    split
    · intro d hd
      have := ih _ d hd
      rw [serveDemand_waitList] at this
      exact (List.mem_filter.1 this).1
    · exact fun d h => h

/-- While the management unit is IDLE, serving leaves it, the float and the answer alone. -/
theorem serveDemand_idle (i : Nat) (d : Demand) (e : Event) (h : e.st.unit.progress = none) :
    (serveDemand i d e).st.unit = e.st.unit ∧ (serveDemand i d e).st.store.float = e.st.store.float
      ∧ (serveDemand i d e).reply = e.reply := by
  cases d with
  | entry id b =>
    obtain ⟨ws, hs⟩ : ∃ ws, serveDemand i (.entry id b) e =
        { e with st := joinAudit i b (touch i (claim i b ws (withoutDemands b e.st))) } := ⟨_, rfl⟩
    obtain ⟨c, w, hg⟩ := given_only i b ws (withoutDemands b e.st)
    rw [hs, hg]
    exact ⟨rfl, rfl, rfl⟩
  | directLoad b =>
    unfold serveDemand
    dsimp only
    rw [h]
    exact ⟨rfl, rfl, rfl⟩

theorem serveLoop_idle (n : Nat) (e : Event) (h : e.st.unit.progress = none) :
    (serveLoop n e).st.unit = e.st.unit ∧ (serveLoop n e).st.store.float = e.st.store.float
      ∧ (serveLoop n e).reply = e.reply := by
  induction n generalizing e with
  | zero => exact ⟨rfl, rfl, rfl⟩
  | succ n ih =>
    unfold serveLoop
    split
    · next d i _ _ =>
      obtain ⟨a, b, c⟩ := serveDemand_idle i d e h
      obtain ⟨a2, b2, c2⟩ := ih (serveDemand i d e) (by rw [a]; exact h)
      exact ⟨a2.trans a, b2.trans b, c2.trans c⟩
    · exact ⟨rfl, rfl, rfl⟩

/-- The first round of serving. -/
theorem serveLoop_first {e : Event} {d : Demand} {i : Nat}
    (hd : e.st.buffer.waitList.find? (fun d => canProceed e.st d.block) = some d) (hi : findLine e.st = some i) :
    ∃ n, serveLoop e.st.buffer.waitList.length e = serveLoop n (serveDemand i d e) := by
  obtain ⟨n, hn⟩ : ∃ n, e.st.buffer.waitList.length = n + 1 := by
    have := List.mem_of_find?_eq_some hd
    cases h : e.st.buffer.waitList with
    | nil => rw [h] at this; cases this
    | cons a l => exact ⟨_, rfl⟩
  refine ⟨n, ?_⟩
  rw [hn]
  conv => lhs; unfold serveLoop
  rw [hd, hi]

end Sys2Proof.Machine
end

