-- ==== Sys2Proof/Laws/Event.lean ====
section
/-! SUPPORT. What the end of an event can do, and what the leaving of a posted entry can do. -/

namespace Sys2Proof.Machine

/-! ### The frames an event builds -/

/-- The parts of the state that no frame is built from and that handing a frame over changes. -/
def OnlySent (s t : State) : Prop :=
  ∃ a b c d n, t = { s with sTx := a, oTx := b, sCount := c, oCount := d, draws := n }

theorem OnlySent.refl (s : State) : OnlySent s s := ⟨_, _, _, _, _, rfl⟩

theorem OnlySent.trans {s t u : State} (h : OnlySent s t) (k : OnlySent t u) : OnlySent s u := by
  obtain ⟨a, b, c, d, n, rfl⟩ := h
  obtain ⟨a', b', c', d', n', rfl⟩ := k
  exact ⟨a', b', c', d', n', rfl⟩

theorem giftFrame_sent {s t : State} (h : OnlySent s t) (g : GiftAnswer) : giftFrame t g = giftFrame s g := by
  obtain ⟨a, b, c, d, n, rfl⟩ := h
  rfl

theorem summaryOctets_sent {s t : State} (h : OnlySent s t) : summaryOctets t = summaryOctets s := by
  obtain ⟨a, b, c, d, n, rfl⟩ := h
  rfl

theorem noticeFrame_sent {s t : State} (h : OnlySent s t) (c : Categories) : noticeFrame t c = noticeFrame s c := by
  obtain ⟨a, b, c, d, n, rfl⟩ := h
  rfl

/-- The state from which an event's frames are built: after every change of the event, before they are handed over. -/
def settled (before : State) (e : Event) : State := latchNotices before (evaluateLevel before e)

/-- Handing over the O-port frames of an event changes what is sent alone. -/
theorem sendOffice_only (r : Option (Frame × Bool)) (n : Option Frame) (s : State) : OnlySent s (sendOffice r n s) := by
  unfold sendOffice
  split
  · exact OnlySent.refl s
  · exact ⟨_, _, _, _, _, rfl⟩
  · exact ⟨_, _, _, _, _, rfl⟩
  · dsimp only
    split <;> exact ⟨_, _, _, _, _, rfl⟩

theorem finish_only (before : State) (e : Event) : OnlySent (settled before e) (finish before e) := by
  unfold finish
  refine OnlySent.trans ?_ (sendOffice_only _ _ _)
  split
  · exact OnlySent.refl _
  · exact ⟨_, _, _, _, _, rfl⟩

theorem evaluateLevel_only (before : State) (e : Event) :
    ∃ l c, evaluateLevel before e =
      { e with st := { e.st with journalOut := { e.st.journalOut with level := l } }, raised := e.raised ||| c } := by
  unfold evaluateLevel
  split
  · exact ⟨e.st.journalOut.level, 0, by simp⟩
  · dsimp only
    split
    · exact ⟨e.st.journalOut.level, 0, by simp⟩
    · exact ⟨_, catStandIn, rfl⟩

/-- The end of an event changes what is sent, the notices and the stand-in level, and nothing else. -/
theorem finish_frame (before : State) (e : Event) :
    ∃ a b c d n nt l, finish before e =
      { e.st with
        sTx := a, oTx := b, sCount := c, oCount := d, draws := n, notices := nt
        journalOut := { e.st.journalOut with level := l } } := by
  obtain ⟨a, b, c, d, n, h⟩ := finish_only before e
  obtain ⟨l, k, hl⟩ := evaluateLevel_only before e
  rw [h]
  unfold settled latchNotices
  rw [hl]
  exact ⟨a, b, c, d, n, _, l, rfl⟩

theorem evaluateLevel_gift (before : State) (e : Event) : (evaluateLevel before e).gift = e.gift := by
  obtain ⟨l, c, h⟩ := evaluateLevel_only before e
  rw [h]

theorem evaluateLevel_reply (before : State) (e : Event) : (evaluateLevel before e).reply = e.reply := by
  obtain ⟨l, c, h⟩ := evaluateLevel_only before e
  rw [h]

theorem sendOffice_sTx (r : Option (Frame × Bool)) (n : Option Frame) (s : State) : (sendOffice r n s).sTx = s.sTx := by
  unfold sendOffice
  split <;> rfl

theorem settled_sTx (before : State) (e : Event) : (settled before e).sTx = e.st.sTx := by
  unfold settled latchNotices
  obtain ⟨l, c, h⟩ := evaluateLevel_only before e
  rw [h]

/-- R18: the answer of an event stands last in the S-port transmitter, built from the state after the event. -/
theorem finish_sTx (before : State) (e : Event) :
    (finish before e).sTx = match e.gift with
      | none => e.st.sTx
      | some g => e.st.sTx ++ [giftFrame (finish before e) g] := by
  cases hg : e.gift with
  | none =>
    unfold finish
    dsimp only
    rw [sendOffice_sTx, evaluateLevel_gift, hg]
    exact settled_sTx before e
  | some g =>
    dsimp only
    rw [giftFrame_sent (finish_only before e)]
    unfold finish
    dsimp only
    rw [sendOffice_sTx, evaluateLevel_gift, hg]
    dsimp only [sendGift]
    rw [← settled_sTx before e]
    rfl

theorem sendOffice_sCount (r : Option (Frame × Bool)) (n : Option Frame) (s : State) :
    (sendOffice r n s).sCount = s.sCount := by
  unfold sendOffice
  split <;> rfl

theorem settled_sCount (before : State) (e : Event) : (settled before e).sCount = e.st.sCount := by
  unfold settled latchNotices
  obtain ⟨l, c, h⟩ := evaluateLevel_only before e
  rw [h]

/-- R3: the S-side counters after an event: a transaction answer is counted as it is handed over. -/
theorem finish_sCount (before : State) (e : Event) :
    (finish before e).sCount = match e.gift with
      | none => e.st.sCount
      | some _ => { e.st.sCount with answers := e.st.sCount.answers + 1 } := by
  unfold finish
  dsimp only
  rw [sendOffice_sCount, evaluateLevel_gift]
  cases hg : e.gift with
  | none => exact settled_sCount before e
  | some g =>
    dsimp only [sendGift]
    rw [← settled_sCount before e]
    rfl

/-- R184: the level after an event. -/
theorem finish_level (before : State) (e : Event) :
    (finish before e).journalOut.level =
      if committedLoad e.st = committedLoad before then e.st.journalOut.level else levelOf (committedLoad e.st) := by
  obtain ⟨a, b, c, d, n, h⟩ := finish_only before e
  rw [h]
  unfold settled latchNotices evaluateLevel
  dsimp only
  split
  · rfl
  · split
    · next h => exact h.symm
    · rfl

/-- An event that raises nothing, leaves the committed load alone and answers a management command ends with that answer
and nothing more. -/
theorem finish_quiet (before : State) (e : Event) (r : Reply) (h1 : e.raised = 0) (h2 : e.demanded = 0)
    (h3 : e.gift = none) (h4 : e.reply = some r) (h5 : committedLoad e.st = committedLoad before) :
    finish before e = sendReply (replyFrame e.st r) r.refusal.isSome e.st := by
  have he : evaluateLevel before e = e := by unfold evaluateLevel; rw [if_pos h5]
  have hd : noticeDue before e = false := by simp [noticeDue, h1, h2]
  have hl : latchNotices before e = e.st := by
    unfold latchNotices
    rw [hd, h1]
    simp
  unfold finish
  dsimp only
  rw [he, hl, hd, h3, h4]
  rfl

/-! ### The leaving of a posted entry -/

/-- R31: TABLE, when a retirement ends from the banks `t` to the banks `u`. -/
def tableRaised (t u : Tables) : Categories := if t.shadow = .retiring ∧ u.shadow = .free then catTable else 0

/-- R129, R132: CYCLE, when the closing set becomes FROZEN or is cleared from `c` to `d`. -/
def cycleRaised (c d : Cycle) : Categories :=
  if d.closing ≠ c.closing ∧ (d.closing = .frozen ∨ d.closing = .none) then catCycle else 0

theorem or_nothing (c : Categories) : c ||| 0 = c := BitVec.or_zero

theorem tableRaised_same {t u : Tables} (h : u.shadow = t.shadow) : tableRaised t u = 0 := by
  unfold tableRaised
  rw [h, if_neg]
  rintro ⟨h1, h2⟩
  rw [h1] at h2
  cases h2

theorem cycleRaised_same {c d : Cycle} (h : d.closing = c.closing) : cycleRaised c d = 0 := by
  unfold cycleRaised
  rw [if_neg]
  exact fun k => k.1 h

theorem raisedIn_eq (s t : State) (more : Categories) :
    raisedIn s t more = (tableRaised s.tables t.tables ||| cycleRaised s.cycle t.cycle ||| more)
      ||| (if t.journalOut.level = s.journalOut.level then 0 else catStandIn) := by
  unfold raisedIn
  rw [show (if s.tables.shadow = .retiring ∧ t.tables.shadow = .free then catTable else 0)
    = tableRaised s.tables t.tables from rfl]
  rw [show (if t.cycle.closing ≠ s.cycle.closing ∧ (t.cycle.closing = .frozen ∨ t.cycle.closing = .none) then catCycle
    else 0) = cycleRaised s.cycle t.cycle from rfl]
  generalize (if t.journalOut.level = s.journalOut.level then (0 : Categories) else catStandIn) = a
  generalize tableRaised s.tables t.tables = b
  generalize cycleRaised s.cycle t.cycle = c
  rw [BitVec.or_comm _ a, BitVec.or_assoc, BitVec.or_assoc, BitVec.or_assoc]

theorem countIn_eq (t : Tables) : countIn t = bankEntered 1 t := by
  unfold countIn modifyActive bankEntered
  cases t.active <;> rfl

/-- R30, R31: the end of a retirement after the count of an entry that leaves. -/
theorem countOut_bankLeft (g : BitVec 8) (t : Tables) :
    (if (countOut g t).shadow = .retiring ∧ (shadowBank (countOut g t)).count = 0 then freeShadow (countOut g t)
      else countOut g t) = bankLeft g t := by
  obtain ⟨a, b, act, gen, sh⟩ := t
  unfold countOut bankLeft freeShadow
  cases act
  · by_cases h1 : a.tag = some g
    · simp [activeBank, shadowBank, modifyActive, modifyShadow, h1]
      split <;> simp_all
    · by_cases h2 : b.tag = some g <;> simp [activeBank, shadowBank, modifyShadow, h1, h2] <;>
        split <;> simp_all
  · by_cases h1 : b.tag = some g
    · simp [activeBank, shadowBank, modifyActive, modifyShadow, h1]
      split <;> simp_all
    · by_cases h2 : a.tag = some g <;> simp [activeBank, shadowBank, modifyShadow, h1, h2] <;>
        split <;> simp_all

theorem countOut_shadow (g : BitVec 8) (t : Tables) : (countOut g t).shadow = t.shadow := by
  obtain ⟨a, b, act, gen, sh⟩ := t
  unfold countOut modifyActive modifyShadow
  cases act
  all_goals
    split
    · rfl
    · split <;> rfl

/-- The part of the table-set block that no posting changes: the active bank's tables, its role and the generation. -/
def SameTables (t u : Tables) : Prop :=
  (activeBank u).tables = (activeBank t).tables ∧ u.generation = t.generation ∧ u.active = t.active

theorem SameTables.refl (t : Tables) : SameTables t t := ⟨rfl, rfl, rfl⟩

theorem SameTables.trans {t u v : Tables} (h : SameTables t u) (k : SameTables u v) : SameTables t v :=
  ⟨k.1.trans h.1, k.2.1.trans h.2.1, k.2.2.trans h.2.2⟩

theorem countIn_same (t : Tables) : SameTables t (countIn t) := by
  obtain ⟨a, b, act, g, sh⟩ := t
  cases act <;> exact ⟨rfl, rfl, rfl⟩

theorem countOut_same (g : BitVec 8) (t : Tables) : SameTables t (countOut g t) := by
  obtain ⟨a, b, act, g', sh⟩ := t
  unfold countOut
  cases act
  all_goals
    split
    · exact ⟨rfl, rfl, rfl⟩
    · split <;> exact ⟨rfl, rfl, rfl⟩

theorem freeShadow_same (t : Tables) : SameTables t (freeShadow t) := by
  obtain ⟨a, b, act, g, sh⟩ := t
  cases act <;> exact ⟨rfl, rfl, rfl⟩

theorem bankLeft_same (g : BitVec 8) (t : Tables) : SameTables t (bankLeft g t) := by
  rw [← countOut_bankLeft]
  split
  · exact (countOut_same _ _).trans (freeShadow_same _)
  · exact countOut_same _ _

/-- The leaving of an entry changes the in-flight set, the banks and the reservation count, and raises TABLE when it ends a
retirement. -/
theorem leaveSet_eq (x : InFlight) (e : Event) :
    leaveSet x e =
      { e with
        st := { e.st with
          inFlight := e.st.inFlight.filter (fun y => y.id != x.id)
          tables := bankLeft x.generation e.st.tables
          journalOut := { e.st.journalOut with
            reservations := if x.reserved then e.st.journalOut.reservations - 1 else e.st.journalOut.reservations } }
        raised := e.raised ||| tableRaised e.st.tables (bankLeft x.generation e.st.tables) } := by
  unfold leaveSet endRetirement
  dsimp only [Event.upd, Event.raising]
  have h := countOut_bankLeft x.generation e.st.tables
  split at h
  · next hr =>
    rw [if_pos hr, ← h]
    rw [countOut_shadow] at hr
    have ht : tableRaised e.st.tables (freeShadow (countOut x.generation e.st.tables)) = catTable := by
      unfold tableRaised
      rw [if_pos ⟨hr.1, rfl⟩]
    rw [ht]
  · next hr =>
    rw [if_neg hr, ← h, tableRaised_same (countOut_shadow _ _), or_nothing]

/-- What follows the leaving of a waiter changes the buffer, the flush-pending and the audit's waiting mark, and, where a
direct CARD LOAD waits and the line is not held, the float, the management unit and the answer. -/
theorem afterWaiter_only (i : Nat) (e : Event) :
    ∃ b p w f u r, afterWaiter i e =
      { e with
        st := { e.st with
          buffer := b, unit := u
          store := { e.st.store with flushPending := p, float := f, audit := { e.st.store.audit with waiting := w } } }
        reply := r }
      ∧ (NoDirectLoad e.st ∨ LineHeld e.st i → f = e.st.store.float ∧ u = e.st.unit ∧ r = e.reply)
      ∧ Works e.st (afterWaiter i e).st := by
  obtain ⟨d, hd⟩ : ∃ d, d = if decide ((e.st.line i).state = .valid) && (e.st.line i).waiters.isEmpty then serve e
      else e := ⟨_, rfl⟩
  have hs : OnlyServed e d := by
    rw [hd]
    split
    · exact serve_only e
    · exact OnlyServed.refl e
  have hk : Works e.st d.st := by
    rw [hd]
    split
    · exact serve_works e
    · exact Works.refl _
  have hh : LineHeld e.st i → d = e := by
    intro h
    rw [hd, if_neg]
    unfold LineHeld at h
    rcases h with h | h <;> simp [h]
  obtain ⟨g, hg⟩ : ∃ g, g = if decide ((e.st.line i).state = .dirty) && (e.st.line i).waiters.isEmpty
      then evict (flushStep d.st) else flushStep d.st := ⟨_, rfl⟩
  have hf : ∃ b p, g = { d.st with buffer := b, store := { d.st.store with flushPending := p } } := by
    obtain ⟨b, p, h⟩ := flushStep_only d.st
    rw [hg]
    split
    · obtain ⟨c, hc⟩ := evict_only (flushStep d.st)
      exact ⟨c, p, by rw [hc, h]⟩
    · exact ⟨b, p, h⟩
  have hgk : Works d.st g := by
    rw [hg]
    split
    · exact (flushStep_works _).trans (evict_works _)
    · exact flushStep_works _
  have ha : afterWaiter i e = { d with st := g } := by
    rw [hg, hd]
    unfold afterWaiter
    dsimp only [Event.upd]
    split <;> split <;> rfl
  obtain ⟨⟨b1, w, f, u, r, hde⟩, hn⟩ := hs
  obtain ⟨b, p, hb⟩ := hf
  refine ⟨b, p, w, f, u, r, ?_, ?_, ?_⟩
  · rw [ha, hb, hde]
  · rintro (h | h)
    · obtain ⟨-, h1, h2, h3⟩ := hn h
      rw [hde] at h1 h2 h3
      exact ⟨h1, h2, h3⟩
    · have h1 := hh h
      rw [hde] at h1
      have h2 := congrArg (fun q : Event => (q.st.store.float, q.st.unit, q.reply)) h1
      simp only [Prod.mk.injEq] at h2
      exact h2
  · rw [ha]
    exact hk.trans hgk

/-- The flush step after serving. -/
theorem serveFlush_only (e : Event) :
    ∃ b p w f u r, (serve e).upd flushStep =
      { e with
        st := { e.st with
          buffer := b, unit := u
          store := { e.st.store with flushPending := p, float := f, audit := { e.st.store.audit with waiting := w } } }
        reply := r }
      ∧ (NoDirectLoad e.st → f = e.st.store.float ∧ u = e.st.unit ∧ r = e.reply)
      ∧ Works e.st ((serve e).upd flushStep).st := by
  obtain ⟨⟨b, w, f, u, r, hs⟩, hn⟩ := serve_only e
  obtain ⟨b2, p, hf⟩ := flushStep_only (serve e).st
  refine ⟨b2, p, w, f, u, r, ?_, ?_, (serve_works e).trans (flushStep_works _)⟩
  · unfold Event.upd
    rw [hf, hs]
  · intro h
    obtain ⟨-, h1, h2, h3⟩ := hn h
    rw [hs] at h1 h2 h3
    exact ⟨h1, h2, h3⟩

/-- What follows a bank's completion. -/
theorem afterCompletion_only (e : Event) :
    ∃ b p w f u r, afterCompletion e =
      { e with
        st := { e.st with
          buffer := b, unit := u
          store := { e.st.store with flushPending := p, float := f, audit := { e.st.store.audit with waiting := w } } }
        reply := r }
      ∧ (NoDirectLoad e.st → f = e.st.store.float ∧ u = e.st.unit ∧ r = e.reply)
      ∧ Works e.st (afterCompletion e).st := by
  obtain ⟨b, p, w, f, u, r, hs, hn, hk⟩ := serveFlush_only e
  obtain ⟨b2, he⟩ := evict_only ((serve e).upd flushStep).st
  refine ⟨b2, p, w, f, u, r, ?_, hn, hk.trans (evict_works _)⟩
  change ({ (serve e).upd flushStep with st := evict ((serve e).upd flushStep).st } : Event) = _
  rw [he, hs]

/-- The sweep's look depends on these parts of the state alone. -/
theorem SweepLooked.congr {h : Holds} {entries : List InFlight} {n : Nat} {banks : Tables} {t u : State}
    (k : SweepLooked h entries n banks t) (h1 : u.holds = t.holds) (h2 : u.inFlight = t.inFlight)
    (h3 : u.journalOut.reservations = t.journalOut.reservations) (h4 : u.tables = t.tables) (h5 : u.clock = t.clock)
    (h6 : u.journalOut.copies = t.journalOut.copies) (h7 : u.buffer = t.buffer) : SweepLooked h entries n banks u := by
  rcases k with k | ⟨g, id, k1, k2, k3, k4, k5, k6, k7, k8, k9, k10⟩
  · rw [← h1, ← h2, ← h3, ← h4] at k
    exact .inl k
  · refine .inr ⟨g, id, k1, h5 ▸ k2, k3, k4, h6 ▸ k5, h1.trans k6, h2.trans k7, ?_, h3.trans k9, h4.trans k10⟩
    unfold Demanded State.line at k8 ⊢
    rwa [h7]

/-- R92: what a sweep step does. -/
theorem sweepStep_looked (s : State) :
    SweepLooked s.holds s.inFlight s.journalOut.reservations s.tables (sweepStep s) := by
  rcases sweepStep_cases s with h | ⟨g, hc, hs, h⟩
  · rw [h]
    exact .inl ⟨rfl, rfl, rfl, rfl⟩
  · have hd : Demanded (selectHold g s) s.nextId (g.slot / 8) := demand_demanded _ _ _
    obtain ⟨b, w, hk⟩ := selectHold_only g s
    simp only [selectable, Bool.and_eq_true, decide_eq_true_eq, Option.isNone_iff_eq_none, Bool.not_eq_true',
      inFlightFull, decide_eq_false_iff_not, Nat.not_le, committedLoad] at hs
    obtain ⟨⟨⟨h1, h2⟩, h3⟩, h4⟩ := hs
    rw [h]
    rw [hk] at hd ⊢
    refine .inr ⟨g, s.nextId, hc, h1, h2, h3, of_decide_eq_true h4, rfl, rfl, hd, rfl, ?_⟩
    exact countIn_eq s.tables

theorem countIn_shadow (t : Tables) : (countIn t).shadow = t.shadow := by
  unfold countIn modifyActive
  cases t.active <;> rfl

theorem sweepStep_tables (s : State) :
    SameTables s.tables (sweepStep s).tables ∧ (sweepStep s).tables.shadow = s.tables.shadow := by
  rcases sweepStep_cases s with h | ⟨g, -, -, h⟩
  · rw [h]; exact ⟨SameTables.refl _, rfl⟩
  · obtain ⟨b, w, hk⟩ := selectHold_only g s
    rw [h, hk]
    exact ⟨countIn_same _, countIn_shadow _⟩

/-- What any posting's leaving can change. -/
theorem departed_any (i : Nat) (x : InFlight) (e : Event) :
    ∃ ho fl ni ta re b p w f u r,
      departed i x e =
        { e with
          st := { e.st with
            holds := ho, inFlight := fl, nextId := ni, tables := ta
            journalOut := { e.st.journalOut with reservations := re }
            buffer := b, unit := u
            store := { e.st.store with flushPending := p, float := f, audit := { e.st.store.audit with waiting := w } } }
          raised := e.raised ||| tableRaised e.st.tables ta
          reply := r }
      ∧ SweepLooked e.st.holds (e.st.inFlight.filter (fun y => y.id != x.id))
          (if x.reserved then e.st.journalOut.reservations - 1 else e.st.journalOut.reservations)
          (bankLeft x.generation e.st.tables) (departed i x e).st
      ∧ SameTables e.st.tables ta
      ∧ (NoDirectLoad e.st ∨ LineHeld e.st i → f = e.st.store.float ∧ u = e.st.unit ∧ r = e.reply)
      ∧ Works e.st (departed i x e).st := by
  have hl := leaveSet_eq x e
  have hlw : Works e.st (leaveSet x e).st := by rw [hl]; exact works_same rfl rfl rfl rfl
  obtain ⟨b, p, w, f, u, r, ha, hq, hk⟩ := afterWaiter_only i (leaveSet x e)
  have hke := (hlw.trans hk).trans (sweepStep_works (afterWaiter i (leaveSet x e)).st)
  have hquiet : NoDirectLoad e.st ∨ LineHeld e.st i → f = e.st.store.float ∧ u = e.st.unit ∧ r = e.reply := by
    intro h
    have h1 := hq (by rw [hl]; exact h)
    rw [hl] at h1
    exact h1
  have hdef : departed i x e = { afterWaiter i (leaveSet x e) with st := sweepStep (afterWaiter i (leaveSet x e)).st } :=
    rfl
  have hlook : SweepLooked e.st.holds (e.st.inFlight.filter (fun y => y.id != x.id))
      (if x.reserved then e.st.journalOut.reservations - 1 else e.st.journalOut.reservations)
      (bankLeft x.generation e.st.tables) (departed i x e).st := by
    have h := sweepStep_looked (afterWaiter i (leaveSet x e)).st
    rw [hdef]
    have h1 : (afterWaiter i (leaveSet x e)).st.holds = e.st.holds := by rw [ha, hl]
    have h2 : (afterWaiter i (leaveSet x e)).st.inFlight = e.st.inFlight.filter (fun y => y.id != x.id) := by rw [ha, hl]
    have h3 : (afterWaiter i (leaveSet x e)).st.journalOut.reservations =
        if x.reserved then e.st.journalOut.reservations - 1 else e.st.journalOut.reservations := by rw [ha, hl]
    have h4 : (afterWaiter i (leaveSet x e)).st.tables = bankLeft x.generation e.st.tables := by rw [ha, hl]
    rwa [h1, h2, h3, h4] at h
  obtain ⟨t1, t2⟩ := sweepStep_tables (afterWaiter i (leaveSet x e)).st
  obtain ⟨ho, fl, ni, ta, re, b2, w2, hs⟩ := sweepStep_only (afterWaiter i (leaveSet x e)).st
  have hta : (sweepStep (afterWaiter i (leaveSet x e)).st).tables = ta := by rw [hs]
  rw [hta, ha, hl] at t1 t2
  rw [hs, ha, hl] at hdef
  have hraised : tableRaised e.st.tables (bankLeft x.generation e.st.tables) = tableRaised e.st.tables ta := by
    unfold tableRaised
    rw [t2]
  rw [hraised] at hdef
  exact ⟨ho, fl, ni, ta, re, b2, p, w2, f, u, r, hdef, hlook, (bankLeft_same _ _).trans t1, hquiet, hke⟩

/-! ### The notice of an event (R175, R176) -/

/-- The event `e`, begun at `before`, has raised on the way from `s` what R175 names, `more` among it, and demanded no
notice; nothing has been sent since `s`. -/
structure Raises (before s : State) (e : Event) (more : Categories) : Prop where
  raised : e.raised = tableRaised s.tables e.st.tables ||| cycleRaised s.cycle e.st.cycle ||| more
  demanded : e.demanded = 0
  notices : e.st.notices = s.notices
  latch : before.notices.latch = s.notices.latch
  sent : e.st.oTx = s.oTx ∧ e.st.oCount = s.oCount ∧ e.st.draws = s.draws
  level : e.st.journalOut.level = s.journalOut.level

theorem evaluateLevel_exact (before : State) (e : Event) :
    evaluateLevel before e =
      { e with
        st := { e.st with journalOut := { e.st.journalOut with level := (finish before e).journalOut.level } }
        raised := e.raised ||| (if (finish before e).journalOut.level = e.st.journalOut.level then 0 else catStandIn) } := by
  have h := finish_level before e
  unfold evaluateLevel
  split
  · next hc =>
    rw [if_pos hc] at h
    rw [h, if_pos rfl, or_nothing]
  · next hc =>
    rw [if_neg hc] at h
    dsimp only
    split
    · next hl =>
      rw [h, hl, if_pos rfl, or_nothing]
    · next hl =>
      rw [h, if_neg hl]
      rfl

/-- The end of such an event: the categories it latches, and whether a notice is due. -/
theorem Raises.settled {before s : State} {e : Event} {more : Categories} (r : Raises before s e more) :
    let c := raisedIn s (finish before e) more
    (evaluateLevel before e).raised = c ∧ (evaluateLevel before e).demanded = 0
      ∧ noticeDue before (evaluateLevel before e) = decide (NoticeDue s c)
      ∧ (settled before e).notices = { s.notices with
          latch := s.notices.latch ||| c
          number := if NoticeDue s c then s.notices.number + 1 else s.notices.number }
      ∧ (settled before e).oTx = s.oTx ∧ (settled before e).oCount = s.oCount ∧ (settled before e).draws = s.draws := by
  intro c
  have hx := evaluateLevel_exact before e
  have hc : (evaluateLevel before e).raised = c := by
    unfold c
    obtain ⟨ta, tb, tc, td, tn, tnt, tl, hf⟩ := finish_frame before e
    have h1 : (finish before e).tables = e.st.tables := by rw [hf]
    have h2 : (finish before e).cycle = e.st.cycle := by rw [hf]
    rw [hx, raisedIn_eq, h1, h2, ← r.raised, ← r.level]
  have hd : (evaluateLevel before e).demanded = 0 := by rw [hx]; exact r.demanded
  have hn : (evaluateLevel before e).st.notices = s.notices := by rw [hx]; exact r.notices
  have hdue : noticeDue before (evaluateLevel before e) = decide (NoticeDue s c) := by
    unfold noticeDue NoticeDue
    rw [hc, hd, hn, r.latch]
    generalize c &&& ~~~s.notices.latch &&& ~~~s.notices.masks = z
    by_cases hz : z = 0
    · subst hz
      rfl
    · rw [decide_eq_true hz, bne_iff_ne.2 hz]
      rfl
  refine ⟨hc, hd, hdue, ?_, ?_⟩
  · unfold Machine.settled latchNotices
    dsimp only
    rw [hdue, hc, hn]
    simp only [decide_eq_true_eq]
  · unfold Machine.settled latchNotices
    dsimp only
    rw [hx]
    exact r.sent

/-- R175, R176: an event that answers no management command sends one notice, exactly when it is due. -/
theorem finish_noticed {before s : State} {e : Event} {more : Categories} (r : Raises before s e more)
    (h : e.reply = none) : NoticedAs s (finish before e) more := by
  obtain ⟨hc, hd, hdue, hnot, h1, h2, h3⟩ := r.settled
  have hfr := noticeFrame_sent (finish_only before e) (raisedIn s (finish before e) more)
  have hset : (finish before e).notices = (settled before e).notices := by
    obtain ⟨a, b, c, d, n, hs⟩ := finish_only before e
    rw [hs]
  obtain ⟨m, hm⟩ : ∃ m : State, m = match e.gift with
      | none => settled before e
      | some g => sendGift (giftFrame (settled before e) g) (settled before e) := ⟨_, rfl⟩
  have hmx : m.oTx = s.oTx ∧ m.oCount = s.oCount ∧ m.draws = s.draws := by
    rw [hm]
    split <;> exact ⟨h1, h2, h3⟩
  have hfin : finish before e = sendOffice none
      (if decide (NoticeDue s (raisedIn s (finish before e) more)) = true then
        some (noticeFrame (finish before e) (raisedIn s (finish before e) more)) else none) m := by
    conv => lhs; unfold finish
    dsimp only
    rw [evaluateLevel_gift, evaluateLevel_reply, h, hm, hdue, hc, hd, or_nothing, hfr]
    rfl
  obtain ⟨t, ht⟩ : ∃ t, t = finish before e := ⟨_, rfl⟩
  rw [← ht] at hfin hset hnot ⊢
  rw [hnot] at hset
  obtain ⟨m1, m2, m3⟩ := hmx
  by_cases hn : NoticeDue s (raisedIn s t more)
  · rw [if_pos (by simpa using hn)] at hfin
    refine ⟨fun k => absurd hn k, fun _ => ⟨?_, ?_, ?_⟩, by rw [hset], by rw [hset], ?_⟩
    · conv => lhs; rw [hfin]
      change m.oTx ++ [_] = _
      rw [m1]
    · rw [hfin]
      change ({ m.oCount with notices := m.oCount.notices + 1 } : OCounters) = _
      rw [m2]
    · rw [hset]
      exact if_pos hn
    · rw [hfin]; exact m3
  · rw [if_neg (by simpa using hn)] at hfin
    refine ⟨fun _ => ⟨?_, ?_, ?_⟩, fun k => absurd k hn, by rw [hset], by rw [hset], ?_⟩
    · rw [hfin]; exact m1
    · rw [hfin]; exact m2
    · rw [hset]
      exact if_neg hn
    · rw [hfin]; exact m3

/-- The fields of an answer do not depend on what is handed to a transmitter. -/
def FieldsSettled (r : Reply) : Prop := ∀ s t, OnlySent s t → r.fields t = r.fields s

theorem replyFrame_sent {s t : State} (h : OnlySent s t) {r : Reply} (hr : FieldsSettled r) :
    replyFrame t r = replyFrame s r := by
  have h1 := hr s t h
  have h2 := summaryOctets_sent h
  have h3 : t.unitAddress = s.unitAddress := by
    obtain ⟨a, b, c, d, n, rfl⟩ := h
    rfl
  unfold replyFrame
  rw [h1, h2, h3]

/-- R171, R175, R176: an event that answers a management command hands the answer over, and one notice with it exactly when
it is due. -/
theorem finish_replied {before s : State} {e : Event} {more : Categories} (c : Raises before s e more) (r : Reply)
    (h : e.reply = some r) (hr : FieldsSettled r) : RepliedAs s (finish before e) r more := by
  obtain ⟨hc, hd, hdue, hnot, h1, h2, h3⟩ := c.settled
  have hfr := noticeFrame_sent (finish_only before e) (raisedIn s (finish before e) more)
  have hreply := replyFrame_sent (finish_only before e) hr
  have hset : (finish before e).notices = (settled before e).notices := by
    obtain ⟨a, b, c, d, n, hs⟩ := finish_only before e
    rw [hs]
  obtain ⟨m, hm⟩ : ∃ m : State, m = match e.gift with
      | none => settled before e
      | some g => sendGift (giftFrame (settled before e) g) (settled before e) := ⟨_, rfl⟩
  have hmx : m.oTx = s.oTx ∧ m.oCount = s.oCount := by
    rw [hm]
    split <;> exact ⟨h1, h2⟩
  have hfin : finish before e = sendOffice (some (replyFrame (finish before e) r, r.refusal.isSome))
      (if decide (NoticeDue s (raisedIn s (finish before e) more)) = true then
        some (noticeFrame (finish before e) (raisedIn s (finish before e) more)) else none) m := by
    conv => lhs; unfold finish
    dsimp only
    rw [evaluateLevel_gift, evaluateLevel_reply, h, hm, hdue, hc, hd, or_nothing, hfr, hreply]
    rfl
  obtain ⟨t, ht⟩ : ∃ t, t = finish before e := ⟨_, rfl⟩
  rw [← ht] at hfin hset hnot ⊢
  rw [hnot] at hset
  obtain ⟨m1, m2⟩ := hmx
  by_cases hn : NoticeDue s (raisedIn s t more)
  · rw [if_pos (by simpa using hn)] at hfin
    have ho : t.oTx = s.oTx ++ (if Config.noticeFirst m.draws then
        [noticeFrame t (raisedIn s t more), replyFrame t r] else [replyFrame t r, noticeFrame t (raisedIn s t more)]) := by
      conv => lhs; rw [hfin]
      change m.oTx ++ _ = _
      rw [m1]
    have hcount : t.oCount = { s.oCount with
        answers := s.oCount.answers + 1
        refusals := if r.refusal.isSome then s.oCount.refusals + 1 else s.oCount.refusals
        notices := s.oCount.notices + 1 } := by
      rw [← m2]
      conv => lhs; rw [hfin]
      rfl
    refine ⟨fun k => absurd hn k, fun _ => ⟨?_, ?_, hcount⟩, by rw [hset], by rw [hset]⟩
    · split at ho
      · exact .inr ho
      · exact .inl ho
    · rw [hset]
      exact if_pos hn
  · rw [if_neg (by simpa using hn)] at hfin
    refine ⟨fun _ => ⟨?_, ?_, ?_⟩, fun k => absurd k hn, by rw [hset], by rw [hset]⟩
    · conv => lhs; rw [hfin]
      change m.oTx ++ [_] = _
      rw [m1]
    · rw [hset]
      exact if_neg hn
    · rw [← m2]
      conv => lhs; rw [hfin]
      rfl

/-- An event that raises nothing, leaves the committed load alone and answers nothing ends in its own state. -/
theorem finish_silent (before : State) (e : Event) (h1 : e.raised = 0) (h2 : e.demanded = 0) (h3 : e.gift = none)
    (h4 : e.reply = none) (h5 : committedLoad e.st = committedLoad before) : finish before e = e.st := by
  have he : evaluateLevel before e = e := by unfold evaluateLevel; rw [if_pos h5]
  have hd : noticeDue before e = false := by simp [noticeDue, h1, h2]
  have hl : latchNotices before e = e.st := by
    unfold latchNotices
    rw [hd, h1]
    simp
  unfold finish
  dsimp only
  rw [he, hl, hd, h3, h4]
  rfl

/-- The end of an event that leaves the committed load alone. -/
theorem finish_sameBut (before : State) (e : Event) (h : e.gift = none) : SameBut e.st (finish before e) := by
  have hx := finish_sTx before e
  have hc := finish_sCount before e
  rw [h] at hx hc
  obtain ⟨a, b, c, d, n, nt, l, hf⟩ := finish_frame before e
  unfold SameBut
  rw [hf] at hx hc ⊢
  dsimp only at hx hc ⊢
  rw [hx, hc]

theorem finish_level_same (before : State) (e : Event) (h : committedLoad e.st = committedLoad before) :
    (finish before e).journalOut.level = e.st.journalOut.level := by
  rw [finish_level, if_pos h]

/-- The end of an event of the record buffer or the banks, which raises `more` alone. -/
theorem finish_booksKept (s : State) (e : Event) (more : Categories)
    (hst : e.st = { s with buffer := e.st.buffer, store := e.st.store, unit := e.st.unit })
    (hphase : e.st.store.phase = s.store.phase) (hg : e.gift = none) (hr : e.raised = more) (hd : e.demanded = 0)
    (hq : NoDirectLoad s → e.st.store.float = s.store.float ∧ e.st.unit = s.unit ∧ e.reply = none) :
    BooksKept s (finish s e) more ∧ (finish s e).buffer = e.st.buffer ∧ (finish s e).store = e.st.store
      ∧ (finish s e).unit = e.st.unit := by
  have hload : committedLoad e.st = committedLoad s := by rw [hst]; rfl
  have hlev := finish_level_same s e hload
  have hs := finish_sameBut s e hg
  have hraises : Raises s s e more := by
    refine ⟨?_, hd, by rw [hst], rfl, ?_, by rw [hst]⟩
    · rw [hst]
      rw [tableRaised_same rfl, cycleRaised_same rfl, hr]
      simp
    · rw [hst]
      exact ⟨rfl, rfl, rfl⟩
  have hnote : e.reply = none → NoticedAs s (finish s e) more := finish_noticed hraises
  obtain ⟨t, ht⟩ : ∃ t, t = finish s e := ⟨_, rfl⟩
  rw [← ht] at hs hlev hnote ⊢
  unfold SameBut at hs
  have hj : e.st.journalOut = s.journalOut := by rw [hst]
  have hb : t.buffer = e.st.buffer := by rw [hs]
  have hto : t.store = e.st.store := by rw [hs]
  have hu : t.unit = e.st.unit := by rw [hs]
  refine ⟨⟨?_, by rw [hto]; exact hphase, ?_⟩, hb, hto, hu⟩
  · rw [hlev, hj] at hs
    rw [hb, hto, hu]
    refine hs.trans ?_
    generalize t.oTx = a
    generalize t.oCount = b
    generalize t.draws = c
    generalize t.notices = d
    rw [hst]
  · intro hn
    obtain ⟨h1, h2, h3⟩ := hq hn
    rw [hto, hu]
    exact ⟨h1, h2, hnote h3⟩

end Sys2Proof.Machine
end

