-- ==== Sys2Proof/Laws/Command.lean ====
section
/-! SUPPORT. What the event of a management command can do, once for all commands (R171, R172, R181). -/

namespace Sys2Proof.Machine

/-- R187: a frame's wire form, octet by octet. -/
theorem wireFrame_sent (f : Frame) : wireFrame f = sentForm f := by
  have h : escaped f = (f.map (fun b => if b = 0x7E ∨ b = 0x7D then [0x7D, b ^^^ 0x20] else [b])).flatten := by
    induction f with
    | nil => rfl
    | cons b t ih =>
      unfold escaped
      rw [ih]
      split <;> rename_i hb <;> simp [hb]
  unfold wireFrame sentForm
  rw [h]
  rfl

/-- An event under way that has done nothing yet but count the frame of a management command. -/
def arrived (s : State) : Event := { st := countArrival s }

/-- R171: a command that an idle unit without a pending FIRST takes goes straight to its own checks, but for CARD LOAD. -/
theorem command_free {s : State} (h : s.unitFree) {code : BitVec 8} (hc : (code == 0x11 || code == 0x12) = false)
    (tag : BitVec 16) (body : Event → Event) :
    command code tag body s = finish s (body (arrived s)) := by
  obtain ⟨h1, h2⟩ := h
  simp only [command, event, unitGate, Event.upd, countArrival_unit, h1, h2, hc, Option.isSome_none, Bool.false_and,
    Bool.false_eq_true, if_false, arrived]

/-- An event that ends by accepting a command, without notice and with the committed load as it was: `u` is the state with
the command's changes made, the frame not yet counted. -/
theorem finish_accept {s u : State} {e : Event} (h1 : e.raised = 0) (h2 : e.demanded = 0) (h3 : e.gift = none)
    (hst : e.st = countArrival u) (h5 : committedLoad u = committedLoad s) (code : BitVec 8) (tag : BitVec 16)
    (fields : State → List Octet) :
    finish s (accept code tag fields e) = accepted code tag (fields (countArrival u)) u := by
  unfold accept
  rw [finish_quiet s (e.replying _) { code := code, tag := tag, fields := fields } h1 h2 h3 rfl
    (by change committedLoad e.st = _; rw [hst]; exact h5)]
  change sendReply (replyFrame e.st _) _ e.st = _
  rw [hst]
  rfl

/-- An event that ends by refusing a command, with the committed load as it was. -/
theorem finish_refuse {s u : State} {e : Event} (h1 : e.raised = 0) (h2 : e.demanded = 0) (h3 : e.gift = none)
    (hst : e.st = countArrival u) (h5 : committedLoad u = committedLoad s) (code : BitVec 8) (tag : BitVec 16)
    (r : RefusalCode) :
    finish s (refuse code tag r e) = refusedWith code tag r u := by
  unfold refuse
  rw [finish_quiet s (e.replying _) { code := code, tag := tag, refusal := some r } h1 h2 h3 rfl
    (by change committedLoad e.st = _; rw [hst]; exact h5)]
  change sendReply (replyFrame e.st _) _ e.st = _
  rw [hst]
  rfl

/-- R171: a command whose own checks accept it and change nothing but by `f`, which commutes with the counting of the
frame and leaves the committed load. -/
theorem command_accepted {s u : State} (h : s.unitFree) {code : BitVec 8} (hc : (code == 0x11 || code == 0x12) = false)
    (tag : BitVec 16) (body : Event → Event) (fields : State → List Octet)
    (hb : body (arrived s) = accept code tag fields { st := countArrival u })
    (h5 : committedLoad u = committedLoad s) :
    command code tag body s = accepted code tag (fields (countArrival u)) u := by
  rw [command_free h hc, hb]
  exact finish_accept rfl rfl rfl rfl h5 code tag fields

/-- R172: a command whose own checks refuse it. -/
theorem command_refused {s : State} (h : s.unitFree) {code : BitVec 8} (hc : (code == 0x11 || code == 0x12) = false)
    (tag : BitVec 16) (body : Event → Event) (r : RefusalCode)
    (hb : body (arrived s) = refuse code tag r { st := countArrival s }) :
    command code tag body s = refusedWith code tag r s := by
  rw [command_free h hc, hb]
  exact finish_refuse rfl rfl rfl rfl rfl code tag r

/-- R171 step 2: while a command is in progress, every other one but LINK RESET is refused BUSY. -/
theorem command_busy {s : State} (h : s.unit.progress.isSome = true) {code : BitVec 8} (hc : code ≠ 0x08)
    (tag : BitVec 16) (body : Event → Event) : command code tag body s = refusedWith code tag .busy s := by
  have hc' : (code != 0x08) = true := bne_iff_ne.mpr hc
  have : command code tag body s = finish s (refuse code tag .busy (arrived s)) := by
    simp only [command, event, unitGate, Event.upd, countArrival_unit, h, hc', Bool.and_self, if_true, arrived]
  rw [this]
  exact finish_refuse rfl rfl rfl rfl rfl code tag .busy

/-- R171 step 4: while a FIRST is pending, every command but LINK RESET and the LAST for its block is refused SEQUENCE, and
the FIRST is discarded. -/
theorem command_sequence {s : State} (h : s.unit.progress = none) (hf : s.unit.first.isSome = true) {code : BitVec 8}
    (hc : code ≠ 0x08) (hr : ¬ ((code = 0x11 ∨ code = 0x12) ∧ s.store.phase = .ready)) (tag : BitVec 16)
    (body : Event → Event) : command code tag body s = refusedWith code tag .sequence (dropFirst s) := by
  have hc' : (code != 0x08) = true := bne_iff_ne.mpr hc
  have hr' : ((code == 0x11 || code == 0x12) && decide (s.store.phase = .ready)) = false := by
    by_contra hx
    apply hr
    simpa using hx
  have : command code tag body s = finish s (refuse code tag .sequence { st := countArrival (dropFirst s) }) := by
    change finish s (unitGate code tag false body (arrived s)) = _
    have g1 : ((arrived s).st.unit.progress.isSome && code != 0x08) = false := by
      change (s.unit.progress.isSome && _) = false
      rw [h]
      rfl
    have g2 : ((code == 0x11 || code == 0x12) && decide ((arrived s).st.store.phase = .ready)) = false := hr'
    have g3 : ((arrived s).st.unit.first.isSome && code != 0x08 && !false) = true := by
      change (s.unit.first.isSome && _ && _) = true
      rw [hf, hc']
      rfl
    unfold unitGate
    rw [g1, g2, g3]
    rfl
  rw [this]
  exact finish_refuse (u := dropFirst s) rfl rfl rfl rfl rfl code tag .sequence

end Sys2Proof.Machine
end

