-- ==== Sys2Proof/Laws/Decision.lean ====
section
/-! SUPPORT. The decision of each kind's posting is the one that the tables of its checks give (R60). -/

namespace Sys2Proof.Machine

theorem aboveLimit_eq (l : Option Nat) (a : Nat) : aboveLimit l a = decide (l.getD a < a) := by
  cases l with
  | none => simp [aboveLimit]
  | some m => rfl

variable {s : State} {x : InFlight} (r : CardRecord)

theorem ownDecision_activate (h : x.kind = .activate) :
    decideActivate (programFor s x) (termsFor s x) r x.amount = ownDecision s x r := by
  unfold decideActivate ownDecision ownDecline
  simp only [h, aboveLimit_eq, decide_eq_true_eq]
  split_ifs <;> rfl

theorem ownDecision_reload (h : x.kind = .reload) :
    decideReload (programFor s x) (termsFor s x) r x.amount = ownDecision s x r := by
  unfold decideReload ownDecision ownDecline
  simp only [h, aboveLimit_eq, decide_eq_true_eq]
  cases hs : r.state <;> simp [stateDecline, notActive] <;> split_ifs <;> simp_all

theorem ownDecision_redeem (h : x.kind = .redeem) :
    decideRedeem (programFor s x) (termsFor s x) x.partialFlag r x.amount = ownDecision s x r := by
  unfold decideRedeem ownDecision ownDecline available
  simp only [h, aboveLimit_eq, decide_eq_true_eq]
  cases hs : r.state <;> simp [stateDecline, notActive] <;> split_ifs <;> simp_all <;> omega

theorem ownDecision_hold (h : x.kind = .hold) :
    decideHold (termsFor s x) s.holds.entries.length r x.amount = ownDecision s x r := by
  have hc : (r.holdCount < 4 ∧ s.holds.entries.length < 1024) ↔
      ¬ (4 ≤ r.holdCount ∨ 1024 ≤ s.holds.entries.length) := by omega
  unfold decideHold ownDecision ownDecline available
  simp only [h, aboveLimit_eq, decide_eq_true_eq, Config.holdsPerCard, Config.holdPlaces, hc]
  cases hs : r.state <;> simp only [stateDecline, notActive] <;> split_ifs <;> simp_all

theorem ownDecision_complete (h : x.kind = .complete) :
    trainingHold s x (fun g => decideComplete x.amount g r) = ownDecision s x r := by
  have hn : holdNamed s x = x.reference.bind (fun o => s.holds.entries.find? (fun h => h.ref == o)) := rfl
  unfold trainingHold ownDecision ownDecline
  simp only [h]
  rw [← hn]
  cases hh : holdNamed s x with
  | none => rfl
  | some g =>
    dsimp only
    by_cases hc : g.state = .opened ∧ g.slot = x.slot
    · rw [if_pos hc, if_neg (by tauto)]
      rfl
    · rw [if_neg hc, if_pos (by tauto)]

theorem ownDecision_release (h : x.kind = .release) :
    trainingHold s x (fun g => .approved g.amount) = ownDecision s x r := by
  have hn : holdNamed s x = x.reference.bind (fun o => s.holds.entries.find? (fun h => h.ref == o)) := rfl
  unfold trainingHold ownDecision ownDecline
  simp only [h]
  rw [← hn]
  cases hh : holdNamed s x with
  | none => rfl
  | some g =>
    dsimp only
    by_cases hc : g.state = .opened ∧ g.slot = x.slot
    · rw [if_pos hc, if_neg (by tauto)]
      rfl
    · rw [if_neg hc, if_pos (by tauto)]

theorem ownDecision_refund {p : Party} {card : BitVec 64} (h : x.kind = .refund) (ho : x.origin = .request p card) :
    decideRefund s x r = ownDecision s x r := by
  have hp : (partyOf x).shop = p.shop := by unfold partyOf; rw [ho]
  unfold decideRefund ownDecision ownDecline
  simp only [h, ho]
  cases hr : x.reference with
  | none =>
    simp only [decideOpen, decideCredit, Config.maxAmount]
    cases hc : (programFor s x).openCap with
    | none => simp
    | some cap =>
      simp only [Option.getD_some]
      cases hs : r.state <;> simp [stateDecline, notActive] <;> split_ifs <;> simp_all
  | some o =>
    simp only [decideAgainst, decideCredit, Config.maxAmount, Option.bind_some]
    cases hn : s.entryAt o with
    | none => simp
    | some n =>
      simp only [refundable, hp]
      cases hs : r.state <;> simp [stateDecline, notActive] <;> split_ifs <;> simp_all

theorem ownDecision_void (h : x.kind = .void) :
    decideVoid x.slot (x.reference.bind s.entryAt) r = ownDecision s x r := by
  unfold decideVoid ownDecision ownDecline
  simp only [h]
  cases hn : x.reference.bind s.entryAt with
  | none => rfl
  | some n =>
    dsimp only [decideByKind, Config.maxAmount]
    cases hk : n.kind <;> dsimp only <;> split_ifs <;> simp_all <;> omega

theorem ownDecision_balance (h : x.kind = .balance) :
    (if r.state = .unissued then .declined .notActive else .approved 0) = ownDecision s x r := by
  unfold ownDecision ownDecline
  simp only [h]
  split_ifs <;> rfl

end Sys2Proof.Machine
end

