-- ==== Sys2Proof/Laws/PerInstr.lean ====
section
/-! SUPPORT. The laws made per command: the frame of every management command has exactly the octets that the command
table of 11.6 asks of its code. -/

namespace Sys2Proof.Laws.CommandFrame

open Sys2Proof.Machine

/-- 11.6: a management command's code stands in the command table, with the number of its parameter octets. -/
def Statement (i : Instr) : Prop :=
  ∀ p, payload i = some p → (commandTable p.code).map (·.length) = some p.params.length

theorem powerOnReset (straps : BitVec 4) : Statement (.powerOnReset straps) := by
  intro p h
  cases h

theorem frameReceived (port : Port) (octets : List Octet) : Statement (.frameReceived port octets) := by
  intro p h
  cases h

theorem fetchComplete (bank : BitVec 2) : Statement (.fetchComplete bank) := by
  intro p h
  cases h

theorem writeBackStart (line : BitVec 5) : Statement (.writeBackStart line) := by
  intro p h
  cases h

theorem writeBackComplete (bank : BitVec 2) : Statement (.writeBackComplete bank) := by
  intro p h
  cases h

theorem waitListServe : Statement .waitListServe := by
  intro p h
  cases h

theorem activatePosting (line : BitVec 5) : Statement (.activatePosting line) := by
  intro p h
  cases h

theorem reloadPosting (line : BitVec 5) : Statement (.reloadPosting line) := by
  intro p h
  cases h

theorem redeemPosting (line : BitVec 5) : Statement (.redeemPosting line) := by
  intro p h
  cases h

theorem balancePosting (line : BitVec 5) : Statement (.balancePosting line) := by
  intro p h
  cases h

theorem holdPosting (line : BitVec 5) : Statement (.holdPosting line) := by
  intro p h
  cases h

theorem completePosting (line : BitVec 5) : Statement (.completePosting line) := by
  intro p h
  cases h

theorem releasePosting (line : BitVec 5) : Statement (.releasePosting line) := by
  intro p h
  cases h

theorem holdExpiredPosting (line : BitVec 5) : Statement (.holdExpiredPosting line) := by
  intro p h
  cases h

theorem refundPosting (line : BitVec 5) : Statement (.refundPosting line) := by
  intro p h
  cases h

theorem voidPosting (line : BitVec 5) : Statement (.voidPosting line) := by
  intro p h
  cases h

theorem cardReadPosting (line : BitVec 5) : Statement (.cardReadPosting line) := by
  intro p h
  cases h

theorem cardAdjustPosting (line : BitVec 5) : Statement (.cardAdjustPosting line) := by
  intro p h
  cases h

theorem cardLoadReplacementPosting (line : BitVec 5) : Statement (.cardLoadReplacementPosting line) := by
  intro p h
  cases h

theorem auditVisit (line : BitVec 5) : Statement (.auditVisit line) := by
  intro p h
  cases h

theorem clockTick : Statement .clockTick := by
  intro p h
  cases h

theorem windowEnd : Statement .windowEnd := by
  intro p h
  cases h

theorem graceEnd : Statement .graceEnd := by
  intro p h
  cases h

theorem sweepSelection : Statement .sweepSelection := by
  intro p h
  cases h

theorem closingSetFrozen : Statement .closingSetFrozen := by
  intro p h
  cases h

theorem payoutTakeUp : Statement .payoutTakeUp := by
  intro p h
  cases h

theorem payoutStep : Statement .payoutStep := by
  intro p h
  cases h

theorem cycleTotalAppend : Statement .cycleTotalAppend := by
  intro p h
  cases h

theorem closingSetClear : Statement .closingSetClear := by
  intro p h
  cases h

theorem statusRead (tag : BitVec 16) : Statement (.statusRead tag) := by
  intro p h
  cases h
  rfl

theorem setNoticeMask (tag : BitVec 16) (masks : BitVec 8) : Statement (.setNoticeMask tag masks) := by
  intro p h
  cases h
  rfl

theorem noticeAck (tag : BitVec 16) (cats : BitVec 8) : Statement (.noticeAck tag cats) := by
  intro p h
  cases h
  rfl

theorem setClock (tag : BitVec 16) (clock : BitVec 32) : Statement (.setClock tag clock) := by
  intro p h
  cases h
  rfl

theorem setConfig (tag : BitVec 16) (trip : BitVec 8) (t1 : BitVec 8) (t2 : BitVec 8) (grace : BitVec 16) : Statement (.setConfig tag trip t1 t2 grace) := by
  intro p h
  cases h
  rfl

theorem journalRead (tag : BitVec 16) : Statement (.journalRead tag) := by
  intro p h
  cases h
  rfl

theorem journalTake (tag : BitVec 16) (count : BitVec 8) : Statement (.journalTake tag count) := by
  intro p h
  cases h
  rfl

theorem linkReset (tag : BitVec 16) : Statement (.linkReset tag) := by
  intro p h
  cases h
  rfl

theorem beginLoad (tag : BitVec 16) : Statement (.beginLoad tag) := by
  intro p h
  cases h
  rfl

theorem cardLoadFirst (tag : BitVec 16) (block : BitVec 24) (images : FourImages) : Statement (.cardLoadFirst tag block images) := by
  intro p h
  cases h
  rfl

theorem cardLoadLast (tag : BitVec 16) (block : BitVec 24) (images : FourImages) : Statement (.cardLoadLast tag block images) := by
  intro p h
  cases h
  rfl

theorem storeReady (tag : BitVec 16) : Statement (.storeReady tag) := by
  intro p h
  cases h
  rfl

theorem flush (tag : BitVec 16) : Statement (.flush tag) := by
  intro p h
  cases h
  rfl

theorem audit (tag : BitVec 16) : Statement (.audit tag) := by
  intro p h
  cases h
  rfl

theorem cardRead (tag : BitVec 16) (slot : BitVec 24) : Statement (.cardRead tag slot) := by
  intro p h
  cases h
  rfl

theorem cardAdjust (tag : BitVec 16) (slot : BitVec 24) (fields : AdjustFields) : Statement (.cardAdjust tag slot fields) := by
  intro p h
  cases h
  rfl

theorem loadProgram (tag : BitVec 16) (index : BitVec 8) (fields : ProgramFields) : Statement (.loadProgram tag index fields) := by
  intro p h
  cases h
  rfl

theorem loadFeeClass (tag : BitVec 16) (index : BitVec 8) (fields : FeeFields) : Statement (.loadFeeClass tag index fields) := by
  intro p h
  cases h
  rfl

theorem loadShopTerms (tag : BitVec 16) (shop : BitVec 16) (fields : TermsFields) : Statement (.loadShopTerms tag shop fields) := by
  intro p h
  cases h
  rfl

theorem discardShadow (tag : BitVec 16) : Statement (.discardShadow tag) := by
  intro p h
  cases h
  rfl

theorem commitTables (tag : BitVec 16) : Statement (.commitTables tag) := by
  intro p h
  cases h
  rfl

theorem tableRead (tag : BitVec 16) (bank : BitVec 8) (table : BitVec 8) (index : BitVec 16) : Statement (.tableRead tag bank table index) := by
  intro p h
  cases h
  rfl

theorem holdRead (tag : BitVec 16) (ref : BitVec 32) : Statement (.holdRead tag ref) := by
  intro p h
  cases h
  rfl

theorem entryRead (tag : BitVec 16) (ref : BitVec 32) : Statement (.entryRead tag ref) := by
  intro p h
  cases h
  rfl

theorem cutover (tag : BitVec 16) : Statement (.cutover tag) := by
  intro p h
  cases h
  rfl

theorem freeze (tag : BitVec 16) : Statement (.freeze tag) := by
  intro p h
  cases h
  rfl

theorem rowRead (tag : BitVec 16) (set : BitVec 8) (row : BitVec 16) : Statement (.rowRead tag set row) := by
  intro p h
  cases h
  rfl

theorem carryRead (tag : BitVec 16) (shop : BitVec 16) : Statement (.carryRead tag shop) := by
  intro p h
  cases h
  rfl

theorem carrySet (tag : BitVec 16) (shop : BitVec 16) (carry : BitVec 32) : Statement (.carrySet tag shop carry) := by
  intro p h
  cases h
  rfl

theorem payoutRead (tag : BitVec 16) : Statement (.payoutRead tag) := by
  intro p h
  cases h
  rfl

theorem payoutTake (tag : BitVec 16) (count : BitVec 8) : Statement (.payoutTake tag count) := by
  intro p h
  cases h
  rfl

theorem setShopMode (tag : BitVec 16) (shop : BitVec 16) (mode : BitVec 8) : Statement (.setShopMode tag shop mode) := by
  intro p h
  cases h
  rfl

theorem suspend (tag : BitVec 16) (shop : BitVec 16) : Statement (.suspend tag shop) := by
  intro p h
  cases h
  rfl

theorem resume (tag : BitVec 16) (shop : BitVec 16) : Statement (.resume tag shop) := by
  intro p h
  cases h
  rfl

theorem counterRead (tag : BitVec 16) (selector : BitVec 16) (flags : BitVec 8) : Statement (.counterRead tag selector flags) := by
  intro p h
  cases h
  rfl

theorem counterClear (tag : BitVec 16) (selector : BitVec 16) : Statement (.counterClear tag selector) := by
  intro p h
  cases h
  rfl

theorem shopScan (tag : BitVec 16) (shop : BitVec 16) : Statement (.shopScan tag shop) := by
  intro p h
  cases h
  rfl

theorem frameStartDelimiter (port : Port) : Statement (.frameStartDelimiter port) := by
  intro p h
  cases h

theorem frameReaches601 (port : Port) : Statement (.frameReaches601 port) := by
  intro p h
  cases h

theorem transmitterFrameSent (port : Port) : Statement (.transmitterFrameSent port) := by
  intro p h
  cases h

end Sys2Proof.Laws.CommandFrame
end

