-- ==== Sys2Proof/Laws/Posting.lean ====
section
/-! SUPPORT. What an approved posting leaves, said once for every kind that writes a journal entry. -/

namespace Sys2Proof.Machine

/-- `t` is `s` but for the journal, the cycle controller and the hold table. -/
def OnlyBooks (s t : State) : Prop := ∃ j c h, t = { s with journal := j, cycle := c, holds := h }

theorem OnlyBooks.refl (s : State) : OnlyBooks s s := ⟨_, _, _, rfl⟩

theorem OnlyBooks.trans {s t u : State} (h : OnlyBooks s t) (k : OnlyBooks t u) : OnlyBooks s u := by
  obtain ⟨j, c, h, rfl⟩ := h
  obtain ⟨j', c', h', rfl⟩ := k
  exact ⟨j', c', h', rfl⟩

theorem modifyEntry_only (r : Ref) (f : Entry → Entry) (s : State) : OnlyBooks s (modifyEntry r f s) := by
  unfold modifyEntry
  split
  · exact OnlyBooks.refl s
  · exact ⟨_, _, _, rfl⟩

theorem moveAudit_only (b : Nat) (p q : Int) (s : State) :
    ∃ a, moveAudit b p q s = { s with store := { s.store with audit := a } } := by
  unfold moveAudit
  dsimp only
  split
  · exact ⟨_, rfl⟩
  · exact ⟨s.store.audit, rfl⟩

theorem lineAfter_eq (records : Block) (marks : BitVec 8) (l : Line) :
    lineAfter records marks l = postedLine l records marks := by
  unfold lineAfter postedLine
  rw [Bool.decide_and]

/-- The line of a posting, and the others. -/
theorem postLine_line (i : Nat) (records : Block) (marks : BitVec 8) (s : State) (j : Nat) :
    (postLine i records marks s).line j = if j = i then postedLine (s.line i) records marks else s.line j := by
  unfold postLine
  rw [line_touch, line_setLine, lineAfter_eq]

theorem postLine_recency (i : Nat) (records : Block) (marks : BitVec 8) (s : State) :
    (postLine i records marks s).buffer.recency = s.buffer.recency.filter (· != i) ++ [i] := rfl

theorem postedLine_held {l : Line} {records : Block} {marks : BitVec 8} (hr : l.state.ready = true)
    (h : (l.state = .dirty ∨ l.state = .writing) ∨ marks ≠ 0) :
    (postedLine l records marks).state = .dirty ∨ (postedLine l records marks).state = .writing := by
  unfold postedLine
  dsimp only
  obtain ⟨st, bl, re, di, ch, wa⟩ := l
  cases st <;> simp_all [LineState.ready]

theorem postedLine_free {l : Line} {records : Block} {marks : BitVec 8} (h : l.state ≠ .free) :
    (postedLine l records marks).state ≠ .free := by
  unfold postedLine
  dsimp only
  split
  · simp
  · exact h

/-- The mark of a posting that leaves record `k` of its line as `new` (R51). -/
def recordMark (s : State) (i : Nat) (x : InFlight) (new : CardRecord) : BitVec 8 :=
  if new = recordFor s i x then 0 else 1#8 <<< (x.slot % 8)

theorem postRecord_eq (i : Nat) (x : InFlight) (new : CardRecord) (s : State) :
    postRecord i (x.slot % 8) new s =
      postLine i (put unissued (s.line i).records (x.slot % 8) new) (recordMark s i x new) s := rfl

theorem recordMark_ne {s : State} {i : Nat} {x : InFlight} {new : CardRecord} (h : new ≠ recordFor s i x) :
    recordMark s i x new ≠ 0 := by
  unfold recordMark
  rw [if_neg h]
  have h8 : x.slot % 8 < 8 := Nat.mod_lt _ (by decide)
  generalize x.slot % 8 = k at h8
  interval_cases k <;> decide

theorem postLine_only (i : Nat) (records : Block) (marks : BitVec 8) (s : State) :
    OnlyBuffer s (postLine i records marks s) := by
  unfold postLine
  exact ⟨_, rfl⟩

theorem postRecord_only (i k : Nat) (new : CardRecord) (s : State) : OnlyBuffer s (postRecord i k new s) :=
  postLine_only _ _ _ s

theorem leaveLane_only (x : InFlight) (r : Option Ref) (s : State) : ∃ l, leaveLane x r s = { s with lanes := l } := by
  unfold leaveLane
  split
  · exact ⟨_, rfl⟩
  · exact ⟨s.lanes, rfl⟩

theorem leaveLane_lanes {s t : State} (h : t.lanes = s.lanes) (x : InFlight) (r : Option Ref) :
    (leaveLane x r t).lanes = (leaveLane x r s).lanes := by
  unfold leaveLane State.lane
  split
  · simp [State.setLane, h]
  · exact h

/-- `g` changes the cycle controller, raising CYCLE as R129 says, and nothing else. -/
def FollowUp (g : Event → Event) : Prop :=
  ∀ e, ∃ c, g e = { e with st := { e.st with cycle := c }, raised := e.raised ||| cycleRaised e.st.cycle c }

theorem followUp_id : FollowUp id := fun e => ⟨e.st.cycle, by rw [cycleRaised_same rfl, or_nothing]; rfl⟩

theorem followUp_freezeStep : FollowUp freezeStep := by
  intro e
  unfold freezeStep
  split
  · next h =>
    refine ⟨{ e.st.cycle.modifySet (closingSet e.st.cycle)
      (fun a => { a with mall := { a.mall with floatAtFreeze := e.st.store.float } }) with closing := .frozen }, ?_⟩
    have hc : ∀ c : Cycle, c.closing = .frozen → cycleRaised e.st.cycle c = catCycle := by
      intro c hc
      unfold cycleRaised
      rw [if_pos]
      rw [hc, h.1]
      exact ⟨by decide, .inl rfl⟩
    rw [hc _ rfl]
    rfl
  · exact ⟨e.st.cycle, by rw [cycleRaised_same rfl, or_nothing]⟩

/-- The notice of an event reads these parts alone of the state before it. -/
theorem NoticedAs.base {s m t : State} {more : Categories} (h : NoticedAs m t more) (h1 : m.oTx = s.oTx)
    (h2 : m.oCount = s.oCount) (h3 : m.notices = s.notices) (h4 : m.draws = s.draws)
    (h5 : m.journalOut.level = s.journalOut.level) (h6 : m.tables.shadow = s.tables.shadow)
    (h7 : m.cycle.closing = s.cycle.closing) : NoticedAs s t more := by
  have hr : raisedIn m t more = raisedIn s t more := by
    unfold raisedIn
    rw [h5, h6, h7]
  obtain ⟨a, b, c, d, e⟩ := h
  unfold NoticeDue at a b
  rw [hr, h1, h2, h3] at a b
  rw [hr, h3] at c
  rw [h3] at d
  rw [h4] at e
  exact ⟨a, b, c, d, e⟩

/-- What the posting at line `i` leaves: `m` is the state before the line is posted, `e` the event whose entry is about to
leave, with line `i` posted and the lanes and the management unit as `la` and `un`. -/
theorem departed_leaves (before m : State) (i : Nat) (x : InFlight) (records : Block) (marks : BitVec 8) (la : Tbl Lane)
    (un : MgmtUnit) (e : Event) (g : Event → Event) (hg : FollowUp g)
    (he : e.st = { postLine i records marks m with lanes := la, unit := un }) (hready : (m.line i).state.ready = true)
    (hraised : e.raised = 0) (hdemanded : e.demanded = 0) (hlatch : before.notices.latch = m.notices.latch) :
    let t := finish before (g (departed i x e))
    Departed m t i x m.holds
      ∧ t.journal = m.journal ∧ t.journalOut.copies = m.journalOut.copies
      ∧ t.supervision = m.supervision ∧ t.lanes = la
      ∧ t.cycle = (g (departed i x e)).st.cycle
      ∧ (departed i x e).st.cycle = m.cycle
      ∧ (departed i x e).st.store.float = t.store.float
      ∧ AuditIs m t
      ∧ ((m.line i).waiters.tail ≠ [] ∨ LineHeld m i ∨ marks ≠ 0 →
          LineKept (postedLine (m.line i) records marks) t i ∧ RankedLast m t i)
      ∧ (t.sTx = match e.gift with
          | none => m.sTx
          | some a => m.sTx ++ [giftFrame t a])
      ∧ (t.sCount = match e.gift with
          | none => m.sCount
          | some _ => { m.sCount with answers := m.sCount.answers + 1 })
      ∧ (NoDirectLoad m ∨ LineHeld m i ∨ marks ≠ 0 →
          t.store.float = m.store.float ∧ t.unit = un
            ∧ (e.reply = none → NoticedAs m t 0) ∧ (∀ r, e.reply = some r → FieldsSettled r → RepliedAs m t r 0)) := by
  intro t
  have hline := postLine_line i records marks m
  have hrec := postLine_recency i records marks m
  obtain ⟨b1, hb1⟩ := postLine_only i records marks m
  have hest : e.st = { m with buffer := b1, lanes := la, unit := un } := by rw [he, hb1]
  have heline : ∀ k, e.st.line k = if k = i then postedLine (m.line i) records marks else m.line k := by
    intro k
    rw [← hline k, he]
    rfl
  have herec : e.st.buffer.recency = m.buffer.recency.filter (· != i) ++ [i] := by rw [← hrec, he]
  obtain ⟨ho, fl, ni, ta, re, b, p, w, f, u, r, hd, hlook, hta, hquiet, hkeep⟩ := departed_any i x e
  obtain ⟨cy, hgd⟩ := hg (departed i x e)
  obtain ⟨fa, fb, fc, fd, fn, fnt, flv, hf⟩ := finish_frame before (g (departed i x e))
  have ht : t = finish before (g (departed i x e)) := rfl
  have hst : t = { (departed i x e).st with
      cycle := cy, sTx := fa, oTx := fb, sCount := fc, oCount := fd, draws := fn, notices := fnt
      journalOut := { (departed i x e).st.journalOut with level := flv } } := by rw [ht, hf, hgd]
  have hwork : Works e.st t := by
    refine hkeep.trans (works_same ?_ ?_ ?_ ?_) <;> rw [hst]
  have hgift : (g (departed i x e)).gift = e.gift := by rw [hgd, hd]
  have hheld : LineHeld m i ∨ marks ≠ 0 → LineHeld e.st i := by
    intro h
    have h1 := postedLine_held (records := records) hready h
    unfold LineHeld
    rwa [heline, if_pos rfl]
  have hnd : NoDirectLoad m → NoDirectLoad e.st := by
    intro h b hb
    refine h b ?_
    rw [he] at hb
    exact hb
  have hrest : (m.line i).waiters.tail ≠ [] ∨ LineHeld m i ∨ marks ≠ 0 → Resting (e.st.line i) := by
    rintro (h | h)
    · have hfree : (m.line i).state ≠ .free := by
        intro h
        rw [h] at hready
        cases hready
      rw [heline, if_pos rfl]
      exact .inr (.inr ⟨postedLine_free hfree, h⟩)
    · exact (hheld h).resting
  have hother : ∀ j, j ≠ i → e.st.line j = m.line j := fun j hj => by rw [heline, if_neg hj]
  have hranks : ∀ q : Nat → Bool, (∀ j, q j = true → decide (Resting (e.st.line j)) = true) →
      t.buffer.recency.filter q = (m.buffer.recency.filter (· != i) ++ [i]).filter q := by
    intro q hq
    have h := congrArg (List.filter q) hwork.rank
    unfold restingRank at h
    rw [filter_sub hq, filter_sub hq, herec] at h
    exact h
  refine ⟨⟨?_, ?_, ?_, ?_, ?_, ?_, ?_⟩, ?_, ?_, ?_, ?_, ?_, ?_, ?_, ?_, ?_, ?_, ?_, ?_⟩
  · rw [hest] at hlook
    refine hlook.congr ?_ ?_ ?_ ?_ ?_ ?_ ?_ <;> rw [hst]
  · intro j hj hr
    have h := hwork.lines j (by rwa [hother j hj])
    rwa [hother j hj] at h
  · unfold restingRank
    rw [List.filter_filter, List.filter_filter, hranks, filter_last]
    · simp
    · intro j hj
      simp only [Bool.and_eq_true, bne_iff_ne, decide_eq_true_eq] at hj ⊢
      rw [hother j hj.1]
      exact hj.2
  · rw [hst, hd]; dsimp only; rw [hest]; exact ⟨rfl, rfl, rfl⟩
  · rw [hst, hd]
    unfold State.activeTables
    dsimp only
    rw [hest] at hta
    exact ⟨hta.1, hta.2.1⟩
  · rw [hst, hd]; dsimp only; rw [hest]; exact ⟨rfl, rfl⟩
  · rw [hst, hd]; dsimp only; rw [hest]; exact ⟨rfl, ⟨rfl, rfl⟩, rfl, rfl, rfl⟩
  · rw [hst, hd]; dsimp only; rw [hest]
  · rw [hst, hd]; dsimp only; rw [hest]
  · rw [hst, hd]; dsimp only; rw [hest]
  · rw [hst, hd]; dsimp only; rw [hest]
  · rw [ht, hf]
  · rw [hd]; dsimp only; rw [hest]
  · rw [hst]
  · unfold AuditIs
    rw [hst, hd]; dsimp only; rw [hest]
  · intro h
    have hi := hwork.lines i (hrest h)
    rw [heline, if_pos rfl] at hi
    refine ⟨hi, ?_⟩
    unfold RankedLast
    rw [hranks]
    · rw [List.filter_append, List.filter_filter]
      congr 1
      · congr 1
        funext j
        generalize decide (Resting (m.line j)) = z
        by_cases hj : j = i <;> cases z <;> simp [hj]
      · simp
    · intro j hj
      simp only [Bool.or_eq_true, beq_iff_eq, decide_eq_true_eq] at hj ⊢
      rcases hj with rfl | hj
      · exact hrest h
      · by_cases hji : j = i
        · subst hji; exact hrest h
        · rwa [hother j hji]
  · rw [ht, finish_sTx, hgift]
    cases e.gift with
    | none => rw [hgd, hd, hest]
    | some a => dsimp only; rw [hgd, hd, hest]
  · rw [ht, finish_sCount, hgift]
    cases e.gift with
    | none => rw [hgd, hd, hest]
    | some a => dsimp only; rw [hgd, hd, hest]
  · intro h
    obtain ⟨q1, q2, q3⟩ := hquiet (h.imp hnd hheld)
    have hreply : (g (departed i x e)).reply = e.reply := by rw [hgd, hd]; exact q3
    have hraises : Raises before m (g (departed i x e)) 0 := by
      rw [hgd, hd]
      refine ⟨?_, hdemanded, ?_, hlatch, ?_, ?_⟩
      · dsimp only
        rw [hraised, hest, or_nothing]
        exact congrArg (· ||| _) BitVec.zero_or
      · rw [hest]
      · rw [hest]; exact ⟨rfl, rfl, rfl⟩
      · rw [hest]
    refine ⟨?_, ?_, ?_, ?_⟩
    · rw [hst, hd]; dsimp only; rw [q1, hest]
    · rw [hst, hd]; dsimp only; rw [q2, hest]
    · exact fun hr => finish_noticed hraises (hreply.trans hr)
    · exact fun r' hr hs => finish_replied hraises r' (hreply.trans hr) hs

/-- What the posting of an S-port transaction leaves that assigned `ref` and leaves its record as `new`. -/
theorem finishPosting_leaves (before : State) (i : Nat) (x : InFlight) (new : CardRecord) (ref : Option Ref)
    (answer : GiftAnswer) (e : Event) (g : Event → Event) (hg : FollowUp g) (hrep : e.reply = none)
    (hready : (e.st.line i).state.ready = true) (hraised : e.raised = 0) (hdemanded : e.demanded = 0)
    (hlatch : before.notices.latch = e.st.notices.latch) :
    let t := finish before (g (finishPosting i x new ref answer e))
    Departed e.st t i x e.st.holds
      ∧ Answered e.st t x ref answer
      ∧ t.journal = e.st.journal
      ∧ t.journalOut.copies = e.st.journalOut.copies
      ∧ t.supervision = e.st.supervision
      ∧ t.cycle = (g (finishPosting i x new ref answer e)).st.cycle
      ∧ (finishPosting i x new ref answer e).st.cycle = e.st.cycle
      ∧ t.store.float = (finishPosting i x new ref answer e).st.store.float
      ∧ ((e.st.line i).waiters.tail ≠ [] ∨ LineHeld e.st i ∨ new ≠ recordFor e.st i x → PostedLine e.st t i x new)
      ∧ AuditIs e.st t
      ∧ (NoDirectLoad e.st ∨ LineHeld e.st i ∨ new ≠ recordFor e.st i x →
          t.store.float = e.st.store.float ∧ t.unit = e.st.unit ∧ NoticedAs e.st t 0) := by
  intro t
  have hpr := postRecord_eq i x new e.st
  have hmarks : new ≠ recordFor e.st i x → recordMark e.st i x new ≠ 0 := recordMark_ne
  obtain ⟨b1, hb1⟩ := postRecord_only i (x.slot % 8) new e.st
  obtain ⟨la, hla⟩ := leaveLane_only x ref (postRecord i (x.slot % 8) new e.st)
  have hlanes : la = (leaveLane x ref e.st).lanes := by
    have h1 : la = (leaveLane x ref (postRecord i (x.slot % 8) new e.st)).lanes := by rw [hla]
    rw [h1]
    exact leaveLane_lanes (by rw [hb1]) x _
  obtain ⟨e3, he3⟩ : ∃ e3 : Event, e3 = ({ e with
      st := leaveLane x ref (postRecord i (x.slot % 8) new e.st), gift := some answer } : Event) := ⟨_, rfl⟩
  have hfp : finishPosting i x new ref answer e = departed i x e3 := by rw [he3]; rfl
  have hst3 : e3.st = { postLine i (put unissued (e.st.line i).records (x.slot % 8) new) (recordMark e.st i x new) e.st with
      lanes := la, unit := e.st.unit } := by
    rw [he3]
    dsimp only
    rw [hla, hpr]
    rfl
  obtain ⟨d1, d2, d3, d4, d5, d7, d8, d9, d10, d11, d13, d14, d15⟩ :=
    departed_leaves before e.st i x _ _ la e.st.unit e3 g hg hst3 hready (by rw [he3]; exact hraised)
      (by rw [he3]; exact hdemanded) hlatch
  rw [← hfp] at d1 d2 d3 d4 d5 d7 d8 d9 d10 d11 d13 d14 d15
  have hgift : e3.gift = some answer := by rw [he3]
  rw [hgift] at d13 d14
  refine ⟨d1, ⟨d13, d5.trans hlanes, d14⟩, d2, d3, d4, d7, d8, d9.symm, ?_, d10, ?_⟩
  · intro h
    obtain ⟨k, rank⟩ := d11 (h.imp id (Or.imp id hmarks))
    have hrecords : (t.line i).records = put unissued (e.st.line i).records (x.slot % 8) new := k.records
    refine ⟨?_, ?_, ?_, rank⟩
    · unfold recordFor recordOf; rw [hrecords, look_put_self]
    · intro n hn
      unfold recordOf; rw [hrecords, look_put_other _ _ _ hn]
    · rw [hrecords]
      exact k
  · intro h
    obtain ⟨r1, r2, r3, -⟩ := d15 (h.imp id (Or.imp id hmarks))
    exact ⟨r1, r2, r3 (by rw [he3]; exact hrep)⟩

/-! ### The journal (R100, R115) and the accumulators (R121, R122) -/

/-- R100: the tries of `nextFree`: it stops at the first free reference, or, having met as many held ones as it has tries,
behind them. -/
theorem nextFree_tries (held : List Ref) (n : Nat) (r : Ref) :
    ∃ d, 1 ≤ d ∧ d ≤ 2 * (n + 1) ∧ nextFree held (n + 1) r = r + BitVec.ofNat 32 d ∧ r + BitVec.ofNat 32 d ≠ 0
      ∧ (∀ k, 1 ≤ k → k < d → r + BitVec.ofNat 32 k = 0 ∨ r + BitVec.ofNat 32 k ∈ held)
      ∧ (r + BitVec.ofNat 32 d ∈ held → n + 1 < d ∨ (d = n + 1 ∧ ∀ k, 1 ≤ k → k ≤ d → r + BitVec.ofNat 32 k ≠ 0)) := by
  induction n generalizing r with
  | zero =>
    unfold nextFree nextFree
    dsimp only
    by_cases hz : r + 1 = 0
    · have h2 : r + BitVec.ofNat 32 2 = 1 := by bv_omega
      refine ⟨2, by omega, by omega, ?_, ?_, ?_, fun _ => .inl (by omega)⟩
      · simp only [hz, if_true, h2, ite_self]
      · rw [h2]; decide
      · intro k h1 h2
        obtain rfl : k = 1 := by omega
        exact .inl hz
    · refine ⟨1, by omega, by omega, ?_, hz, ?_, ?_⟩
      · simp only [hz, if_false, ite_self]
        rfl
      · intro k h1 h2; omega
      · intro _
        refine .inr ⟨rfl, fun k h1 h2 => ?_⟩
        obtain rfl : k = 1 := by omega
        exact hz
  | succ n ih =>
    have hstep : nextFree held (n + 1 + 1) r =
        if (if r + 1 = 0 then (1 : Ref) else r + 1) ∈ held
        then nextFree held (n + 1) (if r + 1 = 0 then 1 else r + 1) else (if r + 1 = 0 then 1 else r + 1) := rfl
    by_cases hz : r + 1 = 0
    · have h2 : ∀ d, r + BitVec.ofNat 32 (d + 2) = 1 + BitVec.ofNat 32 d := by intro d; bv_omega
      have h20 : r + BitVec.ofNat 32 2 = 1 := by bv_omega
      rw [if_pos hz] at hstep
      by_cases hm : (1 : Ref) ∈ held
      · rw [if_pos hm] at hstep
        obtain ⟨d, d1, d2, d3, d4, d5, d6⟩ := ih 1
        refine ⟨d + 2, by omega, by omega, ?_, ?_, ?_, ?_⟩
        · rw [hstep, d3, h2]
        · rw [h2]; exact d4
        · intro k k1 k2
          obtain rfl | rfl | ⟨j, rfl, hj⟩ : k = 1 ∨ k = 2 ∨ ∃ j, k = j + 2 ∧ 1 ≤ j := by
            rcases Nat.lt_or_ge k 3 with h | h
            · omega
            · exact .inr (.inr ⟨k - 2, by omega, by omega⟩)
          · exact .inl hz
          · rw [h20]; exact .inr hm
          · rw [h2]; exact d5 j hj (by omega)
        · intro h
          rw [h2] at h
          rcases d6 h with h | ⟨h, -⟩ <;> exact .inl (by omega)
      · rw [if_neg hm] at hstep
        refine ⟨2, by omega, by omega, by rw [hstep, h20], by rw [h20]; decide, ?_, fun h => absurd (h20 ▸ h) hm⟩
        intro k k1 k2
        obtain rfl : k = 1 := by omega
        exact .inl hz
    · have h1 : ∀ d, r + BitVec.ofNat 32 (d + 1) = r + 1 + BitVec.ofNat 32 d := by intro d; bv_omega
      rw [if_neg hz] at hstep
      by_cases hm : r + 1 ∈ held
      · rw [if_pos hm] at hstep
        obtain ⟨d, d1, d2, d3, d4, d5, d6⟩ := ih (r + 1)
        refine ⟨d + 1, by omega, by omega, ?_, ?_, ?_, ?_⟩
        · rw [hstep, d3, h1]
        · rw [h1]; exact d4
        · intro k k1 k2
          obtain rfl | ⟨j, rfl, hj⟩ : k = 1 ∨ ∃ j, k = j + 1 ∧ 1 ≤ j := by
            rcases Nat.lt_or_ge k 2 with h | h
            · omega
            · exact .inr ⟨k - 1, by omega, by omega⟩
          · exact .inr hm
          · rw [h1]; exact d5 j hj (by omega)
        · intro h
          rw [h1] at h
          rcases d6 h with h | ⟨h, h'⟩
          · exact .inl (by omega)
          · refine .inr ⟨by omega, fun k k1 k2 => ?_⟩
            obtain rfl | ⟨j, rfl, hj⟩ : k = 1 ∨ ∃ j, k = j + 1 ∧ 1 ≤ j := by
              rcases Nat.lt_or_ge k 2 with h | h
              · omega
              · exact .inr ⟨k - 1, by omega, by omega⟩
            · exact hz
            · rw [h1]; exact h' j hj (by omega)
      · rw [if_neg hm] at hstep
        refine ⟨1, by omega, by omega, by rw [hstep]; rfl, hz, fun k k1 k2 => by omega, fun h => absurd h hm⟩

/-- R100: the next reference that a journal entry leaves, for a hold table within its places: the tries do not run out. -/
theorem nextFree_next (held : List Ref) (r : Ref) (h : held.length ≤ 1024) :
    NextReference held r (nextFree held (held.length + 1) r) := by
  obtain ⟨d, d1, d2, d3, d4, d5, d6⟩ := nextFree_tries held held.length r
  rw [d3]
  refine ⟨d4, fun hm => ?_, d, d1, rfl, d5⟩
  have hnodup : ((List.range d).map (fun k => r + BitVec.ofNat 32 (k + 1))).Nodup := by
    refine List.Nodup.map_on (fun a ha b hb hab => ?_) List.nodup_range
    rw [List.mem_range] at ha hb
    have : BitVec.ofNat 32 (a + 1) = BitVec.ofNat 32 (b + 1) := by
      have := congrArg (fun z => z - r) hab
      simpa [BitVec.add_comm r, BitVec.add_sub_cancel] using this
    have := congrArg BitVec.toNat this
    simp only [BitVec.toNat_ofNat] at this
    omega
  have hall : ∀ k, 1 ≤ k → k ≤ d → r + BitVec.ofNat 32 k = 0 ∨ r + BitVec.ofNat 32 k ∈ held := by
    intro k k1 k2
    rcases Nat.lt_or_ge k d with hk | hk
    · exact d5 k k1 hk
    · obtain rfl : k = d := by omega
      exact .inr hm
  rcases d6 hm with hd | ⟨hd, hz⟩
  · have := (List.subperm_of_subset hnodup (l₂ := 0 :: held) fun z hz => by
      obtain ⟨k, hk, rfl⟩ := List.mem_map.1 hz
      rw [List.mem_range] at hk
      rcases hall (k + 1) (by omega) (by omega) with h | h
      · rw [h]; exact List.mem_cons_self
      · exact List.mem_cons_of_mem _ h).length_le
    simp only [List.length_map, List.length_range, List.length_cons] at this
    omega
  · have := (List.subperm_of_subset hnodup (l₂ := held) fun z hz' => by
      obtain ⟨k, hk, rfl⟩ := List.mem_map.1 hz'
      rw [List.mem_range] at hk
      rcases hall (k + 1) (by omega) (by omega) with h | h
      · exact absurd h (hz (k + 1) (by omega) (by omega))
      · exact h).length_le
    simp only [List.length_map, List.length_range] at this
    omega

/-- R100: the journal that the writing of an entry leaves. -/
theorem writeEntry_written (make : Ref → Entry) (s : State) (hm : (make s.journal.next).ref = s.journal.next) :
    JournalWritten (holdRefs s.holds.entries) (make s.journal.next) s.journal.ring (writeEntry make s).journal := by
  refine ⟨?_, fun h => ?_⟩
  · rw [hm]; rfl
  · rw [hm]; exact nextFree_next _ _ h

theorem limit_add (x a n : Nat) : decide (min (x + a) n = n) = decide (n ≤ x + a) := by
  congr 1
  simp

theorem addToRow_redeemed (a : Nat) (r : Row) : addToRow .redeemed a r = addRedeemed a r := by
  unfold addToRow addRedeemed addAmount raiseCount atLimit
  dsimp only [Config.maxSum, Config.maxCount]
  rw [limit_add, limit_add, Bool.decide_or]

theorem addToRow_sold (a : Nat) (r : Row) : addToRow .sold a r = addSold a r := by
  unfold addToRow addSold addAmount raiseCount atLimit
  dsimp only [Config.maxSum, Config.maxCount]
  rw [limit_add, limit_add, Bool.decide_or]

theorem addToRow_refunded (a : Nat) (r : Row) : addToRow .refunded a r = addRefunded a r := by
  unfold addToRow addRefunded addAmount raiseCount atLimit
  dsimp only [Config.maxSum, Config.maxCount]
  rw [limit_add, limit_add, Bool.decide_or]

theorem takeFromRow_out {k : Account} {kind : Kind} (h : accountOf kind = k) (a : Nat) (r : Row) :
    takeFromRow k a r = takenOut kind a r := by
  subst h
  cases kind <;> rfl

/-- What a live approval that writes an entry leaves: the card, the float, the copy, the answer and the lane, and the
journal, accumulators and hold table as `post` and the writing leave them. -/
theorem approve_posted (before : State) (i : Nat) (x : InFlight) (old new : CardRecord) (ruling : Ruling) (amount : Nat)
    (related : Option Ref) (cyc : BitVec 32) (post : State → State) (e : Event) (g : Event → Event) (hg : FollowUp g)
    (hrep : e.reply = none) (hraised : e.raised = 0) (hdemanded : e.demanded = 0)
    (hlatch : before.notices.latch = e.st.notices.latch) (hp : OnlyBooks e.st (post e.st))
    (hclosing : (post e.st).cycle.closing = e.st.cycle.closing) (hnext : (post e.st).journal.next = e.st.journal.next)
    (hr : (e.st.line i).state.ready = true) (hn : new ≠ recordFor e.st i x) :
    let t := finish before (g (approve i x old new ruling amount related cyc post e))
    let entry := transactionEntry e.st x amount new.sequence related cyc e.st.journal.next
    PostedAs e.st t i x old new entry (post e.st).holds
      ∧ Answered e.st t x (some e.st.journal.next) (postedAnswer x ruling none amount e.st.journal.next new)
      ∧ JournalWritten (holdRefs (post e.st).holds.entries) entry (post e.st).journal.ring t.journal
      ∧ t.cycle = (g (approve i x old new ruling amount related cyc post e)).st.cycle
      ∧ (approve i x old new ruling amount related cyc post e).st.cycle = (post e.st).cycle
      ∧ (approve i x old new ruling amount related cyc post e).st.store.float = t.store.float := by
  intro t entry
  obtain ⟨j, c, h, hpost⟩ := hp
  obtain ⟨au, hau⟩ := moveAudit_only x.block ((new.balance : Int) - old.balance) ((new.held : Int) - old.held)
    (moveFloat ((new.balance : Int) - old.balance) (post e.st))
  obtain ⟨m, hm⟩ : ∃ m, m = writeEntry (transactionEntry e.st x amount new.sequence related cyc)
      (moveAudit x.block ((new.balance : Int) - old.balance) ((new.held : Int) - old.held)
        (moveFloat ((new.balance : Int) - old.balance) (post e.st))) := ⟨_, rfl⟩
  have hmst : m = { e.st with
      journal := m.journal, cycle := c, holds := h
      store := { e.st.store with
        float := e.st.store.float + BitVec.ofInt 40 ((new.balance : Int) - old.balance), audit := au }
      journalOut := { e.st.journalOut with copies := m.journalOut.copies } } := by
    rw [hm, hau, hpost]
    rfl
  have happ : approve i x old new ruling amount related cyc post e =
      finishPosting i x new (some e.st.journal.next) (postedAnswer x ruling none amount e.st.journal.next new)
        { e with st := m } := by rw [hm]; rfl
  have hmline : ∀ k, m.line k = e.st.line k := by rw [hmst]; exact fun _ => rfl
  have hnew : new ≠ recordFor m i x := by unfold recordFor; rw [hmline]; exact hn
  have hjournal : JournalWritten (holdRefs (post e.st).holds.entries) entry (post e.st).journal.ring m.journal := by
    have hj := writeEntry_written (transactionEntry e.st x amount new.sequence related cyc)
      (moveAudit x.block ((new.balance : Int) - old.balance) ((new.held : Int) - old.held)
        (moveFloat ((new.balance : Int) - old.balance) (post e.st))) rfl
    rw [← hm] at hj
    rw [hau] at hj
    dsimp only [moveFloat] at hj
    rw [hnext] at hj
    exact hj
  have hcopies : m.journalOut.copies = e.st.journalOut.copies ++ [entry] := by
    rw [hm, hau]
    unfold writeEntry
    dsimp only [moveFloat]
    rw [hnext, hpost]
  obtain ⟨d, a, p1, p2, p3, p5, p6, p7, p8, p11, p10⟩ := finishPosting_leaves before i x new (some e.st.journal.next)
    (postedAnswer x ruling none amount e.st.journal.next new) { e with st := m } g hg hrep (by rw [hmline]; exact hr)
    hraised hdemanded (by rw [hmst]; exact hlatch)
  rw [← happ] at d a p1 p2 p3 p5 p6 p7 p8 p10 p11
  obtain ⟨q1, q2, q3⟩ := p10 (.inr (.inr hnew))
  have q4 := p8 (.inr (.inr hnew))
  have hmaudit : AuditIs (moveAudit x.block ((new.balance : Int) - old.balance) ((new.held : Int) - old.held) e.st) t := by
    have h1 : m.store.audit =
        (moveAudit x.block ((new.balance : Int) - old.balance) ((new.held : Int) - old.held) e.st).store.audit := by
      rw [hm, hpost]
      unfold writeEntry moveAudit moveFloat
      dsimp only
      split <;> rfl
    unfold AuditIs at p11 ⊢
    rw [← h1]
    exact p11
  dsimp only at d a p1 p2 p3 p5 p6 p7 q1 q2 q3 q4
  rw [← p1] at hjournal
  rw [hcopies] at p2
  have hh : (post e.st).holds = h := by rw [hpost]
  have hcl : c.closing = e.st.cycle.closing := by rw [← hclosing, hpost]
  have q3' : NoticedAs e.st t 0 := by
    refine q3.base ?_ ?_ ?_ ?_ ?_ ?_ ?_ <;> rw [hmst]
    exact hcl
  rw [hmst] at d a p3 p6 q1 q2 q4
  rw [hh]
  refine ⟨⟨⟨d.left, d.others, d.rank, ⟨d.store.copies, d.store.valid, d.store.phase⟩, d.tables, d.kept,
      ⟨d.links.pending, d.links.receivers, d.links.address, d.links.sent⟩⟩, ⟨q4.record, q4.neighbours, q4.line, q4.rank⟩, q1, hmaudit,
    p2, ⟨p3, q2⟩, q3'⟩, ⟨a.frame, ?_, a.counted⟩, hh ▸ hjournal, p5, ?_, p7.symm⟩
  · have hl := a.lanes
    rw [hl]
    refine leaveLane_lanes ?_ x _
    rfl
  · rw [p6, hpost]

/-! ### In the words of the statements -/

theorem headEntry_spec {s : State} {i : Nat} {k : Kind} {x : InFlight} (h : headEntry s i k = some x) :
    (s.line i).state.ready = true ∧ x.kind = k := by
  unfold headEntry at h
  dsimp only at h
  split at h
  · next hr =>
    split at h
    · split at h
      · split at h
        · next hk => injection h with h; subst h; exact ⟨hr, hk⟩
        · cases h
      · cases h
    · cases h
  · cases h

theorem sequence_ne (a b : CardRecord) (h : a.sequence = b.sequence + 1) : a ≠ b := by
  rintro rfl
  simp at h

theorem transactionEntry_eq (s : State) (x : InFlight) (p : Party) (card : BitVec 64) (ho : x.origin = .request p card) (amount seq related cyc) (ref : Option Nat)
   (hr : ref = if x.kind = .redeem ∨ x.kind = .complete then some 0 else none) :
   transactionEntry s x amount seq related cyc s.journal.next = entryFor s x (some p) amount seq related ref cyc := by
  subst hr
  unfold transactionEntry entryFor
  rw [ho]

theorem postedAnswer_eq (x : InFlight) (p : Party) (card : BitVec 64) (ho : x.origin = .request p card)
    (ruling : Ruling) (reason : Option Reason) (amount : Nat) (ref : Ref) (r : CardRecord) :
    postedAnswer x ruling reason amount ref r = answerTo p card x.kind x.training ruling reason amount ref r := by
  unfold postedAnswer answerTo partyOf available
  rw [ho]

theorem approved_as (s : State) (i : Nat) (x : InFlight) (p : Party) (card : BitVec 64) (old new : CardRecord)
    (ruling : Ruling) (amount : Nat) (related : Option Ref) (cyc : BitVec 32) (post : State → State) (e : Event)
    (g : Event → Event) (k : Kind) (hg : FollowUp g) (hx : headEntry s i k = some x) (ht : x.training = false)
    (ho : x.origin = .request p card) (hes : ∃ c, e.st = { s with cycle := c } ∧ c.closing = s.cycle.closing)
    (hrep : e.reply = none) (hraised : e.raised = 0) (hdemanded : e.demanded = 0) (hp : OnlyBooks e.st (post e.st))
    (hclosing : (post e.st).cycle.closing = e.st.cycle.closing) (hnext : (post e.st).journal.next = e.st.journal.next)
    (hold : old = recordFor s i x) (hseq : new.sequence = old.sequence + 1) (entry : Entry)
    (hent : entry = entryFor s x (some p) amount new.sequence related
      (if x.kind = .redeem ∨ x.kind = .complete then some 0 else none) cyc) :
    let t := finish s (g (approve i x old new ruling amount related cyc post e))
    ApprovedAs s t i x p card old new ruling entry (post e.st).holds
      ∧ JournalWritten (holdRefs (post e.st).holds.entries) entry (post e.st).journal.ring t.journal
      ∧ t.cycle = (g (approve i x old new ruling amount related cyc post e)).st.cycle
      ∧ (approve i x old new ruling amount related cyc post e).st.cycle = (post e.st).cycle
      ∧ (approve i x old new ruling amount related cyc post e).st.store.float = t.store.float := by
  intro t
  obtain ⟨hr, hk⟩ := headEntry_spec hx
  obtain ⟨c, hc, hcc⟩ := hes
  have hl : ∀ j, e.st.line j = s.line j := by rw [hc]; exact fun _ => rfl
  have hrec : recordFor e.st i x = recordFor s i x := by unfold recordFor; rw [hl]
  obtain ⟨a1, a2, a3, a5, a6, a7⟩ := approve_posted s i x old new ruling amount related cyc post e g hg hrep hraised
    hdemanded (by rw [hc]) hp hclosing hnext (by rw [hl]; exact hr) (by rw [hrec, ← hold]; exact sequence_ne _ _ hseq)
  have he : transactionEntry e.st x amount new.sequence related cyc e.st.journal.next = entry := by
    rw [hent, ← transactionEntry_eq s x p card ho _ _ _ _ _ rfl, hc]; rfl
  rw [he] at a1 a3
  generalize (post e.st).holds = ho' at a1 a3 ⊢
  have hnot : NoticedAs s t 0 := by
    refine a1.noticed.base ?_ ?_ ?_ ?_ ?_ ?_ ?_ <;> rw [hc]
    exact hcc
  rw [hc] at a1 a2
  rw [postedAnswer_eq x p card ho, ht] at a2
  have hea : entry.amount = amount := by rw [hent]; rfl
  have d := a1.departed
  have l := a1.line
  refine ⟨⟨⟨⟨d.left, d.others, d.rank, ⟨d.store.copies, d.store.valid, d.store.phase⟩, d.tables, d.kept,
      ⟨d.links.pending, d.links.receivers, d.links.address, d.links.sent⟩⟩, ⟨l.record, l.neighbours, l.line, l.rank⟩, a1.float, ?_,
    a1.copy, a1.kept, hnot⟩, ?_⟩, a3, a5, a6, a7⟩
  · have := a1.audit
    unfold AuditIs at this ⊢
    refine this.trans ?_
    unfold moveAudit
    dsimp only
    split <;> rfl
  · refine ⟨?_, ?_, a2.counted⟩
    · rw [a2.frame, hea]
    · rw [a2.lanes]
      refine leaveLane_lanes ?_ x _
      rfl

theorem postAmount_books (k n a) (s : State) : OnlyBooks s (postAmount k n a s) := ⟨_, _, _, rfl⟩

theorem not_foundExpired {s : State} {r : CardRecord} (h : NotExpired s r) : foundExpired s r = false := by
  unfold foundExpired
  unfold NotExpired at h
  cases hd : r.expiryDay with
  | none => simp
  | some d =>
    have := h d hd
    have h2 : ¬ d < today s := by unfold today; omega
    simp [h2]

/-- What the posting of a transaction that assigns no reference leaves; `pre` makes its counts, and for a VOID its
grace-void count. -/
theorem leaves_books (s : State) (i : Nat) (x : InFlight) (new : CardRecord) (answer : GiftAnswer)
    (pre : State → State) (g : Event → Event) (hg : FollowUp g)
    (hpre : ∃ v c d, pre s = { s with supervision := v, cycle := c, sCount := d } ∧ c.closing = s.cycle.closing)
    (hx : (s.line i).state.ready = true) (t : State)
    (ht : t = finish s (g (finishPosting i x new none answer { st := pre s }))) :
    LeavesBooks s t i x new ∧ t.supervision = (pre s).supervision
      ∧ t.cycle = (g (finishPosting i x new none answer { st := pre s })).st.cycle
      ∧ (finishPosting i x new none answer { st := pre s }).st.cycle = (pre s).cycle
      ∧ t.store.float = (finishPosting i x new none answer { st := pre s }).st.store.float
      ∧ t.sTx = s.sTx ++ [giftFrame t answer] ∧ t.lanes = (leaveLane x none s).lanes
      ∧ t.sCount = { (pre s).sCount with answers := (pre s).sCount.answers + 1 } := by
  obtain ⟨v, c, d, hp, hcc⟩ := hpre
  have hl : ∀ j, (pre s).line j = s.line j := by rw [hp]; exact fun _ => rfl
  obtain ⟨d1, d2, d3, d4, d5, d7, d8, d9, d10, d12, d13⟩ :=
    finishPosting_leaves s i x new none answer { st := pre s } g hg rfl (by rw [hl]; exact hx) rfl rfl (by rw [hp])
  dsimp only at d1 d2 d3 d4 d5 d7 d8 d9 d10 d12 d13
  rw [← ht] at d1 d2 d3 d4 d5 d7 d9 d10 d12 d13
  have hr : recordFor (pre s) i x = recordFor s i x := by unfold recordFor; rw [hl]
  unfold LineHeld at d10 d13
  rw [hl, hr] at d10 d13
  refine ⟨⟨?_, ?_, ?_, ?_, ?_, ?_⟩, d5, d7, d8, d9, ?_, ?_, d2.counted⟩
  · rw [hp] at d1; exact ⟨d1.left, d1.others, d1.rank, ⟨d1.store.copies, d1.store.valid, d1.store.phase⟩, d1.tables, d1.kept,
      ⟨d1.links.pending, d1.links.receivers, d1.links.address, d1.links.sent⟩⟩
  · rw [hp] at d3; exact d3
  · rw [hp] at d4; exact d4
  · rw [hp] at d12; exact d12
  · intro h
    have := d10 h
    rw [hp] at this
    exact ⟨this.record, this.neighbours, this.line, this.rank⟩
  · intro h
    obtain ⟨k1, k2, k3⟩ := d13 (h.imp (fun h => by rw [hp]; exact h) id)
    have k4 : NoticedAs s t 0 := by
      refine k3.base ?_ ?_ ?_ ?_ ?_ ?_ ?_ <;> rw [hp]
      exact hcc
    rw [hp] at k1 k2
    exact ⟨k1, k2, k4⟩
  · have h := d2.frame
    rw [hp] at h
    exact h
  · rw [d2.lanes]
    refine leaveLane_lanes ?_ _ _
    rw [hp]

end Sys2Proof.Machine
end

