-- ==== Sys2Proof/Tests/Slice0.lean ====
section
/-! SUPPORT. The model's own tests: the checks of WellFormed, single steps whose expected results are the manual's worked
figures, and for every obligation with hypotheses a concrete case that meets them together. -/

open Sys2Proof Sys2Proof.Machine

namespace Sys2Proof.Tests

/- The tests one after another: each waits in the kernel for those before it. -/
set_option Elab.async false

/-- The test of a next state; a fault or a refusal fails it. -/
def after (o : Host.Outcome State Fault Refusal) (f : State → Bool) : Bool :=
  match o with
  | .next t => f t
  | _ => false

/-! ### Well-formed commands -/

/-- R187: a delimiter is no octet between two delimiters. -/
theorem test_delimiter_inside_is_ill_formed : (Instr.frameReceived .shop [0x47, 0x7E, 1]).wellFormed = false := by decide

/-- R1: a frame of 601 octets is not ended by a delimiter. -/
theorem test_oversize_frame_is_ill_formed :
    (Instr.frameReceived .office (List.replicate 601 0)).wellFormed = false := by decide +kernel

theorem test_longest_frame_is_well_formed :
    (Instr.frameReceived .office (List.replicate 600 0)).wellFormed = true := by decide +kernel

/-- R187: an escape and the octet after it are one octet of the frame. -/
theorem test_escaped_octet_counts_once :
    unescapedLength [0x47, 0x7D, 0x5E] = 2 ∧ (Instr.frameReceived .shop [0x47, 0x7D, 0x5E]).wellFormed = true := by decide

/-! ### The wire and reset -/

/-- R187 names the check value of the nine octets "123456789". -/
theorem test_frame_check_value : crc [0x31, 0x32, 0x33, 0x34, 0x35, 0x36, 0x37, 0x38, 0x39] = 0x29B1 := by decide +kernel

/-- R187: 0x7E and 0x7D are written as an escape and the octet with bit 5 inverted. -/
theorem test_escapes : escaped [0x7E, 0x7D, 0x01] = [0x7D, 0x5E, 0x7D, 0x5D, 0x01] := by decide

set_option maxRecDepth 2000 in
/-- The reset of State.reset is a power-on reset with the straps at 0. -/
theorem test_power_on_reset_is_reset :
    after (exec (.powerOnReset 0) State.reset) (fun t => decide (t = State.reset)) = true := by decide +kernel

/-- R5: the straps are the low half of the unit address. -/
theorem test_straps_make_the_unit_address :
    after (exec (.powerOnReset 9) State.reset) (fun t => decide (t.unitAddress = 0xB9)) = true := by decide +kernel

/-! ### The worked sequence of 4.10: one card across five requests -/

/-- 4.10: program 3. The hold figures are those of 5.7. -/
def program3 : Program :=
  { digits := some 0x604213, enabled := true, baseSlot := 65536, slotCount := 100000, minLoad := 1000, maxLoad := 50000
    maxBalance := 100000, reloadable := true, partialAllowed := true, refundable := true, openCap := some 5000
    tolerance := 25, lifetime := 14400, expiryDays := 730, reloadExtends := true, standInLimit := 2000 }

/-- 4.10: the active table set. -/
def tables : Tables :=
  { bankA := {
      tables := {
        programs := [(3, program3)]
        terms := [(0, { allowSales := true, allowRefund := true })
          , (37, { allowRefund := true, crossRefund := true, openRefund := true })] }
      tag := some 6, count := 1 }
    generation := 6 }

/-- 4.10: the card's store copy. -/
def card : CardRecord :=
  { state := .active, balance := 6500, held := 2000, holdCount := 1, issueShop := some 0, activationDay := some 19370
    expiryDay := some 20100, lastActivity := 19650, sequence := 17 }

/-- 4.10: the number of the card, whose serial is 1,234. -/
def number0 : BitVec 64 := 0x6042130000012346

/-- A request of 4.10 in flight for the card at slot 66,770. -/
def request (k : Kind) (shop lane trace amount : Nat) : InFlight :=
  { id := 0, origin := .request { shop := shop, lane := lane, trace := trace } number0, kind := k, training := false
    program := some 3, slot := 66770, block := 8346, amount := amount, partialFlag := false, reference := none
    generation := 6, reserved := true, boundSet := none }

/-- 4.10: the part with one request at line 12, which holds the card's block with the record given. -/
def atLine (r : CardRecord) (x : InFlight) : State :=
  { inFlight := [x], nextId := 1, tables := tables, clock := 1700000000
    store := { phase := .ready, valid := [8346], float := 1000000 }
    buffer := {
      lines := [(12, { state := .valid, block := some 8346, records := [(2, r)], waiters := [.entry 0] })]
      recency := [12] }
    supervision := { shops := [(0, { mode := .opened }), (37, { mode := .opened }), (44, { mode := .training })]
                     keptWindow := 28333333 }
    journal := { next := 70120 }, journalOut := { reservations := 1 } }

/-- 4.10: card 6042130000012346 is slot 66,770. -/
theorem test_card_number_parts :
    cardPrefix number0 = 0x604213 ∧ cardSerial number0 = 1234 ∧ 65536 + 1234 = 66770 ∧ cardWellFormed number0 = true := by
  decide +kernel

/-- 4.10 event 7. -/
def partRedeem : State := atLine card { request .redeem 37 4 5101 6000 with partialFlag := true }

theorem test_partial_redeem_record :
    after (exec (.redeemPosting 12) partRedeem) (fun t =>
      decide (recordOf (t.line 12).records 2 =
        { card with balance := 2000, sequence := 18, lastActivity := 19675 })
      && decide ((t.line 12).state = .dirty ∧ (t.line 12).dirty = 4)
      && decide (t.store.float = 1000000 - 4500)) = true := by decide +kernel

theorem test_partial_redeem_books :
    after (exec (.redeemPosting 12) partRedeem) (fun t =>
      decide ((t.cycle.setX.row 37).redeemed = 4500 ∧ (t.cycle.setX.row 37).redeemCount = 1)
      && decide (t.lane (37 * 16 + 4) = { inFlight := false, lastTrace := none, lastRef := some 70120 })
      && decide (t.journal.next = 70121 ∧ t.journalOut.reservations = 0 ∧ t.inFlight = [])
      && decide (t.journalOut.copies.map (fun e => (e.ref, e.amount, e.sequence, e.refunded)) =
          [(70120, 4500, 18, some 0)])) = true := by decide +kernel

/-- 4.10 event 8: a BALANCE changes no field. -/
def balanceRead : State := atLine { card with balance := 2000, sequence := 18 } { request .balance 41 0 5 0 with reserved := false }

theorem test_balance_answers :
    after (exec (.balancePosting 12) balanceRead) (fun t =>
      decide (t.sTx.map (fun f => (field f 16 1, field f 26 1, field f 27 3, field f 30 3)) = [(0, 1, 2000, 0)])
      && decide (t.journalOut.copies = [] ∧ t.store.float = 1000000)) = true := by decide +kernel

/-- 4.10 event 9. -/
def reloadAt : State := atLine { card with balance := 2000, sequence := 18 } (request .reload 0 1 9 3000)

theorem test_reload_record :
    after (exec (.reloadPosting 12) reloadAt) (fun t =>
      decide (recordOf (t.line 12).records 2 =
        { card with balance := 5000, sequence := 19, expiryDay := some 20405, lastActivity := 19675 })
      && decide ((t.cycle.setX.row 0).sold = 3000 ∧ (t.cycle.setX.row 0).soldCount = 1)
      && decide (t.store.float = 1003000)) = true := by decide +kernel

/-- 4.10 event 10: declined INSUFFICIENT. -/
def shortRedeem : State := atLine { card with balance := 5000, sequence := 19 } (request .redeem 37 5 6 4000)

theorem test_redeem_declined :
    after (exec (.redeemPosting 12) shortRedeem) (fun t =>
      decide (recordOf (t.line 12).records 2 = { card with balance := 5000, sequence := 19 })
      && decide ((t.shop 37).declines = 1 ∧ t.journalOut.reservations = 0 ∧ t.journalOut.copies = [])
      && decide ((t.lane (37 * 16 + 5)).lastRef = none)
      && decide (t.sTx.map (fun f => (field f 16 1, field f 17 1)) = [(2, 17)])) = true := by decide +kernel

/-- 4.10 event 11: a training REDEEM. -/
def trainingRedeem : State :=
  atLine { card with balance := 5000, sequence := 19 }
    { request .redeem 44 3 6 2500 with training := true, reserved := false }

theorem test_training_redeem :
    after (exec (.redeemPosting 12) trainingRedeem) (fun t =>
      decide (recordOf (t.line 12).records 2 = { card with balance := 5000, sequence := 19 })
      && decide (t.cycle = {} ∧ t.journal = { next := 70120 } ∧ t.store.float = 1000000)
      && decide (t.sTx.map (fun f => (field f 16 1, field f 18 1, field f 19 3, field f 22 4)) = [(0, 1, 2500, 0)])) = true := by
  decide +kernel

/-- 4.10 "on an expired card": the clock stands in day 20,101. -/
def expiredRedeem : State := { partRedeem with clock := 20101 * 86400 }

theorem test_expired_redeem :
    after (exec (.redeemPosting 12) expiredRedeem) (fun t =>
      decide (recordOf (t.line 12).records 2 =
        { card with state := .expired, sequence := 18, lastActivity := 20101 })
      && decide (t.journalOut.copies = [] ∧ t.store.float = 1000000)
      && decide (t.sTx.map (fun f => (field f 16 1, field f 17 1)) = [(2, 16)])) = true := by decide +kernel

/-- R69: the expiry day of a sale is today plus the program's expiry days, and the sequence starts at 1. -/
def activateAt : State := atLine {} (request .activate 0 1 9 1000)

theorem test_activate_record :
    after (exec (.activatePosting 12) activateAt) (fun t =>
      decide (recordOf (t.line 12).records 2 =
        { state := .active, balance := 1000, issueShop := some 0, activationDay := some 19675, expiryDay := some 20405
          lastActivity := 19675, sequence := 1 })
      && decide ((t.cycle.setX.row 0).sold = 1000)) = true := by decide +kernel

/-! ### The worked sequence of 5.7: holds -/

/-- 5.7: the card before event 1. -/
def holdCard : CardRecord :=
  { state := .active, balance := 12000, issueShop := some 0, activationDay := some 19670, expiryDay := some 20400
    sequence := 40 }

/-- 5.7: a request on the card at record index 1 of block 8,750. -/
def holdRequest (k : Kind) (shop lane trace amount : Nat) (ref : Option Ref) : InFlight :=
  { request k shop lane trace amount with
    origin := .request { shop := shop, lane := lane, trace := trace } 0x6042130000044653, slot := 70001, block := 8750
    reference := ref }

/-- 5.7: the part with line 20 holding block 8,750. -/
def holdState (r : CardRecord) (x : InFlight) (h : List HoldEntry) (next : Ref) (clock : BitVec 32) : State :=
  { atLine r x with
    clock := clock, holds := { entries := h }, journal := { next := next }
    store := { phase := .ready, valid := [8750], float := 1000000 }
    buffer := {
      lines := [(20, { state := .valid, block := some 8750, records := [(1, r)], waiters := [.entry 0] })]
      recency := [20] } }

/-- 5.7: the bar's hold and the dinner hold. -/
def barHold (st : HoldState) : HoldEntry :=
  { ref := 80500, slot := 70001, shop := 53, lane := 1, amount := 3000, ceiling := 3750, expiry := 1700014400, state := st }

def dinnerHold (st : HoldState) : HoldEntry :=
  { ref := 80501, slot := 70001, shop := 52, lane := 3, amount := 4000, ceiling := 5000, expiry := 1700017400, state := st }

/-- 5.7 event 2. -/
def placeHold : State := holdState holdCard (holdRequest .hold 53 1 410 3000 none) [] 80500 1700000000

theorem test_hold_placed :
    after (exec (.holdPosting 20) placeHold) (fun t =>
      decide (t.holds = { entries := [barHold .opened] })
      && decide (recordOf (t.line 20).records 1 =
        { holdCard with held := 3000, holdCount := 1, sequence := 41, lastActivity := 19675 })) = true := by decide +kernel

/-- 5.7 event 9. -/
def completeDinner : State :=
  holdState { holdCard with held := 7000, holdCount := 2, sequence := 42 }
    (holdRequest .complete 52 3 1031 4800 (some 80501)) [barHold .expiring, dinnerHold .claimed] 80502 1700014405

theorem test_complete_posted :
    after (exec (.completePosting 20) completeDinner) (fun t =>
      decide (recordOf (t.line 20).records 1 =
        { holdCard with balance := 7200, held := 3000, holdCount := 1, sequence := 43, lastActivity := 19676 })
      && decide (t.holds.entries = [barHold .expiring])
      && decide ((t.cycle.setX.row 52).redeemed = 4800 ∧ t.store.float = 1000000 - 4800)
      && decide (t.journalOut.copies.map (fun e => (e.ref, e.kind, e.amount, e.related)) =
          [(80502, .complete, 4800, some 80501)])) = true := by decide +kernel

/-- 5.7 event 10. -/
def expireBar : State :=
  { holdState { holdCard with balance := 7200, held := 3000, holdCount := 1, sequence := 43 }
      { holdRequest .holdExpired 0 0 0 0 (some 80500) with origin := .sweep, program := none }
      [barHold .expiring] 80503 1700014405 with
    holds := { entries := [barHold .expiring], expiring := some 80500 } }

theorem test_hold_expired_posted :
    after (exec (.holdExpiredPosting 20) expireBar) (fun t =>
      decide (recordOf (t.line 20).records 1 =
        { holdCard with balance := 7200, held := 0, holdCount := 0, sequence := 44, lastActivity := 19676 })
      && decide (t.holds = {} ∧ t.cycle = {} ∧ t.store.float = 1000000 ∧ t.sTx = [])
      && decide (t.journalOut.copies.map (fun e => (e.ref, e.party, e.amount, e.related)) =
          [(80503, none, 3000, some 80500)])) = true := by decide +kernel

/-- R91: a RELEASE gives the held amount back. -/
def releaseBar : State :=
  holdState { holdCard with held := 3000, holdCount := 1, sequence := 41 }
    (holdRequest .release 53 1 415 0 (some 80500)) [barHold .claimed] 80501 1700001000

theorem test_release_posted :
    after (exec (.releasePosting 20) releaseBar) (fun t =>
      decide (recordOf (t.line 20).records 1 =
        { holdCard with held := 0, holdCount := 0, sequence := 42, lastActivity := 19675 })
      && decide (t.holds.entries = [] ∧ t.store.float = 1000000)
      && decide (t.sTx.map (fun f => (field f 16 1, field f 19 3)) = [(0, 3000)])) = true := by decide +kernel

/-- 5.7 event 6: a hold whose expiry time equals the clock is due at the tick that reaches it. -/
def sweepDue : State :=
  { tables := tables, clock := 1700014399, nextId := 5, supervision := { keptWindow := 28333573 }
    holds := { entries := [barHold .opened, dinnerHold .claimed] } }

theorem test_tick_selects_due_hold :
    after (exec .clockTick sweepDue) (fun t =>
      decide (t.clock = 1700014400)
      && decide (t.holds = { entries := [barHold .expiring, dinnerHold .claimed], expiring := some 80500 })
      && decide (t.inFlight.map (fun x => (x.kind, x.slot, x.reference, x.reserved)) =
          [(.holdExpired, 70001, some 80500, true)])
      && decide (t.journalOut.reservations = 1)) = true := by decide +kernel

/-! ### Refunds and voids -/

/-- A journal entry on the card of 4.10. -/
def entryOn (k : Kind) (ref : Ref) (amount : Nat) (refunded : Option Nat) (sequence : BitVec 32) : Entry :=
  { ref := ref, cycle := 1, clock := 1699999000, kind := k, party := some { shop := 37, lane := 4, trace := 5101 }
    slot := 66770, amount := amount, adjustDown := false, sequence := sequence, related := none, refunded := refunded
    voided := false }

/-- The part of 4.10 with one journal entry, of reference 70,100, in the ring. -/
def withEntry (e : Entry) (s : State) : State :=
  { s with journal := { ring := [(70100 % 8192, some e)], next := 70120 } }

/-- A REFUND of what is left of a REDEEM: 4,500 less 3,000. -/
def refundAt : State :=
  withEntry (entryOn .redeem 70100 4500 (some 3000) 17) (atLine card { request .refund 37 4 9 1500 with reference := some 70100 })

/-- R106: the balance and the original's refunded-so-far rise by the amount, and F and nF of the refunding shop. -/
theorem test_refund_posted :
    after (exec (.refundPosting 12) refundAt) (fun t =>
      decide (recordOf (t.line 12).records 2 = { card with balance := 8000, sequence := 18, lastActivity := 19675 })
      && decide ((t.entryAt 70100).map (·.refunded) = some (some 4500))
      && decide ((t.cycle.setX.row 37).refunded = 1500 ∧ (t.cycle.setX.row 37).refundCount = 1)
      && decide ((t.entryAt 70120).map (·.related) = some (some 70100))) = true := by decide +kernel

/-- An open refund of the program's cap. -/
def openRefundAt : State := atLine card (request .refund 37 4 9 5000)

/-- A VOID of an entry on the card of 4.10, bound to the current set. -/
def voidAt (e : Entry) (r : CardRecord) : State :=
  { withEntry e (atLine r { request .void 37 4 9 0 with reference := some 70100, boundSet := some .x }) with
    cycle := { setX := { rows := [(37, { redeemed := 5000, redeemCount := 2, sold := 5000, soldCount := 2
                                         refunded := 5000, refundCount := 2 })] } } }

/-- R115: the VOID of a REDEEM gives its amount back to the card and takes it out of the bound set. -/
theorem test_void_redeem :
    after (exec (.voidPosting 12) (voidAt (entryOn .redeem 70100 4500 (some 0) 17) card)) (fun t =>
      decide ((recordOf (t.line 12).records 2).balance = 11000)
      && decide ((t.cycle.setX.row 37).redeemed = 500 ∧ (t.cycle.setX.row 37).redeemCount = 1)
      && decide ((t.entryAt 70100).map (·.voided) = some true)) = true := by decide +kernel

/-- R113: the VOID of an ACTIVATE leaves the card UNISSUED, its sequence going on. -/
theorem test_void_activate :
    after (exec (.voidPosting 12) (voidAt (entryOn .activate 70100 4500 none 17) { card with balance := 4500, held := 0 }))
      (fun t => decide (recordOf (t.line 12).records 2 =
        { state := .unissued, sequence := 18, lastActivity := 19675 })) = true := by decide +kernel

/-! ### The worked sequence of 8.6: a payout day -/

/-- 8.6: fee classes 2 and 3. -/
def class2 : FeeClass :=
  { redemptionRate := 275, fixedFee := 5, commissionRate := 150, minPayout := 2500, collectAt := 1000, rebate := true }
def class3 : FeeClass := { redemptionRate := 500, minPayout := 2500, collectAt := 1000 }

/-- 8.6: the frozen rows of set Y. -/
def row37 : Row :=
  { redeemed := 1234567, redeemCount := 412, sold := 60000, soldCount := 4, refunded := 18430, refundCount := 3 }
def row38 : Row := { redeemed := 10010, redeemCount := 2, sold := 12000, soldCount := 1 }
def row39 : Row := { redeemed := 30030, redeemCount := 3 }
def row40 : Row := { redeemed := 2000, redeemCount := 1 }

theorem test_payout_shop37 :
    shopRecord 305 37 class2 row37 1820 =
      { cycle := 305, shop := 37, row := row37, percentFee := 33951, fixedFee := 2060, commission := 900, rebate := 507
        carryIn := 1820, net := 1123353, disposition := .pay, amount := 1123353, carryOut := 0 } := by decide +kernel

theorem test_payout_shop38 :
    shopRecord 305 38 class3 row38 0 =
      { cycle := 305, shop := 38, row := row38, percentFee := 500, fixedFee := 0, commission := 0, rebate := 0
        carryIn := 0, net := -2490, disposition := .collect, amount := 2490, carryOut := 0 } := by decide +kernel

theorem test_payout_shop39 :
    shopRecord 305 39 class3 row39 (-600) =
      { cycle := 305, shop := 39, row := row39, percentFee := 1502, fixedFee := 0, commission := 0, rebate := 0
        carryIn := -600, net := 27928, disposition := .pay, amount := 27928, carryOut := 0 } := by decide +kernel

theorem test_payout_shop40 :
    shopRecord 305 40 class3 row40 0 =
      { cycle := 305, shop := 40, row := row40, percentFee := 100, fixedFee := 0, commission := 0, rebate := 0
        carryIn := 0, net := 1900, disposition := .holdOver, amount := 0, carryOut := 1900 } := by decide +kernel

/-- R139: the table of rounded products. -/
theorem test_half_even :
    [1000000, 5005000, 15015000, 339505925, 4999, 5000, 15000].map halfEven = [100, 500, 1502, 33951, 0, 0, 2] := by
  decide +kernel

/-- 8.6: set Y is closing in cycle 306, the walk at a cursor. -/
def payoutDay (cursor : Nat) (engine : EngineState) : State :=
  { tables := { bankA := {
      tables := {
        classes := [(2, class2), (3, class3)]
        terms := [(37, { feeClass := 2 }), (38, { feeClass := 3 }), (39, { feeClass := 3 }), (40, { feeClass := 3 })] }
      tag := some 0 } }
    cycle := { number := 306, current := .x, closing := .computing
               setY := { rows := [(37, row37), (38, row38), (39, row39), (40, row40)]
                         mall := { adjustUp := 3000, adjustDown := 1250, floatAtFreeze := 398204550 } } }
    payout := { engine := engine, cursor := cursor, cycle := some 305, carries := [(37, 1820), (39, -600)] } }

/-- 8.6 event 2: the step passes shops 0 to 36 and stops at shop 37. -/
theorem test_payout_step :
    after (exec .payoutStep (payoutDay 0 .walking)) (fun t =>
      decide (t.payout.queue.length = 1 ∧ t.payout.cursor = 38 ∧ t.carry 37 = 0)
      && decide (t.payout.totals.pay = 1123353)) = true := by decide +kernel

/-- 8.6 event 6: the cycle total record. -/
theorem test_cycle_total :
    let totals : Totals :=
      { redeemed := 1276607, sold := 72000, refunded := 18430, percentFee := 36053, fixedFee := 2060, commission := 900
        rebate := 507, pay := 1151281, collect := 2490, carryChange := 680, records := 4 }
    [shopRecord 305 37 class2 row37 1820, shopRecord 305 38 class3 row38 0, shopRecord 305 39 class3 row39 (-600),
        shopRecord 305 40 class3 row40 0].foldl addTotals {} = totals
      ∧ totals.Balance
      ∧ after (exec .cycleTotalAppend { payoutDay 41 .walking with
          payout := { (payoutDay 41 .walking).payout with carries := [(40, 1900)], totals := totals } }) (fun t =>
        decide (t.payout.queue = [.total { cycle := 305, totals := totals, adjustUp := 3000, adjustDown := 1250
                                           floatAtFreeze := 398204550, saturated := false }])
        && decide (t.cycle.closing = .draining ∧ t.payout.engine = .idle)) = true := by
  refine ⟨by decide +kernel, by unfold Totals.Balance; decide +kernel, by decide +kernel⟩

/-! ### The worked sequence of 9.9: a shop trips its alarm -/

/-- 9.9: trip 5, T1 2, T2 3, and the record of shop 61. -/
def alarmDay (r : Shop) (clock : BitVec 32) (kept : Nat) : State :=
  { tables := { bankA := { tables := { terms := [(61, { autoSuspend := true })] }, tag := some 0 } }
    supervision := { shops := [(61, r)], keptWindow := kept, trip := 5, t1 := 2, t2 := 3 }, clock := clock }

/-- 9.9 event 1. -/
theorem test_first_bad_window :
    after (exec .clockTick (alarmDay { mode := .opened, windowFaults := 7 } 1700000039 28333333)) (fun t =>
      decide (t.shop 61 = { mode := .opened, alarm := .watch, badWindows := 1 })
      && decide (t.supervision.keptWindow = 28333334 ∧ t.notices.latch = catSupervision)) = true := by decide +kernel

/-- 9.9 event 2. -/
theorem test_second_bad_window_alarms :
    after (exec .clockTick (alarmDay { mode := .opened, alarm := .watch, badWindows := 1, windowFaults := 6 }
      1700000099 28333334)) (fun t =>
      decide (t.shop 61 = { mode := .opened, alarm := .alarm, alarmCause := true })) = true := by decide +kernel

/-- 9.9 event 6: a jump over five window ends is one window end. -/
theorem test_set_clock_ends_one_window :
    after (exec (.setClock 1 1700000500)
      (alarmDay { mode := .opened, alarm := .alarm, management := true, alarmCause := true, goodWindows := 1 }
        1700000200 28333336)) (fun t =>
      decide (t.shop 61 =
        { mode := .opened, alarm := .alarm, management := true, alarmCause := true, goodWindows := 2 })
      && decide (t.supervision.keptWindow = 28333341)) = true := by decide +kernel

/-- 9.9 event 7. -/
theorem test_third_good_window_clears :
    after (exec .windowEnd
      (alarmDay { mode := .opened, alarm := .alarm, management := true, alarmCause := true, goodWindows := 2 }
        1700000520 28333341)) (fun t =>
      decide (t.shop 61 = { mode := .opened, management := true })) = true := by decide +kernel

/-! ### Admission -/

/-- The octets of the first request of 4.10 before its check (11.3): a REDEEM of 6,000 from shop 37, lane 4, trace 5,101. -/
def redeemOctets : List Octet :=
  [0x47, 0x00, 0x25, 0x04, 0x00, 0x13, 0xED, 0x03, 0x01, 0x60, 0x42, 0x13, 0x00, 0x00, 0x01, 0x23, 0x46,
    0x00, 0x17, 0x70, 0, 0, 0, 0]

/-- 4.10 before event 1, its receiver between two frames. -/
def before : State :=
  { atLine card (request .redeem 37 4 5101 6000) with
    inFlight := [], buffer := {}, sRx := freshReceiver, oRx := freshReceiver, journalOut := {}
    tables := { tables with bankA := { tables.bankA with count := 0 } } }

/-- 4.10 event 1: the entry, its lane, its reservation and its fetch. -/
theorem test_request_admitted :
    after (exec (.frameReceived .shop (escaped (withCheck redeemOctets))) before) (fun t =>
      decide (t.inFlight = [{ request .redeem 37 4 5101 6000 with id := 1, partialFlag := true }])
      && decide (t.lane (37 * 16 + 4) = { inFlight := true, lastTrace := some 5101, lastRef := none })
      && decide (t.journalOut.reservations = 1 ∧ (t.shop 37).admitted = 1)
      && decide ((t.line 0).state = .fetching ∧ t.queue 2 = [.fetch 8346])) = true := by decide +kernel

/-- R8, R7: a wrong check digit is declined FORMAT and charged as a fault. -/
theorem test_bad_check_digit :
    after (exec (.frameReceived .shop (escaped (withCheck (redeemOctets.set 16 0x47)))) before) (fun t =>
      decide (t.sTx.map (fun f => (field f 16 1, field f 17 1)) = [(2, 1)])
      && decide ((t.shop 37).declines = 1 ∧ (t.shop 37).faults = 1 ∧ t.inFlight = [])) = true := by decide +kernel

/-- R4: a request whose prefix no program carries is forwarded, counted and not answered. -/
theorem test_foreign_card_forwarded :
    after (exec (.frameReceived .shop (escaped (withCheck (redeemOctets.set 9 0x50)))) before) (fun t =>
      decide (t.oTx.length = 1 ∧ t.sTx = [] ∧ t.sCount = { received := 1, forwarded := 1 })) = true := by decide +kernel

/-- 11.4: STATUS READ as a frame is answered with the class octet 0x4E, the address, code, tag and "accepted". -/
theorem test_status_read_frame :
    after (exec (.frameReceived .office (escaped (withCheck [0x4D, 0xB0, 0x01, 0x12, 0x34]))) before) (fun t =>
      decide (t.oTx.map (fun f => (f.take 8, f.length)) = [([0x4E, 0xB0, 0x01, 0x12, 0x34, 0, 0xFF, 0], 79)])) = true := by
  decide +kernel

/-- R171: a code that chapter 11 does not list is answered UNKNOWN_COMMAND, 0x80. -/
theorem test_unknown_code_refused :
    after (exec (.frameReceived .office (escaped (withCheck [0x4D, 0xB0, 0x7F, 0x12, 0x34]))) before) (fun t =>
      decide (t.oTx.map (fun f => f.take 6) = [[0x4E, 0xB0, 0x7F, 0x12, 0x34, 0x80]])
      && decide (t.oCount.refusals = 1)) = true := by decide +kernel

/-! ### Management commands -/

/-- R180: a grace length of 3,601 writes nothing. -/
theorem test_set_config_out_of_range :
    after (exec (.setConfig 7 255 15 60 3601) State.reset) (fun t =>
      decide (t.supervision = State.reset.supervision ∧ t.cycle = State.reset.cycle ∧ t.oCount.refusals = 1)) = true := by
  decide +kernel

theorem test_set_config :
    after (exec (.setConfig 7 255 15 60 3600) State.reset) (fun t =>
      decide (t.supervision.trip = 255 ∧ t.supervision.t1 = 15 ∧ t.supervision.t2 = 60 ∧ t.cycle.graceLength = 3600)) = true := by
  decide +kernel

/-- R177: an acknowledged category leaves the latch. -/
theorem test_notice_ack :
    after (exec (.noticeAck 7 1) State.reset) (fun t => decide (t.notices.latch = 0)) = true := by decide +kernel

/-- 8.6 events 8, 9 and 11: TAKE 4 of 5, TAKE 2 of 1, TAKE 1 of 1 (the closing set is cleared). -/
def takeDay (n : Nat) : State :=
  { payoutDay 0 .idle with
    payout := { (payoutDay 0 .idle).payout with
      queue := List.replicate n (.shop (shopRecord 305 40 class3 row40 0)) }
    cycle := { (payoutDay 0 .idle).cycle with closing := .draining } }

theorem test_payout_take :
    after (exec (.payoutTake 7 4) (takeDay 5)) (fun t => decide (t.payout.queue.length = 1)) = true
      ∧ after (exec (.payoutTake 7 2) (takeDay 1)) (fun t => decide (t.payout.queue.length = 1)) = true := by
  decide +kernel

theorem test_payout_take_empties :
    after (exec (.payoutTake 7 1) (takeDay 1)) (fun t =>
      decide (t.cycle.closing = .none ∧ t.cycle.setY = {} ∧ t.cycle.number = 306)
      && decide (t.notices.latch = catCycle ∧ t.payout.carries = [(37, 1820), (39, -600)])) = true := by decide +kernel

/-- R125: a grace length of 0 passes on to FREEZING, and without grace voids to FROZEN, in the same event. -/
theorem test_cutover_without_grace :
    after (exec (.cutover 7) { State.reset with cycle := { graceLength := 0 } }) (fun t =>
      decide (t.cycle.number = 2 ∧ t.cycle.current = .y ∧ t.cycle.closing = .frozen ∧ t.cycle.graceEnd = none)) = true := by
  decide +kernel

theorem test_cutover_starts_grace :
    after (exec (.cutover 7) { State.reset with clock := 100 }) (fun t =>
      decide (t.cycle.closing = .grace ∧ t.cycle.graceEnd = some 1000)) = true := by decide +kernel

/-- R26: a LOADED shadow becomes a copy of the active bank. -/
theorem test_discard_shadow :
    after (exec (.discardShadow 7) { State.reset with tables := { tables with shadow := .loaded } }) (fun t =>
      decide (t.tables.shadow = .free ∧ t.tables.bankB.tables = tables.bankA.tables)) = true := by decide +kernel

/-- R29: the loaded bank takes effect under the next generation; with nothing in flight the old one retires at once. -/
def committed : State :=
  { State.reset with tables := { tables with
      bankA := { tables.bankA with count := 0 }
      bankB := { tables := { programs := [(3, { program3 with minLoad := 2000 })] } }, shadow := .loaded } }

theorem test_commit_tables :
    after (exec (.commitTables 7) committed) (fun t =>
      decide (t.tables.active = .b ∧ t.tables.generation = 7 ∧ t.tables.shadow = .free ∧ t.tables.bankB.tag = some 7)
      && decide (t.notices.latch = catReset ||| catTable)) = true := by decide +kernel

/-- R138: the largest carry is written, the next value is refused. -/
theorem test_carry_set_limits :
    after (exec (.carrySet 7 511 (BitVec.ofInt 32 (-99999))) State.reset) (fun t => decide (t.carry 511 = -99999)) = true
      ∧ after (exec (.carrySet 7 511 (BitVec.ofInt 32 (-100000))) State.reset) (fun t => decide (t.carry 511 = 0)) = true := by
  decide +kernel

/-- R157: closing a shop empties its cause set. -/
theorem test_close_shop :
    after (exec (.setShopMode 7 61 0)
      (alarmDay { mode := .opened, alarm := .alarm, management := true, alarmCause := true, declines := 4 } 0 0)) (fun t =>
      decide (t.shop 61 = { declines := 4 })) = true := by decide +kernel

/-- R158: a CLOSED shop is not suspended. -/
theorem test_suspend_closed_shop :
    after (exec (.suspend 7 61) State.reset) (fun t => decide (t.supervision = {} ∧ t.oCount.refusals = 1)) = true := by
  decide +kernel

/-- R57, R59: with no block present the audit ends at once and MATCHes. -/
def readyStore : State := { State.reset with store := { phase := .ready } }

/-- R54: FLUSH queues the write-back of a dirty line; a block whose valid mark is clear is written whole. -/
theorem test_flush_writes_back :
    after (exec (.flush 7) { State.reset with buffer := {
        lines := [(3, { state := .dirty, block := some 6, records := [(1, card)], dirty := 2 })], recency := [3] } })
      (fun t => decide ((t.line 3).state = .writing ∧ t.queue 2 = [.writeBack 6 0xFF [(1, card)]])
        && t.store.flushPending) = true := by decide +kernel

/-- R52, R39: its completion writes the store copy, sets the valid mark and clears the flush-pending mark. -/
def writingBack : State :=
  { State.reset with
    store := { flushPending := true }
    buffer := { lines := [(3, { state := .writing, block := some 6, records := [(1, card)] })], recency := [3]
                queues := [(2, [.writeBack 6 0xFF [(1, card)]])] } }

theorem test_write_back_complete :
    after (exec (.writeBackComplete 2) writingBack) (fun t =>
      decide ((t.line 3).state = .valid ∧ t.storeCopy 6 = [(1, card)] ∧ t.store.valid = [6] ∧ t.queue 2 = [])
      && !t.store.flushPending) = true := by decide +kernel

/-- R50: a fetch completes. -/
def fetching : State :=
  { State.reset with
    store := { phase := .ready, valid := [6], copies := [(6, [(1, card)])] }
    inFlight := [{ request .redeem 37 4 5101 6000 with slot := 49, block := 6 }], nextId := 1
    buffer := { lines := [(3, { state := .fetching, block := some 6, waiters := [.entry 0] })], recency := [3]
                queues := [(2, [.fetch 6])] } }

theorem test_fetch_complete :
    after (exec (.fetchComplete 2) fetching) (fun t =>
      decide ((t.line 3).state = .valid ∧ (t.line 3).records = [(1, card)] ∧ (t.line 3).waiters = [.entry 0])) = true := by
  decide +kernel

/-! ### Cases that meet the hypotheses of the obligations -/

/-- 4.2: a card is not expired when its expiry day, if it has one, is not before today. -/
theorem notExpired_of {s : State} {r : CardRecord}
    (h : (match r.expiryDay with
      | some d => decide (s.clock.toNat / 86400 ≤ d)
      | none => true) = true) : NotExpired s r := by
  intro d hd
  rw [hd] at h
  exact of_decide_eq_true h

/-- The party of a request of 4.10. -/
def partyAt (shop lane trace : Nat) : Party := { shop := shop, lane := lane, trace := trace }

/-- ACTIVATE for the program's minimum load, and RELOAD for its maximum load to exactly its maximum balance. -/
theorem witness_SalesApproved :
    (LiveHead activateAt 12 .activate (request .activate 0 1 9 1000) (partyAt 0 1 9) number0
      ∧ (recordFor activateAt 12 (request .activate 0 1 9 1000)).state = .unissued
      ∧ (programFor activateAt (request .activate 0 1 9 1000)).minLoad ≤ 1000
      ∧ 1000 ≤ (programFor activateAt (request .activate 0 1 9 1000)).maxLoad
      ∧ aboveLimit (termsFor activateAt (request .activate 0 1 9 1000)).limit 1000 = false
      ∧ 1000 ≤ (programFor activateAt (request .activate 0 1 9 1000)).maxBalance)
    ∧ (let x := request .reload 0 1 9 50000;
      let s := atLine { card with balance := 50000 } x;
      LiveHead s 12 .reload x (partyAt 0 1 9) number0 ∧ NotExpired s (recordFor s 12 x)
        ∧ (programFor s x).reloadable = true ∧ (recordFor s 12 x).state = .active
        ∧ (programFor s x).minLoad ≤ 50000 ∧ 50000 ≤ (programFor s x).maxLoad
        ∧ aboveLimit (termsFor s x).limit 50000 = false
        ∧ (recordFor s 12 x).balance + 50000 ≤ (programFor s x).maxBalance) := by
  refine ⟨⟨by unfold LiveHead; decide +kernel, by decide +kernel⟩, ?_⟩
  exact ⟨by unfold LiveHead; decide +kernel, notExpired_of (by decide +kernel), by decide +kernel⟩

/-- A REDEEM of exactly the available value, and the partial one of 4.10 event 7. -/
theorem witness_RedeemApproved :
    (let x := request .redeem 37 4 5101 4500;
      let s := atLine card x;
      LiveHead s 12 .redeem x (partyAt 37 4 5101) number0 ∧ NotExpired s (recordFor s 12 x)
        ∧ (recordFor s 12 x).state = .active ∧ aboveLimit (termsFor s x).limit 4500 = false
        ∧ 4500 ≤ (recordFor s 12 x).balance - (recordFor s 12 x).held)
    ∧ (let x := { request .redeem 37 4 5101 6000 with partialFlag := true };
      LiveHead partRedeem 12 .redeem x (partyAt 37 4 5101) number0 ∧ NotExpired partRedeem (recordFor partRedeem 12 x)
        ∧ (recordFor partRedeem 12 x).state = .active ∧ aboveLimit (termsFor partRedeem x).limit 6000 = false
        ∧ (programFor partRedeem x).partialAllowed = true
        ∧ 0 < (recordFor partRedeem 12 x).balance - (recordFor partRedeem 12 x).held) := by
  refine ⟨⟨by unfold LiveHead; decide +kernel, notExpired_of (by decide +kernel), by decide +kernel⟩, ?_⟩
  exact ⟨by unfold LiveHead; decide +kernel, notExpired_of (by decide +kernel), by decide +kernel⟩

/-- A HOLD of exactly the available value, the card's fourth. -/
theorem witness_HoldApproved :
    let x := holdRequest .hold 53 1 410 3000 none;
    let s := holdState { holdCard with held := 9000, holdCount := 3 } x [] 80500 1700000000;
    LiveHead s 20 .hold x (partyAt 53 1 410) 0x6042130000044653 ∧ NotExpired s (recordFor s 20 x)
      ∧ (recordFor s 20 x).state = .active ∧ aboveLimit (termsFor s x).limit 3000 = false
      ∧ 3000 ≤ (recordFor s 20 x).balance - (recordFor s 20 x).held ∧ (recordFor s 20 x).holdCount < 4
      ∧ s.holds.entries.length < 1024 :=
  ⟨by unfold LiveHead; decide +kernel, notExpired_of (by decide +kernel), by decide +kernel⟩

/-- The COMPLETE of 5.7, the RELEASE of the bar's hold, and either with no hold in the table. -/
theorem witness_ClaimedHoldsPost :
    (LiveHead completeDinner 20 .complete (holdRequest .complete 52 3 1031 4800 (some 80501)) (partyAt 52 3 1031)
        0x6042130000044653
      ∧ holdNamed completeDinner (holdRequest .complete 52 3 1031 4800 (some 80501)) = some (dinnerHold .claimed))
    ∧ (LiveHead releaseBar 20 .release (holdRequest .release 53 1 415 0 (some 80500)) (partyAt 53 1 415)
        0x6042130000044653
      ∧ holdNamed releaseBar (holdRequest .release 53 1 415 0 (some 80500)) = some (barHold .claimed))
    ∧ (let x := holdRequest .complete 52 3 1031 4800 (some 80501);
      let s := { completeDinner with holds := {} };
      holdNamed s x = none ∧ x.training = false ∧ headEntry s (20 : BitVec 5).toNat .complete = some x)
    ∧ (let x := holdRequest .release 53 1 415 0 (some 80500);
      let s := { releaseBar with holds := {} };
      holdNamed s x = none ∧ x.training = false ∧ headEntry s (20 : BitVec 5).toNat .release = some x) := by
  unfold LiveHead
  decide +kernel

/-- The HOLD_EXPIRED of 5.7, and one with no hold in the table. -/
theorem witness_HoldExpiredPosts :
    let x := { holdRequest .holdExpired 0 0 0 0 (some 80500) with origin := .sweep, program := none };
    (headEntry expireBar 20 .holdExpired = some x ∧ x.origin = .sweep ∧ holdNamed expireBar x = some (barHold .expiring))
    ∧ (holdNamed { expireBar with holds := {} } x = none
      ∧ headEntry { expireBar with holds := {} } (20 : BitVec 5).toNat .holdExpired = some x) := by decide +kernel

/-- A REFUND of exactly what is left of its original, and an open refund of exactly the program's cap. -/
theorem witness_RefundApproved :
    (let x := { request .refund 37 4 9 1500 with reference := some 70100 };
      let original := entryOn .redeem 70100 4500 (some 3000) 17;
      LiveHead refundAt 12 .refund x (partyAt 37 4 9) number0 ∧ x.reference = some 70100
        ∧ refundAt.entryAt 70100 = some original ∧ NotExpired refundAt (recordFor refundAt 12 x)
        ∧ original.kind = .redeem ∧ original.slot = x.slot ∧ original.voided = false
        ∧ (programFor refundAt x).refundable = true ∧ original.party.map (·.shop) = some 37
        ∧ 1500 ≤ original.amount - original.refunded.getD 0 ∧ (recordFor refundAt 12 x).state = .active
        ∧ (recordFor refundAt 12 x).balance + 1500 ≤ 999999)
    ∧ (let x := request .refund 37 4 9 5000;
      LiveHead openRefundAt 12 .refund x (partyAt 37 4 9) number0 ∧ x.reference = none
        ∧ NotExpired openRefundAt (recordFor openRefundAt 12 x) ∧ (termsFor openRefundAt x).openRefund = true
        ∧ (programFor openRefundAt x).openCap = some 5000 ∧ (recordFor openRefundAt 12 x).state = .active
        ∧ (recordFor openRefundAt 12 x).balance + 5000 ≤ 999999) := by
  refine ⟨⟨by unfold LiveHead; decide +kernel, by decide +kernel, by decide +kernel, notExpired_of (by decide +kernel),
    by decide +kernel⟩, ?_⟩
  exact ⟨by unfold LiveHead; decide +kernel, by decide +kernel, notExpired_of (by decide +kernel), by decide +kernel⟩

/-- What every VOID approved in these cases needs of its card and the entry it names. -/
def voidFits (e : Entry) (r : CardRecord) : Bool :=
  let x := { request .void 37 4 9 0 with reference := some 70100, boundSet := some .x };
  let s := voidAt e r;
  decide (headEntry s 12 .void = some x ∧ x.training = false ∧ x.origin = .request (partyAt 37 4 9) number0)
    && decide (s.entryAt 70100 = some e ∧ foundExpired s r = false ∧ e.slot = x.slot ∧ e.voided = false)
    && decide (recordFor s 12 x = r)

/-- VOIDs of an ACTIVATE without later activity, of a RELOAD and a REFUND whose amount is exactly the available value, and of
a REDEEM and a COMPLETE that bring the card to exactly 999,999. -/
theorem witness_VoidApproved :
    (voidFits (entryOn .activate 70100 4500 none 17) card = true ∧ card.sequence = 17)
    ∧ (voidFits (entryOn .reload 70100 4500 none 15) card = true ∧ card.held + 4500 ≤ card.balance)
    ∧ (voidFits (entryOn .redeem 70100 4500 (some 0) 15) { card with balance := 995499 } = true
      ∧ 995499 + 4500 ≤ 999999)
    ∧ (voidFits (entryOn .refund 70100 4500 none 15) card = true ∧ card.held + 4500 ≤ card.balance)
    ∧ voidFits (entryOn .complete 70100 4500 (some 0) 15) { card with balance := 995499 } = true := by decide +kernel

theorem witness_BalancePosts :
    LiveHead balanceRead 12 .balance { request .balance 41 0 5 0 with reserved := false } (partyAt 41 0 5) number0 := by
  unfold LiveHead
  decide +kernel

/-- 4.10: the REDEEM declined INSUFFICIENT, and the one declined EXPIRED. -/
theorem witness_DeclinedPostingLeavesBooks :
    (let x := request .redeem 37 5 6 4000;
      postingCommand 12 x.kind = some (.redeemPosting 12) ∧ expiryFirst x.kind = true
        ∧ LiveHead shortRedeem 12 x.kind x (partyAt 37 5 6) number0
        ∧ foundExpired shortRedeem (recordFor shortRedeem 12 x) = false
        ∧ ownDecision shortRedeem x (recordFor shortRedeem 12 x) = .declined .insufficient)
    ∧ (let x := { request .redeem 37 4 5101 6000 with partialFlag := true };
      postingCommand 12 x.kind = some (.redeemPosting 12) ∧ expiryFirst x.kind = true
        ∧ LiveHead expiredRedeem 12 x.kind x (partyAt 37 4 5101) number0
        ∧ foundExpired expiredRedeem (recordFor expiredRedeem 12 x) = true) := by
  unfold LiveHead
  decide +kernel

theorem witness_TrainingPostingChangesNothing :
    let x := { request .redeem 44 3 6 2500 with training := true, reserved := false };
    postingCommand 12 x.kind = some (.redeemPosting 12) ∧ headEntry trainingRedeem 12 x.kind = some x
      ∧ x.training = true ∧ x.origin = .request (partyAt 44 3 6) number0 := by decide +kernel

/-- A card command at its posting, the unit in progress with its work. -/
def unitWork (k : Kind) (w : UnitWork) (r : CardRecord) : State :=
  { atLine r { request k 0 0 0 0 with origin := .unit, program := none, reserved := k == .adjust } with
    unit := { progress := some { tag := 7, work := w } } }

/-- The card command of `unitWork`. -/
def unitEntry (k : Kind) : InFlight := { request k 0 0 0 0 with origin := .unit, program := none, reserved := k == .adjust }

/-- R77: the image answered begins, after the slot, with the card's state and its presence octet. -/
theorem test_card_read_answer :
    after (exec (.cardReadPosting 12) (unitWork .cardRead (.cardRead 66770) card)) (fun t =>
      decide (t.oTx.map (fun f => (field f 77 3, field f 80 1, field f 81 1, field f 82 3)) = [(66770, 1, 7, 6500)])
      && decide (t.unit.progress = none ∧ t.inFlight = [])) = true := by decide +kernel

theorem witness_CardReadPosts :
    let s := unitWork .cardRead (.cardRead 66770) card;
    headEntry s 12 .cardRead = some (unitEntry .cardRead)
      ∧ s.unit.progress = some { tag := 7, work := .cardRead 66770 } ∧ NoDirectLoad s :=
  ⟨by decide +kernel, by decide +kernel, fun _ => List.not_mem_nil⟩

/-- The selected values of a CARD ADJUST of the balance alone. -/
def adjustBy (d : Int) : AdjustFields := { mask := 4, state := 0, expiryDay := 0, change := BitVec.ofInt 32 d }

/-- CARD ADJUSTs of an UNISSUED card, by one cent more than the available value, by one cent more than the card limit
allows, and, approved, of the state and by exactly the available value. -/
theorem witness_CardAdjustPosts :
    (∀ b : Nat, ∀ f : AdjustFields, ∀ r : CardRecord,
      NoDirectLoad (unitWork .adjust (.cardAdjust b f) r))
    ∧ (let s := unitWork .adjust (.cardAdjust 66770 (adjustBy 5)) {};
      headEntry s 12 .adjust = some (unitEntry .adjust) ∧ (recordFor s 12 (unitEntry .adjust)).state = .unissued)
    ∧ (let s := unitWork .adjust (.cardAdjust 66770 (adjustBy (-4501))) card;
      headEntry s 12 .adjust = some (unitEntry .adjust) ∧ recordFor s 12 (unitEntry .adjust) = card
        ∧ (adjustBy (-4501)).change.toInt < 0
        ∧ ((card.balance - card.held : Nat) : Int) < -(adjustBy (-4501)).change.toInt)
    ∧ (let s := unitWork .adjust (.cardAdjust 66770 (adjustBy 993500)) card;
      headEntry s 12 .adjust = some (unitEntry .adjust) ∧ 0 < (adjustBy 993500).change.toInt
        ∧ 999999 < (card.balance : Int) + (adjustBy 993500).change.toInt)
    ∧ (let f := { adjustBy (-4500) with mask := 5, state := 2 };
      let s := unitWork .adjust (.cardAdjust 66770 f) card;
      headEntry s 12 .adjust = some (unitEntry .adjust)
        ∧ s.unit.progress = some { tag := 7, work := .cardAdjust 66770 f } ∧ card.state ≠ .unissued
        ∧ -((card.balance - card.held : Nat) : Int) ≤ f.change.toInt) :=
  ⟨fun _ _ _ _ => List.not_mem_nil, by decide +kernel⟩

/-- R79, R80: the answer's outcome and reason octets, and the record after a debit of the whole available value. -/
theorem test_card_adjust :
    after (exec (.cardAdjustPosting 12) (unitWork .adjust (.cardAdjust 66770 (adjustBy (-4501))) card)) (fun t =>
      decide (t.oTx.map (fun f => (field f 5 1, field f 6 1, field f 7 1)) = [(0, 2, 17)])) = true
    ∧ after (exec (.cardAdjustPosting 12)
        (unitWork .adjust (.cardAdjust 66770 { adjustBy (-4500) with mask := 5, state := 2 }) card)) (fun t =>
      decide (recordOf (t.line 12).records 2 =
        { card with state := .blocked, balance := 2000, sequence := 18, lastActivity := 19675 })
      && decide (t.cycle.setX.mall.adjustDown = 4500 ∧ t.store.float = 1000000 - 4500)) = true := by decide +kernel

/-- A replacement at its posting. -/
def replacing : State := unitWork .cardLoad (.replaceBlock 8346 [(0, card)]) card

theorem witness_ReplacementPosts :
    headEntry replacing 12 .cardLoad = some (unitEntry .cardLoad)
      ∧ replacing.unit.progress = some { tag := 7, work := .replaceBlock 8346 [(0, card)] } := by decide +kernel

/-- R46: the eight loaded records replace the line's. -/
theorem test_replacement :
    after (exec (.cardLoadReplacementPosting 12) replacing) (fun t =>
      decide ((t.line 12).records = [(0, card)] ∧ (t.line 12).dirty = 0xFF ∧ t.store.float = 1000000)
      && decide (t.unit = {})) = true := by decide +kernel

theorem witness_FetchCompletes :
    fetching.queue (2 : BitVec 2).toNat = .fetch 6 :: [] ∧ (fetching.line 3).state = .fetching
      ∧ (fetching.line 3).block = some 6
      ∧ (∀ j < 3, ¬ ((fetching.line j).state = .fetching ∧ (fetching.line j).block = some 6))
      ∧ (fetching.line 3).waiters ≠ [] := by decide +kernel

/-- A dirty line of block 6, at the last line of the buffer. -/
def dirtyLine (s : State) : State :=
  { s with buffer := { s.buffer with
      lines := [(31, { state := .dirty, block := some 6, records := [(1, card)], dirty := 2 })], recency := [31] } }

/-- A flush that chooses line 31 while seven operations are queued, and an eviction check that wants one line. -/
theorem witness_WriteBackStarts :
    (let s := dirtyLine { State.reset with
      store := { flushPending := true }, buffer := { queues := [(2, List.replicate 7 (.fetch 10))] } };
      (s.line (31 : BitVec 5).toNat).state = .dirty ∧ (s.line 31).block = some 6 ∧ (s.queue (6 % 4)).length < 8
        ∧ flushChooses s 31 = true)
    ∧ (let s := dirtyLine { State.reset with buffer := { waitList := [.entry 0 9] } };
      (s.line (31 : BitVec 5).toNat).state = .dirty ∧ (s.line 31).block = some 6 ∧ (s.queue (6 % 4)).length < 8
        ∧ writingIdle s < linesWanted s ∧ evictChoice s = some 31) := by decide +kernel

theorem witness_WriteBackCompletes :
    writingBack.queue (2 : BitVec 2).toNat = .writeBack 6 0xFF [(1, card)] :: []
    ∧ (let s := { writingBack with buffer := { writingBack.buffer with
          lines := [(3, { state := .writing, block := some 6, records := [(1, card)], changed := true })] } };
      s.queue (2 : BitVec 2).toNat = .writeBack 6 0xFF [(1, card)] :: [] ∧ (s.line 3).state = .writing
        ∧ (s.line 3).block = some 6 ∧ (∀ j < 3, ¬ ((s.line j).state = .writing ∧ (s.line j).block = some 6))
        ∧ (s.line 3).changed = true) := by decide +kernel

/-- A visit that waits for a line to the last block, whose bank's queue has one place left. -/
def auditWaiting : State :=
  { State.reset with
    store := { phase := .ready, valid := [131071], audit := { running := true, cursor := 131071, waiting := true } }
    buffer := { queues := [(3, List.replicate 7 (.fetch 7))] } }

/-- A demand in the wait list, of an entry and of a direct CARD LOAD, with line 0 free; an empty wait list; and, with it,
a visit that waits for a line. -/
theorem witness_WaitListServed :
    (let s := { State.reset with buffer := { waitList := [.entry 0 9] } };
      s.buffer.waitList.find? (fun d => canProceed s d.block) = some (.entry 0 9) ∧ findLine s = some 0)
    ∧ State.reset.buffer.waitList.find? (fun d => canProceed State.reset d.block) = none
    ∧ (let s := { State.reset with
        buffer := { waitList := [.directLoad 131071] }
        unit := { progress := some { tag := 7, work := .directLoad 131071 [(7, card)] } } };
      s.buffer.waitList.find? (fun d => canProceed s d.block) = some (.directLoad 131071) ∧ findLine s = some 0
        ∧ s.unit.progress = some { tag := 7, work := .directLoad 131071 [(7, card)] })
    ∧ (auditWaiting.buffer.waitList = [] ∧ auditWaiting.store.audit.running = true
      ∧ auditWaiting.store.audit.waiting = true ∧ auditWaiting.isValid 131071 = true
      ∧ (auditWaiting.queue (131071 % 4)).length < 8 ∧ findLine auditWaiting = some 0) := by decide +kernel

/-- R57, R47: with no demand in the wait list the waiting visit takes the line, with its fetch queued. -/
theorem test_audit_visit_served :
    after (exec .waitListServe auditWaiting) (fun t =>
      decide ((t.line 0).state = .fetching ∧ (t.line 0).block = some 131071 ∧ (t.line 0).waiters = [.audit])
      && decide (t.store.audit.waiting = false ∧ (t.queue 3).length = 8)) = true := by decide +kernel

/-- An audit whose visit stands at the line of the last block. -/
def auditing : State :=
  { State.reset with
    store := { phase := .ready, valid := [131071], float := 6500
               audit := { running := true, cursor := 131071, heldSum := 2000 } }
    buffer := { lines := [(31, { state := .valid, block := some 131071, records := [(2, { card with held := 0 })],
                                 waiters := [.audit] })], recency := [31] }
    holds := { entries := [{ barHold .opened with amount := 2000 }] } }

theorem witness_AuditVisitReadsBlock :
    (auditing.line (31 : BitVec 5).toNat).state.ready = true ∧ (auditing.line 31).waiters = .audit :: []
      ∧ auditing.store.audit.cursor < 131072 ∧ NoDirectLoad auditing :=
  ⟨by decide +kernel, by decide +kernel, by decide +kernel, fun _ => List.not_mem_nil⟩

/-- R59: both sums agree with their figures, so the audit ends in MATCH. -/
theorem test_audit_ends :
    after (exec (.auditVisit 31) auditing) (fun t =>
      decide (t.store.audit.running = false)
      && decide (t.store.audit.result = some {
          matched := true, balanceSum := 6500, float := 6500, heldSum := 2000, holdTotal := 2000 })
      && decide (t.notices.latch = catReset ||| catAudit)) = true := by decide +kernel

/-- R57: the visit goes on past blocks that are not present to the next one that is, here held by a line alone. -/
theorem test_audit_goes_on :
    after (exec (.auditVisit 31)
      { State.reset with
        store := { phase := .ready, valid := [5], audit := { running := true, cursor := 5, balanceSum := 100 } }
        buffer := {
          lines := [(2, { state := .dirty, block := some 9, dirty := 1 })
            , (31, { state := .valid, block := some 5, records := [(2, card)], waiters := [.audit] })]
          recency := [2, 31] } }) (fun t =>
      decide (t.store.audit = { running := true, cursor := 9, balanceSum := 6600, heldSum := 2000 })
      && decide ((t.line 2).waiters = [.audit] ∧ (t.line 31).waiters = [])) = true := by decide +kernel

/-- The hold due at exactly the clock, in the last places of the in-flight set and of Journal Out; and the five cases that
select nothing. -/
theorem witness_SweepSelects :
    (let s := { sweepDue with
        clock := 1700014400, inFlight := List.replicate 63 (unitEntry .cardRead), journalOut := { reservations := 511 } };
      candidate s.holds = some (barHold .opened) ∧ (barHold .opened).expiry ≤ s.clock.toNat ∧ s.holds.expiring = none
        ∧ s.inFlight.length < 64 ∧ s.journalOut.copies.length + s.journalOut.reservations < 512)
    ∧ candidate State.reset.holds = none
    ∧ (candidate sweepDue.holds = some (barHold .opened) ∧ sweepDue.clock.toNat < (barHold .opened).expiry)
    ∧ expireBar.holds.expiring.isSome = true
    ∧ 64 ≤ { sweepDue with inFlight := List.replicate 64 (unitEntry .cardRead) }.inFlight.length
    ∧ 512 ≤ { sweepDue with journalOut := { reservations := 512 } }.journalOut.copies.length
        + { sweepDue with journalOut := { reservations := 512 } }.journalOut.reservations := by decide +kernel

theorem witness_StepRunsTheFrontCommand : State.reset.pending = [] := by decide

/-- The part of 4.10 with a frame in both of its receivers. -/
def receivingBoth (r : Receiver) : State := { before with sRx := r, oRx := r }

/-- Frames with octets to escape in both transmitters. -/
def sending : State := { before with sTx := [[0x48, 0x7E], [1, 2]], oTx := [[0x7D, 0x7E]] }

/-- R187, R6: a frame is sent between two delimiters, with 0x7E as 0x7D 0x5E and 0x7D as 0x7D 0x5D. -/
theorem test_frame_sent :
    after (exec (.transmitterFrameSent .shop) sending) (fun t =>
      decide (t = { sending with sTx := [[1, 2]], sSent := [0x7E, 0x48, 0x7D, 0x5E, 0x7E] })) = true
    ∧ after (exec (.transmitterFrameSent .office) sending) (fun t =>
      decide (t = { sending with oTx := [], oSent := [0x7E, 0x7D, 0x5D, 0x7D, 0x5E, 0x7E] })) = true := by decide +kernel

/-- R4, R188: a prefix that is not decimal is forwarded, also by a unit whose table carries it. -/
theorem test_prefix_not_decimal :
    let l := redeemOctets.set 9 0xA0;
    let s := { before with tables := { before.tables with bankA := { before.tables.bankA with
      tables := { before.tables.bankA.tables with
        programs := [(3, { program3 with digits := some (cardPrefix (giftFields (withCheck l)).card) })] } } } };
    after (exec (.frameReceived .shop (escaped (withCheck l))) s) (fun t => decide (t.oTx = [withCheck l])) = true := by
  decide +kernel

/-- Receivers in every state; frames with a bad escape, an unfinished one and a wrong check of the shortest length; runts of
one and two octets; a checked request; and transmitters with a frame and without. -/
theorem witness_ReceiversAndTransmitters :
    (State.reset.sRx.state ≠ .receiving ∧ State.reset.oRx.state ≠ .receiving ∧ before.sRx = freshReceiver
      ∧ before.oRx = freshReceiver ∧ before.sRx.state = .receiving ∧ before.oRx.state = .receiving)
    ∧ (receivingBoth { freshReceiver with bad := true }).sRx.bad = true
    ∧ (receivingBoth { freshReceiver with escape := true }).oRx.escape = true
    ∧ (3 ≤ ([1, 0, 0] : Frame).length ∧ checkAgrees [1, 0, 0] = false)
    ∧ (1 ≤ ([1] : Frame).length ∧ ([1, 2] : Frame).length ≤ 2)
    ∧ ((withCheck redeemOctets).length ≤ 600
      ∧ receiver .shop (receivingBoth { freshReceiver with frame := withCheck redeemOctets })
        = { freshReceiver with frame := withCheck redeemOctets })
    ∧ (sending.sTx = [0x48, 0x7E] :: [[1, 2]] ∧ sending.oTx = [0x7D, 0x7E] :: [] ∧ before.sTx = [] ∧ before.oTx = []) := by
  decide +kernel

/-- R1, R2: the closing delimiter of the request of 4.10 brings its admission about, and that of two octets counts a runt. -/
theorem test_delimiter_ends_frame :
    after (exec (.frameStartDelimiter .shop) (receivingBoth { freshReceiver with frame := withCheck redeemOctets })) (fun t =>
      decide (t.inFlight.map (·.amount) = [6000] ∧ t.sRx = freshReceiver)) = true
    ∧ after (exec (.frameStartDelimiter .office) (receivingBoth { freshReceiver with frame := [1, 2] })) (fun t =>
      decide (t.oCount.runts = 1 ∧ t.oRx = freshReceiver)) = true := by decide +kernel

theorem witness_EscapesRoundTrip :
    receiver .shop before = freshReceiver ∧ receiver .office before = freshReceiver
      ∧ (List.replicate 600 (0x7E : Octet)).length ≤ 600 := by decide +kernel

/-- A runt, the shortest frame with a wrong check, and the octets around a bad escape; a foreign class, a short request, a
prefix digit of 0xA and a prefix of no program; a frame without a destination, and one for another unit. -/
theorem witness_FramesAreSorted :
    (before.sRx = freshReceiver ∧ before.oRx = freshReceiver)
    ∧ (1 ≤ ([1] : Frame).length ∧ ([1, 2] : Frame).length ≤ 2)
    ∧ (3 ≤ ([1, 0, 0] : Frame).length ∧ ([1, 0, 0] : Frame).length ≤ 600 ∧ checkAgrees [1, 0, 0] = false)
    ∧ (([1] : Frame).length + ([] : Frame).length ≤ 598 ∧ (0x00 : Octet) ≠ 0x5D ∧ (0x00 : Octet) ≠ 0x5E
      ∧ (0x00 : Octet) ≠ 0x7E)
    ∧ field (withCheck [0x48]) 0 1 ≠ 0x47 ∧ (withCheck [0x47]).length < 26
    ∧ 9 < ((cardPrefix (giftFields (withCheck (redeemOctets.set 9 0x6A))).card).toNat / 16 ^ 4) % 16
    ∧ (∀ i < 16, (before.activeTables.program i).digits
        ≠ some (cardPrefix (giftFields (withCheck (redeemOctets.set 9 0x50))).card))
    ∧ ([0x4D] : List Octet).length = 1 ∧ field [0x4D, 0xB1] 1 1 ≠ before.unitAddress.toNat := by decide +kernel

theorem witness_ManagementFrameIsItsCommand :
    payload (.setClock 7 0xFFFFFFFF) = some { code := 4, tag := 7, params := [0xFF, 0xFF, 0xFF, 0xFF] }
      ∧ before.oRx = freshReceiver := by decide +kernel

/-- The four empty images of a block never sold. -/
def emptyImage : RecordImage :=
  { state := 0, presence := 0, balance := 0, held := 0, holdCount := 0, issueShop := 0, activationDay := 0, expiryDay := 0
    lastActivity := 0, sequence := 0 }
def emptyImages : FourImages := ⟨emptyImage, emptyImage, emptyImage, emptyImage⟩

/-- Another class, no code, an unknown code; a STATUS READ one octet too long; a LINK RESET one octet too long; a FLUSH
one octet too long while a CARD READ is in progress; an empty CARD LOAD LAST in READY; and, with a FIRST pending, a LAST
that ends after its block, which is that FIRST's or another. -/
theorem witness_UnknownAndMisshapenFramesRefused :
    (before.oRx = freshReceiver ∧ before.unitAddress = 0xB0)
    ∧ (field [0x4E, 0xB0, 1, 0, 7] 0 1 ≠ 0x4D ∧ field [0x4E, 0xB0, 1, 0, 7] 1 1 = 0xB0)
    ∧ ([0x4D, 0xB0] : List Octet).length = 2
    ∧ (commandTable 0x7F).isNone = true
    ∧ (field [0x4D, 0xB0, 1, 0, 7, 9] 0 1 = 0x4D ∧ (commandTable 1).map (·.length) = some 0
      ∧ ([0x4D, 0xB0, 1, 0, 7, 9] : List Octet).length ≠ 5 + 0 ∧ before.unit.progress = none ∧ before.unit.first = none)
    ∧ ((commandTable 0x08).map (·.length) = some 0 ∧ field [0x4D, 0xB0, 8, 0, 7, 9] 2 1 = 8)
    ∧ ((commandTable 0x14).map (·.length) = some 0 ∧ field [0x4D, 0xB0, 0x14, 0, 7, 9] 2 1 = 0x14
      ∧ { before with unit := { progress := some { tag := 7, work := .cardRead 66770 } } }.unit.progress.isSome = true)
    ∧ ((commandTable 0x12).map (decide <| 0 < ·.length) = some true ∧ field [0x4D, 0xB0, 0x12, 0, 7] 2 1 = 0x12
      ∧ before.store.phase = .ready)
    ∧ (let s := { before with
          store := { phase := .loading }, unit := { first := some { block := 131071, images := emptyImages } } };
      s.oRx = freshReceiver ∧ s.unit.progress = none ∧ s.store.phase ≠ .ready
        ∧ (commandTable 0x12).map (decide <| 3 < ·.length) = some true
        ∧ field [0x4D, 0xB0, 0x12, 0, 7, 0x01, 0xFF, 0xFF] 5 3 = 131071
        ∧ field [0x4D, 0xB0, 0x12, 0, 7, 0x01, 0xFF, 0xFE] 5 3 ≠ 131071) := by
  decide +kernel

/-- A pending FIRST for the last block. -/
def firstPending : State :=
  { State.reset with store := { phase := .loading }, unit := { first := some { block := 131071, images := emptyImages } } }

/-- A command while another is in progress, a FIRST in READY, a FLUSH while a FIRST is pending, and a LAST while none is. -/
theorem witness_BusyAndBrokenPairsRefused :
    (payload (.flush 7) = some { code := 0x14, tag := 7, params := [] } ∧ (0x14 : BitVec 8) ≠ 0x08
      ∧ (unitWork .cardRead (.cardRead 66770) card).unit.progress.isSome = true)
    ∧ ((payload (.cardLoadFirst 7 0 emptyImages)).map (·.code) = some 0x11 ∧ readyStore.unit.progress = none
      ∧ readyStore.store.phase = .ready)
    ∧ (firstPending.unit.progress = none
      ∧ firstPending.unit.first = some { block := 131071, images := emptyImages }
      ∧ firstPending.store.phase ≠ .ready
      ∧ ∀ images, Instr.flush 7 ≠ .cardLoadLast 7 (BitVec.ofNat 24 131071) images)
    ∧ ((payload (.cardLoadLast 7 0 emptyImages)).map (·.code) = some 0x12 ∧ State.reset.unit.progress = none
      ∧ State.reset.unit.first = none ∧ State.reset.store.phase ≠ .ready) := by
  refine ⟨by decide +kernel, by decide +kernel, ⟨by decide +kernel, by decide +kernel, by decide +kernel, ?_⟩,
    by decide +kernel⟩
  intro images h
  cases h

/-- What the first request of 4.10 is. -/
theorem witness_request_fits : RequestFits (giftFields (withCheck redeemOctets)) .redeem where
  kind := by decide +kernel
  length := by decide +kernel
  party := by decide +kernel
  digits := by
    have h : ∀ i < 17, 7 ≤ i → cardDigit (giftFields (withCheck redeemOctets)).card i ≤ 9 := by decide +kernel
    intro i h7 h16
    exact h i (by omega) h7
  check := by decide +kernel
  amount := by decide +kernel
  reference := by decide +kernel
  flags := by decide +kernel

theorem witness_finds_program :
    FindsProgram before.activeTables (cardPrefix (giftFields (withCheck redeemOctets)).card) 3 := by
  unfold FindsProgram
  decide +kernel

/-- The first request of 4.10, in event 1. -/
theorem witness_RequestAdmitted :
    before.sRx = freshReceiver ∧ redeemOctets.length = 24 ∧ field redeemOctets 0 1 = 0x47
      ∧ (∀ j < 6, ((cardPrefix (giftFields (withCheck redeemOctets)).card).toNat / 16 ^ j) % 16 ≤ 9)
      ∧ FindsProgram before.activeTables (cardPrefix (giftFields (withCheck redeemOctets)).card) 3
      ∧ RequestFits (giftFields (withCheck redeemOctets)) .redeem
      ∧ declineReason before (giftFields (withCheck redeemOctets)) .redeem 3 = none :=
  ⟨by decide +kernel, by decide +kernel, by decide +kernel, by decide +kernel, witness_finds_program, witness_request_fits,
    by decide +kernel⟩

/-- The same request with a wrong check digit, and while the store is not READY. -/
theorem witness_RequestDeclined :
    (let l := redeemOctets.set 16 0x47;
      before.sRx = freshReceiver ∧ l.length = 24 ∧ field l 0 1 = 0x47
        ∧ (∀ j < 6, ((cardPrefix (giftFields (withCheck l)).card).toNat / 16 ^ j) % 16 ≤ 9)
        ∧ FindsProgram before.activeTables (cardPrefix (giftFields (withCheck l)).card) 3
        ∧ ∀ k, ¬ RequestFits (giftFields (withCheck l)) k)
    ∧ (let s := { before with store := {} };
      FindsProgram s.activeTables (cardPrefix (giftFields (withCheck redeemOctets)).card) 3
        ∧ declineReason s (giftFields (withCheck redeemOctets)) .redeem 3 = some .storeNotReady) := by
  refine ⟨⟨by decide +kernel, by decide +kernel, by decide +kernel, by decide +kernel,
    by unfold FindsProgram; decide +kernel, ?_⟩, by unfold FindsProgram; decide +kernel⟩
  intro k h
  exact absurd h.check (by decide +kernel)

/-- 9.9 event 1, a later window in which no alarm state changes, and a window that has not passed. -/
theorem witness_WindowEndWeighsEveryShop :
    (let s := alarmDay { mode := .opened, windowFaults := 7 } 1700000040 28333333;
      canonical {} s.supervision.shops = true ∧ s.supervision.keptWindow < s.clock.toNat / 60
        ∧ (weighedShop s 61).alarm ≠ (s.shop 61).alarm)
    ∧ (let s := { State.reset with clock := 60 };
      canonical {} s.supervision.shops = true ∧ s.supervision.keptWindow < s.clock.toNat / 60
        ∧ ∀ n, (weighedShop s n).alarm = (s.shop n).alarm)
    ∧ ({ State.reset with clock := 59 } : State).clock.toNat / 60 ≤ State.reset.supervision.keptWindow :=
  ⟨by decide +kernel, ⟨by decide +kernel, by decide +kernel, fun _ => rfl⟩, by decide +kernel⟩

/-- The tick that makes the first hold due; the tick that wraps and so ends the window it is in; a tick that ends a
window without wrapping; and SET CLOCK to a later window and to an earlier one. -/
theorem witness_ClockActsOnTheNewValue :
    (canonical {} sweepDue.supervision.shops = true ∧ sweepDue.unitFree ∧ candidate sweepDue.holds = some (barHold .opened)
      ∧ (barHold .opened).expiry ≤ (sweepDue.clock + 1).toNat ∧ sweepDue.holds.expiring = none
      ∧ sweepDue.inFlight.length < 64
      ∧ sweepDue.journalOut.copies.length + sweepDue.journalOut.reservations < 512)
    ∧ (let s := alarmDay { mode := .opened, windowFaults := 7 } 0xFFFFFFFF 71582788;
      canonical {} s.supervision.shops = true ∧ s.clock + 1 = 0 ∧ s.supervision.keptWindow = s.clock.toNat / 60)
    ∧ (let s := alarmDay { mode := .opened, windowFaults := 7 } 1700000039 28333333;
      canonical {} s.supervision.shops = true ∧ s.supervision.keptWindow < (s.clock + 1).toNat / 60)
    ∧ (sweepDue.supervision.keptWindow < (0xFFFFFFFF : BitVec 32).toNat / 60
      ∧ ¬ sweepDue.supervision.keptWindow < (0 : BitVec 32).toNat / 60) :=
  ⟨⟨by decide +kernel, ⟨rfl, rfl⟩, by decide +kernel⟩, by decide +kernel⟩

/-- R161, R178: the wrap of the clock ends a window in the same event, and the kept window is the first one. -/
theorem test_wrap_ends_window :
    after (exec .clockTick (alarmDay { mode := .opened, windowFaults := 7 } 0xFFFFFFFF 71582788)) (fun t =>
      decide (t.clock = 0 ∧ t.supervision.keptWindow = 0 ∧ t.shop 61 = { mode := .opened, alarm := .watch, badWindows := 1 }))
      = true := by decide +kernel

/-- The part with its closing set in a state. -/
def closingIn (c : Closing) (graceEnd : Option Nat) : State :=
  { State.reset with clock := 1000, cycle := { number := 2, current := .y, closing := c, graceEnd := graceEnd } }

theorem witness_ClosingSetMovesOn :
    ((closingIn .grace (some 1000)).cycle.closing = .grace ∧ (closingIn .grace (some 1000)).cycle.graceEnd = some 1000
      ∧ 1000 ≤ (closingIn .grace (some 1000)).clock.toNat)
    ∧ ((closingIn .freezing none).cycle.closing = .freezing ∧ (closingIn .freezing none).cycle.graceVoids = 0)
    ∧ ((closingIn .draining none).cycle.closing = .draining ∧ (closingIn .draining none).payout.queue = [])
    ∧ (closingIn .frozen none).cycle.closing = .frozen ∧ State.reset.cycle.closing = .none := by decide +kernel

theorem witness_CutoverAndFreeze :
    State.reset.unitFree ∧ State.reset.cycle.closing = .none ∧ (closingIn .grace (some 2000)).unitFree
      ∧ (closingIn .grace (some 2000)).cycle.closing = .grace :=
  ⟨⟨rfl, rfl⟩, rfl, ⟨rfl, rfl⟩, rfl⟩

/-- The walk at a shop, with `n` records in the queue. -/
def payoutFull (cursor n : Nat) : State :=
  { payoutDay cursor .walking with
    payout := { (payoutDay cursor .walking).payout with
      queue := List.replicate n (.shop (shopRecord 305 36 class3 {} 5000)) } }

/-- The walk at shop 37 and past its last shop, each with room for one record more and with 64 records in the queue. -/
theorem witness_PayoutWalkSteps :
    (∀ n, n = 63 ∨ n = 64 → let s := payoutFull 37 n;
      s.payout.engine = .walking ∧ s.payout.cursor ≤ 37 ∧ (∀ j, s.payout.cursor ≤ j → j < 37 → ¬ WalksTo s j)
        ∧ WalksTo s 37 ∧ s.payout.queue.length = n)
    ∧ (∀ n, n = 63 ∨ n = 64 → let s := payoutFull 512 n;
      s.payout.engine = .walking ∧ s.payout.cursor ≤ 512 ∧ (∀ j, s.payout.cursor ≤ j → j < 512 → ¬ WalksTo s j)
        ∧ s.payout.queue.length = n)
    ∧ (payoutDay 37 .waiting).payout.engine ≠ .walking := by
  refine ⟨?_, ?_, by decide +kernel⟩
  all_goals
    intro n h
    have none_before : ∀ c j : Nat, c ≤ j → j < c → False := fun _ _ h1 h2 => absurd (Nat.lt_of_lt_of_le h2 h1) (Nat.lt_irrefl _)
  · exact ⟨rfl, Nat.le_refl _, fun j h1 h2 => (none_before _ j h1 h2).elim, Or.inl (by show row37.redeemCount ≠ 0; decide),
      List.length_replicate⟩
  · exact ⟨rfl, Nat.le_refl _, fun j h1 h2 => (none_before _ j h1 h2).elim, List.length_replicate⟩

/-- R148: a step with 64 records in the queue makes the engine wait at its shop. -/
theorem test_walk_waits :
    after (exec .payoutStep (payoutFull 37 64)) (fun t =>
      decide (t.payout.engine = .waiting ∧ t.payout.cursor = 37 ∧ t.payout.queue.length = 64)) = true := by decide +kernel

/-- A net at exactly the minimum payout and one below it, one at exactly the collection threshold and one above it. -/
theorem witness_PayoutRecordFigures :
    (shopRecord 305 38 class3 {} 2500).net = 2500 ∧ (shopRecord 305 38 class3 {} 2499).net = 2499
      ∧ (shopRecord 305 38 class3 {} 0).net = 0 ∧ (shopRecord 305 38 class3 {} (-1000)).net = -1000
      ∧ (shopRecord 305 38 class3 {} (-999)).net = -999 ∧ class3.minPayout ≤ 100000 ∧ class3.collectAt ≤ 100000 := by
  decide +kernel

/-- The last index of each table, a hold and an entry that are found, and a reference that is not. -/
theorem witness_StoredEntriesAnswered :
    State.reset.unitFree ∧ (15 : BitVec 16).toNat < 16 ∧ (511 : BitVec 16).toNat < 512 ∧ 512 ≤ (512 : BitVec 16).toNat
      ∧ (80500 : BitVec 32) ≠ 0 ∧ releaseBar.unitFree
      ∧ releaseBar.holds.entries.find? (fun g => g.ref == 80500) = some (barHold .claimed)
      ∧ refundAt.unitFree
      ∧ look none refundAt.journal.ring ((70100 : BitVec 32).toNat % 8192)
        = some (entryOn .redeem 70100 4500 (some 3000) 17) := by
  unfold State.unitFree
  decide +kernel

theorem witness_RowReadAnswers :
    (closingIn .frozen none).unitFree ∧ (511 : BitVec 16).toNat < 512 ∧ (closingIn .frozen none).cycle.closing ≠ .none
      ∧ State.reset.cycle.closing = .none ∧ 512 ≤ (512 : BitVec 16).toNat ∧ (512 : BitVec 16) ≠ 0xFFFF := by
  unfold State.unitFree
  decide +kernel

theorem witness_CountersAndShopScan :
    State.reset.unitFree ∧ (511 : BitVec 16).toNat < 512 ∧ 512 ≤ (512 : BitVec 16).toNat ∧ 1 < (2 : BitVec 8).toNat
      ∧ (512 : BitVec 16) ≠ 0xFFFE ∧ (512 : BitVec 16) ≠ 0xFFFF ∧ canonical {} State.reset.supervision.shops = true := by
  unfold State.unitFree
  decide +kernel

theorem witness_SetConfigWritesAllOrNone :
    State.reset.unitFree ∧ (1 ≤ (255 : BitVec 8).toNat ∧ 1 ≤ (15 : BitVec 8).toNat ∧ (15 : BitVec 8).toNat ≤ 15
      ∧ 1 ≤ (60 : BitVec 8).toNat ∧ (60 : BitVec 8).toNat ≤ 60 ∧ (3600 : BitVec 16).toNat ≤ 3600)
      ∧ ¬ (3601 : BitVec 16).toNat ≤ 3600 := by
  unfold State.unitFree
  decide +kernel

/-- Unmasking RESET_SEEN while it is latched, and unmasking nothing. -/
theorem witness_NoticeMasksAndAcks :
    let s := { State.reset with notices := { latch := 1, masks := 1, number := 1 } };
    s.unitFree ∧ (63 : BitVec 8).toNat < 64 ∧ 64 ≤ (64 : BitVec 8).toNat
      ∧ s.notices.masks &&& ~~~((0 : BitVec 8).truncate 6) &&& s.notices.latch ≠ 0
      ∧ s.notices.masks &&& ~~~((63 : BitVec 8).truncate 6) &&& s.notices.latch = 0 := by
  unfold State.unitFree
  decide +kernel

/-- Eight copies, all of them taken, while a due hold waits for a place. -/
def journalFull : State :=
  { sweepDue with
    clock := 1700014400
    journalOut := { copies := List.replicate 8 (entryOn .redeem 70100 4500 (some 0) 17), reservations := 504
                    level := .closed } }

theorem witness_JournalTakeRemovesOldest :
    journalFull.unitFree ∧ 1 ≤ (8 : BitVec 8).toNat ∧ (8 : BitVec 8).toNat ≤ journalFull.journalOut.copies.length
      ∧ journalFull.LevelAgrees ∧ candidate journalFull.holds = some (barHold .opened)
      ∧ (barHold .opened).expiry ≤ journalFull.clock.toNat ∧ journalFull.holds.expiring = none
      ∧ journalFull.inFlight.length < 64 ∧ 0 + journalFull.journalOut.reservations < 512
      ∧ State.reset.journalOut.copies.length < (1 : BitVec 8).toNat := by
  unfold State.unitFree State.LevelAgrees
  decide +kernel

/-- R186, R93: the level falls to LIMITED and the waiting hold is selected in the same event. -/
theorem test_journal_take :
    after (exec (.journalTake 7 8) journalFull) (fun t =>
      decide (t.journalOut = { copies := [], reservations := 505, level := .limited })
      && decide (t.holds.expiring = some 80500)) = true := by decide +kernel

theorem witness_LinkResetClearsLinksAndAlarms : canonical {} partRedeem.supervision.shops = true := by decide +kernel

theorem witness_LoadingCommands :
    State.reset.unitFree ∧ State.reset.store.phase ≠ .ready ∧ (131071 : BitVec 24).toNat < 131072
      ∧ 131072 ≤ (131072 : BitVec 24).toNat ∧ readyStore.unitFree ∧ readyStore.store.phase = .ready := by
  unfold State.unitFree
  decide +kernel

/-- The LAST for the pending block: new with line 0 free; new behind another demand; present with room in the in-flight
set, and without; and with a record that fails. -/
theorem witness_CardLoadLastWrites :
    (firstPending.unit.progress = none ∧ firstPending.unit.first = some { block := 131071, images := emptyImages }
      ∧ (131071 : BitVec 24).toNat = 131071 ∧ firstPending.store.phase ≠ .ready)
    ∧ (loadedBlock emptyImages emptyImages = some [] ∧ firstPending.isValid 131071 = false
      ∧ (∀ i < 32, (firstPending.line i).block ≠ some 131071) ∧ firstPending.buffer.waitList = []
      ∧ findLine firstPending = some 0)
    ∧ { firstPending with buffer := { waitList := [.entry 0 9] } }.buffer.waitList ≠ []
    ∧ ({ firstPending with store := { phase := .loading, valid := [131071] } }.isValid 131071 = true
      ∧ firstPending.inFlight.length < 64)
    ∧ 64 ≤ { firstPending with inFlight := List.replicate 64 (unitEntry .cardRead) }.inFlight.length
    ∧ loadedBlock emptyImages { emptyImages with fourth := { emptyImage with held := 1 } } = none := by decide +kernel

/-- An audit with a block present and with none, one that runs, and a store that is not READY. -/
theorem witness_FlushAndAuditStart :
    State.reset.unitFree ∧ readyStore.unitFree ∧ readyStore.store.phase = .ready
      ∧ readyStore.store.audit.running = false ∧ auditing.unitFree ∧ auditing.store.phase = .ready
      ∧ auditing.store.audit.running = true ∧ State.reset.store.phase ≠ .ready := by
  unfold State.unitFree
  decide +kernel

theorem witness_CardCommandsTakenOn :
    readyStore.unitFree ∧ readyStore.store.phase = .ready ∧ (1048575 : BitVec 24).toNat < 1048576
      ∧ 1048576 ≤ (1048576 : BitVec 24).toNat ∧ adjustFits (adjustBy (-999999)) = true ∧ adjustFits (adjustBy 0) = false
      ∧ readyStore.inFlight.length < 64 ∧ readyStore.journalOut.copies.length + readyStore.journalOut.reservations < 512
      ∧ State.reset.store.phase ≠ .ready
      ∧ 64 ≤ { readyStore with inFlight := List.replicate 64 (unitEntry .cardRead) }.inFlight.length
      ∧ 512 ≤ journalFull.journalOut.copies.length + journalFull.journalOut.reservations := by
  unfold State.unitFree
  decide +kernel

/-- Table entries at the ends of their ranges. -/
def programFields : ProgramFields :=
  { digits := 0x604213, flags := 31, baseSlot := 65536, slotCount := 100000, minLoad := 1000, maxLoad := 50000
    maxBalance := 999999, openCap := 1, tolerance := 50, lifetime := 604800, expiryDays := 3650, standInLimit := 2000 }
def feeFields : FeeFields :=
  { redemptionRate := 1000, fixedFee := 500, commissionRate := 1000, minPayout := 100000, collectAt := 100000, flags := 1 }
def termsFields : TermsFields := { feeClass := 15, limit := 0xFFFFFF, flags := 31 }

theorem witness_LoadsWriteTheShadow :
    State.reset.unitFree ∧ State.reset.tables.shadow ≠ .retiring ∧ (programOf programFields).isSome = true
      ∧ (feeClassOf feeFields).isSome = true ∧ (termsOf termsFields).isSome = true ∧ (15 : BitVec 8).toNat < 16
      ∧ (511 : BitVec 16).toNat < 512 ∧ (programOf { programFields with tolerance := 51 }).isNone = true
      ∧ (feeClassOf { feeFields with flags := 2 }).isNone = true ∧ (termsOf { termsFields with feeClass := 16 }).isNone = true
      ∧ { State.reset with tables := { tables with shadow := .retiring } }.tables.shadow = .retiring := by
  unfold State.unitFree
  decide +kernel

/-- R21: a hold lifetime of 0 is in range for a disabled program alone. -/
theorem test_load_program_lifetime :
    (programOf { programFields with lifetime := 0, flags := 30 }).isSome = true
      ∧ (programOf { programFields with lifetime := 0 }).isSome = false := by decide +kernel

theorem witness_DiscardShadowByState :
    let s : ShadowState → BankId → State := fun st k =>
      { State.reset with tables := { tables with shadow := st, active := k } }
    (s .loaded .a).unitFree ∧ (s .loaded .a).tables.shadow = .loaded ∧ (s .loaded .a).tables.active = .a
      ∧ (s .loaded .b).tables.active = .b ∧ (s .free .a).tables.shadow = .free
      ∧ (s .retiring .a).tables.shadow = .retiring := by
  unfold State.unitFree
  decide +kernel

/-- The commit above with a second program, at index 5 of the shadow. -/
def overlapping (p : Program) : State :=
  { committed with tables := { committed.tables with
      bankB := { tables := { programs := [(3, { program3 with minLoad := 2000 }), (5, p)] } } } }

/-- R28: the refusals of entry 5 for one slot past the end, for its prefix, and for the last slot of entry 3; the slot
after it passes. -/
theorem test_commit_overlap :
    (validation (shadowBank (overlapping { program3 with baseSlot := 1048575, slotCount := 2 }).tables).tables
      = some (5, .rangeEnd))
    ∧ (validation (shadowBank (overlapping { program3 with baseSlot := 0, slotCount := 1 }).tables).tables
      = some (5, .samePrefix 3))
    ∧ (validation (shadowBank
        (overlapping { program3 with digits := some 0x604214, baseSlot := 165535, slotCount := 1 }).tables).tables
      = some (5, .slots 3))
    ∧ (validation (shadowBank
        (overlapping { program3 with digits := some 0x604214, baseSlot := 165536, slotCount := 1 }).tables).tables
      = none) := by decide +kernel

/-- Shadows whose entry 5 fails by each cause; the commit above, one with an entry in flight, and the states that refuse. -/
theorem witness_CommitTablesChecksAndSwaps :
    ((overlapping { program3 with baseSlot := 1048575, slotCount := 2 }).unitFree
      ∧ (overlapping { program3 with baseSlot := 1048575, slotCount := 2 }).tables.shadow = .loaded
      ∧ (overlapping { program3 with baseSlot := 1048575, slotCount := 2 }).cycle.closing ≠ .computing)
    ∧ (let set := (shadowBank (overlapping { program3 with baseSlot := 1048575, slotCount := 2 }).tables).tables;
      (set.program 5).enabled = true ∧ 1048576 < (set.program 5).baseSlot + (set.program 5).slotCount)
    ∧ (let set := (shadowBank (overlapping { program3 with baseSlot := 0, slotCount := 1 }).tables).tables;
      (set.program 5).enabled = true ∧ ¬ 1048576 < (set.program 5).baseSlot + (set.program 5).slotCount
        ∧ (set.program 3).enabled = true ∧ (set.program 3).digits = (set.program 5).digits)
    ∧ (let set := (shadowBank (overlapping { program3 with digits := some 0x604214, baseSlot := 165535, slotCount := 1 }).tables).tables;
      (set.program 5).enabled = true ∧ ¬ 1048576 < (set.program 5).baseSlot + (set.program 5).slotCount
        ∧ (∀ j < 5, (set.program j).enabled = true → (set.program j).digits ≠ (set.program 5).digits)
        ∧ (set.program 3).enabled = true
        ∧ (set.program 5).baseSlot < (set.program 3).baseSlot + (set.program 3).slotCount
        ∧ (set.program 3).baseSlot < (set.program 5).baseSlot + (set.program 5).slotCount)
    ∧ (committed.unitFree ∧ committed.tables.shadow = .loaded ∧ committed.cycle.closing ≠ .computing
      ∧ (∀ i < 16, ((shadowBank committed.tables).tables.program i).enabled = true → i = 3)
      ∧ ¬ 1048576 < 65536 + 100000 ∧ (activeBank committed.tables).count = 0)
    ∧ (activeBank { committed.tables with bankA := tables.bankA }).count ≠ 0
    ∧ 1048576 < 1048575 + 2
    ∧ State.reset.tables.shadow ≠ .loaded ∧ (payoutDay 0 .walking).cycle.closing = .computing := by
  unfold State.unitFree
  decide +kernel

theorem witness_CarriesReadAndSet :
    State.reset.unitFree ∧ (511 : BitVec 16).toNat < 512 ∧ 512 ≤ (512 : BitVec 16).toNat
      ∧ (BitVec.ofInt 32 (-99999)).toInt = -99999 ∧ (BitVec.ofInt 32 (-100000)).toInt < -99999
      ∧ State.reset.cycle.closing ≠ .computing ∧ (payoutDay 0 .walking).cycle.closing = .computing
      ∧ (payoutDay 0 .walking).unitFree := by
  unfold State.unitFree
  decide +kernel

/-- R167, R190: COUNTER READ of a shop answers 24 octets, whatever the two without a field hold. -/
theorem test_counter_read_octets : (shopCounterAnswer 37 State.reset).length = 24 := by
  simp [shopCounterAnswer, shopCounters, octets, causeOctet, marksOctet]

/-- 8.6 events 8, 9 and 11. -/
theorem witness_PayoutTakeRemovesOldest :
    ((takeDay 5).unitFree ∧ (4 : BitVec 8).toNat ≤ (takeDay 5).payout.queue.length
      ∧ (takeDay 5).payout.queue.drop 4 ≠ [])
    ∧ (takeDay 1).payout.queue.length < (2 : BitVec 8).toNat
    ∧ ((takeDay 1).cycle.closing = .draining ∧ (takeDay 1).payout.queue.drop 1 = []) := by
  unfold State.unitFree
  decide +kernel

theorem witness_ShopModesAndCauses :
    State.reset.unitFree ∧ (511 : BitVec 16).toNat < 512 ∧ (State.reset.shop 511).mode = .closed
      ∧ (before.shop 37).mode ≠ .closed ∧ before.unitFree ∧ 512 ≤ (512 : BitVec 16).toNat ∧ 2 < (3 : BitVec 8).toNat := by
  unfold State.unitFree
  decide +kernel

/-! ### A state that meets the invariants, with a command waiting -/

/-- 4.10 event 7, the posting waiting in the queue. -/
def waiting : State := { partRedeem with pending := [.redeemPosting 12] }

theorem waiting_steps : ∃ t, step waiting = .next t := ⟨_, rfl⟩

theorem witness_LevelAgreesIsKept : waiting.LevelAgrees := by
  unfold State.LevelAgrees
  decide +kernel

theorem witness_TablesStayCanonical : waiting.TablesCanonical := by
  constructor <;> decide +kernel

theorem witness_ClosedShopsStayAtRest : canonical {} waiting.supervision.shops = true ∧ waiting.ClosedShopsRest := by
  refine ⟨by decide +kernel, ?_⟩
  intro n h
  simp only [State.shop, waiting, partRedeem, atLine, look] at h ⊢
  split at h
  · cases h
  · split at h
    · cases h
    · split at h
      · cases h
      · rename_i h1 h2 h3
        simp [h1, h2, h3]

theorem witness_CapacitiesAreKept : waiting.Fits where
  inFlight := by unfold State.InFlightFits; decide +kernel
  queues := fun _ => Nat.zero_le _
  holds := by decide +kernel
  payout := by unfold State.PayoutFits; decide +kernel
  frames := by unfold State.FramesFit; decide +kernel

theorem witness_JournalOutNeverOverflows : waiting.JournalOutFits where
  agree := ⟨by decide +kernel, by decide +kernel, by decide +kernel⟩
  level := witness_LevelAgreesIsKept
  reserved := by decide +kernel
  fits := by decide +kernel

/-- The totals of 8.6 after shop 37, and a cycle total record with the same totals in the queue. -/
theorem witness_PayoutTotalsBalance :
    let totals := addTotals {} (shopRecord 305 37 class2 row37 1820);
    ({ State.reset with
        pending := [.payoutStep]
        payout := { totals := totals
                    queue := [.total { cycle := 305, totals := totals, adjustUp := 3000, adjustDown := 1250
                                       floatAtFreeze := 398204550, saturated := false }] } } : State).TotalsBalance := by
  refine ⟨by unfold Totals.Balance; decide +kernel, ?_⟩
  intro r h
  cases List.mem_singleton.mp h
  unfold Totals.Balance
  decide +kernel

end Sys2Proof.Tests
end

section
/-! PROOFS. The table-set commands that write the shadow bank (chapter 2): the LOADs and DISCARD SHADOW by shadow state. -/

namespace Sys2Proof.Proofs.TableSets

open Sys2Proof Sys2Proof.Machine

/-! ### What the changes of the table sets do -/

section
variable (f : TableSet → TableSet) (t : Tables)

@[simp] theorem writeShadow_shadow : (writeShadow f t).shadow = .loaded := rfl

@[simp] theorem writeShadow_generation : (writeShadow f t).generation = t.generation := by
  unfold writeShadow modifyShadow
  cases t.active <;> rfl

/-- While bank A is active, a write into the shadow changes bank B alone. -/
theorem writeShadow_of_active_a (h : t.active = .a) :
    writeShadow f t = { t with bankB := { t.bankB with tables := f t.bankB.tables }, shadow := .loaded } := by
  simp only [writeShadow, modifyShadow, h]

/-- While bank B is active, a write into the shadow changes bank A alone. -/
theorem writeShadow_of_active_b (h : t.active = .b) :
    writeShadow f t = { t with bankA := { t.bankA with tables := f t.bankA.tables }, shadow := .loaded } := by
  simp only [writeShadow, modifyShadow, h]

theorem discarded_of_loaded_a (h : t.shadow = .loaded) (ha : t.active = .a) :
    discarded t = { t with bankB := { t.bankB with tables := t.bankA.tables }, shadow := .free } := by
  simp only [discarded, if_pos h, modifyShadow, activeBank, ha]

theorem discarded_of_loaded_b (h : t.shadow = .loaded) (hb : t.active = .b) :
    discarded t = { t with bankA := { t.bankA with tables := t.bankB.tables }, shadow := .free } := by
  simp only [discarded, if_pos h, modifyShadow, activeBank, hb]

theorem discarded_of_free (h : t.shadow = .free) : discarded t = t := by
  simp [discarded, h]

end

/-! ### Their answers -/

/-- R171: a table-set command that an idle unit takes and that changes the tables by `f` answers with the shadow state
and the generation that `f` leaves. -/
theorem command_modifyTables {s : State} (h : s.unitFree) {code : BitVec 8}
    (hc : (code == 0x11 || code == 0x12) = false) (tag : BitVec 16) (body : Event → Event) (f : Tables → Tables)
    (hb : body (arrived s) = accept code tag tableAnswer ((arrived s).upd (modifyTables f))) :
    command code tag body s = accepted code tag (tableAnswer (modifyTables f s)) (modifyTables f s) :=
  command_accepted h hc tag body tableAnswer hb rfl

/-- 2.5: the answer fields after a LOAD. -/
theorem tableAnswer_writeShadow (f : TableSet → TableSet) (s : State) :
    tableAnswer (modifyTables (writeShadow f) s) = octets 1 1 ++ octets 1 s.tables.generation.toNat := by
  simp [tableAnswer, modifyTables, shadowCode]

/-! ### The three LOADs as one -/

/-- The form that the three LOADs share: the fields make an entry or none, the index is in range or not, and a
well-formed entry goes to the shadow by `write`. -/
def loadEntry {α : Type} (code : BitVec 8) (tag : BitVec 16) (made : Option α) (index limit : Nat)
    (write : α → TableSet → TableSet) (e : Event) : Event :=
  match made with
  | none => refuse code tag .badField e
  | some x => if index < limit then loadShadow code tag (write x) e else refuse code tag .badField e

theorem doLoadProgram_eq (tag : BitVec 16) (index : BitVec 8) (p : ProgramFields) :
    doLoadProgram tag index p = loadEntry 0x20 tag (programOf p) index.toNat 16
      (fun x t => { t with programs := put {} t.programs index.toNat x }) := by
  funext e
  unfold doLoadProgram loadEntry
  cases programOf p <;> rfl

theorem doLoadFeeClass_eq (tag : BitVec 16) (index : BitVec 8) (c : FeeFields) :
    doLoadFeeClass tag index c = loadEntry 0x21 tag (feeClassOf c) index.toNat 16
      (fun x t => { t with classes := put {} t.classes index.toNat x }) := by
  funext e
  unfold doLoadFeeClass loadEntry
  cases feeClassOf c <;> rfl

theorem doLoadShopTerms_eq (tag : BitVec 16) (shop : BitVec 16) (m : TermsFields) :
    doLoadShopTerms tag shop m = loadEntry 0x22 tag (termsOf m) shop.toNat 512
      (fun x t => { t with terms := put {} t.terms shop.toNat x }) := by
  funext e
  unfold doLoadShopTerms loadEntry
  cases termsOf m <;> rfl

theorem exec_loadProgram (tag : BitVec 16) (index : BitVec 8) (p : ProgramFields) (s : State) :
    exec (.loadProgram tag index p) s = .next (command 0x20 tag (loadEntry 0x20 tag (programOf p) index.toNat 16
      (fun x t => { t with programs := put {} t.programs index.toNat x })) s) := by
  rw [← doLoadProgram_eq]
  rfl

theorem exec_loadFeeClass (tag : BitVec 16) (index : BitVec 8) (c : FeeFields) (s : State) :
    exec (.loadFeeClass tag index c) s = .next (command 0x21 tag (loadEntry 0x21 tag (feeClassOf c) index.toNat 16
      (fun x t => { t with classes := put {} t.classes index.toNat x })) s) := by
  rw [← doLoadFeeClass_eq]
  rfl

theorem exec_loadShopTerms (tag : BitVec 16) (shop : BitVec 16) (m : TermsFields) (s : State) :
    exec (.loadShopTerms tag shop m) s = .next (command 0x22 tag (loadEntry 0x22 tag (termsOf m) shop.toNat 512
      (fun x t => { t with terms := put {} t.terms shop.toNat x })) s) := by
  rw [← doLoadShopTerms_eq]
  rfl

section
variable {α : Type} {s : State} (h : s.unitFree) {code : BitVec 8} (hc : (code == 0x11 || code == 0x12) = false)
  (tag : BitVec 16) {made : Option α} {index limit : Nat} (write : α → TableSet → TableSet)
include h hc

/-- R25: outside RETIRING, a well-formed LOAD writes its entry into the shadow. -/
theorem command_loadEntry_written {x : α} (hx : made = some x) (hi : index < limit)
    (hs : s.tables.shadow ≠ .retiring) :
    command code tag (loadEntry code tag made index limit write) s
      = accepted code tag (octets 1 1 ++ octets 1 s.tables.generation.toNat)
          (modifyTables (writeShadow (write x)) s) := by
  have hb : loadEntry code tag made index limit write (arrived s)
      = accept code tag tableAnswer ((arrived s).upd (modifyTables (writeShadow (write x)))) := by
    simp only [loadEntry, hx, if_pos hi]
    exact if_neg hs
  rw [command_modifyTables h hc tag _ _ hb, tableAnswer_writeShadow]

/-- R25: a LOAD with malformed fields or an index out of range is refused whatever the shadow's state. -/
theorem command_loadEntry_badField (hm : made = none ∨ limit ≤ index) :
    command code tag (loadEntry code tag made index limit write) s = refusedWith code tag .badField s := by
  have hb : loadEntry code tag made index limit write (arrived s) = refuse code tag .badField (arrived s) := by
    cases hx : made with
    | none => rfl
    | some x =>
      have hi : limit ≤ index := hm.resolve_left (by simp [hx])
      exact if_neg (Nat.not_lt.mpr hi)
  exact command_refused h hc tag _ .badField hb

/-- R25: in RETIRING a well-formed LOAD is refused BUSY. -/
theorem command_loadEntry_busy (hm : made.isSome = true) (hi : index < limit) (hs : s.tables.shadow = .retiring) :
    command code tag (loadEntry code tag made index limit write) s = refusedWith code tag .busy s := by
  obtain ⟨x, hx⟩ := Option.isSome_iff_exists.mp hm
  have hb : loadEntry code tag made index limit write (arrived s) = refuse code tag .busy (arrived s) := by
    simp only [loadEntry, hx, if_pos hi]
    exact if_pos hs
  exact command_refused h hc tag _ .busy hb

end

/-- Settles O49: each LOAD is a `loadEntry`, and the write into the shadow is a change of the bank that is not active. -/
theorem loadsWriteTheShadow : Obligations.LoadsWriteTheShadow := by
  unfold Obligations.LoadsWriteTheShadow
  intro s tag index shop p c m hfree written answer
  have hw : ∀ f, modifyTables (writeShadow f) s = written f := by
    intro f
    unfold modifyTables
    cases ha : s.tables.active with
    | a => simp only [written, ha, writeShadow_of_active_a f _ ha]
    | b => simp only [written, ha, writeShadow_of_active_b f _ ha]
  simp only [exec_loadProgram, exec_loadFeeClass, exec_loadShopTerms, ← hw, Host.Outcome.next.injEq]
  refine ⟨fun hs => ⟨?_, ?_, ?_⟩, ?_, ?_, ?_, fun hs => ⟨?_, ?_, ?_⟩⟩
  · exact fun _ hx hi => command_loadEntry_written hfree rfl tag _ hx hi hs
  · exact fun _ hx hi => command_loadEntry_written hfree rfl tag _ hx hi hs
  · exact fun _ hx hi => command_loadEntry_written hfree rfl tag _ hx hi hs
  · exact command_loadEntry_badField hfree rfl tag _
  · exact command_loadEntry_badField hfree rfl tag _
  · exact command_loadEntry_badField hfree rfl tag _
  · exact fun hm hi => command_loadEntry_busy hfree rfl tag _ hm hi hs
  · exact fun hm hi => command_loadEntry_busy hfree rfl tag _ hm hi hs
  · exact fun hm hi => command_loadEntry_busy hfree rfl tag _ hm hi hs

/-! ### DISCARD SHADOW -/

theorem exec_discardShadow (tag : BitVec 16) (s : State) :
    exec (.discardShadow tag) s = .next (command 0x23 tag (doDiscardShadow tag) s) := rfl

/-- R26: outside RETIRING, DISCARD SHADOW answers with what it leaves in the tables. -/
theorem command_discardShadow_accepted {s : State} (h : s.unitFree) (tag : BitVec 16)
    (hs : s.tables.shadow ≠ .retiring) {t : Tables} (ht : discarded s.tables = t) :
    command 0x23 tag (doDiscardShadow tag) s
      = accepted 0x23 tag (tableAnswer { s with tables := t }) { s with tables := t } := by
  subst ht
  exact command_modifyTables h rfl tag _ discarded (if_neg hs)

theorem command_discardShadow_busy {s : State} (h : s.unitFree) (tag : BitVec 16)
    (hs : s.tables.shadow = .retiring) :
    command 0x23 tag (doDiscardShadow tag) s = refusedWith 0x23 tag .busy s :=
  command_refused h rfl tag _ .busy (if_pos hs)

/-- Settles O50, by the shadow's state and, in LOADED, by the active bank. -/
theorem discardShadowByState : Obligations.DiscardShadowByState := by
  unfold Obligations.DiscardShadowByState
  intro s tag hfree answer
  simp only [exec_discardShadow, Host.Outcome.next.injEq]
  refine ⟨fun hs ha => ?loadedA, fun hs hb => ?loadedB, fun hs => ?free, fun hs => ?retiring⟩
  case loadedA =>
    exact command_discardShadow_accepted hfree tag (by simp [hs]) (discarded_of_loaded_a _ hs ha)
  case loadedB =>
    exact command_discardShadow_accepted hfree tag (by simp [hs]) (discarded_of_loaded_b _ hs hb)
  case free =>
    have hanswer : tableAnswer s = answer := by simp only [answer, tableAnswer, hs, shadowCode]
    rw [← hanswer]
    exact command_discardShadow_accepted hfree tag (by simp [hs]) (discarded_of_free _ hs)
  case retiring => exact command_discardShadow_busy hfree tag hs

end Sys2Proof.Proofs.TableSets
end

section
/-! PROOFS. The management commands of the cycle controller (chapter 7): CUTOVER and FREEZE. -/

namespace Sys2Proof.Proofs.CycleController

open Sys2Proof Sys2Proof.Machine

/-! ### What the changes of the cycle controller do -/

section
variable (float : BitVec 40) (c : Cycle)

@[simp] theorem modifySet_number (i : SetId) (f : AccSet → AccSet) : (c.modifySet i f).number = c.number := by
  cases i <;> rfl

@[simp] theorem modifySet_graceVoids (i : SetId) (f : AccSet → AccSet) :
    (c.modifySet i f).graceVoids = c.graceVoids := by
  cases i <;> rfl

@[simp] theorem frozenCycle_number : (frozenCycle float c).number = c.number := by
  unfold frozenCycle
  split
  · exact modifySet_number c _ _
  · rfl

@[simp] theorem frozenCycle_graceVoids : (frozenCycle float c).graceVoids = c.graceVoids := by
  unfold frozenCycle
  split
  · exact modifySet_graceVoids c _ _
  · rfl

/-- R129: a FREEZING closing set is FROZEN at once when no grace void is counted. -/
theorem frozenCycle_closing_of_freezing (h : c.closing = .freezing) :
    (frozenCycle float c).closing = if c.graceVoids = 0 then .frozen else .freezing := by
  unfold frozenCycle
  by_cases hv : c.graceVoids = 0
  · rw [if_pos ⟨h, hv⟩, if_pos hv]
  · rw [if_neg (fun k => hv k.2), if_neg hv, h]

/-- R127: at a clock value the controller stays as it is, or its GRACE ends. -/
theorem graceAt_cases (clock : BitVec 32) :
    graceAt clock float c = c
      ∨ graceAt clock float c = frozenCycle float { c with closing := .freezing, graceEnd := none } := by
  unfold graceAt
  split
  · split
    · exact .inr rfl
    · exact .inl rfl
  · exact .inl rfl

@[simp] theorem graceAt_number (clock : BitVec 32) : (graceAt clock float c).number = c.number := by
  obtain h | h := graceAt_cases float c clock <;> simp [h]

@[simp] theorem graceAt_graceVoids (clock : BitVec 32) : (graceAt clock float c).graceVoids = c.graceVoids := by
  obtain h | h := graceAt_cases float c clock <;> simp [h]

theorem graceAt_closing_ne_none (clock : BitVec 32) (hc : c.closing ≠ .none) :
    (graceAt clock float c).closing ≠ .none := by
  obtain h | h := graceAt_cases float c clock
  · rwa [h]
  · rw [h, frozenCycle_closing_of_freezing _ _ rfl]
    split <;> decide

end

/-! ### Events that move the cycle controller on -/

/-- R129: CYCLE is raised by an event that leaves the closing set, not FROZEN before it, FROZEN. -/
def frozenRaised (c : Cycle) : Categories := if c.closing = .frozen then catCycle else 0

theorem frozenRaised_of_ne {c : Cycle} (h : c.closing ≠ .frozen) : frozenRaised c = 0 := if_neg h

/-- From a closing set that is not FROZEN to one that is not NONE, CYCLE is raised by its freezing alone. -/
theorem cycleRaised_eq_frozenRaised {c d : Cycle} (hc : c.closing ≠ .frozen) (hd : d.closing ≠ .none) :
    cycleRaised c d = frozenRaised d := by
  unfold cycleRaised frozenRaised
  by_cases h : d.closing = .frozen
  · rw [if_pos h, if_pos ⟨fun k => hc (k ▸ h), .inl h⟩]
  · rw [if_neg h, if_neg (fun k => k.2.elim h hd)]

/-- The event with the cycle controller at `c`, CYCLE raised when its closing set is FROZEN. -/
def movedTo (c : Cycle) (e : Event) : Event := (e.upd (modifyCycle fun _ => c)).raising (frozenRaised c)

/-- An event that leaves the controller, its closing set not FROZEN, is moved nowhere. -/
theorem movedTo_self {e : Event} (h : e.st.cycle.closing ≠ .frozen) : movedTo e.st.cycle e = e := by
  unfold movedTo
  rw [frozenRaised_of_ne h]
  exact congrArg (fun c => { e with raised := c }) (or_nothing e.raised)

/-- R129: what `freezeStep` does, in the words of the statements. -/
theorem freezeStep_eq {e : Event} (h : e.st.cycle.closing ≠ .frozen) :
    freezeStep e = movedTo (frozenCycle e.st.store.float e.st.cycle) e := by
  unfold freezeStep frozenCycle
  split
  · rfl
  · exact (movedTo_self h).symm

/-- R127, R128: the end of GRACE. -/
theorem beginFreezing_eq (e : Event) :
    beginFreezing e
      = movedTo (frozenCycle e.st.store.float { e.st.cycle with closing := .freezing, graceEnd := none }) e :=
  freezeStep_eq (by decide : Closing.freezing ≠ .frozen)

/-- R127: what `graceStep` does, in the words of the statements. -/
theorem graceStep_eq {e : Event} (h : e.st.cycle.closing ≠ .frozen) :
    graceStep e = movedTo (graceAt e.st.clock e.st.store.float e.st.cycle) e := by
  unfold graceStep graceAt
  cases e.st.cycle.closing with
  | grace =>
    cases e.st.cycle.graceEnd with
    | none => exact (movedTo_self h).symm
    | some g =>
      by_cases hg : g ≤ e.st.clock.toNat
      · simp only [if_pos hg]
        exact beginFreezing_eq e
      · simp only [if_neg hg]
        exact (movedTo_self h).symm
  | none | freezing | frozen | computing | draining => exact (movedTo_self h).symm

/-! ### Their answers -/

/-- An answer is as good as one with the same fields in the state that it is built from. -/
theorem repliedAs_fields {s t : State} {r : Reply} {more : Categories} (h : RepliedAs s t r more)
    {fields : State → List Octet} (hf : fields t = r.fields t) : RepliedAs s t { r with fields := fields } more := by
  have hr : replyFrame t { r with fields := fields } = replyFrame t r := by
    unfold replyFrame
    dsimp only
    rw [hf]
  refine ⟨fun hn => ?_, fun hn => ?_, h.latch, h.masks⟩
  · rw [hr]
    exact h.alone hn
  · rw [hr]
    exact h.noticed hn

/-- `t` is what a command leaves that an idle unit takes in `s` and that does nothing but move the cycle controller
to `c`: it is answered with `r`, and CYCLE is latched when the closing set is FROZEN. -/
structure CycleMoved (s t : State) (c : Cycle) (r : Reply) : Prop where
  same : SameBut { s with cycle := c } t
  level : t.journalOut.level = s.journalOut.level
  replied : RepliedAs (countArrival s) t r 0
  latch : t.notices.latch = s.notices.latch ||| frozenRaised c

/-- What is the same but for the end of an event has the cycle controller that the event leaves. -/
theorem sameBut_cycle {u t : State} (h : SameBut u t) : t.cycle = u.cycle := by
  unfold SameBut at h
  rw [h]

theorem CycleMoved.cycle {s t : State} {c : Cycle} {r : Reply} (h : CycleMoved s t c r) : t.cycle = c :=
  sameBut_cycle h.same

section
variable {s : State} {c : Cycle} (hfrom : s.cycle.closing ≠ .frozen) (hto : c.closing ≠ .none)
include hfrom hto

/-- R175: an accepted command that moves the controller raises CYCLE as R129 says. -/
theorem raises_movedTo (code : BitVec 8) (tag : BitVec 16) (fields : State → List Octet) :
    Raises s (countArrival s) (accept code tag fields (movedTo c (arrived s))) 0 where
  raised := by
    change 0 ||| frozenRaised c = tableRaised s.tables s.tables ||| cycleRaised s.cycle c ||| 0
    rw [tableRaised_same rfl, cycleRaised_eq_frozenRaised hfrom hto, or_nothing]
  demanded := rfl
  notices := rfl
  latch := rfl
  sent := ⟨rfl, rfl, rfl⟩
  level := rfl

theorem raisedIn_sameBut {t : State} (h : SameBut { s with cycle := c } t)
    (hl : t.journalOut.level = s.journalOut.level) : raisedIn (countArrival s) t 0 = frozenRaised c := by
  have htables : t.tables = s.tables := by
    unfold SameBut at h
    rw [h]
  rw [raisedIn_eq, countArrival_tables, countArrival_cycle, countArrival_journalOut, if_pos hl, sameBut_cycle h,
    tableRaised_same (congrArg _ htables), cycleRaised_eq_frozenRaised hfrom hto, or_nothing, or_nothing]
  exact BitVec.zero_or

/-- R171, R176: a command whose own checks accept it and that moves the cycle controller alone. -/
theorem command_movedTo (h : s.unitFree) {code : BitVec 8} (hc : (code == 0x11 || code == 0x12) = false)
    (tag : BitVec 16) (body : Event → Event) (fields : State → List Octet)
    (hb : body (arrived s) = accept code tag fields (movedTo c (arrived s)))
    (hf : ∀ u v, OnlySent u v → fields v = fields u) :
    CycleMoved s (command code tag body s) c { code := code, tag := tag, fields := fields } := by
  rw [command_free h hc, hb]
  have hsame : SameBut { s with cycle := c } (finish s (accept code tag fields (movedTo c (arrived s)))) :=
    finish_sameBut s (accept code tag fields (movedTo c (arrived s))) rfl
  have hlevel := finish_level_same s (accept code tag fields (movedTo c (arrived s))) rfl
  have hreplied := finish_replied (raises_movedTo hfrom hto code tag fields) _ rfl hf
  refine ⟨hsame, hlevel, hreplied, ?_⟩
  rw [hreplied.latch, raisedIn_sameBut hfrom hto hsame hlevel]
  rfl

end

/-! ### CUTOVER and FREEZE -/

/-- R125: the cycle controller after the steps of a cutover, before it is seen whether GRACE ends at once. -/
def cutCycle (s : State) : Cycle := (cutoverState s).cycle

/-- R128: the cycle controller after a FREEZE. -/
def endedCycle (s : State) : Cycle :=
  frozenCycle s.store.float { s.cycle with closing := .freezing, graceEnd := none }

@[simp] theorem cutCycle_closing (s : State) : (cutCycle s).closing = .grace := rfl

/-- R125 step 5, in the words of the statement. -/
theorem boundVoids_eq (s : State) (i : SetId) :
    boundVoids s i = (s.inFlight.filter (fun x =>
      decide (x.kind = .void ∧ x.training = false ∧ x.boundSet = some i))).length := by
  unfold boundVoids
  congr 2
  funext x
  rw [Bool.eq_iff_iff]
  simp [and_assoc]

theorem endedCycle_closing (s : State) :
    (endedCycle s).closing = if s.cycle.graceVoids = 0 then .frozen else .freezing :=
  frozenCycle_closing_of_freezing _ _ rfl

@[simp] theorem endedCycle_graceVoids (s : State) : (endedCycle s).graceVoids = s.cycle.graceVoids :=
  frozenCycle_graceVoids _ _

/-- 11.4: the closing-set state that an accepted FREEZE answers with. -/
theorem closingCode_endedCycle (s : State) :
    closingCode (endedCycle s).closing = if (endedCycle s).closing = .frozen then 3 else 2 := by
  rw [endedCycle_closing]
  split <;> rfl

theorem frozenRaised_endedCycle (s : State) :
    frozenRaised (endedCycle s) = if s.cycle.graceVoids = 0 then catCycle else 0 := by
  unfold frozenRaised
  rw [endedCycle_closing]
  split <;> rfl

/-- R125: an accepted CUTOVER. -/
theorem command_cutover {s : State} (h : s.unitFree) (tag : BitVec 16) (hs : s.cycle.closing = .none) :
    CycleMoved s (command 0x38 tag (doCutover tag) s) (graceAt s.clock s.store.float (cutCycle s))
      { code := 0x38, tag := tag
        fields := fun u => octets 4 u.cycle.number.toNat ++ octets 4 (closingCycle u.cycle).toNat
          ++ timeOctets u.cycle.graceEnd ++ octets 1 u.cycle.graceVoids } := by
  refine command_movedTo (by rw [hs]; decide) (graceAt_closing_ne_none _ _ _ (by simp)) h rfl tag _ _ ?_ ?_
  · have hg : graceStep ((arrived s).upd cutoverState)
        = movedTo (graceAt s.clock s.store.float (cutCycle s)) (arrived s) :=
      graceStep_eq (e := (arrived s).upd cutoverState) (by decide : Closing.grace ≠ .frozen)
    rw [← hg]
    exact if_pos hs
  · rintro u v ⟨_, _, _, _, _, rfl⟩
    rfl

/-- R128: an accepted FREEZE. -/
theorem command_freeze {s : State} (h : s.unitFree) (tag : BitVec 16) (hs : s.cycle.closing = .grace) :
    CycleMoved s (command 0x39 tag (doFreeze tag) s) (endedCycle s)
      { code := 0x39, tag := tag
        fields := fun u => octets 1 (closingCode u.cycle.closing) ++ octets 1 u.cycle.graceVoids } := by
  refine command_movedTo (by rw [hs]; decide) ?_ h rfl tag _ _ ?_ ?_
  · rw [endedCycle_closing]
    split <;> decide
  · have hb : beginFreezing (arrived s) = movedTo (endedCycle s) (arrived s) := beginFreezing_eq (arrived s)
    rw [← hb]
    exact if_pos hs
  · rintro u v ⟨_, _, _, _, _, rfl⟩
    rfl

/-- Settles O34: each command is accepted as a move of the cycle controller, or refused by its own check. -/
theorem cutoverAndFreeze : Obligations.CutoverAndFreeze := by
  unfold Obligations.CutoverAndFreeze
  intro s tag hfree voids grace ended
  have hgrace : cutCycle s = grace := by
    simp only [grace, voids, ← boundVoids_eq]
    rfl
  refine ⟨fun hs => ?cutover, fun hs => ?cutoverRefused, fun hs => ?freeze, fun hs => ?freezeRefused⟩
  case cutover =>
    have hm := command_cutover hfree tag hs
    rw [hgrace] at hm
    refine ⟨_, rfl, hm.same, hm.level, repliedAs_fields hm.replied ?_, ?_⟩
    · dsimp only
      rw [hm.cycle]
      simp [closingCycle, timeOctets, grace]
    · rw [hm.cycle]
      exact hm.latch
  case cutoverRefused => exact congrArg _ (command_refused hfree rfl tag _ .busy (if_neg hs))
  case freeze =>
    have hm := command_freeze hfree tag hs
    refine ⟨_, rfl, hm.same, hm.level, repliedAs_fields hm.replied ?_, ?_⟩
    · dsimp only
      rw [hm.cycle, closingCode_endedCycle, endedCycle_graceVoids]
    · rw [← frozenRaised_endedCycle]
      exact hm.latch
  case freezeRefused => exact congrArg _ (command_refused hfree rfl tag _ .wrongState (if_neg hs))

end Sys2Proof.Proofs.CycleController
end

section
/-! PROOFS. The payout computation (chapter 8): the figures of a shop's payout record. -/

namespace Sys2Proof.Proofs.PayoutFigures

open Sys2Proof Sys2Proof.Machine

/-! ### Rounding (R139, R141, R143) -/

/-- R139: `h` is the whole number nearest to `p / 10,000`, the even one of two that are equally near. -/
def NearestEven (p h : Nat) : Prop :=
  2 * p ≤ 20000 * h + 10000 ∧ 20000 * h ≤ 2 * p + 10000 ∧ (p % 10000 = 5000 → h % 2 = 0)

/-- R139: below a half the quotient stays, above it goes up, and at a half it goes to its even neighbour. -/
theorem halfEven_nearestEven (p : Nat) : NearestEven p (halfEven p) := by
  unfold halfEven NearestEven
  dsimp only
  split
  next below => omega
  next notBelow =>
    split
    next half =>
      split
      next even => omega
      next odd => omega
    next above => omega

theorem proportional_nearestEven (amount rate : Nat) : NearestEven (amount * rate) (proportional amount rate) :=
  halfEven_nearestEven (amount * rate)

/-- R143: the rebate is a percentage of what was refunded, capped at the percentage fee, or nothing. -/
theorem rebateOf_capped (f : FeeClass) (row : Row) :
    if f.rebate then ∃ h, NearestEven (row.refunded * f.redemptionRate) h
      ∧ rebateOf f row = min h (proportional row.redeemed f.redemptionRate)
    else rebateOf f row = 0 := by
  unfold rebateOf
  split
  next rebated => exact ⟨_, proportional_nearestEven _ _, rfl⟩
  next notRebated => rfl

/-! ### The disposition (R145) -/

section
variable (f : FeeClass) {net : Int}

theorem dispose_pay (hp : 0 < net) (hm : (f.minPayout : Int) ≤ net) : dispose f net = (.pay, net.toNat, 0) := by
  rw [dispose, if_pos hp, if_pos hm]

theorem dispose_holdOver (hp : 0 < net) (hm : net < f.minPayout) : dispose f net = (.holdOver, 0, net) := by
  rw [dispose, if_pos hp, if_neg hm.not_ge]

theorem dispose_nil (hz : net = 0) : dispose f net = (.nil, 0, 0) := by
  rw [dispose, if_neg hz.not_gt, if_pos hz]

theorem dispose_collect (hn : net < 0) (hc : (f.collectAt : Int) ≤ -net) :
    dispose f net = (.collect, (-net).toNat, 0) := by
  rw [dispose, if_neg hn.not_gt, if_neg hn.ne, if_pos hc]

theorem dispose_defer (hn : net < 0) (hc : -net < f.collectAt) : dispose f net = (.defer, 0, net) := by
  rw [dispose, if_neg hn.not_gt, if_neg hn.ne, if_neg hc.not_ge]

/-- R145: nothing is carried out, or an amount below the minimum payout, or a debt below the collection threshold. -/
theorem dispose_carryOut_cases (net : Int) :
    (dispose f net).2.2 = 0 ∨ (0 < (dispose f net).2.2 ∧ (dispose f net).2.2 < f.minPayout)
      ∨ ((dispose f net).2.2 < 0 ∧ -(dispose f net).2.2 < f.collectAt) := by
  rcases lt_trichotomy net 0 with hn | hz | hp
  · rcases le_or_gt (f.collectAt : Int) (-net) with hc | hc
    · exact .inl (by rw [dispose_collect f hn hc])
    · exact .inr (.inr (by rw [dispose_defer f hn hc]; exact ⟨hn, hc⟩))
  · exact .inl (by rw [dispose_nil f hz])
  · rcases le_or_gt (f.minPayout : Int) net with hm | hm
    · exact .inl (by rw [dispose_pay f hp hm])
    · exact .inr (.inl (by rw [dispose_holdOver f hp hm]; exact ⟨hp, hm⟩))

end

/-! ### The record (R144, R145) -/

section
variable (cycle : BitVec 32) (n : Nat) (f : FeeClass) (row : Row) (carry : Int)

/-- R144: the net of a record, in the record's own figures. -/
theorem shopRecord_net :
    let r := shopRecord cycle n f row carry
    r.net = (row.redeemed : Int) - row.sold - row.refunded - r.percentFee - r.fixedFee + r.commission + r.rebate
      + r.carryIn := by
  simp only [shopRecord, netOf, Nat.cast_mul]

/-- R145: a record is disposed of by its net. -/
theorem shopRecord_disposed {d : Disposition} {amount : Nat} {carryOut : Int} :
    let r := shopRecord cycle n f row carry
    dispose f r.net = (d, amount, carryOut) → r.disposition = d ∧ r.amount = amount ∧ r.carryOut = carryOut := by
  intro r hd
  have hr : (r.disposition, r.amount, r.carryOut) = (d, amount, carryOut) := hd
  simpa only [Prod.mk.injEq] using hr

/-- R137: with both thresholds within their fields' bounds, what is carried out is a carry that a shop can have. -/
theorem shopRecord_carryOut_bounds (hm : f.minPayout ≤ 100000) (hc : f.collectAt ≤ 100000) :
    -99999 ≤ (shopRecord cycle n f row carry).carryOut ∧ (shopRecord cycle n f row carry).carryOut ≤ 99999 := by
  have h := dispose_carryOut_cases f (shopRecord cycle n f row carry).net
  have hout : (shopRecord cycle n f row carry).carryOut = (dispose f (shopRecord cycle n f row carry).net).2.2 := rfl
  omega

end

/-- Settles O36: the charges by the rounding rule, and the disposition by the five rows of its table. -/
theorem payoutRecordFigures : Obligations.PayoutRecordFigures := by
  unfold Obligations.PayoutRecordFigures
  intro cycle n f row carry r rounds
  have disposed {d : Disposition} {amount : Nat} {carryOut : Int} (h : dispose f r.net = (d, amount, carryOut)) :
      r.disposition = d ∧ r.amount = amount ∧ r.carryOut = carryOut := shopRecord_disposed cycle n f row carry h
  refine ⟨proportional_nearestEven _ _, proportional_nearestEven _ _, rfl, rebateOf_capped f row,
    shopRecord_net cycle n f row carry, rfl, rfl, rfl, rfl, fun hp hm => ?pay, fun hp hm => ?holdOver, fun hz => ?nil,
    fun hn hc => ?collect, fun hn hc => ?defer, shopRecord_carryOut_bounds cycle n f row carry⟩
  case pay =>
    obtain ⟨hd, ha, hcarry⟩ := disposed (dispose_pay f hp hm)
    exact ⟨hd, by rw [ha, Int.toNat_of_nonneg hp.le], hcarry⟩
  case holdOver => exact disposed (dispose_holdOver f hp hm)
  case nil => exact disposed (dispose_nil f hz)
  case collect =>
    obtain ⟨hd, ha, hcarry⟩ := disposed (dispose_collect f hn hc)
    exact ⟨hd, by rw [ha, Int.toNat_of_nonneg (by omega)], hcarry⟩
  case defer => exact disposed (dispose_defer f hn hc)

end Sys2Proof.Proofs.PayoutFigures
end

section
/-! PROOFS. The management commands of the payout engine (chapter 8): CARRY READ, CARRY SET and PAYOUT TAKE. -/

namespace Sys2Proof.Proofs.PayoutCommands

open Sys2Proof Sys2Proof.Machine
open Sys2Proof.Proofs.CycleController (repliedAs_fields)

/-! ### CARRY READ and CARRY SET (R138) -/

theorem exec_carryRead (tag shop : BitVec 16) (s : State) :
    exec (.carryRead tag shop) s = .next (command 0x40 tag (doCarryRead tag shop) s) := rfl

theorem exec_carrySet (tag shop : BitVec 16) (carry : BitVec 32) (s : State) :
    exec (.carrySet tag shop carry) s = .next (command 0x41 tag (doCarrySet tag shop carry) s) := rfl

/-- R138: the answer fields of a CARRY READ of shop `n`. -/
def carryAnswer (n : Nat) (t : State) : List Octet :=
  signedOctets 4 (t.carry n) ++ octets 1 (engineCode t.payout.engine) ++ octets 2 t.payout.cursor
    ++ octets 1 (closingCode t.cycle.closing)

/-- What is answered of a carry does not depend on the counting of the frame. -/
theorem carryAnswer_countArrival (n : Nat) (s : State) : carryAnswer n (countArrival s) = carryAnswer n s := by
  unfold carryAnswer
  simp only [State.carry, countArrival_payout, countArrival_cycle]

/-- R137, R138: a shop number and a value that CARRY SET accepts. -/
def CarryFits (n : Nat) (z : Int) : Prop := n < 512 ∧ -99999 ≤ z ∧ z ≤ 99999

/-- CARRY SET's own check looks for what does not fit. -/
theorem carryFits_iff {n : Nat} {z : Int} : CarryFits n z ↔ ¬ (¬ n < 512 ∨ z < -99999 ∨ 99999 < z) := by
  rw [not_or, not_or, not_not, not_lt, not_lt, CarryFits]

/-- R171: a command of the payout engine that an idle unit takes and that changes the engine alone. -/
theorem command_modifyPayout {s : State} (h : s.unitFree) {code : BitVec 8}
    (hc : (code == 0x11 || code == 0x12) = false) (tag : BitVec 16) (body : Event → Event)
    (fields : State → List Octet) (f : Payout → Payout)
    (hb : body (arrived s) = accept code tag fields ((arrived s).upd (modifyPayout f))) :
    command code tag body s = accepted code tag (fields (countArrival (modifyPayout f s))) (modifyPayout f s) :=
  command_accepted h hc tag body fields hb rfl

section
variable {s : State} (h : s.unitFree) (tag shop : BitVec 16) (carry : BitVec 32)
include h

theorem command_carryRead (hn : shop.toNat < 512) :
    command 0x40 tag (doCarryRead tag shop) s = accepted 0x40 tag (carryAnswer shop.toNat s) s := by
  have hb : doCarryRead tag shop (arrived s) = accept 0x40 tag (carryAnswer shop.toNat) (arrived s) := if_pos hn
  rw [command_accepted h rfl tag _ _ hb rfl, carryAnswer_countArrival]

theorem command_carryRead_badField (hn : 512 ≤ shop.toNat) :
    command 0x40 tag (doCarryRead tag shop) s = refusedWith 0x40 tag .badField s :=
  command_refused h rfl tag _ .badField (if_neg hn.not_gt)

/-- R138: an accepted CARRY SET writes the carry of its shop. -/
theorem command_carrySet (hfit : CarryFits shop.toNat carry.toInt) (hs : s.cycle.closing ≠ .computing) :
    command 0x41 tag (doCarrySet tag shop carry) s = accepted 0x41 tag
      (signedOctets 4 (s.carry shop.toNat) ++ signedOctets 4 carry.toInt)
      (modifyPayout (fun p => { p with carries := put 0 p.carries shop.toNat carry.toInt }) s) :=
  command_modifyPayout h rfl tag _ (fun _ => signedOctets 4 (s.carry shop.toNat) ++ signedOctets 4 carry.toInt) _
    ((if_neg (carryFits_iff.mp hfit)).trans (if_neg hs))

/-- R138, log 20: a shop or a value out of range is refused whatever the closing-set state. -/
theorem command_carrySet_badField (hfit : ¬ CarryFits shop.toNat carry.toInt) :
    command 0x41 tag (doCarrySet tag shop carry) s = refusedWith 0x41 tag .badField s :=
  command_refused h rfl tag _ .badField (if_pos (not_not.mp (mt carryFits_iff.mpr hfit)))

theorem command_carrySet_busy (hfit : CarryFits shop.toNat carry.toInt) (hs : s.cycle.closing = .computing) :
    command 0x41 tag (doCarrySet tag shop carry) s = refusedWith 0x41 tag .busy s :=
  command_refused h rfl tag _ .busy ((if_neg (carryFits_iff.mp hfit)).trans (if_pos hs))

end

/-- Settles O52: each command is accepted, or refused by its own checks, the field check before the state check. -/
theorem carriesReadAndSet : Obligations.CarriesReadAndSet := by
  unfold Obligations.CarriesReadAndSet
  refine ⟨fun s tag shop hfree => ?read, fun s tag shop carry hfree => ?set⟩
  case read =>
    rw [exec_carryRead]
    exact ⟨fun hn => congrArg _ (command_carryRead hfree tag shop hn),
      fun hn => congrArg _ (command_carryRead_badField hfree tag shop hn)⟩
  case set =>
    intro n z fits
    rw [exec_carrySet]
    refine ⟨fun hfit hs => ?written, fun hfit _ => ?badField, fun hfit _ => .inl ?either, fun hfit hs => ?busy⟩
    case written =>
      exact ⟨_, congrArg _ (command_carrySet hfree tag shop carry hfit hs), look_put_self _ _ _ _,
        fun m hm => look_put_other _ _ _ hm⟩
    case badField | either => exact congrArg _ (command_carrySet_badField hfree tag shop carry hfit)
    case busy => exact congrArg _ (command_carrySet_busy hfree tag shop carry hfit hs)

/-! ### PAYOUT TAKE (R132, R148, R152) -/

theorem exec_payoutTake (tag : BitVec 16) (count : BitVec 8) (s : State) :
    exec (.payoutTake tag count) s = .next (command 0x43 tag (doPayoutTake tag count) s) := rfl

/-- What is the same but for the end of an event has the payout engine that the event leaves. -/
theorem sameBut_payout {u t : State} (h : SameBut u t) : t.payout = u.payout := by
  unfold SameBut at h
  rw [h]

/-- R152: the payout engine after the `n` oldest records are removed. -/
def takenPayout (n : Nat) (p : Payout) : Payout :=
  { p with
    queue := p.queue.drop n
    engine := if p.engine = .waiting ∧ (p.queue.drop n).length < 64 then .walking else p.engine }

/-- R132: the cycle controller after its closing set is cleared. -/
def clearedCycle (c : Cycle) : Cycle :=
  { c.modifySet c.current.other (fun _ => { rows := [], mall := {} }) with closing := .none, graceVoids := 0 }

theorem takeRecords_eq (n : Nat) : takeRecords n = modifyPayout (takenPayout n) := rfl

theorem clearStep_of_drained {e : Event} (hs : e.st.cycle.closing = .draining) (hq : e.st.payout.queue = []) :
    clearStep e = (e.upd (modifyCycle clearedCycle)).raising catCycle := if_pos ⟨hs, hq⟩

theorem clearStep_of_not_drained {e : Event} (h : ¬ (e.st.cycle.closing = .draining ∧ e.st.payout.queue = [])) :
    clearStep e = e := if_neg h

/-- R132, R175: the clearing of a closing set raises CYCLE. -/
theorem cycleRaised_clearedCycle {c : Cycle} (hs : c.closing ≠ .none) : cycleRaised c (clearedCycle c) = catCycle :=
  if_pos ⟨fun k => hs k.symm, .inr rfl⟩

/-- R152: the answer fields of a PAYOUT TAKE of `n` records. -/
def takeAnswer (n : Nat) (t : State) : List Octet := octets 1 n ++ octets 1 t.payout.queue.length

/-- R152: the counts that PAYOUT TAKE accepts from a payout queue. -/
def TakeFits (n : Nat) (queue : List PayoutRecord) : Prop := 1 ≤ n ∧ n ≤ 4 ∧ n ≤ queue.length

/-- The event of an accepted PAYOUT TAKE of `n` records that empties the queue of a DRAINING set. -/
def drainedEvent (n : Nat) (s : State) : Event :=
  ((arrived s).upd fun u => modifyCycle clearedCycle (takeRecords n u)).raising catCycle

/-- R175: from a DRAINING set, what that event raises is CYCLE alone. -/
theorem raises_drainedEvent {s : State} (hs : s.cycle.closing = .draining) (tag : BitVec 16) (n : Nat) :
    Raises s (countArrival s) (accept 0x43 tag (takeAnswer n) (drainedEvent n s)) 0 where
  raised := by
    change 0 ||| catCycle = tableRaised s.tables s.tables ||| cycleRaised s.cycle (clearedCycle s.cycle) ||| 0
    rw [tableRaised_same rfl, cycleRaised_clearedCycle (by rw [hs]; decide), or_nothing]
  demanded := rfl
  notices := rfl
  latch := rfl
  sent := ⟨rfl, rfl, rfl⟩
  level := rfl

section
variable {s : State} (h : s.unitFree) (tag : BitVec 16) {count : BitVec 8}

theorem doPayoutTake_of_fits (hfit : TakeFits count.toNat s.payout.queue) :
    doPayoutTake tag count (arrived s) = accept 0x43 tag (takeAnswer count.toNat)
      (clearStep ((arrived s).upd (takeRecords count.toNat))) := if_pos hfit

include h

/-- R148, R152: a PAYOUT TAKE that clears no set changes the payout engine alone. -/
theorem command_payoutTake (hfit : TakeFits count.toNat s.payout.queue)
    (hd : ¬ (s.cycle.closing = .draining ∧ s.payout.queue.drop count.toNat = [])) :
    command 0x43 tag (doPayoutTake tag count) s
      = accepted 0x43 tag (octets 1 count.toNat ++ octets 1 (s.payout.queue.drop count.toNat).length)
          (modifyPayout (takenPayout count.toNat) s) := by
  have hb : doPayoutTake tag count (arrived s) = accept 0x43 tag (takeAnswer count.toNat)
      ((arrived s).upd (modifyPayout (takenPayout count.toNat))) := by
    rw [doPayoutTake_of_fits tag hfit, takeRecords_eq]
    exact congrArg _ (clearStep_of_not_drained hd)
  rw [command_modifyPayout h rfl tag _ _ _ hb, takeAnswer, countArrival_payout]
  rfl

/-- R132, R152: a PAYOUT TAKE that empties the queue of a DRAINING set. -/
theorem command_payoutTake_drained (hfit : TakeFits count.toNat s.payout.queue) (hs : s.cycle.closing = .draining)
    (hq : s.payout.queue.drop count.toNat = []) :
    command 0x43 tag (doPayoutTake tag count) s
      = finish s (accept 0x43 tag (takeAnswer count.toNat) (drainedEvent count.toNat s)) := by
  have hc : clearStep ((arrived s).upd (takeRecords count.toNat)) = drainedEvent count.toNat s :=
    clearStep_of_drained hs hq
  rw [command_free h rfl, doPayoutTake_of_fits tag hfit, hc]

theorem command_payoutTake_badField (hfit : ¬ TakeFits count.toNat s.payout.queue) :
    command 0x43 tag (doPayoutTake tag count) s = refusedWith 0x43 tag .badField s :=
  command_refused h rfl tag _ .badField (if_neg hfit)

end

/-- The answer of a PAYOUT TAKE reads nothing that is handed to a transmitter. -/
theorem fieldsSettled_takeAnswer (code : BitVec 8) (tag : BitVec 16) (n : Nat) :
    FieldsSettled { code := code, tag := tag, fields := takeAnswer n } := by
  rintro u v ⟨_, _, _, _, _, rfl⟩
  rfl

/-- Settles O53: the records are removed and the set is cleared or kept, or the count is refused. -/
theorem payoutTakeRemovesOldest : Obligations.PayoutTakeRemovesOldest := by
  unfold Obligations.PayoutTakeRemovesOldest
  intro s tag count hfree n left taken cleared answer
  rw [exec_payoutTake]
  refine ⟨fun h1 h4 hn hd => ?kept, fun h1 h4 hn hs hq => ?drained, fun hbad => ?refused⟩
  case kept => exact congrArg _ (command_payoutTake hfree tag ⟨h1, h4, hn⟩ hd)
  case drained =>
    have hsame : SameBut { s with payout := taken, cycle := cleared }
        (finish s (accept 0x43 tag (takeAnswer n) (drainedEvent n s))) := finish_sameBut s _ rfl
    have hpayout := sameBut_payout hsame
    rw [command_payoutTake_drained hfree tag ⟨h1, h4, hn⟩ hs hq]
    refine ⟨_, rfl, hsame, finish_level_same s _ rfl, ?_⟩
    have hreplied := finish_replied (raises_drainedEvent hs tag n) _ rfl (fieldsSettled_takeAnswer 0x43 tag n)
    refine repliedAs_fields hreplied ?_
    simp only [takeAnswer, hpayout]
    rfl
  case refused =>
    have hfit : ¬ TakeFits n s.payout.queue := by
      unfold TakeFits
      omega
    exact congrArg _ (command_payoutTake_badField hfree tag hfit)

end Sys2Proof.Proofs.PayoutCommands
end

section
/-! PROOFS. The four configuration values of R180 (chapter 10): SET CONFIG, and what the two resets leave of them. -/

namespace Sys2Proof.Proofs.Configuration

open Sys2Proof Sys2Proof.Machine

theorem exec_setConfig (tag : BitVec 16) (trip t1 t2 : BitVec 8) (grace : BitVec 16) (s : State) :
    exec (.setConfig tag trip t1 t2 grace) s = .next (command 0x05 tag (doSetConfig tag trip t1 t2 grace) s) := rfl

theorem exec_powerOnReset (straps : BitVec 4) (s : State) :
    exec (.powerOnReset straps) s = .next (event (·.raising catReset) (powerOn straps s)) := rfl

theorem exec_linkReset (tag : BitVec 16) (s : State) :
    exec (.linkReset tag) s = .next (command 0x08 tag (doLinkReset tag) s) := rfl

/-! ### SET CONFIG -/

/-- R180: the ranges of the four values. -/
def ConfigFits (trip t1 t2 : BitVec 8) (grace : BitVec 16) : Prop :=
  1 ≤ trip.toNat ∧ 1 ≤ t1.toNat ∧ t1.toNat ≤ 15 ∧ 1 ≤ t2.toNat ∧ t2.toNat ≤ 60 ∧ grace.toNat ≤ 3600

/-- R180: the state with the four values written. -/
def configured (trip t1 t2 : BitVec 8) (grace : BitVec 16) (s : State) : State :=
  { s with
    supervision := { s.supervision with trip := trip.toNat, t1 := t1.toNat, t2 := t2.toNat }
    cycle := { s.cycle with graceLength := grace.toNat } }

/-- R180: the answer fields, the values in force. -/
def configAnswer (s : State) : List Octet :=
  octets 1 s.supervision.trip ++ octets 1 s.supervision.t1 ++ octets 1 s.supervision.t2 ++ octets 2 s.cycle.graceLength

section
variable (tag : BitVec 16) {trip t1 t2 : BitVec 8} {grace : BitVec 16}

theorem doSetConfig_of_fits (hfit : ConfigFits trip t1 t2 grace) (e : Event) :
    doSetConfig tag trip t1 t2 grace e = accept 0x05 tag configAnswer (e.upd (configured trip t1 t2 grace)) :=
  if_pos hfit

theorem doSetConfig_of_not_fits (hfit : ¬ ConfigFits trip t1 t2 grace) (e : Event) :
    doSetConfig tag trip t1 t2 grace e = refuse 0x05 tag .badField e :=
  if_neg hfit

variable {s : State} (h : s.unitFree)
include h

/-- R180: a SET CONFIG whose values fit writes all four and answers the values then in force. -/
theorem command_setConfig (hfit : ConfigFits trip t1 t2 grace) :
    command 0x05 tag (doSetConfig tag trip t1 t2 grace) s
      = accepted 0x05 tag (configAnswer (configured trip t1 t2 grace s)) (configured trip t1 t2 grace s) :=
  command_accepted h rfl tag _ configAnswer (doSetConfig_of_fits tag hfit _) rfl

/-- R180: a SET CONFIG of which one value does not fit writes none. -/
theorem command_setConfig_badField (hfit : ¬ ConfigFits trip t1 t2 grace) :
    command 0x05 tag (doSetConfig tag trip t1 t2 grace) s = refusedWith 0x05 tag .badField s :=
  command_refused h rfl tag _ .badField (doSetConfig_of_not_fits tag hfit _)

end

/-! ### The two resets -/

/-- The four values of R180 are in `t` what they are in `s`. -/
structure SameConfig (s t : State) : Prop where
  trip : t.supervision.trip = s.supervision.trip
  t1 : t.supervision.t1 = s.supervision.t1
  t2 : t.supervision.t2 = s.supervision.t2
  grace : t.cycle.graceLength = s.cycle.graceLength

theorem SameConfig.trans {s t u : State} (h : SameConfig s t) (k : SameConfig t u) : SameConfig s u :=
  ⟨k.trip.trans h.trip, k.t1.trans h.t1, k.t2.trans h.t2, k.grace.trans h.grace⟩

/-- The end of an event writes none of the four values. -/
theorem finish_sameConfig (before : State) (e : Event) : SameConfig e.st (finish before e) := by
  obtain ⟨_, _, _, _, _, _, _, hf⟩ := finish_frame before e
  rw [hf]
  exact ⟨rfl, rfl, rfl, rfl⟩

/-- R180: the power-on values of the four. -/
theorem powerOn_config (straps : BitVec 4) (s : State) :
    (powerOn straps s).supervision.trip = 20 ∧ (powerOn straps s).supervision.t1 = 3
      ∧ (powerOn straps s).supervision.t2 = 10 ∧ (powerOn straps s).cycle.graceLength = 900 :=
  ⟨rfl, rfl, rfl, rfl⟩

/-- R171: LINK RESET passes the tests of unit state and pending FIRST in every state. -/
theorem command_linkReset (tag : BitVec 16) (s : State) :
    command 0x08 tag (doLinkReset tag) s = finish s (doLinkReset tag (arrived s)) := by
  have hgate : unitGate 0x08 tag false (doLinkReset tag) (arrived s) = doLinkReset tag (arrived s) := by
    simp [unitGate]
  exact congrArg (finish s) hgate

/-- R182: none of the four values is among what LINK RESET clears. -/
theorem doLinkReset_sameConfig (tag : BitVec 16) (e : Event) : SameConfig e.st (doLinkReset tag e).st :=
  ⟨rfl, rfl, rfl, rfl⟩

theorem command_linkReset_sameConfig (tag : BitVec 16) (s : State) :
    SameConfig s (command 0x08 tag (doLinkReset tag) s) := by
  have harrived : SameConfig s (arrived s).st := ⟨rfl, rfl, rfl, rfl⟩
  rw [command_linkReset]
  exact (harrived.trans (doLinkReset_sameConfig tag _)).trans (finish_sameConfig s _)

/-- Settles O40: SET CONFIG by whether its values fit, the reset values through the end of the reset's own event, and LINK
RESET by what its changes leave. -/
theorem setConfigWritesAllOrNone : Obligations.SetConfigWritesAllOrNone := by
  unfold Obligations.SetConfigWritesAllOrNone
  refine ⟨?setConfig, fun s straps => ?reset, fun s tag => ?linkReset⟩
  case setConfig =>
    intro s tag trip t1 t2 grace hfree fits
    rw [exec_setConfig]
    constructor
    · intro hfit
      exact congrArg _ (command_setConfig tag hfree hfit)
    · intro hfit
      exact congrArg _ (command_setConfig_badField tag hfree hfit)
  case reset =>
    obtain ⟨htrip, ht1, ht2, hgrace⟩ := powerOn_config straps s
    have hsame := finish_sameConfig (powerOn straps s) (({ st := powerOn straps s } : Event).raising catReset)
    exact ⟨_, exec_powerOnReset straps s, hsame.trip.trans htrip, hsame.t1.trans ht1, hsame.t2.trans ht2,
      hsame.grace.trans hgrace⟩
  case linkReset =>
    obtain ⟨htrip, ht1, ht2, hgrace⟩ := command_linkReset_sameConfig tag s
    exact ⟨_, exec_linkReset tag s, htrip, ht1, ht2, hgrace⟩

end Sys2Proof.Proofs.Configuration
end

section
/-! PROOFS. The invariants that every step keeps (chapters 1 to 10), part one: what each change inside an event keeps of
them. Each operation of the model is looked at once, for all six invariants together. -/

namespace Sys2Proof.Proofs.Invariants

open Sys2Proof Sys2Proof.Machine

/-! ### The invariants inside an event -/

/-- R157: a shop's record at rest while it is CLOSED. -/
def Rests (r : Shop) : Prop :=
  r.mode = .closed →
    r.management = false ∧ r.alarmCause = false ∧ r.alarm = .normal ∧ r.badWindows = 0 ∧ r.goodWindows = 0

/-- The table of shops is canonical and its CLOSED shops are at rest. -/
def ShopsSound (s : State) : Prop := canonical {} s.supervision.shops = true ∧ ∀ n, Rests (s.shop n)

/-- R183 inside an event, where the level is not evaluated yet. -/
structure OutFits (s : State) : Prop where
  agree : s.ReservationsAgree
  reserved : ∀ x ∈ s.inFlight, mayWrite x = true → x.reserved = true
  fits : committedLoad s ≤ Config.journalOutPlaces

/-- A change from `s` to `t` that keeps every invariant but that of Journal Out, and leaves the level for the event's end. -/
structure Keeps (s t : State) : Prop where
  tables : s.TablesCanonical → t.TablesCanonical
  shops : ShopsSound s → ShopsSound t
  fits : s.Fits → t.Fits
  totals : s.TotalsBalance → t.TotalsBalance
  level : t.journalOut.level = s.journalOut.level

/-- Such a change that touches neither the in-flight set nor Journal Out. -/
structure Neutral (s t : State) : Prop extends Keeps s t where
  inFlight : t.inFlight = s.inFlight
  nextId : t.nextId = s.nextId
  out : t.journalOut = s.journalOut

/-- Such a change in which the posting of `x` may have put one copy into Journal Out, with the reservation of `x` not yet
given up. -/
structure Wrote (x : InFlight) (s t : State) : Prop extends Keeps s t where
  inFlight : t.inFlight = s.inFlight
  nextId : t.nextId = s.nextId
  reservations : t.journalOut.reservations = s.journalOut.reservations
  copies : t.journalOut.copies.length ≤ s.journalOut.copies.length + if mayWrite x = true then 1 else 0

/-- Such a change that keeps what R183 asks of Journal Out. -/
structure Runs (s t : State) : Prop extends Keeps s t where
  out : OutFits s → OutFits t

/-- Such a change that keeps what R183 asks of Journal Out when the level agrees before it. -/
structure Admits (s t : State) : Prop extends Keeps s t where
  out : s.LevelAgrees → OutFits s → OutFits t

section
variable {s t u : State} {x : InFlight}

theorem Keeps.trans (h : Keeps s t) (k : Keeps t u) : Keeps s u where
  tables := k.tables ∘ h.tables
  shops := k.shops ∘ h.shops
  fits := k.fits ∘ h.fits
  totals := k.totals ∘ h.totals
  level := k.level.trans h.level

theorem Neutral.refl (s : State) : Neutral s s := ⟨⟨id, id, id, id, rfl⟩, rfl, rfl, rfl⟩

theorem Neutral.trans (h : Neutral s t) (k : Neutral t u) : Neutral s u where
  toKeeps := h.toKeeps.trans k.toKeeps
  inFlight := k.inFlight.trans h.inFlight
  nextId := k.nextId.trans h.nextId
  out := k.out.trans h.out

theorem Neutral.after (k : Neutral t u) (h : Neutral s t) : Neutral s u := h.trans k

theorem Neutral.outFits (h : Neutral s t) (o : OutFits s) : OutFits t where
  agree :=
    { count := by rw [h.out, h.inFlight]; exact o.agree.count
      distinct := by rw [h.inFlight]; exact o.agree.distinct
      below := by rw [h.inFlight, h.nextId]; exact o.agree.below }
  reserved := by rw [h.inFlight]; exact o.reserved
  fits := by unfold committedLoad; rw [h.out]; exact o.fits

theorem Neutral.runs (h : Neutral s t) : Runs s t := ⟨h.toKeeps, h.outFits⟩

theorem Neutral.load (h : Neutral s t) : committedLoad t = committedLoad s := by unfold committedLoad; rw [h.out]

theorem Neutral.levelAgrees (h : Neutral s t) (a : s.LevelAgrees) : t.LevelAgrees := by
  unfold State.LevelAgrees committedLoad; rw [h.out]; exact a

theorem Neutral.wrote (h : Neutral s t) : Wrote x s t :=
  ⟨h.toKeeps, h.inFlight, h.nextId, by rw [h.out], by rw [h.out]; omega⟩

theorem Wrote.then (h : Wrote x s t) (k : Neutral t u) : Wrote x s u where
  toKeeps := h.toKeeps.trans k.toKeeps
  inFlight := k.inFlight.trans h.inFlight
  nextId := k.nextId.trans h.nextId
  reservations := by rw [k.out]; exact h.reservations
  copies := by rw [k.out]; exact h.copies

theorem Neutral.wrote_then (h : Neutral s t) (k : Wrote x t u) : Wrote x s u where
  toKeeps := h.toKeeps.trans k.toKeeps
  inFlight := k.inFlight.trans h.inFlight
  nextId := k.nextId.trans h.nextId
  reservations := by rw [k.reservations, h.out]
  copies := by rw [← h.out]; exact k.copies

theorem Runs.refl (s : State) : Runs s s := (Neutral.refl s).runs

theorem Runs.trans (h : Runs s t) (k : Runs t u) : Runs s u := ⟨h.toKeeps.trans k.toKeeps, k.out ∘ h.out⟩

theorem Runs.then (h : Runs s t) (k : Neutral t u) : Runs s u := h.trans k.runs

theorem Neutral.runs_then (h : Neutral s t) (k : Runs t u) : Runs s u := h.runs.trans k

theorem Runs.admits (h : Runs s t) : Admits s t := ⟨h.toKeeps, fun _ => h.out⟩

theorem Neutral.admits_then (h : Neutral s t) (k : Admits t u) : Admits s u :=
  ⟨h.toKeeps.trans k.toKeeps, fun l o => k.out (h.levelAgrees l) (h.outFits o)⟩

theorem Admits.then (h : Admits s t) (k : Runs t u) : Admits s u := ⟨h.toKeeps.trans k.toKeeps, fun l o => k.out (h.out l o)⟩

end

/-! ### What the invariants read of a state -/

/-- The numbered tables. -/
def numbered (s : State) :=
  (s.lanes, s.store.copies, s.store.valid, s.buffer.lines, s.buffer.queues, s.journal.ring, s.supervision.shops,
    s.payout.carries, s.cycle.setX.rows, s.cycle.setY.rows, s.tables.bankA.tables, s.tables.bankB.tables)

/-- The parts with a number of places. -/
def sized (s : State) :=
  (s.inFlight, s.buffer.queues, s.holds.entries, s.payout.queue, s.sRx.frame, s.oRx.frame)

/-- The parts of the other invariants. -/
def ruled (s : State) :=
  (s.supervision.shops, s.payout.totals, s.payout.queue, s.inFlight, s.nextId, s.journalOut)

section
variable {s t : State}

theorem tables_of_numbered (h : numbered t = numbered s) (k : s.TablesCanonical) : t.TablesCanonical := by
  simp only [numbered, Prod.mk.injEq] at h
  obtain ⟨hlanes, hcopies, hvalid, hlines, hqueues, hring, hshops, hcarries, hrowsX, hrowsY, hbankA, hbankB⟩ := h
  constructor
  · rw [hlanes]; exact k.lanes
  · rw [hcopies]; exact k.store
  · rw [hvalid]; exact k.valid
  · rw [hlines]; exact k.lines
  · rw [hqueues]; exact k.queues
  · rw [hring]; exact k.ring
  · rw [hshops]; exact k.shops
  · rw [hcarries]; exact k.carries
  · rw [hrowsX]; exact k.rowsX
  · rw [hrowsY]; exact k.rowsY
  · rw [hbankA]; exact k.programsA
  · rw [hbankA]; exact k.classesA
  · rw [hbankA]; exact k.termsA
  · rw [hbankB]; exact k.programsB
  · rw [hbankB]; exact k.classesB
  · rw [hbankB]; exact k.termsB

theorem fits_of_sized (h : sized t = sized s) (k : s.Fits) : t.Fits := by
  simp only [sized, Prod.mk.injEq] at h
  obtain ⟨hin, hqueues, hholds, hpayout, hshop, hoffice⟩ := h
  have hq (j : Nat) : t.queue j = s.queue j := by unfold State.queue; rw [hqueues]
  constructor
  · unfold State.InFlightFits; rw [hin]; exact k.inFlight
  · exact fun j => hq j ▸ k.queues j
  · rw [hholds]; exact k.holds
  · unfold State.PayoutFits; rw [hpayout]; exact k.payout
  · unfold State.FramesFit; rw [hshop, hoffice]; exact k.frames

theorem neutral_of_ruled (htables : s.TablesCanonical → t.TablesCanonical) (hfits : s.Fits → t.Fits)
    (h : ruled t = ruled s) : Neutral s t := by
  simp only [ruled, Prod.mk.injEq] at h
  obtain ⟨hshops, htotals, hqueue, hin, hid, hout⟩ := h
  refine ⟨⟨htables, fun k => ?_, hfits, fun k => ?_, by rw [hout]⟩, hin, hid, hout⟩
  · unfold ShopsSound State.shop; rw [hshops]; exact k
  · unfold State.TotalsBalance; rw [htotals, hqueue]; exact k

/-- A change of parts that no invariant reads. -/
theorem neutral_same (h : (numbered t, sized t, ruled t) = (numbered s, sized s, ruled s)) : Neutral s t := by
  simp only [Prod.mk.injEq] at h
  exact neutral_of_ruled (tables_of_numbered h.1) (fits_of_sized h.2.1) h.2.2

theorem runs_same (h : (numbered t, sized t, ruled t) = (numbered s, sized s, ruled s)) : Runs s t :=
  (neutral_same h).runs

/-- A change of tables that have no other invariant. -/
theorem neutral_tables (htables : s.TablesCanonical → t.TablesCanonical)
    (h : (sized t, ruled t) = (sized s, ruled s)) : Neutral s t := by
  simp only [Prod.mk.injEq] at h
  exact neutral_of_ruled htables (fits_of_sized h.1) h.2

/-- A change of parts whose places alone matter. -/
theorem neutral_fits (hfits : s.Fits → t.Fits) (h : (numbered t, ruled t) = (numbered s, ruled s)) : Neutral s t := by
  simp only [Prod.mk.injEq] at h
  exact neutral_of_ruled (tables_of_numbered h.1) hfits h.2

end

/-! ### Lanes and shops -/

section
variable (s : State)

theorem setLane_neutral (i : Nat) (l : Lane) : Neutral s (s.setLane i l) :=
  neutral_tables (fun h => { h with lanes := canonical_put _ _ _ _ h.lanes }) rfl

theorem leaveLane_neutral (x : InFlight) (r : Option Ref) : Neutral s (leaveLane x r s) := by
  unfold leaveLane
  split
  · exact setLane_neutral s _ _
  · exact .refl s

theorem takeLane_neutral (x : InFlight) : Neutral s (takeLane x s) := setLane_neutral s _ _

theorem shop_modifyShop (n m : Nat) (f : Shop → Shop) :
    (s.modifyShop n f).shop m = if m = n then f (s.shop n) else s.shop m :=
  look_put _ _ _ _ _

theorem modifyShop_neutral (n : Nat) (f : Shop → Shop) (hf : ∀ r, Rests r → Rests (f r)) :
    Neutral s (s.modifyShop n f) where
  tables h := { h with shops := canonical_put _ _ _ _ h.shops }
  shops h := by
    refine ⟨canonical_put _ _ _ _ h.1, fun m => ?_⟩
    rw [shop_modifyShop]
    split
    · exact hf _ (h.2 n)
    · exact h.2 m
  fits := fits_of_sized rfl
  totals h := h
  level := rfl
  inFlight := rfl
  nextId := rfl
  out := rfl

/-- The table of shops changed by `f`, and the rest of supervision in any way. -/
theorem remapShops_neutral (v : Supervision) (f : Nat → Shop → Shop) (h0 : ∀ n, f n {} = {})
    (hf : ∀ n r, Rests r → Rests (f n r)) :
    Neutral s { s with supervision := { v with shops := remap {} f s.supervision.shops } } where
  tables h := { h with shops := canonical_remap _ _ _ h.shops }
  shops h := by
    refine ⟨canonical_remap _ _ _ h.1, fun m => ?_⟩
    show Rests (look {} (remap {} f s.supervision.shops) m)
    rw [look_remap _ _ _ _ h.1 (h0 m)]
    exact hf m _ (h.2 m)
  fits := fits_of_sized rfl
  totals h := h
  level := rfl
  inFlight := rfl
  nextId := rfl
  out := rfl

theorem countDecline_neutral (n : Nat) : Neutral s (countDecline n s) := modifyShop_neutral s n _ fun _ h => h

theorem chargeFault_neutral (n : Nat) : Neutral s (chargeFault n s) := modifyShop_neutral s n _ fun _ h => h

theorem countAdmitted_neutral (x : InFlight) : Neutral s (countAdmitted x s) :=
  Neutral.trans (t := { s with sCount := { s.sCount with admitted := s.sCount.admitted + 1 } }) (neutral_same rfl)
    (modifyShop_neutral _ _ (fun r => { r with admitted := r.admitted + 1 }) fun _ h => h)

theorem countAdmissionDecline_neutral (n : Nat) (r : Reason) : Neutral s (countAdmissionDecline n r s) := by
  have counted : Neutral s { s with sCount := { s.sCount with declined := s.sCount.declined + 1 } } := neutral_same rfl
  unfold countAdmissionDecline
  dsimp only
  split
  · split
    · exact counted.trans ((countDecline_neutral _ n).trans (chargeFault_neutral _ n))
    · exact counted.trans (countDecline_neutral _ n)
  · exact counted

theorem weighShop_closed (v : Supervision) (a : Bool) {r : Shop} (h : r.mode = .closed) :
    weighShop v a r = { r with windowFaults := 0 } := by
  simp [weighShop, h]

theorem weighShop_mode (v : Supervision) (a : Bool) (r : Shop) : (weighShop v a r).mode = r.mode := by
  unfold weighShop badWindow goodWindow enterAlarm leaveAlarm
  dsimp only
  repeat' split
  all_goals simp_all

theorem weighShop_rests (v : Supervision) (a : Bool) (r : Shop) (h : Rests r) : Rests (weighShop v a r) := by
  intro hm
  rw [weighShop_mode] at hm
  rw [weighShop_closed v a hm]
  exact h hm

theorem endWindow_neutral (e : Event) : Neutral e.st (endWindow e).st := by
  have hweighed := remapShops_neutral e.st { e.st.supervision with keptWindow := windowOf e.st.clock }
    (fun n => weighShop e.st.supervision (e.st.activeTables.shopTerms n).autoSuspend)
    (fun _ => weighShop_closed _ _ rfl) fun _ => weighShop_rests _ _
  unfold endWindow
  dsimp only
  split
  all_goals exact hweighed

theorem windowStep_neutral (e : Event) : Neutral e.st (windowStep e).st := by
  unfold windowStep
  split
  · exact endWindow_neutral e
  · exact .refl _

theorem withMode_rests (m : Mode) (r : Shop) (_ : Rests r) : Rests (withMode m r) := by
  intro hm
  cases m
  case closed => exact ⟨rfl, rfl, rfl, rfl, rfl⟩
  all_goals
    unfold withMode at hm
    dsimp only at hm
    split at hm <;> simp at hm

/-! ### Lines and queues of the record buffer -/

theorem setLine_neutral (i : Nat) (l : Line) : Neutral s (s.setLine i l) :=
  neutral_tables (fun h => { h with lines := canonical_put _ _ _ _ h.lines }) rfl

theorem setQueue_neutral (k : Nat) {q : List BankOp}
    (hq : (s.queue k).length ≤ Config.bankPlaces → q.length ≤ Config.bankPlaces) : Neutral s (s.setQueue k q) := by
  refine neutral_of_ruled (fun h => { h with queues := canonical_put _ _ _ _ h.queues })
    (fun h => { h with queues := fun j => ?_ }) rfl
  rw [queue_setQueue]
  split
  · exact hq (h.queues k)
  · exact h.queues j

theorem appendOp_neutral {b : Nat} (op : BankOp) (h : bankHasRoom s b = true) : Neutral s (appendOp b op s) := by
  refine setQueue_neutral s _ fun _ => ?_
  have := of_decide_eq_true h
  rw [List.length_append, List.length_singleton]
  omega

theorem popQueue_neutral (k : Nat) : Neutral s (popQueue k s) := by
  refine setQueue_neutral s k fun h => ?_
  rw [List.length_tail]
  omega

theorem touch_neutral (i : Nat) : Neutral s (touch i s) := neutral_same rfl

theorem rankLast_neutral (i : Nat) : Neutral s (rankLast i s) := neutral_same rfl

theorem modifyAudit_neutral (f : Audit → Audit) : Neutral s (modifyAudit f s) := neutral_same rfl

theorem moveFloat_neutral (d : Int) : Neutral s (moveFloat d s) := neutral_same rfl

theorem moveAudit_neutral (b : Nat) (p q : Int) : Neutral s (moveAudit b p q s) := by
  obtain ⟨_, h⟩ := moveAudit_only b p q s
  rw [h]
  exact neutral_same rfl

variable {s}

theorem startWriteBack_neutral {i : Nat} (h : canWriteBack s i = true) : Neutral s (startWriteBack i s) := by
  unfold startWriteBack
  dsimp only
  split
  · exact .refl s
  · next b hb =>
    have hroom : bankHasRoom s b = true := by
      simp only [canWriteBack, hb, Bool.and_eq_true] at h
      exact h.2
    exact (setLine_neutral s i _).trans (appendOp_neutral _ _ hroom)

variable (s)

theorem flushLine_neutral (i : Nat) : Neutral s (flushLine s i) := by
  unfold flushLine
  split
  · next h => exact startWriteBack_neutral h
  · exact .refl s

theorem flushLines_neutral (l : List Nat) : ∀ s, Neutral s (l.foldl flushLine s) := by
  induction l with
  | nil => exact .refl
  | cons i l ih => exact fun s => (flushLine_neutral s i).trans (ih _)

theorem flushStep_neutral : Neutral s (flushStep s) := by
  unfold flushStep
  dsimp only
  split
  · split
    · exact flushLines_neutral _ s
    · exact (flushLines_neutral _ s).trans (neutral_same rfl)
  · exact .refl s

theorem evictLoop_neutral (n : Nat) : ∀ s, Neutral s (evictLoop n s) := by
  induction n with
  | zero => exact .refl
  | succ n ih =>
    intro s
    unfold evictLoop
    split
    · split
      · next h => exact (startWriteBack_neutral (evictChoice_can h)).trans (ih _)
      · exact .refl s
    · exact .refl s

theorem evict_neutral : Neutral s (evict s) := evictLoop_neutral _ s

theorem joinWaitList_neutral (d : Demand) : Neutral s (joinWaitList d s) :=
  Neutral.trans (t := { s with buffer := { s.buffer with waitList := s.buffer.waitList ++ [d] } })
    (neutral_same rfl) (evict_neutral _)

theorem joinAudit_neutral (i b : Nat) : Neutral s (joinAudit i b s) := by
  unfold joinAudit
  dsimp only
  split
  · exact (setLine_neutral s i _).trans (neutral_same rfl)
  · exact .refl s

variable {s}

theorem claim_neutral {i b : Nat} (ws : List Waiter) (h : canProceed s b = true) : Neutral s (claim i b ws s) := by
  unfold claim
  split
  · next hv =>
    have hroom : bankHasRoom s b = true := by simpa [canProceed, hv] using h
    exact (setLine_neutral s i _).trans (appendOp_neutral _ _ hroom)
  · exact setLine_neutral s i _

/-- R48: a line given to an entry's demand. -/
theorem given_neutral {i b : Nat} (ws : List Waiter) (h : canProceed s b = true) :
    Neutral s (joinAudit i b (touch i (claim i b ws s))) :=
  (claim_neutral ws h).trans ((touch_neutral _ i).trans (joinAudit_neutral _ i b))

variable (s)

theorem demand_neutral (id b : Nat) : Neutral s (demand id b s) := by
  unfold demand
  split
  · exact setLine_neutral s _ _
  · split
    · next h =>
      split
      · exact given_neutral _ (Bool.and_eq_true _ _ ▸ h).2
      · exact joinWaitList_neutral s _
    · exact joinWaitList_neutral s _

theorem giveDirect_neutral (i b : Nat) (tag : BitVec 16) (records : Block) (e : Event) :
    Neutral e.st (giveDirect i b tag records e).st :=
  (setLine_neutral e.st i _).trans ((touch_neutral _ i).trans ((moveFloat_neutral _ _).trans (neutral_same rfl)))

theorem serveDemand_neutral (i : Nat) (d : Demand) (e : Event) (h : canProceed e.st d.block = true) :
    Neutral e.st (serveDemand i d e).st := by
  have hleft : ∀ b, Neutral e.st (withoutDemands b e.st) := fun _ => neutral_same rfl
  obtain ⟨ws, hs⟩ | ⟨b, -, ⟨tag, records, hs⟩ | hs⟩ := serveDemand_cases i d e
  all_goals rw [hs]
  · exact (hleft _).trans (given_neutral ws h)
  · exact (giveDirect_neutral _ _ _ _ _).after (hleft b)
  · exact hleft b

theorem serveLoop_neutral (n : Nat) : ∀ e, Neutral e.st (serveLoop n e).st := by
  induction n with
  | zero => exact fun e => .refl _
  | succ n ih =>
    intro e
    unfold serveLoop
    split
    · next d _ h _ =>
      have hp : canProceed e.st d.block = true := by simpa using List.find?_some h
      exact (ih _).after (serveDemand_neutral _ _ e hp)
    · exact .refl _

theorem auditClaim_neutral : Neutral s (auditClaim s) := by
  obtain h | ⟨i, -, hp, -, -, h⟩ := auditClaim_cases s
  all_goals rw [h]
  · exact .refl s
  · have hclaim := claim_neutral (i := i) [.audit] hp
    obtain ⟨b, hb⟩ := claim_only i s.store.audit.cursor [.audit] s
    rw [hb] at hclaim ⊢
    exact hclaim.trans ((rankLast_neutral _ i).trans (neutral_same rfl))

theorem serve_neutral (e : Event) : Neutral e.st (serve e).st := (auditClaim_neutral _).after (serveLoop_neutral _ e)

theorem afterWaiter_neutral (i : Nat) (e : Event) : Neutral e.st (afterWaiter i e).st := by
  have hserved : Neutral e.st
      (if decide ((e.st.line i).state = .valid) && (e.st.line i).waiters.isEmpty then serve e else e).st := by
    split
    · exact serve_neutral e
    · exact .refl _
  unfold afterWaiter
  dsimp only
  split
  · exact hserved.trans ((flushStep_neutral _).trans (evict_neutral _))
  · exact hserved.trans (flushStep_neutral _)

theorem afterCompletion_neutral (e : Event) : Neutral e.st (afterCompletion e).st :=
  (serve_neutral e).trans ((flushStep_neutral _).trans (evict_neutral _))

/-! ### The completions of the banks and the audit walker -/

theorem fetched_neutral (b : Nat) : Neutral s (fetched b s) := by
  unfold fetched
  split
  · exact setLine_neutral s _ _
  · exact .refl s

theorem writtenLine_neutral (b : Nat) : Neutral s (writtenLine b s) := by
  unfold writtenLine
  split
  · exact setLine_neutral s _ _
  · exact .refl s

theorem storeWritten_neutral (b : Nat) (marks : BitVec 8) (carried : Block) :
    Neutral s (storeWritten b marks carried s) :=
  neutral_tables (fun h => { h with store := canonical_put _ _ _ _ h.store, valid := rising_addMark _ _ h.valid }) rfl

theorem fetchComplete_neutral (k : Nat) (e : Event) : Neutral e.st (fetchComplete k e).st := by
  unfold fetchComplete
  split
  · exact (afterCompletion_neutral _).after ((popQueue_neutral _ k).trans (fetched_neutral _ _))
  · exact .refl _

theorem writeBackComplete_neutral (k : Nat) (e : Event) : Neutral e.st (writeBackComplete k e).st := by
  unfold writeBackComplete
  split
  · exact (afterCompletion_neutral _).after
      ((popQueue_neutral _ k).trans ((storeWritten_neutral _ _ _ _).trans (writtenLine_neutral _ _)))
  · exact .refl _

theorem writeBackStart_neutral (i : Nat) (e : Event) : Neutral e.st (writeBackStart i e).st := by
  unfold writeBackStart
  split
  · next h => exact startWriteBack_neutral (Bool.and_eq_true _ _ ▸ h).1
  · exact .refl _

theorem endAudit_neutral (e : Event) : Neutral e.st (endAudit e).st :=
  modifyAudit_neutral e.st fun a =>
    let total := BitVec.ofNat 40 (holdTotal e.st.holds)
    { a with
      running := false
      waiting := false
      result := some {
        matched := a.balanceSum == e.st.store.float && a.heldSum == total
        balanceSum := a.balanceSum
        float := e.st.store.float
        heldSum := a.heldSum
        holdTotal := total } }

theorem beginVisit_neutral (e : Event) : Neutral e.st (beginVisit e).st := by
  have hcursor := modifyAudit_neutral e.st fun a => { a with cursor := nextPresent e.st e.st.store.audit.cursor }
  unfold beginVisit
  dsimp only
  split
  · exact (endAudit_neutral _).after hcursor
  · split
    · exact hcursor.trans (setLine_neutral _ _ _)
    · have hwait := hcursor.trans ((modifyAudit_neutral _ fun a => { a with waiting := true }).trans (evict_neutral _))
      split
      · next h =>
        split
        · exact hcursor.trans ((claim_neutral _ (Bool.and_eq_true _ _ ▸ h).2).trans (rankLast_neutral _ _))
        · exact hwait
      · exact hwait

theorem auditVisit_neutral (i : Nat) (e : Event) : Neutral e.st (auditVisit i e).st := by
  have hread (ws : List Waiter) (f : Audit → Audit) :
      Neutral e.st (modifyAudit f (e.st.setLine i { e.st.line i with waiters := ws })) :=
    (setLine_neutral _ _ _).trans (modifyAudit_neutral _ _)
  unfold auditVisit
  dsimp only [Event.upd]
  split
  · split
    · refine (beginVisit_neutral _).after ((afterWaiter_neutral i _).after ?_)
      dsimp only
      exact hread _ _
    · exact .refl _
  · exact .refl _

end

/-! ### Holds and the journal -/

section
variable (s : State)

theorem removeHold_neutral (r : Ref) : Neutral s (removeHold r s) :=
  neutral_fits (fun h => { h with holds := (List.length_filter_le _ _).trans h.holds }) rfl

theorem markHold_neutral (r : Ref) (st : HoldState) : Neutral s (markHold r st s) :=
  neutral_fits (fun h => { h with holds := (List.length_map _).trans_le h.holds }) rfl

theorem length_insertHold (h : HoldEntry) (l : List HoldEntry) : (insertHold h l).length = l.length + 1 := by
  induction l with
  | nil => rfl
  | cons g l ih =>
    unfold insertHold
    split
    · rfl
    · simp [ih]

theorem addHold_neutral (h : HoldEntry) (hroom : s.holds.entries.length < Config.holdPlaces) :
    Neutral s (addHold h s) :=
  neutral_fits (fun f => { f with holds := (length_insertHold h _).trans_le hroom }) rfl

theorem claimHold_neutral (x : InFlight) : Neutral s (claimHold x s) := by
  unfold claimHold
  split
  · split
    · exact markHold_neutral s _ _
    · exact .refl s
  · exact .refl s

theorem modifyEntry_neutral (r : Ref) (f : Entry → Entry) : Neutral s (modifyEntry r f s) := by
  unfold modifyEntry
  split
  · exact .refl s
  · next e _ =>
    exact neutral_tables (fun h => { h with
      ring := canonical_put none s.journal.ring (r.toNat % Config.ringPlaces) (some (f e)) h.ring }) rfl

/-- R100: an entry that may write puts one copy into Journal Out. -/
theorem writeEntry_wrote {x : InFlight} (h : mayWrite x = true) (make : Ref → Entry) : Wrote x s (writeEntry make s) where
  tables h := { h with
    ring := canonical_put none s.journal.ring (s.journal.next.toNat % Config.ringPlaces) (some (make s.journal.next))
      h.ring }
  shops h := h
  fits := fits_of_sized rfl
  totals h := h
  level := rfl
  inFlight := rfl
  nextId := rfl
  reservations := rfl
  copies := by simp [h]

theorem raiseRefunded_neutral (o : Option Ref) (a : Nat) : Neutral s (raiseRefunded o a s) := by
  unfold raiseRefunded
  split
  · exact modifyEntry_neutral s _ _
  · exact .refl s

theorem reduceOriginal_neutral (o : Entry) : Neutral s (reduceOriginal o s) := by
  unfold reduceOriginal
  split
  · split
    · split
      · exact modifyEntry_neutral s _ _
      · exact .refl s
    · exact .refl s
  · exact .refl s

/-! ### The accumulators and the cycle controller -/

/-- The rows of both accumulator sets are canonical. -/
def RowsCanonical (c : Cycle) : Prop := canonical {} c.setX.rows = true ∧ canonical {} c.setY.rows = true

theorem rowsCanonical_modifySet {c : Cycle} (i : SetId) {f : AccSet → AccSet}
    (hf : ∀ a, canonical {} a.rows = true → canonical {} (f a).rows = true) (h : RowsCanonical c) :
    RowsCanonical (c.modifySet i f) := by
  cases i
  · exact ⟨hf _ h.1, h.2⟩
  · exact ⟨h.1, hf _ h.2⟩

theorem cycle_neutral {c : Cycle} (h : RowsCanonical s.cycle → RowsCanonical c) : Neutral s { s with cycle := c } := by
  refine neutral_tables (fun k => ?_) rfl
  obtain ⟨hX, hY⟩ := h ⟨k.rowsX, k.rowsY⟩
  exact { k with rowsX := hX, rowsY := hY }

theorem postAmount_neutral (k : Account) (n a : Nat) : Neutral s (postAmount k n a s) :=
  cycle_neutral s (rowsCanonical_modifySet _ fun _ => canonical_put _ _ _ _)

theorem reverseAmount_neutral (i : SetId) (k : Account) (n a : Nat) : Neutral s (reverseAmount i k n a s) :=
  cycle_neutral s (rowsCanonical_modifySet _ fun _ => canonical_put _ _ _ _)

theorem postAdjust_neutral (d : Int) : Neutral s (postAdjust d s) := by
  refine cycle_neutral s (rowsCanonical_modifySet _ fun a h => ?_)
  split
  all_goals exact h

theorem leaveGrace_neutral (x : InFlight) : Neutral s (leaveGrace x s) := by
  unfold leaveGrace
  split
  · exact cycle_neutral s id
  · exact .refl s

theorem enterGrace_neutral (x : InFlight) : Neutral s (enterGrace x s) := by
  unfold enterGrace
  split
  · exact cycle_neutral s id
  · exact .refl s

theorem freezeStep_neutral (e : Event) : Neutral e.st (freezeStep e).st := by
  unfold freezeStep
  split
  · exact cycle_neutral e.st (rowsCanonical_modifySet _ fun _ => id)
  · exact .refl _

theorem beginFreezing_neutral (e : Event) : Neutral e.st (beginFreezing e).st :=
  (freezeStep_neutral _).after (cycle_neutral e.st id)

theorem graceStep_neutral (e : Event) : Neutral e.st (graceStep e).st := by
  unfold graceStep
  split
  · split
    · exact beginFreezing_neutral e
    · exact .refl _
  · exact .refl _

theorem clearStep_neutral (e : Event) : Neutral e.st (clearStep e).st := by
  unfold clearStep
  split
  · exact cycle_neutral e.st (rowsCanonical_modifySet _ fun _ _ => rfl)
  · exact .refl _

theorem voidEffects_neutral (x : InFlight) (o : Entry) : Neutral s (voidEffects x o s) := by
  have hring := (modifyEntry_neutral s o.ref fun e => { e with voided := true }).trans (reduceOriginal_neutral _ o)
  unfold voidEffects reverseEntry
  split
  · exact hring.trans (reverseAmount_neutral _ _ _ _ _)
  · exact hring

end

/-! ### The table sets -/

/-- The three tables of a table set are canonical. -/
def SetCanonical (t : TableSet) : Prop :=
  canonical {} t.programs = true ∧ canonical {} t.classes = true ∧ canonical {} t.terms = true

/-- The tables of both banks are canonical. -/
def BanksCanonical (t : Tables) : Prop := SetCanonical t.bankA.tables ∧ SetCanonical t.bankB.tables

section
variable {t : Tables} (h : BanksCanonical t)
include h

theorem setCanonical_active : SetCanonical (activeBank t).tables := by
  unfold activeBank
  split
  · exact h.1
  · exact h.2

theorem banksCanonical_modifyActive {f : Bank → Bank} (hf : ∀ b, SetCanonical b.tables → SetCanonical (f b).tables) :
    BanksCanonical (modifyActive f t) := by
  unfold modifyActive
  split
  · exact ⟨hf _ h.1, h.2⟩
  · exact ⟨h.1, hf _ h.2⟩

theorem banksCanonical_modifyShadow {f : Bank → Bank} (hf : ∀ b, SetCanonical b.tables → SetCanonical (f b).tables) :
    BanksCanonical (modifyShadow f t) := by
  unfold modifyShadow
  split
  · exact ⟨h.1, hf _ h.2⟩
  · exact ⟨hf _ h.1, h.2⟩

theorem banksCanonical_countIn : BanksCanonical (countIn t) := banksCanonical_modifyActive h fun _ => id

theorem banksCanonical_countOut (g : BitVec 8) : BanksCanonical (countOut g t) := by
  unfold countOut
  split
  · exact banksCanonical_modifyActive h fun _ => id
  · split
    · exact banksCanonical_modifyShadow h fun _ => id
    · exact h

theorem banksCanonical_freeShadow : BanksCanonical (freeShadow t) :=
  banksCanonical_modifyShadow h fun _ _ => setCanonical_active h

theorem banksCanonical_discarded : BanksCanonical (discarded t) := by
  unfold discarded
  split
  · exact banksCanonical_modifyShadow h fun _ _ => setCanonical_active h
  · exact h

theorem banksCanonical_swapped : BanksCanonical (swapped t) := by
  unfold swapped
  dsimp only
  split
  all_goals exact h

theorem banksCanonical_writeShadow {f : TableSet → TableSet} (hf : ∀ b, SetCanonical b → SetCanonical (f b)) :
    BanksCanonical (writeShadow f t) :=
  banksCanonical_modifyShadow h fun _ => hf _

end

theorem Keeps.of_banks (s : State) {t : Tables} (h : BanksCanonical s.tables → BanksCanonical t) :
    Keeps s { s with tables := t } where
  tables k :=
    have hb := h ⟨⟨k.programsA, k.classesA, k.termsA⟩, ⟨k.programsB, k.classesB, k.termsB⟩⟩
    { k with
      programsA := hb.1.1, classesA := hb.1.2.1, termsA := hb.1.2.2
      programsB := hb.2.1, classesB := hb.2.2.1, termsB := hb.2.2.2 }
  shops h := h
  fits := fits_of_sized rfl
  totals h := h
  level := rfl

theorem modifyTables_neutral (s : State) {f : Tables → Tables} (h : BanksCanonical s.tables → BanksCanonical (f s.tables)) :
    Neutral s (modifyTables f s) where
  toKeeps := .of_banks s h
  inFlight := rfl
  nextId := rfl
  out := rfl

theorem endRetirement_neutral (e : Event) : Neutral e.st (endRetirement e).st := by
  unfold endRetirement
  dsimp only
  split
  · exact modifyTables_neutral e.st banksCanonical_freeShadow
  · exact .refl _

/-! ### The payout engine -/

/-- R144, R145: a shop's record moves PAY, COLLECT and the carries together by its net without the carry taken in. -/
theorem shopRecord_moves (cycle : BitVec 32) (n : Nat) (f : FeeClass) (row : Row) (carry : Int) :
    let r := shopRecord cycle n f row carry
    (if r.disposition = .pay then (r.amount : Int) else 0) - (if r.disposition = .collect then (r.amount : Int) else 0)
      + (r.carryOut - r.carryIn) = r.net - r.carryIn := by
  unfold shopRecord dispose
  dsimp only
  split
  · split
    all_goals simp
    omega
  · split
    · simp_all
    · split
      all_goals simp
      omega

/-- 8.4: the identity holds on when a record is added that moves PAY, COLLECT and the carries by its net. -/
theorem balance_addTotals {t : Totals} (h : t.Balance) {r : ShopPayout}
    (hnet : r.net = (r.row.redeemed : Int) - r.row.sold - r.row.refunded - r.percentFee - r.fixedFee + r.commission
      + r.rebate + r.carryIn)
    (hmoves : (if r.disposition = .pay then (r.amount : Int) else 0)
      - (if r.disposition = .collect then (r.amount : Int) else 0) + (r.carryOut - r.carryIn) = r.net - r.carryIn) :
    (addTotals t r).Balance := by
  have hpay : ((addTotals t r).pay : Int) = t.pay + if r.disposition = .pay then (r.amount : Int) else 0 := by
    unfold addTotals; dsimp only; split <;> simp
  have hcollect : ((addTotals t r).collect : Int) = t.collect + if r.disposition = .collect then (r.amount : Int) else 0 := by
    unfold addTotals; dsimp only; split <;> simp
  unfold Totals.Balance at h ⊢
  rw [hpay, hcollect]
  unfold addTotals
  push_cast
  omega

theorem balance_zero : Totals.Balance {} := rfl

section
variable (s : State)

theorem appendRecord_neutral (n : Nat) (h : s.payout.queue.length < Config.payoutPlaces) :
    Neutral s (appendRecord n s) where
  tables k := { k with carries := canonical_put _ _ _ _ k.carries }
  shops h := h
  fits k :=
    have hp : (appendRecord n s).PayoutFits := by simpa [State.PayoutFits, appendRecord] using h
    { k with payout := hp }
  totals k := by
    refine ⟨balance_addTotals k.1 (PayoutFigures.shopRecord_net _ _ _ _ _) (shopRecord_moves _ _ _ _ _), fun r hr => ?_⟩
    simp only [appendRecord, modifyPayout_payout, List.mem_append, List.mem_singleton, reduceCtorEq, or_false] at hr
    exact k.2 r hr
  level := rfl
  inFlight := rfl
  nextId := rfl
  out := rfl

theorem appendTotal_neutral (h : s.payout.queue.length < Config.payoutPlaces) : Neutral s (appendTotal s) where
  tables := tables_of_numbered rfl
  shops h := h
  fits k :=
    have hp : (appendTotal s).PayoutFits := by simpa [State.PayoutFits, appendTotal] using h
    { k with payout := hp }
  totals k := by
    refine ⟨balance_zero, fun r hr => ?_⟩
    simp only [appendTotal, List.mem_append, List.mem_singleton, PayoutRecord.total.injEq] at hr
    obtain hr | rfl := hr
    · exact k.2 r hr
    · exact k.1
  level := rfl
  inFlight := rfl
  nextId := rfl
  out := rfl

theorem engineStep_neutral : Neutral s (engineStep s) := by
  unfold engineStep
  dsimp only
  split
  · split
    · next h =>
      split
      · exact appendRecord_neutral s _ h
      · exact appendTotal_neutral s h
    · exact neutral_same rfl
  · exact .refl s

theorem totalStep_neutral : Neutral s (totalStep s) := by
  unfold totalStep
  split
  · next h => exact appendTotal_neutral s h.2.2
  · exact .refl s

theorem takeUp_neutral : Neutral s (takeUp s) := by
  unfold takeUp
  split
  · exact ⟨⟨tables_of_numbered rfl, id, fits_of_sized rfl, fun h => ⟨balance_zero, h.2⟩, rfl⟩, rfl, rfl, rfl⟩
  · exact .refl s

theorem takeRecords_neutral (n : Nat) : Neutral s (takeRecords n s) where
  tables := tables_of_numbered rfl
  shops h := h
  fits k :=
    have hp : (takeRecords n s).PayoutFits :=
      (List.length_drop (l := s.payout.queue) (i := n)).trans_le ((Nat.sub_le _ _).trans k.payout)
    { k with payout := hp }
  totals k := ⟨k.1, fun r hr => k.2 r (List.mem_of_mem_drop hr)⟩
  level := rfl
  inFlight := rfl
  nextId := rfl
  out := rfl

end

end Sys2Proof.Proofs.Invariants
end

section
/-! PROOFS. The invariants that every step keeps, part two: the entering and leaving of the in-flight set with the
reservations of Journal Out (R183), the postings, the management commands, the frames, and the step. -/

namespace Sys2Proof.Proofs.Invariants

open Sys2Proof Sys2Proof.Machine

/-! ### Entering the in-flight set (R15, R92) -/

section
variable {s : State} {x : InFlight}

theorem enterSet_keeps (hroom : s.inFlight.length < Config.inFlightPlaces) : Keeps s (enterSet x s) :=
  (Keeps.of_banks s banksCanonical_countIn).trans
    ⟨tables_of_numbered rfl, id, fun h =>
        have hp : (enterSet x s).InFlightFits := by simpa [State.InFlightFits, enterSet] using hroom
        { h with inFlight := hp }, id, rfl⟩

theorem enterSet_outFits (hload : x.reserved = true → committedLoad s < Config.journalOutPlaces)
    (hw : mayWrite x = true → x.reserved = true) (o : OutFits s) : OutFits (enterSet x s) where
  agree :=
    { count := by
        have := o.agree.count
        cases hr : x.reserved <;> simp [enterSet, hr, this]
      distinct := by
        have hnew : ∀ y ∈ s.inFlight, y.id ≠ s.nextId := fun y hy => (o.agree.below y hy).ne
        simpa [enterSet, List.nodup_append, o.agree.distinct] using hnew
      below := by
        intro y hy
        obtain hy | rfl : y ∈ s.inFlight ∨ y = _ := by simpa [enterSet] using hy
        · exact Nat.lt_succ_of_lt (o.agree.below y hy)
        · exact Nat.lt_succ_self _ }
  reserved := by
    intro y hy
    obtain hy | rfl : y ∈ s.inFlight ∨ y = _ := by simpa [enterSet] using hy
    · exact o.reserved y hy
    · exact hw
  fits := by
    have hfits := o.fits
    unfold committedLoad at *
    cases hr : x.reserved
    · simpa [enterSet, hr] using hfits
    · have := hload hr
      simp only [enterSet, hr, if_true]
      omega

theorem enterSet_runs (hroom : s.inFlight.length < Config.inFlightPlaces)
    (hload : x.reserved = true → committedLoad s < Config.journalOutPlaces)
    (hw : mayWrite x = true → x.reserved = true) : Runs s (enterSet x s) :=
  ⟨enterSet_keeps hroom, enterSet_outFits hload hw⟩

theorem selectable_room {h : HoldEntry} (k : selectable s h = true) :
    s.inFlight.length < Config.inFlightPlaces ∧ committedLoad s < Config.journalOutPlaces := by
  simp only [selectable, inFlightFull, Bool.and_eq_true, Bool.not_eq_true', decide_eq_true_eq, decide_eq_false_iff_not] at k
  omega

end

theorem selectHold_runs {s : State} {h : HoldEntry} (k : selectable s h = true) : Runs s (selectHold h s) := by
  obtain ⟨hroom, hload⟩ := selectable_room k
  have hmarked : Neutral s { markHold h.ref .expiring s with
      holds := { (markHold h.ref .expiring s).holds with expiring := some h.ref } } :=
    (markHold_neutral s h.ref .expiring).trans (neutral_same rfl)
  exact (hmarked.runs_then (enterSet_runs hroom (fun _ => hload) fun _ => rfl)).then (demand_neutral _ _ _)

theorem sweepStep_runs (s : State) : Runs s (sweepStep s) := by
  obtain h | ⟨_, _, k, h⟩ := sweepStep_cases s
  all_goals rw [h]
  · exact .refl s
  · exact selectHold_runs k

/-! ### Leaving the in-flight set (R16) -/

/-- The entry out of the set with its reservation, before its bank is looked at. -/
def outOfSet (x : InFlight) (s : State) : State :=
  { s with
    inFlight := s.inFlight.filter (fun y => y.id != x.id)
    journalOut := { s.journalOut with
      reservations := if x.reserved then s.journalOut.reservations - 1 else s.journalOut.reservations } }

theorem outOfSet_keeps (x : InFlight) (s : State) : Keeps s (outOfSet x s) where
  tables := tables_of_numbered rfl
  shops h := h
  fits h := { h with inFlight := (List.length_filter_le _ _).trans h.inFlight }
  totals h := h
  level := rfl

theorem leaveSet_keeps (x : InFlight) (e : Event) : Keeps e.st (leaveSet x e).st :=
  ((outOfSet_keeps x e.st).trans (.of_banks (outOfSet x e.st) fun h => banksCanonical_countOut h x.generation)).trans
    (endRetirement_neutral (e.upd fun s => { outOfSet x s with tables := countOut x.generation s.tables })).toKeeps

/-- Of entries with distinct serial numbers one leaves with its mark. -/
theorem length_reserved_left {x : InFlight} : ∀ {l : List InFlight}, (l.map (·.id)).Nodup → x ∈ l →
    ((l.filter (fun y => y.id != x.id)).filter (·.reserved)).length + (if x.reserved then 1 else 0)
      = (l.filter (·.reserved)).length := by
  intro l
  induction l with
  | nil => exact fun _ h => absurd h List.not_mem_nil
  | cons y l ih =>
    intro hd hx
    obtain ⟨hy, hd⟩ := List.nodup_cons.1 hd
    by_cases hxy : x = y
    · subst hxy
      have hl : l.filter (fun z => z.id != x.id) = l := by
        refine List.filter_eq_self.2 fun z hz => bne_iff_ne.2 fun h => hy ?_
        exact List.mem_map.2 ⟨z, hz, h⟩
      cases hr : x.reserved <;> simp [hl, hr]
    · have hxl : x ∈ l := (List.mem_cons.1 hx).resolve_left hxy
      have hne : (y.id != x.id) = true := bne_iff_ne.2 fun h => hy (List.mem_map.2 ⟨x, hxl, h.symm⟩)
      have := ih hd hxl
      cases hr : y.reserved
      · simp [hne, hr, ← this]
      · simp only [hne, hr, List.filter_cons, if_true, List.length_cons, ← this]
        omega

/-- R183: the posting of an entry, which may have written one copy, gives up its reservation. -/
theorem outFits_left {s u : State} {x : InFlight} (o : OutFits s) (hx : x ∈ s.inFlight)
    (hin : u.inFlight = s.inFlight.filter (fun y => y.id != x.id)) (hid : u.nextId = s.nextId)
    (hres : u.journalOut.reservations = if x.reserved then s.journalOut.reservations - 1 else s.journalOut.reservations)
    (hcop : u.journalOut.copies.length ≤ s.journalOut.copies.length + if mayWrite x = true then 1 else 0) :
    OutFits u := by
  have hcount := o.agree.count
  have hleft := length_reserved_left o.agree.distinct hx
  refine ⟨⟨?_, ?_, ?_⟩, ?_, ?_⟩
  · rw [hin, hres, hcount, ← hleft]
    cases x.reserved <;> simp
  · rw [hin]
    exact o.agree.distinct.sublist (List.filter_sublist.map _)
  · rw [hin, hid]
    exact fun y hy => o.agree.below y (List.mem_of_mem_filter hy)
  · rw [hin]
    exact fun y hy => o.reserved y (List.mem_of_mem_filter hy)
  · have hfits := o.fits
    have hw := o.reserved x hx
    unfold committedLoad at *
    cases hr : x.reserved
    · have hm : mayWrite x = false := by simpa [hr] using hw
      simp only [hr, hm] at hres hcop
      simp at hres hcop
      omega
    · simp only [hr] at hres hleft
      split at hcop <;> simp at hres hleft <;> omega

theorem leaveSet_runs {s : State} {x : InFlight} {e : Event} (hx : x ∈ s.inFlight) (h : Wrote x s e.st) :
    Runs s (leaveSet x e).st where
  toKeeps := h.toKeeps.trans (leaveSet_keeps x e)
  out o := by
    rw [leaveSet_eq]
    exact outFits_left o hx (by rw [← h.inFlight]) h.nextId (by rw [← h.reservations]) h.copies

/-! ### Postings -/

theorem departed_runs {s : State} {x : InFlight} {e : Event} (i : Nat) (hx : x ∈ s.inFlight) (h : Wrote x s e.st) :
    Runs s (departed i x e).st :=
  ((leaveSet_runs hx h).then (afterWaiter_neutral i _)).trans (sweepStep_runs _)

theorem postLine_neutral (i : Nat) (records : Block) (marks : BitVec 8) (s : State) :
    Neutral s (postLine i records marks s) :=
  (setLine_neutral s i _).trans (touch_neutral _ i)

theorem postRecord_neutral (i k : Nat) (new : CardRecord) (s : State) : Neutral s (postRecord i k new s) :=
  postLine_neutral _ _ _ _

theorem finishPosting_runs {s : State} {x : InFlight} {e : Event} (i : Nat) (new : CardRecord) (ref : Option Ref)
    (answer : GiftAnswer) (hx : x ∈ s.inFlight) (h : Wrote x s e.st) :
    Runs s (finishPosting i x new ref answer e).st :=
  departed_runs i hx (h.then ((postRecord_neutral _ _ _ _).trans (leaveLane_neutral _ _ _)))

theorem afterExpiry_approves {s : State} {r : CardRecord} {d f : Decision} (h : afterExpiry s r d = f)
    (hf : ∀ reason, f ≠ .declined reason) : d = f := by
  unfold afterExpiry at h
  split at h
  · exact absurd h.symm (hf _)
  · exact h

/-- R85: a HOLD is approved only with a place in the hold table. -/
theorem decideHold_room {t : ShopTerms} {places : Nat} {r : CardRecord} {a b : Nat}
    (h : decideHold t places r a = .approved b ∨ decideHold t places r a = .inPart b) : places < Config.holdPlaces := by
  unfold decideHold at h
  repeat' split at h
  all_goals simp_all

theorem endWork_neutral (p : InProgress) (r : Reply) (d : Event) : Neutral d.st (endWork p r d).st :=
  neutral_same rfl

theorem adjustEffects_wrote {x : InFlight} (hk : x.kind = .adjust) (d : Int) (sequence : BitVec 32) (s : State) :
    Wrote x s (adjustEffects x d sequence s) := by
  unfold adjustEffects
  dsimp only
  refine Neutral.wrote_then ?_ (writeEntry_wrote _ (by simp [mayWrite, hk]) _)
  split
  · exact .refl s
  · exact (postAdjust_neutral s d).trans ((moveFloat_neutral _ _).trans (moveAudit_neutral _ _ _ _))

section
variable {x : InFlight} {e : Event} (i : Nat) (hx : x ∈ e.st.inFlight)
include hx

theorem approve_runs (hw : mayWrite x = true) (old new : CardRecord) (ruling : Ruling) (amount : Nat)
    (related : Option Ref) (cycle : BitVec 32) {post : State → State} (hp : Neutral e.st (post e.st)) :
    Runs e.st (approve i x old new ruling amount related cycle post e).st := by
  refine finishPosting_runs i _ _ _ hx ?_
  exact (hp.trans ((moveFloat_neutral _ _).trans (moveAudit_neutral _ _ _ _))).wrote_then (writeEntry_wrote _ hw _)

theorem decline_runs (new : CardRecord) (reason : Reason) : Runs e.st (decline i x new reason e).st :=
  finishPosting_runs i _ _ _ hx (countDecline_neutral _ _).wrote

theorem train_runs (r : CardRecord) (d : Decision) : Runs e.st (train i x r d e).st := by
  cases d
  case declined => exact decline_runs i hx _ _
  all_goals exact finishPosting_runs i _ _ _ hx (Neutral.refl _).wrote

theorem postDecided_runs (r : CardRecord) (d : Decision) {live : Ruling → Nat → Event → Event}
    (hlive : x.training = false → ∀ ruling a, d = .approved a ∨ d = .inPart a → Runs e.st (live ruling a e).st) :
    Runs e.st (postDecided i x r d live e).st := by
  unfold postDecided
  dsimp only
  split
  · exact train_runs i hx _ _
  · next ht =>
    have ht : x.training = false := by simpa using ht
    split
    · exact decline_runs i hx _ _
    · next h => exact hlive ht _ _ (.inl (afterExpiry_approves h fun _ => Decision.noConfusion))
    · next h => exact hlive ht _ _ (.inr (afterExpiry_approves h fun _ => Decision.noConfusion))

theorem postActivate_runs (hk : x.kind = .activate) : Runs e.st (postActivate i x e).st :=
  postDecided_runs i hx _ _ fun ht _ _ _ =>
    approve_runs i hx (by simp [mayWrite, hk, ht]) _ _ _ _ _ _ (postAmount_neutral _ _ _ _)

theorem postReload_runs (hk : x.kind = .reload) : Runs e.st (postReload i x e).st :=
  postDecided_runs i hx _ _ fun ht _ _ _ =>
    approve_runs i hx (by simp [mayWrite, hk, ht]) _ _ _ _ _ _ (postAmount_neutral _ _ _ _)

theorem postRedeem_runs (hk : x.kind = .redeem) : Runs e.st (postRedeem i x e).st :=
  postDecided_runs i hx _ _ fun ht _ _ _ =>
    approve_runs i hx (by simp [mayWrite, hk, ht]) _ _ _ _ _ _ (postAmount_neutral _ _ _ _)

theorem postBalance_runs : Runs e.st (postBalance i x e).st := by
  unfold postBalance
  dsimp only
  split
  · exact decline_runs i hx _ _
  · exact finishPosting_runs i _ _ _ hx (Neutral.refl _).wrote

theorem postHold_runs (hk : x.kind = .hold) : Runs e.st (postHold i x e).st :=
  postDecided_runs i hx _ _ fun ht _ _ hd =>
    approve_runs i hx (by simp [mayWrite, hk, ht]) _ _ _ _ _ _ (addHold_neutral _ _ (decideHold_room hd))

theorem completeHold_runs (hk : x.kind = .complete) (ht : x.training = false) (h : HoldEntry) :
    Runs e.st (completeHold i x h e).st :=
  approve_runs i hx (by simp [mayWrite, hk, ht]) _ _ _ _ _ _
    ((removeHold_neutral _ _).trans (postAmount_neutral _ _ _ _))

theorem releaseHold_runs (hk : x.kind = .release) (ht : x.training = false) (h : HoldEntry) :
    Runs e.st (releaseHold i x h e).st :=
  approve_runs i hx (by simp [mayWrite, hk, ht]) _ _ _ _ _ _ (removeHold_neutral _ _)

theorem expireHold_runs (hk : x.kind = .holdExpired) (h : HoldEntry) : Runs e.st (expireHold i x h e).st := by
  refine departed_runs i hx ?_
  have hcleared : Neutral e.st (clearExpiring (removeHold h.ref e.st)) :=
    (removeHold_neutral e.st h.ref).trans (neutral_same rfl)
  exact ((hcleared.trans (moveAudit_neutral _ _ _ _)).wrote_then
    (writeEntry_wrote _ (by simp [mayWrite, hk]) _)).then (postRecord_neutral _ _ _ _)

theorem postRefund_runs (hk : x.kind = .refund) : Runs e.st (postRefund i x e).st :=
  postDecided_runs i hx _ _ fun ht _ _ _ =>
    approve_runs i hx (by simp [mayWrite, hk, ht]) _ _ _ _ _ _
      ((raiseRefunded_neutral _ _ _).trans (postAmount_neutral _ _ _ _))

theorem postVoid_runs (hk : x.kind = .void) : Runs e.st (postVoid i x e).st := by
  have hgrace := leaveGrace_neutral e.st x
  have hx' : x ∈ (e.upd (leaveGrace x)).st.inFlight := hgrace.inFlight ▸ hx
  have hdecided := hgrace.runs_then (postDecided_runs i hx' (recordFor e.st i x)
    (decideVoid x.slot (x.reference.bind e.st.entryAt) (recordFor e.st i x))
    (live := fun ruling a f => match x.reference.bind e.st.entryAt with
      | some o => approve i x (recordFor e.st i x) (voidedRecord e.st o (recordFor e.st i x)) ruling a (some o.ref)
          o.cycle (voidEffects x o) f
      | none => f) ?_)
  · exact hdecided.then (freezeStep_neutral _)
  · intro ht ruling a _
    split
    · exact approve_runs i hx' (by simp [mayWrite, hk, ht]) _ _ _ _ _ _ (voidEffects_neutral _ _ _)
    · exact .refl _

theorem postCardRead_runs : Runs e.st (postCardRead i x e).st := by
  refine departed_runs i hx (Neutral.wrote ?_)
  split
  · exact (endWork_neutral _ _ _).after (postLine_neutral _ _ _ _)
  · exact postLine_neutral _ _ _ _

theorem postReplacement_runs : Runs e.st (postReplacement i x e).st := by
  unfold postReplacement
  split
  · refine departed_runs i hx (Neutral.wrote ((endWork_neutral _ _ _).after ?_))
    exact (moveFloat_neutral _ _).trans ((moveAudit_neutral _ _ _ _).trans (postLine_neutral _ _ _ _))
  · exact departed_runs i hx (postLine_neutral _ _ _ _).wrote

theorem postCardAdjust_runs (hk : x.kind = .adjust) : Runs e.st (postCardAdjust i x e).st := by
  unfold postCardAdjust
  split
  · dsimp only
    split
    · exact departed_runs i hx ((endWork_neutral _ _ _).after (postRecord_neutral _ _ _ _)).wrote
    · refine departed_runs i hx (Wrote.then ?_ (endWork_neutral _ _ _))
      exact (adjustEffects_wrote hk _ _ _).then (postRecord_neutral _ _ _ _)
  · exact departed_runs i hx (postLine_neutral _ _ _ _).wrote

end

end Sys2Proof.Proofs.Invariants
end

section
/-! PROOFS. The invariants that every step keeps, part three: the management commands. -/

namespace Sys2Proof.Proofs.Invariants

open Sys2Proof Sys2Proof.Machine

/-! ### What the commands change -/

section
variable (s : State)

theorem takeOn_runs (tag : BitVec 16) (w : UnitWork) (k : Kind) (slot : Nat) (reserved : Bool) (e : Event)
    (hroom : inFlightFull e.st = false)
    (hload : reserved = true → committedLoad e.st < Config.journalOutPlaces)
    (hw : mayWrite (unitEntry k slot reserved) = true → reserved = true) :
    Runs e.st (takeOn tag w (unitEntry k slot reserved) e).st := by
  have hroom : e.st.inFlight.length < Config.inFlightPlaces := by simpa [inFlightFull] using hroom
  have hworks (u : State) : Neutral u (startWork tag w u) := neutral_same rfl
  exact ((enterSet_runs hroom hload hw).then (hworks _)).then (demand_neutral _ _ _)

theorem takeCopies_runs (n : Nat) : Runs s (takeCopies n s) where
  toKeeps := ⟨tables_of_numbered rfl, id, fits_of_sized rfl, id, rfl⟩
  out o := ⟨⟨o.agree.count, o.agree.distinct, o.agree.below⟩, o.reserved, by
    have := o.fits
    have := List.length_drop (l := s.journalOut.copies) (i := n)
    simp only [committedLoad, takeCopies] at *
    omega⟩

theorem dropFirst_neutral : Neutral s (dropFirst s) := neutral_same rfl

theorem countArrival_neutral : Neutral s (countArrival s) := neutral_same rfl

theorem linkResetState_neutral : Neutral s (linkResetState s) := by
  have hreset := remapShops_neutral s s.supervision (fun _ => resetShop) (fun _ => rfl)
    fun _ _ h hm => ⟨(h hm).1, rfl, rfl, rfl, rfl⟩
  exact hreset.trans
    (neutral_fits (fun h => { h with frames := ⟨Nat.zero_lt_succ _, Nat.zero_lt_succ _⟩ }) rfl)

theorem clearGlobal_neutral : Neutral s (clearGlobal s) := neutral_same rfl

theorem modifyPayout_carries_neutral (n : Nat) (z : Int) :
    Neutral s (modifyPayout (fun p => { p with carries := put 0 p.carries n z }) s) :=
  neutral_tables (fun h => { h with carries := canonical_put _ _ _ _ h.carries }) rfl

theorem keepEarlierWindow_neutral : Neutral s (keepEarlierWindow s) := neutral_same rfl

theorem withClock_neutral (c : BitVec 32) : Neutral s (withClock c s) := neutral_same rfl

theorem cutoverState_neutral : Neutral s (cutoverState s) := neutral_same rfl

end

theorem clockFollowers_runs (e : Event) : Runs e.st (clockFollowers e).st :=
  (graceStep_neutral e).runs_then (sweepStep_runs _)

theorem advance_runs (e : Event) : Runs e.st (advance e).st := by
  have hticked := withClock_neutral e.st (e.st.clock + 1)
  unfold advance
  dsimp only
  split
  · exact ((endWindow_neutral _).after hticked).runs_then (clockFollowers_runs _)
  · exact ((windowStep_neutral _).after hticked).runs_then (clockFollowers_runs _)

/-! ### The commands -/

section
variable (tag : BitVec 16) (e : Event)

theorem doSetNoticeMask_runs (masks : BitVec 8) : Runs e.st (doSetNoticeMask tag masks e).st := by
  unfold doSetNoticeMask
  split
  · exact runs_same rfl
  · exact .refl _

theorem doNoticeAck_runs (cats : BitVec 8) : Runs e.st (doNoticeAck tag cats e).st := by
  unfold doNoticeAck
  split
  · exact runs_same rfl
  · exact .refl _

theorem doSetConfig_runs (trip t1 t2 : BitVec 8) (grace : BitVec 16) :
    Runs e.st (doSetConfig tag trip t1 t2 grace e).st := by
  unfold doSetConfig
  split
  · exact runs_same rfl
  · exact .refl _

theorem doJournalTake_runs (n : BitVec 8) : Runs e.st (doJournalTake tag n e).st := by
  unfold doJournalTake
  split
  · exact (takeCopies_runs _ _).trans (sweepStep_runs _)
  · exact .refl _

theorem doLinkReset_runs : Runs e.st (doLinkReset tag e).st := (linkResetState_neutral e.st).runs

theorem doSetClock_runs (clock : BitVec 32) : Runs e.st (doSetClock tag clock e).st :=
  ((windowStep_neutral _).after ((keepEarlierWindow_neutral _).after (withClock_neutral e.st clock))).runs_then
    (clockFollowers_runs _)

theorem doCutover_runs : Runs e.st (doCutover tag e).st := by
  unfold doCutover
  split
  · exact ((graceStep_neutral _).after (cutoverState_neutral e.st)).runs
  · exact .refl _

theorem doFreeze_runs : Runs e.st (doFreeze tag e).st := by
  unfold doFreeze
  split
  · exact (beginFreezing_neutral e).runs
  · exact .refl _

theorem doRowRead_runs (set : BitVec 8) (row : BitVec 16) : Runs e.st (doRowRead tag set row e).st := by
  unfold doRowRead
  repeat' split
  all_goals exact .refl _

theorem doSetShopMode_runs (shop : BitVec 16) (mode : BitVec 8) : Runs e.st (doSetShopMode tag shop mode e).st := by
  unfold doSetShopMode
  split
  · exact .refl _
  · next m _ =>
    split
    · exact (modifyShop_neutral _ _ _ (withMode_rests m)).runs
    · exact .refl _

/-- R158: the management cause of a shop that is not CLOSED. -/
theorem modifyShop_management_neutral (s : State) (n : Nat) (c : Bool) (h : (s.shop n).mode ≠ .closed) :
    Neutral s (s.modifyShop n fun r => { r with management := c }) where
  tables k := { k with shops := canonical_put _ _ _ _ k.shops }
  shops k := by
    refine ⟨canonical_put _ _ _ _ k.1, fun m => ?_⟩
    rw [shop_modifyShop]
    split
    · exact fun hm => absurd hm h
    · exact k.2 m
  fits := fits_of_sized rfl
  totals h := h
  level := rfl
  inFlight := rfl
  nextId := rfl
  out := rfl

theorem doSuspend_runs (shop : BitVec 16) : Runs e.st (doSuspend tag shop e).st := by
  unfold doSuspend
  split
  · exact .refl _
  · split
    · exact .refl _
    · next h => exact (modifyShop_management_neutral _ _ _ h).runs

theorem doResume_runs (shop : BitVec 16) : Runs e.st (doResume tag shop e).st := by
  unfold doResume
  split
  · exact .refl _
  · split
    · exact .refl _
    · next h => exact (modifyShop_management_neutral _ _ _ h).runs

theorem doCounterRead_runs (selector : BitVec 16) (flags : BitVec 8) :
    Runs e.st (doCounterRead tag selector flags e).st := by
  have hdrawn : Neutral e.st { e.st with draws := e.st.draws + 1 } := neutral_same rfl
  unfold doCounterRead
  dsimp only
  split
  · exact .refl _
  · split
    · split
      · exact (clearGlobal_neutral _).runs
      · exact .refl _
    · split
      · split
        · exact ((modifyShop_neutral _ _ clearShopCounters fun _ h => h).after hdrawn).runs
        · exact hdrawn.runs
      · exact .refl _

theorem doCounterClear_runs (selector : BitVec 16) : Runs e.st (doCounterClear tag selector e).st := by
  unfold doCounterClear
  split
  · exact (clearGlobal_neutral _).runs
  · split
    · exact (remapShops_neutral e.st e.st.supervision (fun _ => clearShopCounters) (fun _ => rfl) fun _ _ h => h).runs
    · split
      · exact (modifyShop_neutral _ _ clearShopCounters fun _ h => h).runs
      · exact .refl _

theorem doShopScan_runs (shop : BitVec 16) : Runs e.st (doShopScan tag shop e).st := by
  unfold doShopScan
  split
  all_goals exact .refl _

theorem doBeginLoad_runs : Runs e.st (doBeginLoad tag e).st := by
  unfold doBeginLoad
  split
  · exact .refl _
  · exact runs_same rfl

theorem doCardLoadFirst_runs (block : BitVec 24) (images : FourImages) :
    Runs e.st (doCardLoadFirst tag block images e).st := by
  unfold doCardLoadFirst
  split
  · exact runs_same rfl
  · exact .refl _

theorem loadDirect_runs (b : Nat) (records : Block) : Runs e.st (loadDirect tag b records e).st := by
  have hstarted : Neutral e.st (startWork tag (.directLoad b records) e.st) := neutral_same rfl
  have hwait := (joinWaitList_neutral _ (.directLoad b)).after hstarted
  unfold loadDirect
  dsimp only
  split
  · split
    · exact ((flushStep_neutral _).after (giveDirect_neutral _ _ _ _ _)).runs
    · exact hwait.runs
  · exact hwait.runs

theorem doCardLoadLast_runs (images : FourImages) : Runs e.st (doCardLoadLast tag images e).st := by
  have hdropped := (dropFirst_neutral e.st).runs
  unfold doCardLoadLast
  split
  · exact .refl _
  · split
    · exact hdropped
    · split
      · split
        · exact hdropped
        · next h => exact takeOn_runs _ _ _ _ _ _ (by simpa using h) (by simp) (by simp [mayWrite, unitEntry])
      · exact loadDirect_runs _ _ _ _

theorem doStoreReady_runs : Runs e.st (doStoreReady tag e).st := by
  unfold doStoreReady
  split
  · exact .refl _
  · exact runs_same rfl

theorem doFlush_runs : Runs e.st (doFlush tag e).st := by
  have hmarked : Neutral e.st (modifyStore (fun t => { t with flushPending := true }) e.st) := neutral_same rfl
  exact ((flushStep_neutral _).after hmarked).runs

theorem doAudit_runs : Runs e.st (doAudit tag e).st := by
  have hrunning := modifyAudit_neutral e.st fun a => { running := true, result := a.result }
  unfold doAudit
  split
  · exact .refl _
  · split
    · exact .refl _
    · exact ((beginVisit_neutral _).after hrunning).runs

theorem doCardRead_runs (slot : BitVec 24) : Runs e.st (doCardRead tag slot e).st := by
  unfold doCardRead
  split
  · exact .refl _
  · split
    · exact .refl _
    · next h => exact takeOn_runs _ _ _ _ _ _ (by simpa using h) (by simp) (by simp [mayWrite, unitEntry])

theorem doCardAdjust_runs (slot : BitVec 24) (fields : AdjustFields) : Runs e.st (doCardAdjust tag slot fields e).st := by
  unfold doCardAdjust
  split
  · exact .refl _
  · split
    · exact .refl _
    · split
      · exact .refl _
      · next h =>
        rw [not_or, Nat.not_le] at h
        exact takeOn_runs _ _ _ _ _ _ (by simpa using h.1) (fun _ => h.2) fun _ => rfl

theorem loadShadow_runs (code : BitVec 8) {f : TableSet → TableSet} (hf : ∀ b, SetCanonical b → SetCanonical (f b)) :
    Runs e.st (loadShadow code tag f e).st := by
  unfold loadShadow
  split
  · exact .refl _
  · exact (modifyTables_neutral _ fun h => banksCanonical_writeShadow h hf).runs

theorem doLoadProgram_runs (index : BitVec 8) (fields : ProgramFields) :
    Runs e.st (doLoadProgram tag index fields e).st := by
  unfold doLoadProgram
  split
  · exact .refl _
  · split
    · exact loadShadow_runs _ _ _ fun b h => ⟨canonical_put _ _ _ _ h.1, h.2⟩
    · exact .refl _

theorem doLoadFeeClass_runs (index : BitVec 8) (fields : FeeFields) : Runs e.st (doLoadFeeClass tag index fields e).st := by
  unfold doLoadFeeClass
  split
  · exact .refl _
  · split
    · exact loadShadow_runs _ _ _ fun b h => ⟨h.1, canonical_put _ _ _ _ h.2.1, h.2.2⟩
    · exact .refl _

theorem doLoadShopTerms_runs (shop : BitVec 16) (fields : TermsFields) :
    Runs e.st (doLoadShopTerms tag shop fields e).st := by
  unfold doLoadShopTerms
  split
  · exact .refl _
  · split
    · exact loadShadow_runs _ _ _ fun b h => ⟨h.1, h.2.1, canonical_put _ _ _ _ h.2.2⟩
    · exact .refl _

theorem doDiscardShadow_runs : Runs e.st (doDiscardShadow tag e).st := by
  unfold doDiscardShadow
  split
  · exact .refl _
  · exact (modifyTables_neutral _ banksCanonical_discarded).runs

theorem doCommitTables_runs : Runs e.st (doCommitTables tag e).st := by
  unfold doCommitTables
  split
  · exact .refl _
  · split
    · exact .refl _
    · split
      · exact .refl _
      · exact ((endRetirement_neutral _).after (modifyTables_neutral e.st banksCanonical_swapped)).runs

theorem doTableRead_runs (bank table : BitVec 8) (index : BitVec 16) : Runs e.st (doTableRead tag bank table index e).st := by
  unfold doTableRead
  extract_lets
  split
  all_goals exact .refl _

theorem doCarryRead_runs (shop : BitVec 16) : Runs e.st (doCarryRead tag shop e).st := by
  unfold doCarryRead
  split
  all_goals exact .refl _

theorem doCarrySet_runs (shop : BitVec 16) (carry : BitVec 32) : Runs e.st (doCarrySet tag shop carry e).st := by
  unfold doCarrySet
  dsimp only
  split
  · exact .refl _
  · split
    · exact .refl _
    · exact (modifyPayout_carries_neutral _ _ _).runs

theorem doPayoutTake_runs (n : BitVec 8) : Runs e.st (doPayoutTake tag n e).st := by
  unfold doPayoutTake
  split
  · exact ((clearStep_neutral _).after (takeRecords_neutral e.st _)).runs
  · exact .refl _

/-- 11.6: every command of the table keeps the invariants. -/
theorem commandTable_runs {code : BitVec 8} {c : CommandEntry} (h : commandTable code = some c) (body : List Octet) :
    Runs e.st (c.run tag body e).st := by
  unfold commandTable at h
  split at h <;> cases h
  · exact .refl _
  · exact doSetNoticeMask_runs _ _ _
  · exact doNoticeAck_runs _ _ _
  · exact doSetClock_runs _ _ _
  · exact doSetConfig_runs _ _ _ _ _ _
  · exact .refl _
  · exact doJournalTake_runs _ _ _
  · exact doLinkReset_runs _ _
  · exact doBeginLoad_runs _ _
  · exact doCardLoadFirst_runs _ _ _ _
  · exact doCardLoadLast_runs _ _ _
  · exact doStoreReady_runs _ _
  · exact doFlush_runs _ _
  · exact doAudit_runs _ _
  · exact doCardRead_runs _ _ _
  · exact doCardAdjust_runs _ _ _ _
  · exact doLoadProgram_runs _ _ _ _
  · exact doLoadFeeClass_runs _ _ _ _
  · exact doLoadShopTerms_runs _ _ _ _
  · exact doDiscardShadow_runs _ _
  · exact doCommitTables_runs _ _
  · exact doTableRead_runs _ _ _ _ _
  · exact .refl _
  · exact .refl _
  · exact doCutover_runs _ _
  · exact doFreeze_runs _ _
  · exact doRowRead_runs _ _ _ _
  · exact doCarryRead_runs _ _ _
  · exact doCarrySet_runs _ _ _ _
  · exact .refl _
  · exact doPayoutTake_runs _ _ _
  · exact doSetShopMode_runs _ _ _ _
  · exact doSuspend_runs _ _ _
  · exact doResume_runs _ _ _
  · exact doCounterRead_runs _ _ _ _
  · exact doCounterClear_runs _ _ _
  · exact doShopScan_runs _ _ _

theorem unitGate_runs (code : BitVec 8) (completes : Bool) {body : Event → Event} (h : Runs e.st (body e).st) :
    Runs e.st (unitGate code tag completes body e).st := by
  unfold unitGate
  split
  · exact .refl _
  · split
    · exact .refl _
    · split
      · exact (dropFirst_neutral _).runs
      · exact h

theorem runEntry_runs {code : BitVec 8} {c : CommandEntry} (h : commandTable code = some c) (body : List Octet) :
    Runs e.st (runEntry code tag c body e).st := by
  unfold runEntry
  split
  · exact commandTable_runs _ _ h _
  · split
    · exact (dropFirst_neutral _).runs
    · exact .refl _

theorem dealWith_runs (body : List Octet) : Runs e.st (dealWith body e).st := by
  unfold dealWith
  dsimp only
  split
  · exact .refl _
  · split
    · exact .refl _
    · next h => exact unitGate_runs _ _ _ _ (runEntry_runs _ _ h _)

end

end Sys2Proof.Proofs.Invariants
end

section
/-! PROOFS. The invariants that every step keeps, part four: the frames, the event's end and the step. -/

namespace Sys2Proof.Proofs.Invariants

open Sys2Proof Sys2Proof.Machine

/-! ### Admission (R7 to R15) -/

/-- A list of checks of which none fails. -/
theorem firstOf_none : ∀ {l : List (Option Reason)}, firstOf l = none → ∀ c ∈ l, c = none
  | [], _ => by simp
  | none :: t, h => by
    have ih := firstOf_none (l := t) h
    simpa using ih
  | some _ :: _, h => by cases h

/-- R13: a reserving request that passes the stand-in check finds a place in Journal Out. -/
theorem standInCheck_none {level : Level} {k : Kind} {a limit : Nat} (h : standInCheck level k a limit = none) :
    level ≠ .closed := by
  rintro rfl
  cases h

theorem requestKind_request {c : BitVec 8} {k : Kind} (h : requestKind c = some k) : k ≠ .holdExpired ∧ k ≠ .adjust := by
  unfold requestKind at h
  split at h <;> cases h <;> exact ⟨Kind.noConfusion, Kind.noConfusion⟩

theorem formatCheck_kind {q : GiftRequest} {k : Kind} (h : formatCheck q = some k) : k ≠ .holdExpired ∧ k ≠ .adjust := by
  unfold formatCheck at h
  split at h
  · cases h
  · next hk =>
    split at h
    · cases h; exact requestKind_request hk
    · cases h

/-- R13, R14: what the checks say of an admitted entry. -/
structure AdmissionSpec (s : State) (x : InFlight) : Prop where
  room : s.inFlight.length < Config.inFlightPlaces
  level : x.reserved = true → s.journalOut.level ≠ .closed
  reserved : mayWrite x = true → x.reserved = true

/-- R183: the entry of a request reserves a place when its posting may write. -/
theorem admittedEntry_reserved {s : State} {q : GiftRequest} {k : Kind} {i slot : Nat} {training : Bool}
    (hk : k ≠ .holdExpired ∧ k ≠ .adjust) (h : mayWrite (admittedEntry s q k i slot training) = true) :
    (admittedEntry s q k i slot training).reserved = true := by
  cases k <;> simp_all [mayWrite, admittedEntry, reserving]

theorem admission_admitted {s : State} {q : GiftRequest} {i : Nat} {x : InFlight} (h : admission s q i = .admitted x) :
    AdmissionSpec s x := by
  unfold admission at h
  split at h
  · cases h
  · next k hk =>
    extract_lets p serial slot shop amount r training at h
    split at h
    · cases h
    · next hnone =>
      cases h
      have hchecks := firstOf_none hnone
      simp only [List.forall_mem_cons] at hchecks
      obtain ⟨_, _, _, _, _, hlevel, hfull, _⟩ := hchecks
      refine ⟨?_, fun hr => ?_, admittedEntry_reserved (formatCheck_kind hk)⟩
      · simpa [inFlightFull] using hfull
      · have hr : reserving training k = true := hr
        rw [if_pos hr] at hlevel
        exact standInCheck_none hlevel

theorem load_of_level {s : State} (h : s.LevelAgrees) (hl : s.journalOut.level ≠ .closed) :
    committedLoad s < Config.journalOutPlaces := by
  by_contra hn
  refine hl (h.trans ?_)
  have hlimited : ¬ committedLoad s < Config.limitedFrom := fun k => hn (k.trans (by decide))
  rw [levelOf, if_neg hlimited, if_neg hn]

theorem admitEntry_admits {s : State} {x : InFlight} (h : AdmissionSpec s x) : Admits s (admitEntry x s) := by
  have hclaimed := (enterGrace_neutral _ x).after (claimHold_neutral s x)
  have hroom : (enterGrace x (claimHold x s)).inFlight.length < Config.inFlightPlaces := hclaimed.inFlight ▸ h.room
  have hentered : Admits (enterGrace x (claimHold x s)) (enterSet x (enterGrace x (claimHold x s))) :=
    ⟨enterSet_keeps hroom, fun l => enterSet_outFits
      (fun hr => load_of_level l (hclaimed.out ▸ h.level hr)) h.reserved⟩
  have hcounted := (countAdmitted_neutral _ x).after (takeLane_neutral (enterSet x (enterGrace x (claimHold x s))) x)
  exact ((hclaimed.admits_then hentered).then hcounted.runs).then
    (((demand_neutral _ _ _).runs).trans (sweepStep_runs _))

section
variable (e : Event)

theorem admissionEvent_admits (q : GiftRequest) (i : Nat) : Admits e.st (admissionEvent q i e).st := by
  unfold admissionEvent
  split
  · next h => exact admitEntry_admits (admission_admitted h)
  · exact (countAdmissionDecline_neutral _ _ _).runs.admits

theorem shopFrame_admits (f : Frame) : Admits e.st (shopFrame f e).st := by
  unfold shopFrame
  split
  · exact admissionEvent_admits _ _ _
  · exact Runs.admits (runs_same rfl)

theorem officeFrame_runs (f : Frame) : Runs e.st (officeFrame f e).st := by
  unfold officeFrame
  dsimp only
  split
  · exact (countArrival_neutral e.st).runs_then (dealWith_runs (e.upd countArrival) _)
  · exact runs_same rfl

theorem checkedFrame_admits (p : Port) (f : Frame) : Admits e.st (checkedFrame p f e).st := by
  cases p with
  | shop =>
    have hcounted : Neutral e.st { e.st with sCount := { e.st.sCount with received := e.st.sCount.received + 1 } } := neutral_same rfl
    exact hcounted.admits_then (shopFrame_admits { e with st := _ } f)
  | office => exact (officeFrame_runs e f).admits

theorem countCheckFailure_neutral (p : Port) (s : State) : Neutral s (countCheckFailure p s) := by
  cases p
  all_goals exact neutral_same rfl

theorem countRunt_neutral (p : Port) (s : State) : Neutral s (countRunt p s) := by
  cases p
  all_goals exact neutral_same rfl

theorem countOversize_neutral (p : Port) (s : State) : Neutral s (countOversize p s) := by
  cases p
  all_goals exact neutral_same rfl

theorem endFrame_admits (p : Port) (r : Receiver) : Admits e.st (endFrame p r e).st := by
  unfold endFrame
  split
  · exact (countCheckFailure_neutral _ _).runs.admits
  · split
    · exact (Runs.refl _).admits
    · split
      · exact (countRunt_neutral _ _).runs.admits
      · split
        · exact checkedFrame_admits _ _ _
        · exact (countCheckFailure_neutral _ _).runs.admits

theorem setReceiver_neutral (p : Port) {r : Receiver} (s : State) (h : r.frame.length < Config.oversizeAt) :
    Neutral s (setReceiver p r s) := by
  cases p
  · exact neutral_fits (fun k => { k with frames := ⟨h, k.frames.2⟩ }) rfl
  · exact neutral_fits (fun k => { k with frames := ⟨k.frames.1, h⟩ }) rfl

theorem delimiter_admits (p : Port) : Admits e.st (delimiter p e).st := by
  have hempty := setReceiver_neutral p (r := { state := .receiving }) e.st (Nat.zero_lt_succ _)
  unfold delimiter
  dsimp only
  split
  · exact hempty.admits_then (endFrame_admits (e.upd (setReceiver p { state := .receiving })) _ _)
  · exact hempty.runs.admits

end

/-! ### The event's end -/

/-- A change from `s` to `t` that keeps every invariant, the level with the others. -/
structure Stepped (s t : State) : Prop where
  tables : s.TablesCanonical → t.TablesCanonical
  shops : ShopsSound s → ShopsSound t
  fits : s.Fits → t.Fits
  totals : s.TotalsBalance → t.TotalsBalance
  agrees : s.LevelAgrees → t.LevelAgrees
  out : s.JournalOutFits → t.JournalOutFits

theorem Stepped.trans {s t u : State} (h : Stepped s t) (k : Stepped t u) : Stepped s u where
  tables := k.tables ∘ h.tables
  shops := k.shops ∘ h.shops
  fits := k.fits ∘ h.fits
  totals := k.totals ∘ h.totals
  agrees := k.agrees ∘ h.agrees
  out := k.out ∘ h.out

theorem Neutral.stepped {s t : State} (h : Neutral s t) : Stepped s t where
  tables := h.tables
  shops := h.shops
  fits := h.fits
  totals := h.totals
  agrees := h.levelAgrees
  out o :=
    have k := h.outFits ⟨o.agree, o.reserved, o.fits⟩
    ⟨k.agree, h.levelAgrees o.level, k.reserved, k.fits⟩

theorem Stepped.refl (s : State) : Stepped s s := (Neutral.refl s).stepped

theorem finish_load (before : State) (e : Event) : committedLoad (finish before e) = committedLoad e.st := by
  obtain ⟨_, _, _, _, _, _, _, h⟩ := finish_frame before e
  rw [h]
  rfl

/-- R184: the level is evaluated at the end of an event that changed the committed load. -/
theorem finish_levelAgrees {s : State} {e : Event} (h : e.st.journalOut.level = s.journalOut.level)
    (a : s.LevelAgrees) : (finish s e).LevelAgrees := by
  unfold State.LevelAgrees at *
  rw [finish_level, finish_load]
  split
  · next hload => rw [h, a, hload]
  · rfl

theorem finish_stepped {s : State} {e : Event} (h : Admits s e.st) : Stepped s (finish s e) := by
  have hlevel := finish_levelAgrees (e := e) h.level
  obtain ⟨_, _, _, _, _, _, _, hend⟩ := finish_frame s e
  refine ⟨fun k => ?_, fun k => ?_, fun k => ?_, fun k => ?_, hlevel, fun o => ?_⟩
  · rw [hend]; exact { h.tables k with }
  · rw [hend]; exact h.shops k
  · rw [hend]; exact { h.fits k with }
  · rw [hend]; exact h.totals k
  · have k := h.out o.level ⟨o.agree, o.reserved, o.fits⟩
    refine ⟨?_, hlevel o.level, ?_, ?_⟩
    · rw [hend]; exact ⟨k.agree.count, k.agree.distinct, k.agree.below⟩
    · rw [hend]; exact k.reserved
    · rw [finish_load]; exact k.fits

theorem event_stepped (s : State) {f : Event → Event} (h : ∀ e, Runs e.st (f e).st) : Stepped s (event f s) :=
  finish_stepped (h { st := s }).admits

theorem command_stepped (code : BitVec 8) (tag : BitVec 16) (s : State) {body : Event → Event}
    (h : ∀ e, Runs e.st (body e).st) : Stepped s (command code tag body s) :=
  event_stepped s fun e => (countArrival_neutral e.st).runs_then (unitGate_runs tag (e.upd countArrival) code false (h _))

/-! ### The receivers -/

theorem addOctet_length {b : Octet} {r r1 : Receiver} (h : addOctet b r = some r1) :
    r1.frame.length < Config.oversizeAt := by
  unfold addOctet at h
  dsimp only at h
  split at h
  · next hl => cases h; exact hl
  · cases h

theorem takeData_length {b : Octet} {r r1 : Receiver} (h : takeData b r = some r1)
    (hr : r.frame.length < Config.oversizeAt) : r1.frame.length < Config.oversizeAt := by
  unfold takeData at h
  split at h
  · exact addOctet_length h
  · split at h
    · cases h; exact hr
    · exact addOctet_length h

theorem receiver_fits {s : State} (h : s.FramesFit) (p : Port) : (receiver p s).frame.length < Config.oversizeAt := by
  cases p
  · exact h.1
  · exact h.2

/-- A receiver replaced by one whose frame fits when the frames fit. -/
theorem setReceiver_fitting (p : Port) {r : Receiver} (s : State)
    (h : s.FramesFit → r.frame.length < Config.oversizeAt) : Neutral s (setReceiver p r s) := by
  cases p
  · exact neutral_fits (fun k => { k with frames := ⟨h k.frames, k.frames.2⟩ }) rfl
  · exact neutral_fits (fun k => { k with frames := ⟨k.frames.1, h k.frames⟩ }) rfl

theorem discard_neutral (p : Port) (s : State) : Neutral s (countOversize p (setReceiver p { state := .discarding } s)) :=
  (setReceiver_neutral p (r := { state := .discarding }) s (Nat.zero_lt_succ _)).trans (countOversize_neutral _ _)

theorem takeOctet_neutral (p : Port) (b : Octet) (s : State) : Neutral s (takeOctet p b s) := by
  unfold takeOctet
  dsimp only
  split
  · split
    · next h => exact setReceiver_fitting p s fun k => takeData_length h (receiver_fits k p)
    · exact discard_neutral p s
  · exact .refl s

theorem delimiter_stepped (p : Port) (s : State) : Stepped s (event (delimiter p) s) :=
  finish_stepped (delimiter_admits { st := s } p)

theorem receive_stepped (p : Port) : ∀ (octets : List Octet) (s : State), Stepped s (receive p octets s)
  | [], s => delimiter_stepped p s
  | b :: t, s => by
    unfold receive
    split
    · exact (delimiter_stepped p s).trans (receive_stepped p t _)
    · exact (takeOctet_neutral p b s).stepped.trans (receive_stepped p t _)

theorem sendHead_neutral (p : Port) (s : State) : Neutral s (sendHead p s) := by
  cases p
  all_goals
    unfold sendHead
    dsimp only
    split
  all_goals exact neutral_same rfl

/-! ### Power-on reset -/

/-- R133: the power-on values meet every invariant. -/
theorem powerOn_sound (straps : BitVec 4) (s : State) :
    (powerOn straps s).TablesCanonical ∧ ShopsSound (powerOn straps s) ∧ (powerOn straps s).Fits
      ∧ (powerOn straps s).TotalsBalance ∧ (powerOn straps s).JournalOutFits := by
  refine ⟨?_, ?_, ?_, ?_, ?_⟩
  · constructor
    all_goals rfl
  · exact ⟨rfl, fun n _ => ⟨rfl, rfl, rfl, rfl, rfl⟩⟩
  · exact ⟨Nat.zero_le _, fun _ => Nat.zero_le _, Nat.zero_le _, Nat.zero_le _, Nat.zero_lt_succ _, Nat.zero_lt_succ _⟩
  · exact ⟨rfl, fun r hr => absurd hr List.not_mem_nil⟩
  · exact ⟨⟨rfl, List.nodup_nil, fun x hx => absurd hx List.not_mem_nil⟩, rfl, fun x hx => absurd hx List.not_mem_nil,
      Nat.zero_le _⟩

theorem powerOn_stepped (straps : BitVec 4) (s : State) : Stepped s (powerOn straps s) := by
  obtain ⟨htables, hshops, hfits, htotals, hout⟩ := powerOn_sound straps s
  exact ⟨fun _ => htables, fun _ => hshops, fun _ => hfits, fun _ => htotals, fun _ => hout.level, fun _ => hout⟩

/-! ### The postings' events -/

theorem headEntry_mem {s : State} {i : Nat} {k : Kind} {x : InFlight} (h : headEntry s i k = some x) :
    x ∈ s.inFlight ∧ x.kind = k := by
  refine ⟨?_, (headEntry_spec h).2⟩
  unfold headEntry at h
  dsimp only at h
  split at h
  · split at h
    · split at h
      · next hx =>
        split at h
        · cases h; exact List.mem_of_find?_eq_some hx
        · cases h
      · cases h
    · cases h
  · cases h

theorem posting_stepped {k : Kind} {post : Nat → InFlight → Event → Event} (line : BitVec 5) (s : State)
    (h : ∀ (x : InFlight) (e : Event), x ∈ e.st.inFlight → x.kind = k → Runs e.st (post line.toNat x e).st) :
    Stepped s (posting k post line s) := by
  unfold posting
  split
  · next x hx => exact finish_stepped (h x { st := s } (headEntry_mem hx).1 (headEntry_mem hx).2).admits
  · exact .refl s

theorem cardPosting_stepped {k : Kind} {post : Nat → InFlight → Event → Event} (line : BitVec 5) (s : State)
    (h : ∀ (x : InFlight) (e : Event), x ∈ e.st.inFlight → x.kind = k → Runs e.st (post line.toNat x e).st) :
    Stepped s (cardPosting k post line s) := by
  unfold cardPosting
  split
  · next x hx => exact finish_stepped (h x { st := s } (headEntry_mem hx).1 (headEntry_mem hx).2).admits
  · exact .refl s

theorem claimPosting_stepped {k : Kind} {decided : CardRecord → InFlight → HoldEntry → Decision}
    {live : Nat → InFlight → HoldEntry → Event → Event} {line : BitVec 5} {s t : State}
    (hlive : ∀ (x : InFlight) (g : HoldEntry), x ∈ s.inFlight → x.kind = k → x.training = false →
      Runs s (live line.toNat x g { st := s }).st)
    (h : claimPosting k decided live line s = .next t) : Stepped s t := by
  unfold claimPosting at h
  dsimp only at h
  split at h
  · cases h; exact .refl s
  · next x hx =>
    obtain ⟨hmem, hk⟩ := headEntry_mem hx
    split at h
    · cases h; exact finish_stepped (train_runs (e := { st := s }) _ hmem _ _).admits
    · next htraining =>
      split at h
      · cases h; exact finish_stepped (hlive _ _ hmem hk (by simpa using htraining)).admits
      · cases h

theorem holdExpired_stepped {line : BitVec 5} {s t : State} (h : execHoldExpiredPosting line s = .next t) :
    Stepped s t := by
  unfold execHoldExpiredPosting at h
  split at h
  · cases h; exact .refl s
  · next x hx =>
    obtain ⟨hmem, hk⟩ := headEntry_mem hx
    split at h
    · cases h; exact finish_stepped (expireHold_runs (e := { st := s }) _ hmem hk _).admits
    · cases h

/-! ### The step -/

/-- R1: a frame that reaches 601 octets. -/
theorem reaches601_stepped (p : Port) (s : State) :
    Stepped s (match (receiver p s).state with
      | .receiving => countOversize p (setReceiver p { state := .discarding } s)
      | _ => s) := by
  split
  · exact (discard_neutral p s).stepped
  · exact .refl s

theorem next_stepped {s t u : State} (h : (Host.Outcome.next u : Host.Outcome State Fault Refusal) = .next t)
    (k : Stepped s u) : Stepped s t := by
  injection h with h
  exact h ▸ k

theorem completePosting_stepped {line : BitVec 5} {s t : State} (h : execCompletePosting line s = .next t) :
    Stepped s t := by
  unfold execCompletePosting at h
  exact claimPosting_stepped (fun x g hx hk ht => completeHold_runs (e := { st := s }) _ hx hk ht g) h

theorem releasePosting_stepped {line : BitVec 5} {s t : State} (h : execReleasePosting line s = .next t) :
    Stepped s t := by
  unfold execReleasePosting at h
  exact claimPosting_stepped (fun x g hx hk ht => releaseHold_runs (e := { st := s }) _ hx hk ht g) h

theorem cardLoadLast_stepped (tag : BitVec 16) (block : BitVec 24) (images : FourImages) (s : State) :
    Stepped s (event (fun e =>
      unitGate 0x12 tag (pendingBlock s block.toNat) (doCardLoadLast tag images) (e.upd countArrival)) s) :=
  event_stepped s fun e => (countArrival_neutral e.st).runs_then
    (unitGate_runs tag (e.upd countArrival) 0x12 _ (doCardLoadLast_runs _ _ _))

/-- Every event of the part itself keeps every invariant. -/
theorem exec_event_stepped {i : Instr} (hi : payload i = none) {s t : State} (h : exec i s = .next t) : Stepped s t := by
  cases i with
  | completePosting line => exact completePosting_stepped h
  | releasePosting line => exact releasePosting_stepped h
  | holdExpiredPosting line => exact holdExpired_stepped h
  | powerOnReset straps => exact next_stepped h ((powerOn_stepped straps s).trans (event_stepped _ fun e => Runs.refl _))
  | frameReceived port octets => exact next_stepped h (receive_stepped port octets s)
  | fetchComplete bank => exact next_stepped h (event_stepped s fun e => (fetchComplete_neutral _ _).runs)
  | writeBackStart line => exact next_stepped h (event_stepped s fun e => (writeBackStart_neutral _ _).runs)
  | writeBackComplete bank => exact next_stepped h (event_stepped s fun e => (writeBackComplete_neutral _ _).runs)
  | waitListServe => exact next_stepped h (event_stepped s fun e => ((flushStep_neutral _).after (serve_neutral e)).runs)
  | activatePosting line => exact next_stepped h (posting_stepped line s fun _ _ hx hk => postActivate_runs _ hx hk)
  | reloadPosting line => exact next_stepped h (posting_stepped line s fun _ _ hx hk => postReload_runs _ hx hk)
  | redeemPosting line => exact next_stepped h (posting_stepped line s fun _ _ hx hk => postRedeem_runs _ hx hk)
  | balancePosting line => exact next_stepped h (posting_stepped line s fun _ _ hx _ => postBalance_runs _ hx)
  | holdPosting line => exact next_stepped h (posting_stepped line s fun _ _ hx hk => postHold_runs _ hx hk)
  | refundPosting line => exact next_stepped h (posting_stepped line s fun _ _ hx hk => postRefund_runs _ hx hk)
  | voidPosting line => exact next_stepped h (posting_stepped line s fun _ _ hx hk => postVoid_runs _ hx hk)
  | cardReadPosting line => exact next_stepped h (cardPosting_stepped line s fun _ _ hx _ => postCardRead_runs _ hx)
  | cardAdjustPosting line => exact next_stepped h (cardPosting_stepped line s fun _ _ hx hk => postCardAdjust_runs _ hx hk)
  | cardLoadReplacementPosting line =>
    exact next_stepped h (cardPosting_stepped line s fun _ _ hx _ => postReplacement_runs _ hx)
  | auditVisit line => exact next_stepped h (event_stepped s fun e => (auditVisit_neutral _ _).runs)
  | clockTick => exact next_stepped h (event_stepped s advance_runs)
  | windowEnd => exact next_stepped h (event_stepped s fun e => (windowStep_neutral _).runs)
  | graceEnd => exact next_stepped h (event_stepped s fun e => (graceStep_neutral _).runs)
  | sweepSelection => exact next_stepped h (event_stepped s fun e => sweepStep_runs _)
  | closingSetFrozen => exact next_stepped h (event_stepped s fun e => (freezeStep_neutral _).runs)
  | payoutTakeUp => exact next_stepped h (event_stepped s fun e => (takeUp_neutral _).runs)
  | payoutStep => exact next_stepped h (event_stepped s fun e => (engineStep_neutral _).runs)
  | cycleTotalAppend => exact next_stepped h (event_stepped s fun e => (totalStep_neutral _).runs)
  | closingSetClear => exact next_stepped h (event_stepped s fun e => (clearStep_neutral _).runs)
  | frameStartDelimiter port => exact next_stepped h (delimiter_stepped port s)
  | frameReaches601 port => exact next_stepped h (reaches601_stepped port s)
  | transmitterFrameSent port => exact next_stepped h ((sendHead_neutral port s).stepped)
  | _ => cases hi

/-- Every management command keeps every invariant. -/
theorem exec_command_stepped {i : Instr} {p : Payload} (hi : payload i = some p) {s t : State} (h : exec i s = .next t) :
    Stepped s t := by
  cases i with
  | cardLoadLast tag block images => exact next_stepped h (cardLoadLast_stepped tag block images s)
  | statusRead tag => exact next_stepped h (command_stepped _ _ _ fun _ => .refl _)
  | setNoticeMask tag masks => exact next_stepped h (command_stepped _ _ _ fun _ => doSetNoticeMask_runs _ _ _)
  | noticeAck tag cats => exact next_stepped h (command_stepped _ _ _ fun _ => doNoticeAck_runs _ _ _)
  | setClock tag clock => exact next_stepped h (command_stepped _ _ _ fun _ => doSetClock_runs _ _ _)
  | setConfig tag trip t1 t2 grace => exact next_stepped h (command_stepped _ _ _ fun _ => doSetConfig_runs _ _ _ _ _ _)
  | journalRead tag => exact next_stepped h (command_stepped _ _ _ fun _ => .refl _)
  | journalTake tag count => exact next_stepped h (command_stepped _ _ _ fun _ => doJournalTake_runs _ _ _)
  | linkReset tag => exact next_stepped h (command_stepped _ _ _ fun _ => doLinkReset_runs _ _)
  | beginLoad tag => exact next_stepped h (command_stepped _ _ _ fun _ => doBeginLoad_runs _ _)
  | cardLoadFirst tag block images => exact next_stepped h (command_stepped _ _ _ fun _ => doCardLoadFirst_runs _ _ _ _)
  | storeReady tag => exact next_stepped h (command_stepped _ _ _ fun _ => doStoreReady_runs _ _)
  | flush tag => exact next_stepped h (command_stepped _ _ _ fun _ => doFlush_runs _ _)
  | audit tag => exact next_stepped h (command_stepped _ _ _ fun _ => doAudit_runs _ _)
  | cardRead tag slot => exact next_stepped h (command_stepped _ _ _ fun _ => doCardRead_runs _ _ _)
  | cardAdjust tag slot fields => exact next_stepped h (command_stepped _ _ _ fun _ => doCardAdjust_runs _ _ _ _)
  | loadProgram tag index fields => exact next_stepped h (command_stepped _ _ _ fun _ => doLoadProgram_runs _ _ _ _)
  | loadFeeClass tag index fields => exact next_stepped h (command_stepped _ _ _ fun _ => doLoadFeeClass_runs _ _ _ _)
  | loadShopTerms tag shop fields => exact next_stepped h (command_stepped _ _ _ fun _ => doLoadShopTerms_runs _ _ _ _)
  | discardShadow tag => exact next_stepped h (command_stepped _ _ _ fun _ => doDiscardShadow_runs _ _)
  | commitTables tag => exact next_stepped h (command_stepped _ _ _ fun _ => doCommitTables_runs _ _)
  | tableRead tag bank table index => exact next_stepped h (command_stepped _ _ _ fun _ => doTableRead_runs _ _ _ _ _)
  | holdRead tag ref => exact next_stepped h (command_stepped _ _ _ fun _ => .refl _)
  | entryRead tag ref => exact next_stepped h (command_stepped _ _ _ fun _ => .refl _)
  | cutover tag => exact next_stepped h (command_stepped _ _ _ fun _ => doCutover_runs _ _)
  | freeze tag => exact next_stepped h (command_stepped _ _ _ fun _ => doFreeze_runs _ _)
  | rowRead tag set row => exact next_stepped h (command_stepped _ _ _ fun _ => doRowRead_runs _ _ _ _)
  | carryRead tag shop => exact next_stepped h (command_stepped _ _ _ fun _ => doCarryRead_runs _ _ _)
  | carrySet tag shop carry => exact next_stepped h (command_stepped _ _ _ fun _ => doCarrySet_runs _ _ _ _)
  | payoutRead tag => exact next_stepped h (command_stepped _ _ _ fun _ => .refl _)
  | payoutTake tag count => exact next_stepped h (command_stepped _ _ _ fun _ => doPayoutTake_runs _ _ _)
  | setShopMode tag shop mode => exact next_stepped h (command_stepped _ _ _ fun _ => doSetShopMode_runs _ _ _ _)
  | suspend tag shop => exact next_stepped h (command_stepped _ _ _ fun _ => doSuspend_runs _ _ _)
  | resume tag shop => exact next_stepped h (command_stepped _ _ _ fun _ => doResume_runs _ _ _)
  | counterRead tag selector flags => exact next_stepped h (command_stepped _ _ _ fun _ => doCounterRead_runs _ _ _ _)
  | counterClear tag selector => exact next_stepped h (command_stepped _ _ _ fun _ => doCounterClear_runs _ _ _)
  | shopScan tag shop => exact next_stepped h (command_stepped _ _ _ fun _ => doShopScan_runs _ _ _)
  | _ => cases hi

/-- Every command keeps every invariant. -/
theorem exec_stepped {i : Instr} {s t : State} (h : exec i s = .next t) : Stepped s t := by
  cases hi : payload i with
  | none => exact exec_event_stepped hi h
  | some p => exact exec_command_stepped hi h

theorem step_stepped {s t : State} (h : step s = .next t) : Stepped s t := by
  unfold step at h
  split at h
  · cases h; exact .refl s
  · next rest _ =>
    have hrest : Neutral s { s with pending := rest } := neutral_same rfl
    exact hrest.stepped.trans (exec_stepped h)

/-- Settles O55: each operation leaves the level, which the event's end evaluates when the committed load has changed. -/
theorem levelAgreesIsKept : Obligations.LevelAgreesIsKept := by
  unfold Obligations.LevelAgreesIsKept
  exact fun s t h k => (step_stepped k).agrees h

/-- Settles O56: every table is written through `put` and `remap`, which keep the canonical form. -/
theorem tablesStayCanonical : Obligations.TablesStayCanonical := by
  unfold Obligations.TablesStayCanonical
  exact fun s t h k => (step_stepped k).tables h

/-- Settles O57: the shops at rest are kept with their table's canonical form. -/
theorem closedShopsStayAtRest : Obligations.ClosedShopsStayAtRest := by
  unfold Obligations.ClosedShopsStayAtRest
  exact fun s t hc h k => ((step_stepped k).shops ⟨hc, h⟩).2

/-- Settles O58: each operation that adds to a place finds room in it first. -/
theorem capacitiesAreKept : Obligations.CapacitiesAreKept := by
  unfold Obligations.CapacitiesAreKept
  exact fun s t h k => (step_stepped k).fits h

/-- Settles O59: an entry comes in with its reservation below a closed level, and a posting gives up its reservation for
its copy. -/
theorem journalOutNeverOverflows : Obligations.JournalOutNeverOverflows := by
  unfold Obligations.JournalOutNeverOverflows
  exact fun s t h k => (step_stepped k).out h

/-- Settles O60: a shop's record moves both sides of the identity by its net. -/
theorem payoutTotalsBalance : Obligations.PayoutTotalsBalance := by
  unfold Obligations.PayoutTotalsBalance
  exact fun s t h k => (step_stepped k).totals h

/-- Settles O22: the state after reset differs from power-on in its notices alone. -/
theorem resetMeetsTheInvariants : Obligations.ResetMeetsTheInvariants := by
  unfold Obligations.ResetMeetsTheInvariants
  obtain ⟨htables, hshops, hfits, htotals, hout⟩ := powerOn_sound 0 {}
  exact ⟨{ htables with }, rfl, hshops.2, { hfits with }, { hout with agree := { hout.agree with } }, htotals⟩

end Sys2Proof.Proofs.Invariants
end

section
/-! PROOFS. The live postings that approve and write a journal entry (4.3 to 4.5, 5.2, 5.4, 5.5, 6.2). -/

namespace Sys2Proof.Proofs.Postings

open Sys2Proof Sys2Proof.Machine

/-! ### From a posting's row to its approval -/

section
variable {s : State} {i : Nat} {x : InFlight} {p : Party} {card : BitVec 64} {k : Kind}

theorem posting_of_head {post : Nat → InFlight → Event → Event} {line : BitVec 5}
    (h : headEntry s line.toNat k = some x) :
    posting k post line s = finish s (post line.toNat x { st := s }) := by
  unfold posting
  rw [h]
  rfl

/-- The row of a posting runs it on the head waiter. -/
theorem exec_posting {c : Instr} {post : Nat → InFlight → Event → Event} {line : BitVec 5} {e : Event}
    (hexec : exec c s = .next (posting k post line s)) (hx : headEntry s line.toNat k = some x)
    (he : post line.toNat x { st := s } = e) : exec c s = .next (finish s e) := by
  rw [hexec, posting_of_head hx, he]

theorem partyOf_request (ho : x.origin = .request p card) : partyOf x = p := by
  unfold partyOf
  rw [ho]

section
variable {r : CardRecord} {a : Nat} {live : Ruling → Nat → Event → Event} {e : Event}

/-- R60, R66: a live posting that its kind's own checks approve, of a card that is not found expired. -/
theorem postDecided_approved (ht : x.training = false) (hr : foundExpired e.st r = false) :
    postDecided i x r (.approved a) live e = live .approved a e := by
  unfold postDecided afterExpiry
  simp only [ht, hr, Bool.false_eq_true, if_false]

theorem postDecided_inPart (ht : x.training = false) (hr : foundExpired e.st r = false) :
    postDecided i x r (.inPart a) live e = live .inPart a e := by
  unfold postDecided afterExpiry
  simp only [ht, hr, Bool.false_eq_true, if_false]

end

theorem not_foundExpired_of_state {r : CardRecord} (h : r.state ≠ .active) : foundExpired s r = false := by
  simp [foundExpired, h]

/-- R61: an event that is an approval, with the books as `books` leaves them. -/
theorem approved_event {c : Instr} {line : BitVec 5} {new : CardRecord}
    {ruling : Ruling} {amount : Nat} {related : Option Ref} {books : State → State} {entry : Entry} {cycle : Cycle}
    (hhead : LiveHead s line k x p card)
    (hexec : exec c s = .next (finish s
      (approve line.toNat x (recordFor s line.toNat x) new ruling amount related s.cycle.number books { st := s })))
    (hbooks : OnlyBooks s (books s)) (hnext : (books s).journal.next = s.journal.next)
    (hseq : new.sequence = (recordFor s line.toNat x).sequence + 1)
    (hentry : entry = entryFor s x (some p) amount new.sequence related
      (if k = .redeem ∨ k = .complete then some 0 else none) s.cycle.number)
    (hcycle : (books s).cycle = cycle) (hclosing : cycle.closing = s.cycle.closing) :
    ∃ t, exec c s = .next t
      ∧ ApprovedAs s t line.toNat x p card (recordFor s line.toNat x) new ruling entry (books s).holds
      ∧ JournalWritten (holdRefs (books s).holds.entries) entry (books s).journal.ring t.journal
      ∧ t.cycle = cycle := by
  obtain ⟨hx, ht, ho⟩ := hhead
  obtain ⟨-, hk⟩ := headEntry_spec hx
  obtain ⟨happroved, hjournal, htcycle, hposted, -⟩ :=
    approved_as s line.toNat x p card _ new ruling amount related s.cycle.number books { st := s } id k followUp_id hx ht
      ho ⟨s.cycle, rfl, rfl⟩ rfl rfl rfl hbooks (hcycle ▸ hclosing) hnext rfl hseq entry (by rw [hentry, hk])
  exact ⟨_, hexec, happroved, hjournal, (htcycle.trans hposted).trans hcycle⟩

end

theorem closing_modifySet (c : Cycle) (i : SetId) (f : AccSet → AccSet) : (c.modifySet i f).closing = c.closing := by
  cases i <;> rfl

theorem closing_currentRow (n : Nat) (f : Row → Row) (c : Cycle) : (currentRow n f c).closing = c.closing :=
  closing_modifySet _ _ _

theorem cycle_postAmount {k : Account} {a : Nat} {f : Row → Row} (hf : ∀ r, addToRow k a r = f r) (n : Nat) (s : State) :
    (postAmount k n a s).cycle = currentRow n f s.cycle := by
  unfold postAmount currentRow
  rw [funext hf]

/-- Settles O1: the checks of either table pass one by one, and the approval posts the amount as sold. -/
theorem salesApproved : Obligations.SalesApproved := by
  unfold Obligations.SalesApproved
  refine ⟨?_, ?_⟩
  · intro s line x p card i old program a day new entry hhead hstate hmin hmax hlimit hbalance
    have hdecided : decideActivate program (termsFor s x) old a = .approved a := by
      simp [decideActivate, hstate, hlimit, hmin.not_gt, hmax.not_gt, hbalance.not_gt]
    have hfresh : foundExpired s old = false := not_foundExpired_of_state (by rw [hstate]; exact CardState.noConfusion)
    refine approved_event (books := postAmount .sold p.shop a) hhead (exec_posting (post := postActivate) rfl hhead.1 ?_)
      (postAmount_books _ _ _ _) rfl rfl rfl (cycle_postAmount (addToRow_sold a) _ _) (closing_currentRow _ _ _)
    unfold postActivate
    dsimp only
    rw [hdecided, postDecided_approved hhead.2.1 hfresh, partyOf_request hhead.2.2]
    rfl
  · intro s line x p card i old program a day new entry hhead hfresh hreload hstate hmin hmax hlimit hbalance
    have hdecided : decideReload program (termsFor s x) old a = .approved a := by
      simp [decideReload, stateDecline, hreload, hstate, hlimit, hmin.not_gt, hmax.not_gt, hbalance.not_gt]
    refine approved_event (books := postAmount .sold p.shop a) hhead (exec_posting (post := postReload) rfl hhead.1 ?_)
      (postAmount_books _ _ _ _) rfl rfl rfl (cycle_postAmount (addToRow_sold a) _ _) (closing_currentRow _ _ _)
    unfold postReload
    dsimp only
    rw [hdecided, postDecided_approved hhead.2.1 (not_foundExpired hfresh), partyOf_request hhead.2.2]
    rfl

/-- Settles O2: both approvals post what is paid as redeemed. -/
theorem redeemApproved : Obligations.RedeemApproved := by
  unfold Obligations.RedeemApproved
  intro s line x p card i old a value paid new entry hhead hfresh hstate hlimit hpays
  refine approved_event (books := postAmount .redeemed p.shop paid) hhead (exec_posting (post := postRedeem) rfl hhead.1 ?_)
    (postAmount_books _ _ _ _) rfl rfl rfl (cycle_postAmount (addToRow_redeemed paid) _ _) (closing_currentRow _ _ _)
  unfold postRedeem
  dsimp only
  rw [partyOf_request hhead.2.2]
  by_cases h : a ≤ value
  · have hdecided : decideRedeem (programFor s x) (termsFor s x) x.partialFlag old a = .approved a := by
      simp only [decideRedeem, hstate, stateDecline, hlimit, Bool.false_eq_true, if_false]
      exact if_pos h
    have hpaid : paid = a := if_pos h
    rw [hdecided, postDecided_approved hhead.2.1 (not_foundExpired hfresh), if_pos h, hpaid]
    simp only [new, hpaid]
    rfl
  · obtain ⟨hflag, hallowed, hvalue⟩ := hpays.resolve_left h
    have hdecided : decideRedeem (programFor s x) (termsFor s x) x.partialFlag old a = .inPart value := by
      simp only [decideRedeem, hstate, stateDecline, hlimit, Bool.false_eq_true, if_false, hflag, hallowed]
      exact (if_neg h).trans (if_pos (decide_eq_true hvalue))
    have hpaid : paid = value := if_neg h
    rw [hdecided, postDecided_inPart hhead.2.1 (not_foundExpired hfresh), if_neg h, hpaid]
    simp only [new, hpaid]
    rfl

/-- Settles O3: the hold is created in its place, and no accumulator changes. -/
theorem holdApproved : Obligations.HoldApproved := by
  unfold Obligations.HoldApproved
  intro s line x p card i old program a new entry hold holds hhead hfresh hstate hlimit hvalue hcount hplaces
  have hdecided : decideHold (termsFor s x) s.holds.entries.length old a = .approved a := by
    have hroom : old.holdCount < Config.holdsPerCard ∧ s.holds.entries.length < Config.holdPlaces := ⟨hcount, hplaces⟩
    have hcovers : ¬ available old < a := hvalue.not_gt
    simp only [decideHold, hstate, stateDecline, hlimit, hroom, hcovers, Bool.false_eq_true, if_false, and_self, if_true]
  refine approved_event (books := addHold hold) hhead (exec_posting (post := postHold) rfl hhead.1 ?_) ⟨_, _, _, rfl⟩
    rfl rfl rfl rfl rfl
  unfold postHold
  dsimp only
  rw [hdecided, postDecided_approved hhead.2.1 (not_foundExpired hfresh)]
  simp only [newHold, partyOf_request hhead.2.2]
  rfl

/-! ### Claimed holds (5.4) -/

/-- R88, R91: a live COMPLETE or RELEASE works on the hold it has claimed. -/
theorem exec_claimPosting {k : Kind} {s : State} {x : InFlight} {p : Party} {card : BitVec 64} {c : Instr} {line : BitVec 5}
    {decided : CardRecord → InFlight → HoldEntry → Decision} {live : Nat → InFlight → HoldEntry → Event → Event}
    {h : HoldEntry} {e : Event} (hexec : exec c s = claimPosting k decided live line s)
    (hhead : LiveHead s line k x p card) (hh : holdNamed s x = some h) (he : live line.toNat x h { st := s } = e) :
    exec c s = .next (finish s e) := by
  obtain ⟨hx, ht, -⟩ := hhead
  subst he
  simp only [hexec, claimPosting, hx, ht, hh, Bool.false_eq_true, if_false]
  rfl

/-- Log 9: without its hold, a live COMPLETE or RELEASE stops the model. -/
theorem claimPosting_missing {k : Kind} {s : State} {x : InFlight} {line : BitVec 5}
    {decided : CardRecord → InFlight → HoldEntry → Decision} {live : Nat → InFlight → HoldEntry → Event → Event}
    (hh : holdNamed s x = none) (ht : x.training = false) (hx : headEntry s line.toNat k = some x) :
    claimPosting k decided live line s = .fault .claimedHoldMissing := by
  simp only [claimPosting, hx, ht, hh, Bool.false_eq_true, if_false]

theorem min_eq_paid (a value : Nat) : min a value = if a ≤ value then a else value := by
  split
  · next h => exact Nat.min_eq_left h
  · next h => exact Nat.min_eq_right (Nat.le_of_not_le h)

theorem ruling_of_paid (a value : Nat) :
    (if min a value = a then Ruling.approved else .inPart) = if a ≤ value then .approved else .inPart := by
  simp only [min_eq_left_iff]

/-- Settles O4: the claimed hold leaves the table before the sum paid is posted; without it the model stops. -/
theorem claimedHoldsPost : Obligations.ClaimedHoldsPost := by
  unfold Obligations.ClaimedHoldsPost
  refine ⟨?_, ?_, ?_⟩
  · intro s line x p card h i old value paid new entry holds hhead hh
    refine approved_event (books := fun t => postAmount .redeemed p.shop paid (removeHold h.ref t)) hhead
      (exec_claimPosting (decided := fun r x h => decideComplete x.amount h r) (live := completeHold) rfl hhead hh ?_)
      ⟨_, _, _, rfl⟩ rfl rfl rfl
      (cycle_postAmount (addToRow_redeemed paid) p.shop (removeHold h.ref s)) (closing_currentRow _ _ _)
    have hpaid : min x.amount (afterRelease h old) = paid := min_eq_paid _ _
    have hruling := ruling_of_paid x.amount (afterRelease h old)
    unfold completeHold
    dsimp only
    rw [hruling, hpaid, partyOf_request hhead.2.2]
    rfl
  · intro s line x p card h i old new entry holds hhead hh
    exact approved_event (books := removeHold h.ref) hhead
      (exec_claimPosting (decided := fun _ _ h => .approved h.amount) (live := releaseHold) rfl hhead hh rfl)
      ⟨_, _, _, rfl⟩ rfl rfl rfl rfl rfl
  · exact fun s line x hh ht =>
      ⟨claimPosting_missing (decided := fun r x h => decideComplete x.amount h r) (live := completeHold) hh ht,
        claimPosting_missing (decided := fun _ _ h => .approved h.amount) (live := releaseHold) hh ht⟩

/-! ### Postings that assign no lane: the expiry of a hold and the card commands -/

/-- `m` is `s` with what a posting books before its line is posted: the journal, the accumulators, the hold table, the
float, the audit sums and the copies. -/
def Booked (s m : State) : Prop :=
  ∃ j c h f a l, m = { s with
    journal := j, cycle := c, holds := h, store := { s.store with float := f, audit := a }
    journalOut := { s.journalOut with copies := l } } ∧ c.closing = s.cycle.closing

theorem Booked.line {s m : State} (h : Booked s m) (i : Nat) : m.line i = s.line i := by
  obtain ⟨_, _, _, _, _, _, rfl, -⟩ := h
  rfl

theorem Booked.recordFor {s m : State} (h : Booked s m) (i : Nat) (x : InFlight) : recordFor m i x = recordFor s i x := by
  unfold Machine.recordFor
  rw [h.line]

/-- The answer and the notice of an event read these parts alone of the state before it. -/
theorem repliedAs_base {s m t : State} {r : Reply} {more : Categories} (h : RepliedAs m t r more) (hoTx : m.oTx = s.oTx)
    (hoCount : m.oCount = s.oCount) (hnotices : m.notices = s.notices) (hlevel : m.journalOut.level = s.journalOut.level)
    (hshadow : m.tables.shadow = s.tables.shadow) (hclosing : m.cycle.closing = s.cycle.closing) :
    RepliedAs s t r more := by
  have hr : raisedIn m t more = raisedIn s t more := by
    unfold raisedIn
    rw [hlevel, hshadow, hclosing]
  obtain ⟨halone, hnoticed, hlatch, hmasks⟩ := h
  unfold NoticeDue at halone hnoticed
  rw [hr, hoTx, hoCount, hnotices] at halone hnoticed
  rw [hr, hnotices] at hlatch
  rw [hnotices] at hmasks
  exact ⟨halone, hnoticed, hlatch, hmasks⟩

/-- What the posting of an entry leaves whose line is posted on `m`: `un` is the management unit, `reply` what a command is
answered. -/
structure LeftBooked (s m t : State) (i : Nat) (x : InFlight) (records : Block) (marks : BitVec 8) (un : MgmtUnit)
    (reply : Option Reply) : Prop where
  departed : Departed s t i x m.holds
  journal : t.journal = m.journal
  copies : t.journalOut.copies = m.journalOut.copies
  shops : t.supervision = s.supervision ∧ t.lanes = s.lanes ∧ t.sTx = s.sTx ∧ t.sCount = s.sCount
  cycle : t.cycle = m.cycle
  audit : t.store.audit = { m.store.audit with waiting := t.store.audit.waiting }
  line : (s.line i).waiters.tail ≠ [] ∨ LineHeld s i ∨ marks ≠ 0 →
    LineKept (postedLine (s.line i) records marks) t i ∧ RankedLast s t i
  quiet : NoDirectLoad s ∨ LineHeld s i ∨ marks ≠ 0 →
    t.store.float = m.store.float ∧ t.unit = un ∧ (reply = none → NoticedAs s t 0)
      ∧ ∀ r, reply = some r → FieldsSettled r → RepliedAs s t r 0

theorem left_booked {s m : State} (hm : Booked s m) {i : Nat} {x : InFlight} {records : Block} {marks : BitVec 8}
    {un : MgmtUnit} {e : Event} (he : e.st = { postLine i records marks m with unit := un })
    (hready : (s.line i).state.ready = true) (hraised : e.raised = 0) (hdemanded : e.demanded = 0) (hgift : e.gift = none)
    {t : State} (ht : t = finish s (departed i x e)) : LeftBooked s m t i x records marks un e.reply := by
  subst ht
  have hline := hm.line
  obtain ⟨j, c, h, f, a, l, rfl, hclosing⟩ := hm
  obtain ⟨d, hj, hc, hsup, hlanes, hcycle, hcycle', -, haudit, hkept, hsTx, hsCount, hquiet⟩ :=
    departed_leaves s _ i x records marks s.lanes un e id followUp_id (he.trans rfl) (by rw [hline]; exact hready)
      hraised hdemanded rfl
  dsimp only [id] at d hj hc hsup hlanes hcycle haudit hkept hsTx hsCount hquiet
  unfold LineHeld at hkept hquiet
  rw [hline] at hkept hquiet
  rw [hgift] at hsTx hsCount
  refine ⟨⟨d.left, d.others, d.rank, ⟨d.store.copies, d.store.valid, d.store.phase⟩, d.tables, d.kept,
    ⟨d.links.pending, d.links.receivers, d.links.address, d.links.sent⟩⟩, hj, hc, ⟨hsup, hlanes, hsTx, hsCount⟩,
    hcycle.trans hcycle', haudit, hkept, fun hq => ?_⟩
  obtain ⟨hfloat, hunit, hnoticed, hreplied⟩ := hquiet hq
  refine ⟨hfloat, hunit, fun hr => (hnoticed hr).base rfl rfl rfl rfl rfl rfl hclosing, fun r hr hs => ?_⟩
  exact repliedAs_base (hreplied r hr hs) rfl rfl rfl rfl rfl hclosing

/-- R51: what a record's posting leaves of its line, in the words of the statements. -/
theorem postedLine_of_kept {s t : State} {i : Nat} {x : InFlight} {new : CardRecord}
    (h : LineKept (postedLine (s.line i) (put unissued (s.line i).records (x.slot % 8) new) (recordMark s i x new)) t i
      ∧ RankedLast s t i) : PostedLine s t i x new := by
  obtain ⟨hline, hrank⟩ := h
  have hrecords : (t.line i).records = put unissued (s.line i).records (x.slot % 8) new := hline.records
  refine ⟨?_, fun k hk => ?_, ?_, hrank⟩
  · unfold recordFor recordOf
    rw [hrecords, look_put_self]
  · unfold recordOf
    rw [hrecords, look_put_other _ _ _ hk]
  · rw [hrecords]
    exact hline

/-- R51: the posting of a record, on the state with what it books. -/
theorem postRecord_booked {s m : State} (hm : Booked s m) (i : Nat) (x : InFlight) (new : CardRecord) :
    postRecord i (x.slot % 8) new m
      = postLine i (put unissued (s.line i).records (x.slot % 8) new) (recordMark s i x new) m := by
  rw [postRecord_eq, hm.line]
  unfold recordMark
  rw [hm.recordFor]

/-! ### Expired holds (5.5) -/

theorem moveAudit_eq (b : Nat) (p q : Int) (s : State) :
    moveAudit b p q s = { s with store := { s.store with audit := (moveAudit b p q s).store.audit } } := by
  obtain ⟨a, ha⟩ := moveAudit_only b p q s
  rw [ha]

/-- R58: the sums read the audit walker alone. -/
theorem moveAudit_audit {s t : State} (h : t.store.audit = s.store.audit) (b : Nat) (p q : Int) :
    (moveAudit b p q t).store.audit = (moveAudit b p q s).store.audit := by
  unfold moveAudit
  dsimp only
  rw [h]
  split
  · rfl
  · exact h

/-- R64: the writing of an entry on the state with a running audit's sums moved. -/
theorem writeEntry_moveAudit (make : Ref → Entry) (b : Nat) (p q : Int) (s : State) :
    writeEntry make (moveAudit b p q s)
      = { writeEntry make s with store := { s.store with audit := (moveAudit b p q s).store.audit } } := by
  rw [moveAudit_eq]
  rfl

/-- The expired hold out of the table and the card's held out of a running audit, with the entry written. -/
def expiryBooked (x : InFlight) (h : HoldEntry) (old new : CardRecord) (s : State) : State :=
  writeEntry (transactionEntry s x h.amount new.sequence (some h.ref) s.cycle.number)
    (moveAudit x.block 0 ((new.held : Int) - old.held) (clearExpiring (removeHold h.ref s)))

theorem expiryBooked_eq (x : InFlight) (h : HoldEntry) (old new : CardRecord) (s : State) :
    expiryBooked x h old new s =
      { writeEntry (transactionEntry s x h.amount new.sequence (some h.ref) s.cycle.number)
          (clearExpiring (removeHold h.ref s)) with
        store := { s.store with audit := (moveAudit x.block 0 ((new.held : Int) - old.held) s).store.audit } } := by
  have haudit := moveAudit_audit (s := s) (t := clearExpiring (removeHold h.ref s)) rfl x.block 0
    ((new.held : Int) - old.held)
  unfold expiryBooked
  rw [writeEntry_moveAudit, haudit]
  rfl

/-- Settles O5: the expired hold leaves the table and the card, and nothing is answered. -/
theorem holdExpiredPosts : Obligations.HoldExpiredPosts := by
  unfold Obligations.HoldExpiredPosts
  refine ⟨?_, ?_⟩
  · intro s line x h i old new entry holds hx ho hh
    obtain ⟨hready, hk⟩ := headEntry_spec hx
    have hexec : exec (.holdExpiredPosting line) s = .next (event (expireHold i x h) s) := by
      show execHoldExpiredPosting line s = _
      unfold execHoldExpiredPosting
      rw [hx]
      dsimp only
      rw [hh]
    have hentry : transactionEntry s x h.amount new.sequence (some h.ref) s.cycle.number s.journal.next = entry := by
      simp [transactionEntry, entry, entryFor, hk, ho]
    have hbalance : (new.balance : Int) - old.balance = 0 := Int.sub_self _
    have hbooks := expiryBooked_eq x h old new s
    have hbooked : Booked s (expiryBooked x h old new s) := ⟨_, _, _, _, _, _, hbooks, rfl⟩
    have hnew : recordMark s i x new ≠ 0 := recordMark_ne (sequence_ne _ _ rfl)
    have hwritten := writeEntry_written (transactionEntry s x h.amount new.sequence (some h.ref) s.cycle.number)
      (clearExpiring (removeHold h.ref s)) rfl
    obtain ⟨t, ht⟩ : ∃ t, t = event (expireHold i x h) s := ⟨_, rfl⟩
    have hleft := left_booked hbooked (x := x) (un := s.unit)
      (e := ({ st := s } : Event).upd fun _ => postRecord i (x.slot % 8) new (expiryBooked x h old new s))
      (by dsimp only [Event.upd]; rw [postRecord_booked hbooked, hbooks]; rfl) hready rfl rfl rfl (t := t) ht
    obtain ⟨hdeparted, hj, hcopies, ⟨hsup, hlanes, hsTx, hsCount⟩, hcycle, haudit, hline, hquiet⟩ := hleft
    obtain ⟨hfloat, hunit, hnoticed, -⟩ := hquiet (.inr (.inr hnew))
    rw [hbooks] at hdeparted hj hcopies hcycle haudit hfloat
    refine ⟨t, ht ▸ hexec, ⟨hdeparted, postedLine_of_kept (hline (.inr (.inr hnew))), ?_, ?_, ?_, ⟨hsup, hunit⟩,
      hnoticed rfl⟩, hsTx, hlanes, hsCount, ?_, hcycle⟩
    · rw [hbalance]
      exact hfloat.trans (BitVec.add_zero _).symm
    · rw [hbalance]
      exact haudit
    · exact hcopies.trans (congrArg (fun n => s.journalOut.copies ++ [n]) hentry)
    · rw [hj, ← hentry]
      exact hwritten
  · intro s line x hh hx
    show execHoldExpiredPosting line s = _
    unfold execHoldExpiredPosting
    rw [hx]
    dsimp only
    rw [hh]

end Sys2Proof.Proofs.Postings
end

section
/-! PROOFS. The postings that change an entry of the journal: REFUND and VOID (6.2, 6.3). -/

namespace Sys2Proof.Proofs.Reversals

open Sys2Proof Sys2Proof.Machine Sys2Proof.Proofs.Postings

/-! ### REFUND (R105 to R107) -/

theorem decideCredit_approved {r : CardRecord} {a : Nat} (hs : r.state = .active) (ha : r.balance + a ≤ 999999) :
    decideCredit r a = .approved a := by
  have hover : ¬ Config.maxAmount < r.balance + a := ha.not_gt
  simp only [decideCredit, hs, stateDecline, hover, if_false]

theorem decideAgainst_approved {p : Program} {t : ShopTerms} {shop slot : Nat} {o : Entry} {r : CardRecord} {a : Nat}
    (hkind : o.kind = .redeem ∨ o.kind = .complete) (hslot : o.slot = slot) (hvoided : o.voided = false)
    (hprogram : p.refundable = true) (hshop : o.party.map (·.shop) = some shop ∨ t.crossRefund = true)
    (hleft : a ≤ o.amount - o.refunded.getD 0) (hs : r.state = .active) (ha : r.balance + a ≤ 999999) :
    decideAgainst p t shop slot (some o) r a = .approved a := by
  have hrefundable : refundable o slot = true := by simp [refundable, hkind, hslot]
  have hcross : ¬ (o.party.map (·.shop) ≠ some shop ∧ ¬ t.crossRefund = true) := by tauto
  simp only [decideAgainst, hrefundable, hvoided, hprogram, hcross, hleft.not_gt, not_true_eq_false, Bool.false_eq_true,
    if_false]
  exact decideCredit_approved hs ha

theorem decideOpen_approved {p : Program} {t : ShopTerms} {r : CardRecord} {a cap : Nat} (hopen : t.openRefund = true)
    (hcap : p.openCap = some cap) (hle : a ≤ cap) (hs : r.state = .active) (ha : r.balance + a ≤ 999999) :
    decideOpen p t r a = .approved a := by
  simp only [decideOpen, hopen, hcap, hle.not_gt, not_true_eq_false, if_false]
  exact decideCredit_approved hs ha

/-- R105, R107: a REFUND that its checks approve. -/
theorem postRefund_approved {s : State} {i : Nat} {x : InFlight} {p : Party} {card : BitVec 64} {a : Nat}
    (ht : x.training = false) (ho : x.origin = .request p card) (hfresh : NotExpired s (recordFor s i x))
    (hd : decideRefund s x (recordFor s i x) = .approved a) :
    postRefund i x { st := s } = approve i x (recordFor s i x) (credited s a (recordFor s i x)) .approved a x.reference
      s.cycle.number (fun t => postAmount .refunded p.shop a (raiseRefunded x.reference a t)) { st := s } := by
  unfold postRefund
  dsimp only
  rw [hd, postDecided_approved ht (not_foundExpired hfresh), partyOf_request ho]

theorem modifyEntry_found {s : State} {o : Ref} {e : Entry} (h : s.entryAt o = some e) (f : Entry → Entry) :
    modifyEntry o f s
      = { s with journal := { s.journal with ring := put none s.journal.ring (o.toNat % 8192) (some (f e)) } } := by
  unfold modifyEntry
  rw [h]

/-- Settles O6: a refund against an original raises its refunded-so-far; an open one names no entry. -/
theorem refundApproved : Obligations.RefundApproved := by
  unfold Obligations.RefundApproved
  refine ⟨?_, ?_⟩
  · intro s line x p card o original i old a new entry ring hhead href hentry hfresh hkind hslot hvoided hprogram hshop
      hleft hstate hbalance
    have hdecided : decideRefund s x old = .approved a := by
      unfold decideRefund
      rw [href]
      dsimp only
      rw [hentry, partyOf_request hhead.2.2]
      exact decideAgainst_approved hkind hslot hvoided hprogram hshop hleft hstate hbalance
    have hevent := postRefund_approved hhead.2.1 hhead.2.2 hfresh hdecided
    rw [href] at hevent
    have hraised : raiseRefunded (some o) a s = { s with journal := { s.journal with ring := ring } } :=
      modifyEntry_found hentry _
    have happroved := approved_event (new := new) (entry := entry)
      (books := fun t => postAmount .refunded p.shop a (raiseRefunded (some o) a t)) hhead
      (exec_posting (c := .refundPosting line) (post := postRefund) rfl hhead.1 hevent)
      (by rw [hraised]; exact ⟨_, _, _, rfl⟩) (by rw [hraised]; rfl) rfl rfl
      (by rw [hraised]; exact cycle_postAmount (addToRow_refunded a) p.shop _) (closing_currentRow _ _ _)
    rw [hraised] at happroved
    exact happroved
  · intro s line x p card cap i old a new entry hhead href hfresh hopen hcap hle hstate hbalance
    have hdecided : decideRefund s x old = .approved a := by
      unfold decideRefund
      rw [href]
      exact decideOpen_approved hopen hcap hle hstate hbalance
    have hevent := postRefund_approved hhead.2.1 hhead.2.2 hfresh hdecided
    rw [href] at hevent
    exact approved_event (new := new) (entry := entry)
      (books := fun t => postAmount .refunded p.shop a (raiseRefunded none a t)) hhead
      (exec_posting (c := .refundPosting line) (post := postRefund) rfl hhead.1 hevent) ⟨_, _, _, rfl⟩ rfl rfl rfl
      (cycle_postAmount (addToRow_refunded a) p.shop s) (closing_currentRow _ _ _)

/-! ### VOID (R110 to R116) -/

theorem entryAt_ref {s : State} {o : Ref} {e : Entry} (h : s.entryAt o = some e) : e.ref = o := by
  unfold State.entryAt at h
  split at h
  · cases h
  · split at h
    · cases h
    · split at h
      · next he => cases h; exact he
      · cases h

theorem leaveGrace_eq (x : InFlight) (s : State) :
    leaveGrace x s = { s with
      cycle := if isGraceVoid s x then { s.cycle with graceVoids := s.cycle.graceVoids - 1 } else s.cycle } := by
  unfold leaveGrace
  split <;> rfl

theorem freezeStep_cycle (e : Event) : (freezeStep e).st.cycle = frozenCycle e.st.store.float e.st.cycle := by
  unfold freezeStep frozenCycle
  split <;> rfl

/-- The state with another journal ring. -/
def withRing (q : Tbl (Option Entry)) (s : State) : State := { s with journal := { s.journal with ring := q } }

/-- The journal ring with entry `e`, named by `o`, marked as voided. -/
def markedRing (s : State) (o : Ref) (e : Entry) : Tbl (Option Entry) :=
  put none s.journal.ring (o.toNat % 8192) (some { e with voided := true })

theorem modifyEntry_voided {s : State} {o : Ref} {e : Entry} (h : s.entryAt o = some e) :
    modifyEntry e.ref (fun e => { e with voided := true }) s
      = withRing (markedRing s o e) s := by
  rw [entryAt_ref h]
  exact modifyEntry_found h _

/-- R101: the entries of the marked ring: the voided entry is marked, and every other is found as before. -/
theorem entryAt_marked {s : State} {o : Ref} {e : Entry} (h : s.entryAt o = some e) (r : Ref) :
    (withRing (markedRing s o e) s).entryAt r
      = if r = o then some { e with voided := true } else s.entryAt r := by
  have href := entryAt_ref h
  unfold State.entryAt at h ⊢
  dsimp only [withRing, markedRing] at h ⊢
  by_cases hzero : o = 0
  · rw [if_pos hzero] at h
    cases h
  rw [if_neg hzero] at h
  by_cases hro : r = o
  · subst hro
    rw [if_neg hzero, if_pos rfl]
    rw [show look none (put none s.journal.ring (r.toNat % 8192) (some { e with voided := true }))
      (r.toNat % Config.ringPlaces) = some { e with voided := true } from look_put_self _ _ _ _]
    exact if_pos href
  · rw [if_neg hro]
    by_cases hr : r = 0
    · rw [if_pos hr, if_pos hr]
    · rw [if_neg hr, if_neg hr]
      by_cases hplace : r.toNat % Config.ringPlaces = o.toNat % 8192
      · have hlook : look none s.journal.ring (o.toNat % 8192) = some e := by
          split at h
          · cases h
          · next g hg =>
            split at h
            · cases h
              exact hg
            · cases h
        rw [hplace, look_put_self, hlook]
        have hne : e.ref ≠ r := fun k => hro (k.symm.trans href)
        exact (if_neg hne).trans (if_neg hne).symm
      · rw [look_put_other _ _ _ hplace]

/-- R115: an original that is found, in the words of the statements. -/
theorem reducedRing_found {e original : Entry} {r : Ref} (hk : e.kind = .refund) (hr : original.ref = r)
    (q : Tbl (Option Entry)) :
    reducedRing e (some original) q = if refundable original e.slot = true
      then put none q (r.toNat % 8192) (some (changeRefunded (· - e.amount) original)) else q := by
  subst hr
  have hiff : refundable original e.slot = true
      ↔ (e.kind = .refund ∧ (original.kind = .redeem ∨ original.kind = .complete) ∧ original.slot = e.slot) := by
    simp [refundable, hk]
  unfold reducedRing
  simp only [hiff]
  rfl

theorem reducedRing_none {e : Entry} {original : Option Entry} (h : e.kind = .refund → original = none)
    (q : Tbl (Option Entry)) : reducedRing e original q = q := by
  unfold reducedRing
  split
  · next o =>
    have hk : e.kind ≠ .refund := fun hk => by simpa using h hk
    simp only [hk, false_and, if_false]
  · rfl

/-- R115: the original of a voided REFUND in the marked ring. -/
theorem reduceOriginal_marked {s : State} {o : Ref} {e : Entry} (h : s.entryAt o = some e) :
    reduceOriginal e (withRing (markedRing s o e) s)
      = withRing (reducedRing e (e.related.bind s.entryAt) (markedRing s o e)) s := by
  unfold reduceOriginal
  split
  · next r hkind hrelated =>
    have hbind : e.related.bind s.entryAt = s.entryAt r := by rw [hrelated]; rfl
    rw [hbind, entryAt_marked h]
    by_cases hro : r = o
    · subst hro
      have hno : ¬ refundable e e.slot = true := by simp [refundable, hkind]
      rw [if_pos rfl, h, reducedRing_found hkind (entryAt_ref h), if_neg hno]
      exact if_neg hno
    · rw [if_neg hro]
      cases hfound : s.entryAt r with
      | none => rfl
      | some original =>
        have hmarked : (withRing (markedRing s o e) s).entryAt r = some original := by
          rw [entryAt_marked h, if_neg hro, hfound]
        dsimp only
        rw [reducedRing_found hkind (entryAt_ref hfound)]
        split
        · exact modifyEntry_found hmarked _
        · rfl
  · next hnone =>
    rw [reducedRing_none]
    intro hk
    cases hrelated : e.related with
    | none => rfl
    | some r => exact absurd hrelated (hnone r hk)

/-- R116: the accumulators with a voided entry taken out of the bound set. -/
def reversedCycle (x : InFlight) (p : Party) (o : Entry) (c : Cycle) : Cycle :=
  match x.boundSet with
  | some b => c.modifySet b (fun a => a.modifyRow p.shop (takenOut o.kind o.amount))
  | none => c

theorem reverseEntry_eq {x : InFlight} {p : Party} {card : BitVec 64} (ho : x.origin = .request p card) (o : Entry)
    (s : State) : reverseEntry x o s = { s with cycle := reversedCycle x p o s.cycle } := by
  unfold reverseEntry reversedCycle
  cases x.boundSet with
  | none => rfl
  | some b =>
    dsimp only [reverseAmount]
    rw [partyOf_request ho, funext (takeFromRow_out (kind := o.kind) rfl o.amount)]

/-- R115, R116: what an approved VOID changes outside its card, in the words of the statements. -/
theorem voidEffects_eq {x : InFlight} {p : Party} {card : BitVec 64} (ho : x.origin = .request p card) {s : State}
    {o : Ref} {e : Entry} (h : s.entryAt o = some e) :
    voidEffects x e s = { s with
      cycle := reversedCycle x p e s.cycle
      journal := { s.journal with ring := reducedRing e (e.related.bind s.entryAt) (markedRing s o e) } } := by
  unfold voidEffects
  rw [modifyEntry_voided h, reduceOriginal_marked h, reverseEntry_eq ho]
  rfl

theorem closing_reversedCycle (x : InFlight) (p : Party) (o : Entry) (c : Cycle) :
    (reversedCycle x p o c).closing = c.closing := by
  unfold reversedCycle
  split
  · exact closing_modifySet _ _ _
  · rfl

/-- R112 to R114: what the statement says of an approved VOID's card is what the model decides and writes. -/
theorem void_decided {s : State} {old new : CardRecord} {named : Entry}
    (h : (named.kind = .activate ∧ old.sequence = named.sequence
          ∧ new = { state := .unissued, sequence := old.sequence + 1, lastActivity := s.clock.toNat / 86400 })
        ∨ ((named.kind = .reload ∨ named.kind = .refund) ∧ old.held + named.amount ≤ old.balance
          ∧ new = { old with
              balance := old.balance - named.amount, lastActivity := s.clock.toNat / 86400
              sequence := old.sequence + 1 })
        ∨ ((named.kind = .redeem ∨ named.kind = .complete) ∧ named.refunded.getD 0 = 0
          ∧ old.balance + named.amount ≤ 999999
          ∧ new = { old with
              balance := old.balance + named.amount, lastActivity := s.clock.toNat / 86400
              sequence := old.sequence + 1 })) :
    decideByKind named old = .approved named.amount ∧ new = voidedRecord s named old := by
  obtain ⟨hk, hseq, rfl⟩ | ⟨hk, hheld, rfl⟩ | ⟨hk, hrefunded, hbalance, rfl⟩ := h
  · simp [decideByKind, voidedRecord, hk, hseq, today]
  · obtain hk | hk := hk
    all_goals simp [decideByKind, voidedRecord, hk, hheld, stamped, today]
  · have hover : ¬ Config.maxAmount < old.balance + named.amount := hbalance.not_gt
    obtain hk | hk := hk
    all_goals simp [decideByKind, voidedRecord, hk, hrefunded, hover, stamped, today]

theorem voidedRecord_sequence (s : State) (o : Entry) (r : CardRecord) :
    (voidedRecord s o r).sequence = r.sequence + 1 := by
  unfold voidedRecord
  split <;> rfl

/-- R111: a VOID that its checks approve. -/
theorem postVoid_approved {s : State} {i : Nat} {x : InFlight} {o : Ref} {e : Entry} {a : Nat}
    (ht : x.training = false) (href : x.reference = some o) (hentry : s.entryAt o = some e)
    (hfresh : foundExpired s (recordFor s i x) = false)
    (hd : decideVoid x.slot (some e) (recordFor s i x) = .approved a) :
    postVoid i x { st := s } = freezeStep (approve i x (recordFor s i x) (voidedRecord s e (recordFor s i x)) .approved a
      (some e.ref) e.cycle (voidEffects x e) { st := leaveGrace x s }) := by
  have hfresh' : foundExpired (leaveGrace x s) (recordFor s i x) = false := by rw [leaveGrace_eq]; exact hfresh
  have hnamed : x.reference.bind s.entryAt = some e := by rw [href]; exact hentry
  unfold postVoid
  dsimp only
  rw [hnamed, hd, postDecided_approved ht hfresh']
  rfl

/-- Settles O7: the entry is marked, its original reduced and its row reversed, and then the set is looked at. -/
theorem voidApproved : Obligations.VoidApproved := by
  unfold Obligations.VoidApproved
  intro s line x p card o named new i old day entry marked ring grace reversed hhead href hentry hfresh hslot hvoided hcases
  obtain ⟨hx, ht, ho⟩ := hhead
  obtain ⟨-, hk⟩ := headEntry_spec hx
  obtain ⟨hdecided, hnew⟩ := void_decided (s := s) hcases
  have happroved : decideVoid x.slot (some named) old = .approved named.amount := by
    simp [decideVoid, hslot, hvoided, hdecided]
  have hevent := postVoid_approved (i := i) ht href hentry hfresh happroved
  have hgrace := leaveGrace_eq x s
  have heffects := voidEffects_eq ho (s := leaveGrace x s) (by rw [hgrace]; exact hentry)
  have hexec : exec (.voidPosting line) s = .next (posting .void postVoid line s) := rfl
  obtain ⟨happroved, hjournal, hcycle, hposted, hfloat⟩ :=
    approved_as s i x p card old new .approved named.amount (some named.ref) named.cycle (voidEffects x named)
      { st := leaveGrace x s } freezeStep .void followUp_freezeStep hx ht ho
      ⟨_, hgrace, by split <;> rfl⟩ rfl rfl rfl (by rw [heffects]; exact ⟨_, _, _, rfl⟩)
      (by rw [heffects]; exact closing_reversedCycle _ _ _ _) (by rw [heffects]) rfl
      (by rw [hnew]; exact voidedRecord_sequence _ _ _) entry (by rw [hk]; rfl)
  rw [← hnew] at hevent
  generalize approve i x old new .approved named.amount (some named.ref) named.cycle (voidEffects x named)
    { st := leaveGrace x s } = e at happroved hjournal hcycle hposted hfloat hevent
  rw [heffects, hgrace] at happroved hjournal hposted
  refine ⟨finish s (freezeStep e), by rw [hexec, posting_of_head hx, hevent], happroved, hjournal, ?_⟩
  rw [hcycle, freezeStep_cycle, hfloat, hposted]
  rfl

end Sys2Proof.Proofs.Reversals
end

section
/-! PROOFS. The postings that approve nothing live: BALANCE, the live declines and the training transactions (4.1, 4.2,
4.6, 4.7, 5.6, 6.5). All of them end in the model's `train`, which answers a decision and books nothing. -/

namespace Sys2Proof.Proofs.Declines

open Sys2Proof Sys2Proof.Machine Sys2Proof.Proofs.Postings Sys2Proof.Proofs.Reversals

/-! ### A decision answered without a booking -/

/-- What a decision that books nothing leaves; `t` is the state after it, `c` the cycle controller that it began with, `g`
what follows it in its event. -/
structure AnsweredAlone (s t : State) (i : Nat) (x : InFlight) (p : Party) (card : BitVec 64) (new : CardRecord)
    (d : Decision) (c : Cycle) (g : Event → Event) : Prop where
  books : LeavesBooks s t i x new
  answered : Answered s t x none
    (answerTo p card x.kind x.training (rulingOf d).1 (rulingOf d).2.1 (rulingOf d).2.2 0 new)
  shops : t.supervision = if (rulingOf d).1 = .declined then declineCounted p.shop s else s.supervision
  cycle : ∃ e : Event, t.cycle = (g e).st.cycle ∧ e.st.cycle = c ∧ e.st.store.float = t.store.float

theorem train_alone {s t : State} {i : Nat} {x : InFlight} {p : Party} {card : BitVec 64} {new : CardRecord} {d : Decision}
    {c : Cycle} {g : Event → Event} (hg : FollowUp g) (ho : x.origin = .request p card)
    (hready : (s.line i).state.ready = true) (hc : c.closing = s.cycle.closing)
    (ht : t = finish s (g (train i x new d { st := { s with cycle := c } }))) :
    AnsweredAlone s t i x p card new d c g := by
  cases d with
  | declined reason =>
    obtain ⟨hbooks, hsup, hcycle, hcycle', hfloat, hsTx, hlanes, hcount⟩ :=
      leaves_books s i x new (postedAnswer x .declined (some reason) 0 0 new)
        (fun s => countDecline (partyOf x).shop { s with cycle := c }) g hg ⟨_, _, _, rfl, hc⟩ hready t ht
    rw [postedAnswer_eq x p card ho] at hsTx
    exact ⟨hbooks, ⟨hsTx, hlanes, hcount⟩, hsup.trans (by rw [partyOf_request ho]; rfl), _, hcycle, hcycle', hfloat.symm⟩
  | approved a | inPart a =>
    obtain ⟨hbooks, hsup, hcycle, hcycle', hfloat, hsTx, hlanes, hcount⟩ :=
      leaves_books s i x new _ (fun s => { s with cycle := c }) g hg ⟨_, _, _, rfl, hc⟩ hready t ht
    rw [postedAnswer_eq x p card ho] at hsTx
    exact ⟨hbooks, ⟨hsTx, hlanes, hcount⟩, hsup, _, hcycle, hcycle', hfloat.symm⟩

section
variable {s t : State} {i : Nat} {x : InFlight} {p : Party} {card : BitVec 64} {new : CardRecord} {d : Decision} {c : Cycle}

theorem AnsweredAlone.cycle_kept (h : AnsweredAlone s t i x p card new d c id) : t.cycle = c := by
  obtain ⟨e, hcycle, hc, -⟩ := h.cycle
  exact hcycle.trans hc

theorem AnsweredAlone.cycle_frozen (h : AnsweredAlone s t i x p card new d c freezeStep) :
    t.cycle = frozenCycle t.store.float c := by
  obtain ⟨e, hcycle, hc, hfloat⟩ := h.cycle
  rw [hcycle, freezeStep_cycle, hc, hfloat]

end

/-! ### From the rows to the decision -/

/-- R110: the cycle controller with a grace void that is posted counted out. -/
def graceCycle (s : State) (x : InFlight) : Cycle :=
  if x.kind = .void ∧ isGraceVoid s x = true then { s.cycle with graceVoids := s.cycle.graceVoids - 1 } else s.cycle

theorem closing_graceCycle (s : State) (x : InFlight) : (graceCycle s x).closing = s.cycle.closing := by
  unfold graceCycle
  split <;> rfl

theorem graceCycle_of_not_void {s : State} {x : InFlight} (h : x.kind ≠ .void) : graceCycle s x = s.cycle :=
  if_neg fun k => h k.1

/-- R129: after a VOID the closing set is looked at. -/
def afterPosting (k : Kind) : Event → Event := if k = .void then freezeStep else id

theorem followUp_afterPosting (k : Kind) : FollowUp (afterPosting k) := by
  unfold afterPosting
  split
  · exact followUp_freezeStep
  · exact followUp_id

/-- R66, R75: a posting that is in training, or whose decision is a decline, answers that decision alone. -/
theorem postDecided_train {i : Nat} {x : InFlight} {r new : CardRecord} {d : Decision}
    {live : Ruling → Nat → Event → Event} {e : Event}
    (h : x.training = true ∧ new = r
      ∨ x.training = false ∧ new = expiryWrite e.st r ∧ ∃ reason, afterExpiry e.st r d = .declined reason) :
    postDecided i x r d live e = train i x new (afterExpiry e.st r d) e := by
  unfold postDecided
  obtain ⟨ht, rfl⟩ | ⟨ht, rfl, reason, hd⟩ := h
  · simp only [ht, if_true]
  · simp only [ht, hd, Bool.false_eq_true, if_false]
    rfl

/-- R66, R75: the entry at line `i` is in training, or its decision, the expiry finding first, is a decline; `new` is its
record after it. -/
def Unapproved (s : State) (i : Nat) (x : InFlight) (new : CardRecord) : Prop :=
  x.training = true ∧ new = recordFor s i x
    ∨ x.training = false ∧ new = expiryWrite s (recordFor s i x)
      ∧ ∃ reason, afterExpiry s (recordFor s i x) (ownDecision s x (recordFor s i x)) = .declined reason

section
variable {s : State} {line : BitVec 5} {x : InFlight} {c : Instr} {new : CardRecord} {k : Kind}

/-- A row whose posting follows its kind's own decision, but for VOID. -/
theorem exec_own {post : Nat → InFlight → Event → Event} {d : Decision} {live : Ruling → Nat → Event → Event}
    (hexec : exec c s = .next (posting k post line s)) (hx : headEntry s line.toNat k = some x) (hk : k ≠ .void)
    (hpost : post line.toNat x { st := s } = postDecided line.toNat x (recordFor s line.toNat x) d live { st := s })
    (hown : d = ownDecision s x (recordFor s line.toNat x)) (h : Unapproved s line.toNat x new) :
    exec c s = .next (finish s (afterPosting k (train line.toNat x new
      (afterExpiry s (recordFor s line.toNat x) (ownDecision s x (recordFor s line.toNat x)))
      { st := { s with cycle := graceCycle s x } }))) := by
  obtain ⟨-, hkind⟩ := headEntry_spec hx
  rw [graceCycle_of_not_void (hkind ▸ hk), afterPosting, if_neg hk]
  subst hown
  exact exec_posting hexec hx (hpost.trans (postDecided_train (e := { st := s }) h))

/-- The rows of the kinds whose own checks the expiry finding precedes. -/
theorem exec_expiryFirst {p : Party} {card : BitVec 64} (hc : postingCommand line k = some c)
    (hfirst : expiryFirst k = true) (hx : headEntry s line.toNat k = some x) (ho : x.origin = .request p card)
    (h : Unapproved s line.toNat x new) :
    exec c s = .next (finish s (afterPosting k (train line.toNat x new
      (afterExpiry s (recordFor s line.toNat x) (ownDecision s x (recordFor s line.toNat x)))
      { st := { s with cycle := graceCycle s x } }))) := by
  obtain ⟨-, hk⟩ := headEntry_spec hx
  cases k <;> cases hfirst <;> cases hc
  case activate => exact exec_own (post := postActivate) rfl hx (by decide) (by unfold postActivate; rfl) (ownDecision_activate _ hk) h
  case reload => exact exec_own (post := postReload) rfl hx (by decide) (by unfold postReload; rfl) (ownDecision_reload _ hk) h
  case redeem => exact exec_own (post := postRedeem) rfl hx (by decide) (by unfold postRedeem; rfl) (ownDecision_redeem _ hk) h
  case hold => exact exec_own (post := postHold) rfl hx (by decide) (by unfold postHold; rfl) (ownDecision_hold _ hk) h
  case refund => exact exec_own (post := postRefund) rfl hx (by decide) (by unfold postRefund; rfl) (ownDecision_refund _ hk ho) h
  case void =>
    have hgrace : leaveGrace x s = { s with cycle := graceCycle s x } := by
      rw [leaveGrace_eq]
      simp only [graceCycle, hk, true_and]
    have hdecided := postDecided_train (i := line.toNat) (d := ownDecision s x (recordFor s line.toNat x))
      (live := fun ruling a f => match x.reference.bind s.entryAt with
        | some o => approve line.toNat x (recordFor s line.toNat x) (voidedRecord s o (recordFor s line.toNat x)) ruling a
            (some o.ref) o.cycle (voidEffects x o) f
        | none => f) (e := { st := leaveGrace x s }) (by rw [hgrace]; exact h)
    refine exec_posting (post := postVoid) rfl hx ?_
    rw [← hgrace]
    unfold postVoid
    dsimp only
    rw [ownDecision_void _ hk]
    refine (congrArg freezeStep hdecided).trans ?_
    rw [hgrace]
    rfl

/-- The row of BALANCE: its decision alone, with the expiry finding written when it is live. -/
theorem exec_balance (hx : headEntry s line.toNat .balance = some x) :
    exec (.balancePosting line) s = .next (finish s (train line.toNat x
      (if x.training then recordFor s line.toNat x else expiryWrite s (recordFor s line.toNat x))
      (ownDecision s x (recordFor s line.toNat x)) { st := s })) := by
  obtain ⟨-, hk⟩ := headEntry_spec hx
  refine exec_posting (post := postBalance) rfl hx ?_
  rw [← ownDecision_balance _ hk]
  unfold postBalance
  dsimp only
  split <;> rfl

/-- The rows of a training COMPLETE and RELEASE, which ask the hold table again (R96). -/
theorem exec_trainingClaim {decided : CardRecord → InFlight → HoldEntry → Decision}
    {live : Nat → InFlight → HoldEntry → Event → Event} (hexec : exec c s = claimPosting k decided live line s)
    (hx : headEntry s line.toNat k = some x) (ht : x.training = true)
    (hown : trainingHold s x (decided (recordFor s line.toNat x) x) = ownDecision s x (recordFor s line.toNat x)) :
    exec c s = .next (finish s (train line.toNat x (recordFor s line.toNat x)
      (ownDecision s x (recordFor s line.toNat x)) { st := s })) := by
  rw [← hown]
  simp only [hexec, claimPosting, hx, ht, if_true]
  rfl

end

/-! ### The statements -/

/-- Settles O8: a BALANCE books nothing, and its one check is that the card is not UNISSUED. -/
theorem balancePosts : Obligations.BalancePosts := by
  unfold Obligations.BalancePosts
  intro s line x p card i old new ⟨hx, ht, ho⟩
  obtain ⟨hready, hk⟩ := headEntry_spec hx
  have hexec := exec_balance hx
  have hnew : (if x.training then old else expiryWrite s old) = new := by rw [ht]; rfl
  rw [hnew] at hexec
  obtain ⟨t, ht'⟩ : ∃ t, t = finish s (train i x new (ownDecision s x old) { st := s }) := ⟨_, rfl⟩
  have halone := train_alone (p := p) (card := card) (c := s.cycle) followUp_id ho hready rfl ht'
  have hanswered := halone.answered
  have hshops := halone.shops
  rw [hk, ht] at hanswered
  rw [← ownDecision_balance _ hk] at hanswered hshops
  refine ⟨t, ht' ▸ hexec, halone.books, halone.cycle_kept, fun hu => ?_, fun hu => ?_⟩
  · rw [if_pos hu] at hanswered hshops
    exact ⟨hanswered, hshops⟩
  · rw [if_neg hu] at hanswered hshops
    exact ⟨hanswered, hshops⟩

/-- Settles O9: the decline is answered and counted; what follows a VOID looks at the closing set. -/
theorem declinedPostingLeavesBooks : Obligations.DeclinedPostingLeavesBooks := by
  unfold Obligations.DeclinedPostingLeavesBooks
  intro s line x p card reason c i old new grace hc hfirst ⟨hx, ht, ho⟩ hdeclined
  obtain ⟨hready, -⟩ := headEntry_spec hx
  have hdecision : afterExpiry s old (ownDecision s x old) = .declined reason := by
    unfold afterExpiry
    obtain ⟨hfound, rfl⟩ | ⟨hfound, hd⟩ := hdeclined
    · rw [if_pos hfound]
    · rw [if_neg (by rw [hfound]; exact Bool.false_ne_true), hd]
  have hexec := exec_expiryFirst (new := new) hc hfirst hx ho (.inr ⟨ht, rfl, reason, hdecision⟩)
  rw [hdecision] at hexec
  obtain ⟨t, ht'⟩ : ∃ t, t = finish s (afterPosting x.kind (train i x new (.declined reason)
    { st := { s with cycle := graceCycle s x } })) := ⟨_, rfl⟩
  have halone := train_alone (p := p) (card := card) (followUp_afterPosting x.kind) ho hready (closing_graceCycle s x) ht'
  refine ⟨t, ht' ▸ hexec, halone.books, ht ▸ halone.answered, halone.shops, ?_⟩
  unfold afterPosting at halone
  unfold graceCycle at halone
  by_cases hvoid : x.kind = .void
  · rw [if_pos hvoid] at halone ⊢
    simp only [hvoid, true_and] at halone
    exact halone.cycle_frozen
  · rw [if_neg hvoid] at halone ⊢
    simp only [hvoid, false_and, if_false] at halone
    exact halone.cycle_kept

/-- R110: a VOID in training is no grace void. -/
theorem graceCycle_training {s : State} {x : InFlight} (h : x.training = true) : graceCycle s x = s.cycle :=
  if_neg (by simp [isGraceVoid, h])

/-- The row of a training entry, whose record stays. -/
theorem exec_training {s : State} {line : BitVec 5} {x : InFlight} {p : Party} {card : BitVec 64} {c : Instr}
    (hc : postingCommand line x.kind = some c) (hx : headEntry s line.toNat x.kind = some x) (ht : x.training = true)
    (ho : x.origin = .request p card) :
    exec c s = .next (finish s (afterPosting x.kind (train line.toNat x (recordFor s line.toNat x)
      (if expiryFirst x.kind = true ∧ foundExpired s (recordFor s line.toNat x) = true then .declined .expired
        else ownDecision s x (recordFor s line.toNat x)) { st := s }))) := by
  by_cases hfirst : expiryFirst x.kind = true
  · have hexec := exec_expiryFirst hc hfirst hx ho (.inl ⟨ht, rfl⟩)
    rw [graceCycle_training ht] at hexec
    simp only [hfirst, true_and]
    exact hexec
  · rw [if_neg fun h => hfirst h.1]
    generalize hk : x.kind = k at hc hfirst hx
    cases k
    case balance =>
      cases hc
      have hexec := exec_balance hx
      simp only [ht, if_true] at hexec
      exact hexec
    case complete =>
      cases hc
      exact exec_trainingClaim (decided := fun r x h => decideComplete x.amount h r) (live := completeHold) rfl hx ht
        (ownDecision_complete _ hk)
    case release =>
      cases hc
      exact exec_trainingClaim (decided := fun _ _ h => .approved h.amount) (live := releaseHold) rfl hx ht
        (ownDecision_release _ hk)
    case holdExpired | adjust | cardRead | cardLoad => cases hc
    all_goals exact absurd rfl hfirst

/-- Settles O10: a training decision is answered alone, with the record as it stands. -/
theorem trainingPostingChangesNothing : Obligations.TrainingPostingChangesNothing := by
  unfold Obligations.TrainingPostingChangesNothing
  intro s line x p card c i old d hc hx ht ho
  obtain ⟨hready, -⟩ := headEntry_spec hx
  have hexec := exec_training hc hx ht ho
  obtain ⟨t, ht'⟩ : ∃ t, t = finish s (afterPosting x.kind (train i x old d { st := s })) := ⟨_, rfl⟩
  have halone := train_alone (p := p) (card := card) (c := s.cycle) (followUp_afterPosting x.kind) ho hready rfl ht'
  refine ⟨t, ht' ▸ hexec, halone.books, ht ▸ halone.answered, halone.shops, ?_⟩
  unfold afterPosting at halone
  by_cases hvoid : x.kind = .void
  · rw [if_pos hvoid] at halone ⊢
    exact halone.cycle_frozen
  · rw [if_neg hvoid] at halone ⊢
    exact halone.cycle_kept

end Sys2Proof.Proofs.Declines
end

section
/-! PROOFS. The postings of the card commands: CARD READ, CARD ADJUST and the replacement CARD LOAD (4.8, 4.9, 3.4). -/

namespace Sys2Proof.Proofs.CardPostings

open Sys2Proof Sys2Proof.Machine Sys2Proof.Proofs.Postings

theorem cardPosting_of_head {s : State} {k : Kind} {x : InFlight} {post : Nat → InFlight → Event → Event}
    {line : BitVec 5} (h : headEntry s line.toNat k = some x) :
    cardPosting k post line s = finish s (post line.toNat x { st := s }) := by
  unfold cardPosting
  rw [h]
  rfl

theorem booked_refl (s : State) : Booked s s := ⟨_, _, _, _, _, _, rfl, rfl⟩

/-- R77: what a posting leaves of its line that leaves the records as they are. -/
theorem postedLine_unchanged {s t : State} {i : Nat} {x : InFlight}
    (h : LineKept (postedLine (s.line i) (s.line i).records 0) t i ∧ RankedLast s t i) :
    PostedLine s t i x (recordFor s i x) := by
  obtain ⟨hline, hrank⟩ := h
  have hrecords : (t.line i).records = (s.line i).records := hline.records
  refine ⟨by unfold recordFor; rw [hrecords], fun k _ => by rw [hrecords], ?_, hrank⟩
  rw [hrecords, if_pos rfl]
  exact hline

/-- R81, R173: what the posting of a card command leaves, in the words of the statements. -/
theorem unitPosted_of_left {s m t : State} {i : Nat} {x : InFlight} {records : Block} {marks : BitVec 8}
    {first : Option PendingFirst} {r : Reply}
    (h : LeftBooked s m t i x records marks { progress := none, first := first } (some r)) (hr : FieldsSettled r)
    (hholds : m.holds = s.holds) (hq : NoDirectLoad s ∨ LineHeld s i ∨ marks ≠ 0) : UnitPosted s t i x r first := by
  obtain ⟨-, hunit, -, hreplied⟩ := h.quiet hq
  exact ⟨hholds ▸ h.departed, hreplied r rfl hr, hunit, h.shops⟩

/-- Settles O11: the line is posted with its records as they stand, and the command is ended and answered. -/
theorem cardReadPosts : Obligations.CardReadPosts := by
  unfold Obligations.CardReadPosts
  intro s line x tag slot i old hx hprogress hdirect
  obtain ⟨hready, -⟩ := headEntry_spec hx
  have hexec : exec (.cardReadPosting line) s = .next (cardPosting .cardRead postCardRead line s) := rfl
  obtain ⟨t, ht⟩ : ∃ t, t = cardPosting .cardRead postCardRead line s := ⟨_, rfl⟩
  have hevent : postCardRead i x { st := s } = departed i x (endWork { tag := tag, work := .cardRead slot }
      { code := 0x16, tag := 0
        fields := fun _ => octets 3 x.slot ++ recordOctets old ++ yesNo (s.isValid x.block) }
      (({ st := s } : Event).upd (postLine i (s.line i).records 0))) := by
    unfold postCardRead
    dsimp only
    rw [hprogress]
  rw [← ht] at hexec
  rw [cardPosting_of_head hx, hevent] at ht
  have hleft := left_booked (booked_refl s) (i := i) (x := x) (records := (s.line i).records) (marks := 0)
    (un := { progress := none, first := s.unit.first }) rfl hready rfl rfl rfl ht
  have hposted := unitPosted_of_left hleft (fun _ _ _ => rfl) rfl (.inl hdirect)
  obtain ⟨hfloat, -⟩ := hleft.quiet (.inl hdirect)
  refine ⟨t, hexec, hposted, fun h => postedLine_unchanged (hleft.line (h.imp id .inl)), hleft.journal, hleft.copies,
    hleft.cycle, hfloat, hleft.audit⟩

/-! ### CARD ADJUST (R79, R80) -/

/-- R79: a card whose check of CARD ADJUST fails. -/
theorem decideAdjust_declined {f : AdjustFields} {r : CardRecord} {reason : Reason}
    (h : r.state = .unissued ∧ reason = .notActive
      ∨ r.state ≠ .unissued ∧ adjustChange f < 0 ∧ ((r.balance - r.held : Nat) : Int) < -adjustChange f
        ∧ reason = .insufficient
      ∨ r.state ≠ .unissued ∧ 0 < adjustChange f ∧ 999999 < (r.balance : Int) + adjustChange f ∧ reason = .overMax) :
    decideAdjust f r = some reason := by
  unfold decideAdjust available
  obtain ⟨hstate, rfl⟩ | ⟨hstate, hdown, hshort, rfl⟩ | ⟨hstate, hup, hover, rfl⟩ := h
  · exact if_pos hstate
  · have hlacks : r.balance - r.held < (adjustChange f).natAbs := by omega
    simp only [hstate, hdown, hlacks, if_false, and_self, if_true]
  · have hrises : ¬ (adjustChange f < 0 ∧ r.balance - r.held < (adjustChange f).natAbs) := fun h => by omega
    have hpasses : (Config.maxAmount : Int) < r.balance + adjustChange f := hover
    simp only [hstate, hrises, hup, hpasses, if_false, and_self, if_true]

theorem decideAdjust_approved {f : AdjustFields} {r : CardRecord} (hstate : r.state ≠ .unissued)
    (hdown : -((r.balance - r.held : Nat) : Int) ≤ adjustChange f)
    (hup : 0 < adjustChange f → (r.balance : Int) + adjustChange f ≤ 999999) : decideAdjust f r = none := by
  have hcovers : ¬ (adjustChange f < 0 ∧ r.balance - r.held < (adjustChange f).natAbs) := fun h => by omega
  have hfits : ¬ (0 < adjustChange f ∧ (Config.maxAmount : Int) < r.balance + adjustChange f) :=
    fun h => absurd (hup h.1) (Int.not_le.mpr h.2)
  unfold decideAdjust available
  simp only [hstate, hcovers, hfits, if_false]

/-- R80, R121: the mall row takes the balance change under its limit. -/
theorem cycle_postAdjust (d : Int) (s : State) :
    (postAdjust d s).cycle = s.cycle.modifySet s.cycle.current (fun a =>
      { a with mall := if 0 < d
          then { a.mall with
            adjustUp := min (a.mall.adjustUp + d.natAbs) (2 ^ 48 - 1)
            saturated := a.mall.saturated || decide (2 ^ 48 - 1 ≤ a.mall.adjustUp + d.natAbs) }
          else { a.mall with
            adjustDown := min (a.mall.adjustDown + d.natAbs) (2 ^ 48 - 1)
            saturated := a.mall.saturated || decide (2 ^ 48 - 1 ≤ a.mall.adjustDown + d.natAbs) } }) := by
  have hmax : Config.maxSum = 2 ^ 48 - 1 := rfl
  unfold postAdjust
  dsimp only
  refine congrArg (s.cycle.modifySet s.cycle.current) (funext fun a => ?_)
  unfold addAmount
  split
  · simp only [hmax, limit_add]
  · simp only [hmax, limit_add]

/-- What an approved CARD ADJUST books: the entry, the mall row, the float and a running audit's sums. -/
theorem adjustEffects_eq (x : InFlight) (d : Int) (sequence : BitVec 32) (s : State) :
    adjustEffects x d sequence s =
      { writeEntry (adjustEntry s x.slot d sequence) s with
        cycle := if d = 0 then s.cycle else (postAdjust d s).cycle
        store := { s.store with
          float := s.store.float + BitVec.ofInt 40 d
          audit := (if d = 0 then s else moveAudit x.block d 0 s).store.audit } } := by
  unfold adjustEffects
  dsimp only
  split
  · next h =>
    subst h
    have hfloat : s.store.float + BitVec.ofInt 40 0 = s.store.float := BitVec.add_zero _
    rw [hfloat]
    rfl
  · have haudit := moveAudit_audit (s := s) (t := moveFloat d (postAdjust d s)) rfl x.block d 0
    rw [writeEntry_moveAudit, haudit]
    rfl

theorem adjustEffects_booked (x : InFlight) (d : Int) (sequence : BitVec 32) (s : State) :
    Booked s (adjustEffects x d sequence s) := by
  refine ⟨_, _, _, _, _, _, adjustEffects_eq x d sequence s, ?_⟩
  split
  · rfl
  · exact closing_modifySet _ _ _

/-- R80: the stamp of a record whose state or balance changes. -/
theorem adjusted_eq (s : State) (f : AdjustFields) (r selected : CardRecord)
    (h : selected = { r with
      state := if f.mask.getLsbD 0 then (if f.state = 1#8 then .active else .blocked) else r.state
      expiryDay := if f.mask.getLsbD 1 then (if f.mask.getLsbD 3 then none else some f.expiryDay.toNat) else r.expiryDay
      balance := (r.balance + adjustChange f).toNat }) :
    adjusted s f r = if selected.state = r.state ∧ selected.balance = r.balance then selected
      else { selected with lastActivity := s.clock.toNat / 86400, sequence := r.sequence + 1 } := by
  have hsequence : selected.sequence = r.sequence := by rw [h]
  have hstamped : adjusted s f r =
      if selected.state ≠ r.state ∨ selected.balance ≠ r.balance then stamped s selected else selected := by
    rw [h]
    rfl
  have hchanged : selected.state ≠ r.state ∨ selected.balance ≠ r.balance
      ↔ ¬ (selected.state = r.state ∧ selected.balance = r.balance) := not_and_or.symm
  rw [hstamped, if_congr hchanged rfl rfl, ite_not, ← hsequence]
  rfl

/-- Settles O12: a declined adjust leaves the record, and an approved one posts what it books. -/
theorem cardAdjustPosts : Obligations.CardAdjustPosts := by
  unfold Obligations.CardAdjustPosts
  refine ⟨?_, ?_⟩
  · intro s line x tag slot f reason i old d hx hprogress hdirect hfails
    obtain ⟨hready, -⟩ := headEntry_spec hx
    have hexec : exec (.cardAdjustPosting line) s = .next (cardPosting .adjust postCardAdjust line s) := rfl
    obtain ⟨t, ht⟩ : ∃ t, t = cardPosting .adjust postCardAdjust line s := ⟨_, rfl⟩
    have hevent : postCardAdjust i x { st := s } = departed i x (endWork { tag := tag, work := .cardAdjust slot f }
        { code := 0x17, tag := tag, outcome := some .declined, reason := some reason, fields := fun _ => recordOctets old }
        (({ st := s } : Event).upd (postRecord i (x.slot % 8) old))) := by
      unfold postCardAdjust
      dsimp only
      rw [hprogress]
      dsimp only
      rw [decideAdjust_declined hfails]
    rw [← ht] at hexec
    rw [cardPosting_of_head hx, hevent] at ht
    have hleft := left_booked (booked_refl s) (i := i) (x := x)
      (records := put unissued (s.line i).records (x.slot % 8) old) (marks := recordMark s i x old)
      (un := { progress := none, first := s.unit.first })
      (by dsimp only [endWork, Event.upd, Event.replying]; rw [postRecord_booked (booked_refl s)]; rfl) hready rfl rfl
      rfl ht
    have hposted := unitPosted_of_left hleft (fun _ _ _ => rfl) rfl (.inl hdirect)
    obtain ⟨hfloat, -⟩ := hleft.quiet (.inl hdirect)
    exact ⟨t, hexec, hposted, fun h => postedLine_of_kept (hleft.line (h.imp id .inl)), hleft.journal, hleft.copies,
      hleft.cycle, hfloat, hleft.audit⟩
  · intro s line x tag slot f i old d selected new entry hx hprogress hdirect hstate hdown hup
    obtain ⟨hready, -⟩ := headEntry_spec hx
    have hexec : exec (.cardAdjustPosting line) s = .next (cardPosting .adjust postCardAdjust line s) := rfl
    obtain ⟨t, ht⟩ : ∃ t, t = cardPosting .adjust postCardAdjust line s := ⟨_, rfl⟩
    have hnew : adjusted s f old = new := adjusted_eq s f old selected rfl
    have hevent : postCardAdjust i x { st := s } = departed i x (endWork { tag := tag, work := .cardAdjust slot f }
        { code := 0x17, tag := tag, outcome := some .approved
          fields := fun _ => octets 4 s.journal.next.toNat ++ recordOctets new }
        (({ st := s } : Event).upd fun s => postRecord i (x.slot % 8) new (adjustEffects x d new.sequence s))) := by
      unfold postCardAdjust
      dsimp only
      rw [hprogress]
      dsimp only
      rw [decideAdjust_approved hstate hdown hup, hnew]
      rfl
    have hbooks := adjustEffects_eq x d new.sequence s
    have hbooked := adjustEffects_booked x d new.sequence s
    have hwritten := writeEntry_written (adjustEntry s x.slot d new.sequence) s rfl
    rw [← ht] at hexec
    rw [cardPosting_of_head hx, hevent] at ht
    have hleft := left_booked hbooked (i := i) (x := x)
      (records := put unissued (s.line i).records (x.slot % 8) new) (marks := recordMark s i x new)
      (un := { progress := none, first := s.unit.first })
      (by dsimp only [endWork, Event.upd, Event.replying]; rw [postRecord_booked hbooked, hbooks]; rfl) hready rfl rfl
      rfl ht
    have hholds : (adjustEffects x d new.sequence s).holds = s.holds := by rw [hbooks]; rfl
    have hposted := unitPosted_of_left hleft (fun _ _ _ => rfl) hholds (.inl hdirect)
    obtain ⟨-, hj, hcopies, -, hcycle, haudit, hline, hquiet⟩ := hleft
    obtain ⟨hfloat, -⟩ := hquiet (.inl hdirect)
    rw [hbooks] at hj hcopies hcycle haudit hfloat
    refine ⟨t, hexec, hposted, fun h => postedLine_of_kept (hline (h.imp id (.imp id recordMark_ne))), ?_, hcopies, ?_,
      hfloat, haudit⟩
    · rw [hj]
      exact hwritten
    · rw [hcycle, cycle_postAdjust]

/-! ### The replacement CARD LOAD (R46) -/

/-- What a replacement books: the float, and a running audit's sums. -/
theorem replacement_booked (b : Nat) (p q : Int) (s : State) :
    moveAudit b p q (moveFloat p s) =
      { s with store := { s.store with
          float := s.store.float + BitVec.ofInt 40 p, audit := (moveAudit b p q s).store.audit } } := by
  rw [moveAudit_eq, moveAudit_audit (s := s) (t := moveFloat p s) rfl]
  rfl

/-- Settles O13: the eight records are posted with all their marks, and the pair is ended and answered. -/
theorem replacementPosts : Obligations.ReplacementPosts := by
  unfold Obligations.ReplacementPosts
  intro s line x tag b records i old change hx hprogress
  obtain ⟨hready, -⟩ := headEntry_spec hx
  have hexec : exec (.cardLoadReplacementPosting line) s = .next (cardPosting .cardLoad postReplacement line s) := rfl
  obtain ⟨t, ht⟩ : ∃ t, t = cardPosting .cardLoad postReplacement line s := ⟨_, rfl⟩
  have hevent : postReplacement i x { st := s } = departed i x (endWork { tag := tag, work := .replaceBlock b records }
      { code := 0x12, tag := tag, fields := loadAnswer b true records }
      (({ st := s } : Event).upd fun s => postLine i records 0xFF
        (moveAudit b change ((helds records : Int) - helds old) (moveFloat change s)))) := by
    unfold postReplacement
    dsimp only
    rw [hprogress]
  have hbooks := replacement_booked b change ((helds records : Int) - helds old) s
  have hbooked : Booked s (moveAudit b change ((helds records : Int) - helds old) (moveFloat change s)) :=
    ⟨_, _, _, _, _, _, hbooks, rfl⟩
  have hmarks : (0xFF : BitVec 8) ≠ 0 := by decide
  rw [← ht] at hexec
  rw [cardPosting_of_head hx, hevent] at ht
  have hleft := left_booked hbooked (i := i) (x := x) (records := records) (marks := 0xFF)
    (un := { progress := none, first := none })
    rfl hready rfl rfl rfl ht
  have hsettled : FieldsSettled { code := 0x12, tag := tag, fields := loadAnswer b true records } := by
    rintro u v ⟨_, _, _, _, _, rfl⟩
    rfl
  have hholds : (moveAudit b change ((helds records : Int) - helds old) (moveFloat change s)).holds = s.holds := by
    rw [hbooks]
  have hposted := unitPosted_of_left hleft hsettled hholds (.inr (.inr hmarks))
  obtain ⟨-, hj, hcopies, -, hcycle, haudit, hline, hquiet⟩ := hleft
  obtain ⟨hfloat, -⟩ := hquiet (.inr (.inr hmarks))
  rw [hbooks] at hj hcopies hcycle haudit hfloat
  exact ⟨t, hexec, hposted, (hline (.inr (.inr hmarks))).1, (hline (.inr (.inr hmarks))).2, hj, hcopies, hcycle, hfloat,
    haudit⟩

end Sys2Proof.Proofs.CardPostings
end

section
/-! PROOFS. The record buffer and the banks (3.5): completed fetches, write-backs, and the serving of the wait list. -/

namespace Sys2Proof.Proofs.RecordBuffer

open Sys2Proof Sys2Proof.Machine

/-! ### Events of the buffer -/

/-- The end of an event of the buffer leaves the buffer and the store as the event does. -/
theorem works_finish (s : State) (e : Event) : Works e.st (finish s e) := by
  obtain ⟨a, b, c, d, n, nt, l, h⟩ := finish_frame s e
  rw [h]
  exact works_same rfl rfl rfl rfl

/-- What a bank's completion leaves that leaves `m` before the buffer goes on with its work. -/
structure Completed (s m t : State) : Prop where
  books : BooksKept s t 0
  works : Works m t
  copies : t.store.copies = m.store.copies
  valid : t.store.valid = m.store.valid

theorem completed_of_event {s m : State} (hm : ∃ b c v, m = { s with
      buffer := b, store := { s.store with copies := c, valid := v } })
    (hwait : m.buffer.waitList = s.buffer.waitList) : Completed s m (finish s (afterCompletion { st := m })) := by
  obtain ⟨b, p, w, f, u, r, heq, hquiet, hworks⟩ := afterCompletion_only { st := m }
  obtain ⟨b', c, v, rfl⟩ := hm
  have hdirect (h : NoDirectLoad s) : NoDirectLoad { s with
      buffer := b', store := { s.store with copies := c, valid := v } } := by
    unfold NoDirectLoad
    rw [hwait]
    exact h
  obtain ⟨hbooks, -, hstore, -⟩ := finish_booksKept s (afterCompletion { st := { s with
    buffer := b', store := { s.store with copies := c, valid := v } } }) 0 (by rw [heq]) (by rw [heq]) (by rw [heq])
    (by rw [heq]) (by rw [heq]) (fun h => by rw [heq]; exact hquiet (hdirect h))
  rw [heq] at hstore
  refine ⟨hbooks, hworks.trans (works_finish _ _), ?_, ?_⟩
  · rw [heq, hstore]
  · rw [heq, hstore]

/-- The first line in number order that satisfies a predicate. -/
theorem findLine_first {p : Nat → Bool} {i : Nat} (hi : i < Config.lineCount) (hp : p i = true)
    (hfirst : ∀ j < i, p j = false) : (List.range Config.lineCount).find? p = some i := by
  rw [List.find?_range_eq_some]
  exact ⟨hp, List.mem_range.mpr hi, fun j hj => by simp [hfirst j hj]⟩

theorem restingRank_of_lines {s m t : State} (h : ∀ j, Resting (m.line j) ↔ Resting (s.line j)) :
    restingRank s t = restingRank m t := by
  unfold restingRank
  congr 1
  funext j
  exact decide_eq_decide.mpr (h j).symm

theorem popQueue_queue (s : State) (k j : Nat) {op : BankOp} {rest : List BankOp} (h : s.queue k = op :: rest) :
    (popQueue k s).queue j = if j = k then rest else s.queue j := by
  unfold popQueue
  rw [queue_setQueue, h]
  rfl

/-- R49: what the popped queues grow into. -/
theorem queues_of_popped {s m t : State} {k : Nat} {op : BankOp} {rest : List BankOp} (hq : s.queue k = op :: rest)
    (hm : m.buffer.queues = (popQueue k s).buffer.queues) (h : QueuesGrow m t) :
    QueueGrows rest (t.queue k) ∧ ∀ j, j ≠ k → QueueGrows (s.queue j) (t.queue j) := by
  have hqueue (j : Nat) : m.queue j = if j = k then rest else s.queue j := by
    rw [← popQueue_queue s k j hq]
    unfold State.queue
    rw [hm]
  refine ⟨?_, fun j hj => ?_⟩
  · have := h k
    rwa [hqueue, if_pos rfl] at this
  · have := h j
    rwa [hqueue, if_neg hj] at this

/-! ### The completed fetch (R50) -/

theorem fetched_first {s : State} {b i : Nat} (hi : i < 32) (hfetching : (s.line i).state = .fetching)
    (hblock : (s.line i).block = some b) (hfirst : ∀ j < i, ¬ ((s.line j).state = .fetching ∧ (s.line j).block = some b))
    (k : Nat) : fetched b (popQueue k s) =
      (popQueue k s).setLine i { s.line i with state := .valid, records := s.storeCopy b } := by
  have hline (j : Nat) : (popQueue k s).line j = s.line j := rfl
  have hfound : (List.range Config.lineCount).find?
      (fun i => decide (((popQueue k s).line i).state = .fetching) && ((popQueue k s).line i).block == some b)
        = some i :=
    findLine_first hi (by simp [hline, hfetching, hblock]) (fun j hj => by simpa [hline, imp_iff_not_or] using hfirst j hj)
  unfold fetched
  rw [hfound]
  rfl

/-- Settles O14: the fetched line rests with its waiters, and the buffer's further work keeps it. -/
theorem fetchCompletes : Obligations.FetchCompletes := by
  unfold Obligations.FetchCompletes
  intro s bank b i rest hqueue hi hfetching hblock hfirst hwaiters
  obtain ⟨m, hm⟩ : ∃ m, m = fetched b (popQueue bank.toNat s) := ⟨_, rfl⟩
  have hexec : exec (.fetchComplete bank) s = .next (finish s (afterCompletion { st := m })) := by
    show execFetchComplete bank s = _
    unfold execFetchComplete event fetchComplete
    dsimp only
    rw [hqueue, hm]
    rfl
  rw [fetched_first hi hfetching hblock hfirst] at hm
  have hline (j : Nat) : m.line j =
      if j = i then { s.line i with state := .valid, records := s.storeCopy b } else s.line j := by
    rw [hm, line_setLine]
    rfl
  have hself : m.line i = { s.line i with state := .valid, records := s.storeCopy b } := (hline i).trans (if_pos rfl)
  have hresting (j : Nat) : Resting (m.line j) ↔ Resting (s.line j) := by
    by_cases hj : j = i
    · subst hj
      rw [hself]
      simp [Resting, hfetching, hwaiters]
    · rw [hline, if_neg hj]
  have hstate : ∃ b c v, m = { s with buffer := b, store := { s.store with copies := c, valid := v } } := ⟨_, _, _, hm⟩
  have hwait : m.buffer.waitList = s.buffer.waitList := by rw [hm]; rfl
  obtain ⟨hbooks, hworks, hcopies, hvalid⟩ := completed_of_event hstate hwait
  obtain ⟨hown, hothers⟩ := queues_of_popped (m := m) hqueue (by rw [hm]; rfl) hworks.grows
  refine ⟨_, hexec, hbooks, hcopies.trans (by rw [hm]; rfl), hvalid.trans (by rw [hm]; rfl), ?_, fun j hj hr => ?_, ?_,
    hown, hothers⟩
  · rw [← hself]
    exact hworks.lines i (by rw [hself]; exact .inr (.inr ⟨LineState.noConfusion, hwaiters⟩))
  · have hsame : m.line j = s.line j := (hline j).trans (if_neg hj)
    rw [← hsame]
    exact hworks.lines j (hsame ▸ hr)
  · rw [restingRank_of_lines hresting, hworks.rank, ← restingRank_of_lines hresting]
    unfold restingRank
    rw [hm]
    rfl

/-! ### Write-backs (R52 to R54) -/

/-- Settles O15: nothing else happens in the event that starts a chosen line's write-back. -/
theorem writeBackStarts : Obligations.WriteBackStarts := by
  unfold Obligations.WriteBackStarts
  intro s line b i l marks carried hdirty hblock hroom hchosen
  have hcan : canWriteBack s i = true := by
    have hplace : bankHasRoom s b = true := decide_eq_true hroom
    have hstate : (s.line i).state = .dirty := hdirty
    have hown : (s.line i).block = some b := hblock
    simp [canWriteBack, hstate, hown, hplace]
  have hchoice : (flushChooses s i || (decide (writingIdle s < linesWanted s) && evictChoice s == some i)) = true := by
    simpa using hchosen
  have hevent : writeBackStart i { st := s } = ({ st := s } : Event).upd (startWriteBack i) := by
    unfold writeBackStart
    rw [if_pos (by rw [hcan, hchoice]; rfl)]
  obtain ⟨c, hc⟩ := startWriteBack_only i s
  have hload : committedLoad (startWriteBack i s) = committedLoad s := by rw [hc]; rfl
  have hstart : startWriteBack i s = (s.setLine i { l with state := .writing, dirty := 0, changed := false }).setQueue (b % 4)
      (s.queue (b % 4) ++ [.writeBack b marks carried]) := by
    unfold startWriteBack
    dsimp only
    rw [hblock]
    rfl
  show execWriteBackStart line s = _
  unfold execWriteBackStart event
  rw [hevent, finish_silent _ _ rfl rfl rfl rfl hload, ← hstart]
  rfl

/-- R52: the records that a write-back's marks name are the carried ones, and the others stay. -/
theorem recordOf_merged (marks : BitVec 8) (carried old : Block) {k : Nat} (hk : k < 8) :
    recordOf (merged marks carried old) k = if marks.getLsbD k then recordOf carried k else recordOf old k := by
  have hfold (l : List Nat) (b : Block) :
      recordOf (l.foldl (fun b i => if marks.getLsbD i then put unissued b i (recordOf carried i) else b) b) k
        = if k ∈ l ∧ marks.getLsbD k then recordOf carried k else recordOf b k := by
    induction l generalizing b with
    | nil => simp
    | cons i l ih =>
      rw [List.foldl_cons, ih]
      by_cases hl : k ∈ l ∧ marks.getLsbD k = true
      · rw [if_pos hl, if_pos ⟨List.mem_cons_of_mem _ hl.1, hl.2⟩]
      · rw [if_neg hl]
        by_cases hi : k = i
        · subst hi
          cases hmark : marks.getLsbD k <;> simp [recordOf]
        · have hmem : k ∈ i :: l ∧ marks.getLsbD k = true ↔ k ∈ l ∧ marks.getLsbD k = true := by
            rw [List.mem_cons, or_iff_right hi]
          rw [if_congr hmem rfl rfl, if_neg hl]
          split
          · unfold recordOf
            rw [look_put_other _ _ _ hi]
          · rfl
  unfold merged
  rw [hfold]
  simp [hk]

theorem isValid_storeWritten (b : Nat) (marks : BitVec 8) (carried : Block) (s : State) (c : Nat) :
    (storeWritten b marks carried s).isValid c = true ↔ c = b ∨ s.isValid c = true := by
  simp only [State.isValid, storeWritten, List.contains_iff_mem, mem_addMark]

/-- R52: what a line becomes whose write-back is complete. -/
def afterWriting (l : Line) : Line := { l with state := if l.changed then .dirty else .valid, changed := false }

/-- R52: a completed write-back changes the first line that was WRITING its block, if there is one. -/
theorem writtenLine_cases (b : Nat) (s : State) :
    (writtenLine b s = s ∧ ∀ i < 32, ¬ ((s.line i).state = .writing ∧ (s.line i).block = some b))
    ∨ ∃ i < 32, writtenLine b s = s.setLine i (afterWriting (s.line i))
        ∧ (s.line i).state = .writing ∧ (s.line i).block = some b
        ∧ ∀ j < i, ¬ ((s.line j).state = .writing ∧ (s.line j).block = some b) := by
  unfold writtenLine
  split
  · next i hfound =>
    rw [List.find?_range_eq_some] at hfound
    obtain ⟨hi, hlt, hfirst⟩ := hfound
    simp only [Bool.and_eq_true, decide_eq_true_eq, beq_iff_eq] at hi
    refine .inr ⟨i, List.mem_range.mp hlt, rfl, hi.1, hi.2, fun j hj => ?_⟩
    simpa [imp_iff_not_or] using hfirst j hj
  · next hfound =>
    rw [List.find?_range_eq_none] at hfound
    exact .inl ⟨rfl, fun i hi => by simpa [imp_iff_not_or] using hfound i hi⟩

/-- Settles O16: the store copy is merged, and the written line rests, or is claimable, in its new state. -/
theorem writeBackCompletes : Obligations.WriteBackCompletes := by
  unfold Obligations.WriteBackCompletes
  intro s bank b marks carried rest hqueue
  obtain ⟨w, hw⟩ : ∃ w, w = storeWritten b marks carried (popQueue bank.toNat s) := ⟨_, rfl⟩
  obtain ⟨m, hm⟩ : ∃ m, m = writtenLine b w := ⟨_, rfl⟩
  have hexec : exec (.writeBackComplete bank) s = .next (finish s (afterCompletion { st := m })) := by
    show execWriteBackComplete bank s = _
    unfold execWriteBackComplete event writeBackComplete
    dsimp only
    rw [hqueue, hm, hw]
    rfl
  have hlines (j : Nat) : w.line j = s.line j := by rw [hw]; rfl
  have hcopy (c : Nat) : w.storeCopy c = if c = b then merged marks carried (s.storeCopy b) else s.storeCopy c := by
    rw [hw]
    exact look_put _ _ _ _ _
  have hmarks (c : Nat) : w.isValid c = true ↔ c = b ∨ s.isValid c = true := by
    rw [hw]
    exact isValid_storeWritten _ _ _ _ _
  have hcases := writtenLine_cases b w
  rw [← hm] at hcases
  have hbuffer : ∃ c, m = { w with buffer := { w.buffer with lines := c } } := by
    obtain ⟨h, -⟩ | ⟨i, -, h, -⟩ := hcases
    · exact ⟨_, h⟩
    · exact ⟨_, h⟩
  obtain ⟨c, hc⟩ := hbuffer
  have hstate : ∃ b c v, m = { s with buffer := b, store := { s.store with copies := c, valid := v } } := by
    rw [hc, hw]
    exact ⟨_, _, _, rfl⟩
  have hwait : m.buffer.waitList = s.buffer.waitList := by rw [hc, hw]; rfl
  obtain ⟨hbooks, hworks, hcopies, hvalid⟩ := completed_of_event hstate hwait
  obtain ⟨hown, hothers⟩ := queues_of_popped (m := m) hqueue (by rw [hc, hw]; rfl) hworks.grows
  obtain ⟨t, ht⟩ : ∃ t, t = finish s (afterCompletion { st := m }) := ⟨_, rfl⟩
  rw [← ht] at hexec hbooks hworks hcopies hvalid hown hothers
  have htcopy (a : Nat) : t.storeCopy a = w.storeCopy a := by
    unfold State.storeCopy
    rw [hcopies, hc]
  have htvalid (a : Nat) : t.isValid a = w.isValid a := by
    unfold State.isValid
    rw [hvalid, hc]
  refine ⟨t, hexec, hbooks, fun k hk => ?_, fun a ha => ?_, ?_, fun a ha => ?_, hown, hothers,
    fun i hi hwriting hblock hfirst hrests => ?_, fun j hj hnot => ?_⟩
  · rw [htcopy, hcopy, if_pos rfl, recordOf_merged _ _ _ hk]
  · rw [htcopy, hcopy, if_neg ha]
  · rw [htvalid, hmarks]
    exact .inl rfl
  · rw [htvalid, Bool.eq_iff_iff, hmarks, or_iff_right ha]
  · obtain ⟨-, hnone⟩ | ⟨j, hj, hset, hjw, hjb, hjfirst⟩ := hcases
    · exact absurd ⟨(hlines i).symm ▸ hwriting, (hlines i).symm ▸ hblock⟩ (hnone i hi)
    · simp only [hlines] at hset hjw hjb hjfirst
      have hij : j = i := by
        rcases Nat.lt_trichotomy j i with h | h | h
        · exact absurd ⟨hjw, hjb⟩ (hfirst j h)
        · exact h
        · exact absurd ⟨hwriting, hblock⟩ (hjfirst i h)
      subst hij
      have hself : m.line j = afterWriting (s.line j) := by rw [hset, line_setLine, if_pos rfl]
      show LineKept (afterWriting (s.line j)) t j
      rw [← hself]
      refine hworks.lines j ?_
      rw [hself]
      obtain hchanged | hwaits := hrests
      · exact .inl (if_pos hchanged)
      · refine .inr (.inr ⟨?_, hwaits⟩)
        unfold afterWriting
        split <;> exact LineState.noConfusion
  · have hsame : m.line j = s.line j := by
      obtain ⟨h, -⟩ | ⟨i, hi, hset, hiw, hib, -⟩ := hcases
      · rw [h, hlines]
      · simp only [hlines] at hset hiw hib
        have hji : j ≠ i := fun h => hnot ⟨h ▸ hi, h ▸ hiw, h ▸ hib⟩
        rw [hset, line_setLine, if_neg hji, hlines]
    rw [← hsame]
    exact hworks.lines j (hsame ▸ hj)

end Sys2Proof.Proofs.RecordBuffer
end

section
/-! PROOFS. The step, the power-on reset, and the commands of the loading sequence (00_scope, 1.2, 3.4). -/

namespace Sys2Proof.Proofs.ResetAndLoading

open Sys2Proof Sys2Proof.Machine

/-- Settles O20: the step's own two equations. -/
theorem stepRunsTheFrontCommand : Obligations.StepRunsTheFrontCommand := by
  unfold Obligations.StepRunsTheFrontCommand
  refine ⟨fun c rest s => rfl, fun s hempty => ?_⟩
  unfold step
  rw [hempty]

/-! ### Power-on reset (R133, R176) -/

theorem nothing_or (c : Categories) : 0 ||| c = c := BitVec.zero_or

/-- An event that moves neither the shadow bank nor the closing set raises what it is given to raise. -/
theorem raises_more {before s : State} {e : Event} {more : Categories} (hshadow : e.st.tables.shadow = s.tables.shadow)
    (hclosing : e.st.cycle.closing = s.cycle.closing) (hraised : e.raised = more) (hdemanded : e.demanded = 0)
    (hnotices : e.st.notices = s.notices) (hlatch : before.notices.latch = s.notices.latch)
    (hsent : e.st.oTx = s.oTx ∧ e.st.oCount = s.oCount ∧ e.st.draws = s.draws)
    (hlevel : e.st.journalOut.level = s.journalOut.level) : Raises before s e more :=
  ⟨by rw [tableRaised_same hshadow, cycleRaised_same hclosing, or_nothing, nothing_or, hraised], hdemanded, hnotices,
    hlatch, hsent, hlevel⟩

/-- The reset's own event: RESET_SEEN is raised into the power-on values. -/
theorem powerOn_raises (straps : BitVec 4) (s : State) : Raises (powerOn straps s) (powerOn straps s)
    (({ st := powerOn straps s } : Event).raising catReset) catReset :=
  raises_more rfl rfl (nothing_or catReset) rfl rfl rfl ⟨rfl, rfl, rfl⟩ rfl

/-- An event that moves neither the level, the shadow bank nor the closing set raises what is given alone. -/
theorem raisedIn_more {s t : State} (hlevel : t.journalOut.level = s.journalOut.level)
    (hshadow : t.tables.shadow = s.tables.shadow) (hclosing : t.cycle.closing = s.cycle.closing) (more : Categories) :
    raisedIn s t more = more := by
  rw [raisedIn_eq, tableRaised_same hshadow, cycleRaised_same hclosing, if_pos hlevel, or_nothing, or_nothing,
    nothing_or]

/-- Settles O21: the event changes the power-on values by its notice alone. -/
theorem powerOnResetRestoresEveryBlock : Obligations.PowerOnResetRestoresEveryBlock := by
  unfold Obligations.PowerOnResetRestoresEveryBlock
  intro s straps
  obtain ⟨p, hp⟩ : ∃ p, p = powerOn straps s := ⟨_, rfl⟩
  obtain ⟨e, he⟩ : ∃ e, e = ({ st := powerOn straps s } : Event).raising catReset := ⟨_, rfl⟩
  obtain ⟨t, ht⟩ : ∃ t, t = finish (powerOn straps s) e := ⟨_, rfl⟩
  have hexec : exec (.powerOnReset straps) s = .next t := by
    rw [ht, he]
    rfl
  have hraises := powerOn_raises straps s
  rw [← he] at hraises
  have hlevel : t.journalOut.level = .normal := by
    rw [ht, finish_level_same _ _ (by rw [he]; rfl), he]
    rfl
  have hnoticed := finish_noticed hraises (by rw [he]; rfl)
  have hbut := finish_sameBut (powerOn straps s) e (by rw [he]; rfl)
  rw [← ht] at hnoticed hbut
  unfold SameBut at hbut
  have hst : e.st = powerOn straps s := by rw [he]; rfl
  rw [hst, hlevel] at hbut
  have hraised : raisedIn (powerOn straps s) t catReset = catReset :=
    raisedIn_more hlevel (by rw [hbut]) (by rw [hbut]) catReset
  obtain ⟨-, hsent, hlatch, hmasks, hdraws⟩ := hnoticed
  rw [hraised] at hsent hlatch
  obtain ⟨hoTx, hoCount, hnumber⟩ := hsent (show catReset &&& ~~~(0 : Categories) &&& ~~~(0 : Categories) ≠ 0 by decide)
  have hnotices : t.notices = { latch := catReset, masks := 0, number := 1 } := by
    rw [← show (⟨t.notices.latch, t.notices.masks, t.notices.number⟩ : Notices) = t.notices from rfl, hlatch, hmasks,
      hnumber]
    exact congrArg (fun c => (⟨c, 0, 1⟩ : Notices)) (nothing_or catReset)
  refine ⟨t, hexec, hbut.trans ?_⟩
  rw [hoTx, hoCount, hnotices, hdraws]
  rfl

/-! ### The loading commands (R40, R42) -/

section
variable {s : State} (tag : BitVec 16)

/-- R171: what an idle unit without a pending FIRST runs, a CARD LOAD in READY excepted. -/
theorem command_open (h : s.unitFree) {code : BitVec 8} (hr : ¬ ((code = 0x11 ∨ code = 0x12) ∧ s.store.phase = .ready))
    (body : Event → Event) : command code tag body s = finish s (body (arrived s)) := by
  obtain ⟨hprogress, hfirst⟩ := h
  have hgate : unitGate code tag false body (arrived s) = body (arrived s) := by
    have hphase : ((code == 0x11 || code == 0x12) && decide ((arrived s).st.store.phase = .ready)) = false := by
      rw [Bool.eq_false_iff]
      intro hready
      simp only [Bool.and_eq_true, Bool.or_eq_true, beq_iff_eq, decide_eq_true_eq] at hready
      exact hr hready
    unfold unitGate
    rw [hphase]
    simp [arrived, countArrival, hprogress, hfirst]
  exact congrArg (finish s) hgate

/-- R171 step 3: a CARD LOAD in READY is refused. -/
theorem command_wrongState (h : s.unit.progress = none) {code : BitVec 8} (hc : code = 0x11 ∨ code = 0x12)
    (hready : s.store.phase = .ready) (body : Event → Event) :
    command code tag body s = refusedWith code tag .wrongState s := by
  have hgate : unitGate code tag false body (arrived s) = refuse code tag .wrongState (arrived s) := by
    have hload : (code == 0x11 || code == 0x12) = true := by simpa using hc
    unfold unitGate
    rw [hload]
    simp [arrived, countArrival, h, hready]
  exact (congrArg (finish s) hgate).trans (finish_refuse (u := s) (e := arrived s) rfl rfl rfl rfl rfl code tag .wrongState)

end

/-- Settles O44: each command by the store state, and a FIRST by its block. -/
theorem loadingCommands : Obligations.LoadingCommands := by
  unfold Obligations.LoadingCommands
  intro s tag block images hfree
  refine ⟨fun hphase => ⟨?_, ?_, fun hblock => ?_, fun hblock => ?_⟩, fun hready => ⟨?_, ?_, ?_⟩⟩
  · exact congrArg Host.Outcome.next (command_accepted hfree rfl tag (doBeginLoad tag) (fun _ => [])
      (u := modifyStore (fun t => { t with phase := .loading }) s) (if_neg hphase) rfl)
  · exact congrArg Host.Outcome.next (command_accepted hfree rfl tag (doStoreReady tag) (fun _ => [])
      (u := modifyStore (fun t => { t with phase := .ready }) s) (if_neg hphase) rfl)
  · have hbody : doCardLoadFirst tag block images (arrived s) = accept 0x11 tag (fun _ => octets 3 block.toNat)
        ((arrived s).upd fun s => modifyStore (fun t => { t with phase := .loading })
          { s with unit := { s.unit with first := some { block := block.toNat, images := images } } }) := if_pos hblock
    refine congrArg Host.Outcome.next ((command_open tag hfree (fun h => hphase h.2) _).trans ?_)
    rw [hbody]
    exact finish_accept (u := { s with
      store := { s.store with phase := .loading }
      unit := { s.unit with first := some { block := block.toNat, images := images } } }) rfl rfl rfl rfl rfl _ _ _
  · have hbody : doCardLoadFirst tag block images (arrived s) = refuse 0x11 tag .badField (arrived s) :=
      if_neg hblock.not_gt
    refine congrArg Host.Outcome.next ((command_open tag hfree (fun h => hphase h.2) _).trans ?_)
    rw [hbody]
    exact finish_refuse (u := s) rfl rfl rfl rfl rfl _ _ _
  · exact congrArg Host.Outcome.next (command_refused hfree rfl tag (doBeginLoad tag) .wrongState (if_pos hready))
  · exact congrArg Host.Outcome.next (command_refused hfree rfl tag (doStoreReady tag) .wrongState (if_pos hready))
  · exact congrArg Host.Outcome.next (command_wrongState tag hfree.1 (.inl rfl) hready _)

end Sys2Proof.Proofs.ResetAndLoading
end

section
/-! PROOFS. The management commands that read: the queues, the tables, the holds, the entries and the rows (10.2, 7.6). -/

namespace Sys2Proof.Proofs.ReadCommands

open Sys2Proof Sys2Proof.Machine

/-! ### Commands that answer and change nothing -/

section
variable {s : State} (h : s.unitFree) {c : Instr} {code : BitVec 8} {tag : BitVec 16} {body : Event → Event}
include h

/-- R171: a command that an idle unit takes and that answers what it finds. -/
theorem exec_read (hc : (code == 0x11 || code == 0x12) = false) (hexec : exec c s = .next (command code tag body s))
    {fields : State → List Octet} (hb : body (arrived s) = accept code tag fields (arrived s)) {answer : List Octet}
    (hf : fields (countArrival s) = answer) : exec c s = .next (accepted code tag answer s) := by
  rw [hexec, command_accepted h hc tag body fields hb rfl, hf]

/-- R172: a command that an idle unit refuses by its own checks. -/
theorem exec_refused (hc : (code == 0x11 || code == 0x12) = false)
    (hexec : exec c s = .next (command code tag body s)) {r : RefusalCode}
    (hb : body (arrived s) = refuse code tag r (arrived s)) : exec c s = .next (refusedWith code tag r s) := by
  rw [hexec, command_refused h hc tag body r hb]

end

theorem yesNo_eq (b : Bool) : yesNo b = [if b then 1 else 0] := by cases b <;> rfl

/-! ### The queues (R151, R153, R185) -/

/-- R153: the EMPTY marker, in the words of the statements. -/
theorem emptyMarker_eq (s : State) : emptyMarker s =
    [0xFF, if s.cycle.closing ≠ .none then 1 else 0] ++ octets 1 (closingCode s.cycle.closing)
      ++ octets 1 (engineCode s.payout.engine)
      ++ octets 4 (if s.cycle.closing ≠ .none then (s.cycle.number - 1).toNat else 0) := by
  unfold emptyMarker
  by_cases hclosing : s.cycle.closing = .none
  · simp [hclosing]
    rfl
  · simp [hclosing]
    rfl

theorem queueOctets_take {α : Type} (s : State) (f : α → List Octet) (l : List α) (n : Nat) :
    queueOctets s ((l.take (n + 1)).map f) =
      octets 1 (min l.length (n + 1))
        ++ (if l = [] then emptyMarker s else ((l.take (n + 1)).map f).flatten) := by
  unfold queueOctets
  rw [List.length_map, List.length_take, Nat.min_comm]
  cases l <;> rfl

/-! ### TABLE READ (R34) -/

/-- The tables that a TABLE READ reads, and the figures of the banks behind the entry. -/
def tablesRead (bank : BitVec 8) (s : State) : TableSet :=
  if bank = 0 then (activeBank s.tables).tables else (shadowBank s.tables).tables

def bankFigures (s : State) : List Octet :=
  octets 1 s.tables.generation.toNat ++ octets 1 (shadowCode s.tables.shadow)
    ++ octets 1 (activeBank s.tables).count ++ octets 1 (shadowBank s.tables).count

theorem tablesRead_eq (bank : BitVec 8) (s : State) :
    (if bank = 0#8 then activeBank s.tables else shadowBank s.tables).tables = tablesRead bank s := by
  unfold tablesRead
  exact apply_ite Bank.tables _ _ _

section
variable {s : State} (h : s.unitFree) {tag : BitVec 16} {bank : BitVec 8} {index : BitVec 16}
include h

theorem exec_tableRead_program (hbank : bank.toNat < 2) (hindex : index.toNat < 16) :
    exec (.tableRead tag bank 0 index) s = .next (accepted 0x25 tag
      (programOctets index.toNat (look {} (tablesRead bank s).programs index.toNat) ++ bankFigures s) s) := by
  refine exec_read h (body := doTableRead tag bank 0 index) rfl rfl (if_pos ?_) ?_
  · exact Bool.and_eq_true_iff.mpr ⟨decide_eq_true hindex, decide_eq_true hbank⟩
  · rw [← tablesRead_eq]
    unfold bankFigures
    simp only [← List.append_assoc]
    rfl

theorem exec_tableRead_class (hbank : bank.toNat < 2) (hindex : index.toNat < 16) :
    exec (.tableRead tag bank 1 index) s = .next (accepted 0x25 tag
      (feeOctets index.toNat (look {} (tablesRead bank s).classes index.toNat) ++ bankFigures s) s) := by
  refine exec_read h (body := doTableRead tag bank 1 index) rfl rfl (if_pos ?_) ?_
  · exact Bool.and_eq_true_iff.mpr ⟨decide_eq_true hindex, decide_eq_true hbank⟩
  · rw [← tablesRead_eq]
    unfold bankFigures
    simp only [← List.append_assoc]
    rfl

theorem exec_tableRead_terms (hbank : bank.toNat < 2) (hindex : index.toNat < 512) :
    exec (.tableRead tag bank 2 index) s = .next (accepted 0x25 tag
      (termsOctets index.toNat (look {} (tablesRead bank s).terms index.toNat) ++ bankFigures s) s) := by
  refine exec_read h (body := doTableRead tag bank 2 index) rfl rfl (if_pos ?_) ?_
  · exact Bool.and_eq_true_iff.mpr ⟨decide_eq_true hindex, decide_eq_true hbank⟩
  · rw [← tablesRead_eq]
    unfold bankFigures
    simp only [← List.append_assoc]
    rfl

/-- R34, R172: a bank, a table or an index out of range is refused. -/
theorem exec_tableRead_badField {table : BitVec 8}
    (hbad : 1 < bank.toNat ∨ 2 < table.toNat ∨ (table.toNat < 2 ∧ 16 ≤ index.toNat) ∨ 512 ≤ index.toNat) :
    exec (.tableRead tag bank table index) s = .next (refusedWith 0x25 tag .badField s) := by
  refine exec_refused h rfl rfl (if_neg ?_)
  rw [Bool.and_eq_true_iff, decide_eq_true_iff]
  rintro ⟨hfits, hbank⟩
  split at hfits
  · next h0 =>
    have := of_decide_eq_true hfits
    omega
  · next h1 =>
    have := of_decide_eq_true hfits
    omega
  · next h2 =>
    have : index.toNat < 512 := of_decide_eq_true hfits
    omega
  · exact Bool.noConfusion hfits

end

/-! ### HOLD READ and ENTRY READ (R98, R103) -/

/-- R98: the figures of the hold block. -/
def holdFigures (s : State) : List Octet :=
  octets 2 s.holds.entries.length ++ [if s.holds.expiring.isSome then 1 else 0]
    ++ octets 4 (s.holds.expiring.getD 0).toNat
    ++ octets 5 (((s.holds.entries.find? (fun h => decide (h.state = .opened))).map (·.expiry)).getD (2 ^ 40 - 1))

/-- R103: the figures of the journal. -/
def ringFigures (s : State) : List Octet := octets 4 s.journal.next.toNat ++ octets 2 s.journal.ring.length

/-- R98: what a HOLD READ says of a reference. -/
def holdFound (ref : BitVec 32) (s : State) : List Octet :=
  match (if ref = 0 then none else s.holds.find ref) with
  | some h => yesNo true ++ holdOctets h
  | none => yesNo false

/-- R103: what an ENTRY READ says of a reference. -/
def entryFound (ref : BitVec 32) (s : State) : List Octet :=
  match s.entryAt ref with
  | some n => yesNo true ++ entryOctets n
  | none => yesNo false

theorem entryAt_none {s : State} {ref : BitVec 32}
    (h : ref = 0 ∨ ∀ entry, look none s.journal.ring (ref.toNat % 8192) = some entry → entry.ref ≠ ref) :
    s.entryAt ref = none := by
  unfold State.entryAt
  split
  · rfl
  · next href =>
    split
    · rfl
    · next entry hentry => exact if_neg (h.resolve_left href entry hentry)

section
variable {s : State} (h : s.unitFree) {tag : BitVec 16} {ref : BitVec 32}
include h

theorem exec_holdRead : exec (.holdRead tag ref) s = .next (accepted 0x30 tag (holdFound ref s ++ holdFigures s) s) := by
  refine exec_read h (body := doHoldRead tag ref) rfl rfl rfl ?_
  unfold holdFigures
  rw [← yesNo_eq]
  simp only [← List.append_assoc]
  rfl

theorem exec_entryRead : exec (.entryRead tag ref) s = .next (accepted 0x31 tag (entryFound ref s ++ ringFigures s) s) := by
  refine exec_read h (body := doEntryRead tag ref) rfl rfl rfl ?_
  unfold ringFigures
  simp only [← List.append_assoc]
  rfl

end

/-- Settles O37: every answer is what its fields say, and nothing else changes. -/
theorem storedEntriesAnswered : Obligations.StoredEntriesAnswered := by
  unfold Obligations.StoredEntriesAnswered
  refine ⟨fun s tag hfree => ⟨?status, ?journal, ?payout⟩, fun s tag hfree => ⟨?tables, ?holds, ?entries⟩⟩
  case status => exact exec_read hfree (body := doStatusRead tag) rfl rfl rfl rfl
  case journal =>
    refine exec_read hfree (body := doJournalRead tag) rfl rfl rfl ?_
    rw [queueOctets_take, emptyMarker_eq, ← List.append_assoc]
    rfl
  case payout =>
    refine exec_read hfree (body := doPayoutRead tag) rfl rfl rfl ?_
    rw [queueOctets_take, emptyMarker_eq, ← List.append_assoc]
    rfl
  case tables =>
    intro bank table index n t figures
    refine ⟨fun hbank => ?_, exec_tableRead_badField hfree⟩
    have hbelow : bank.toNat < 2 := by
      obtain rfl | rfl := hbank
      · decide
      · decide
    refine ⟨?_, ?_, ?_⟩
    · rintro rfl hindex
      exact exec_tableRead_program hfree hbelow hindex
    · rintro rfl hindex
      exact exec_tableRead_class hfree hbelow hindex
    · rintro rfl hindex
      exact exec_tableRead_terms hfree hbelow hindex
  case holds =>
    intro ref figures
    refine ⟨fun g href hg => ?_, fun hnone => ?_⟩
    · have hfound : holdFound ref s = [1] ++ holdOctets g := by
        unfold holdFound Holds.find
        rw [if_neg href, hg]
        rfl
      rw [exec_holdRead hfree, hfound]
      rfl
    · have hfound : holdFound ref s = [0] := by
        have hmissing : (if ref = 0 then none else s.holds.find ref) = none := by
          split
          · rfl
          · next href =>
            refine List.find?_eq_none.mpr fun g hg => ?_
            simpa using hnone.resolve_left href g hg
        unfold holdFound
        rw [hmissing]
        rfl
      rw [exec_holdRead hfree, hfound]
      rfl
  case entries =>
    intro ref figures
    refine ⟨fun entry href hentry hown => ?_, fun hnone => ?_⟩
    · have hfound : entryFound ref s = [1] ++ entryOctets entry := by
        have hat : s.entryAt ref = some entry := by
          unfold State.entryAt
          rw [if_neg href, show look none s.journal.ring (ref.toNat % Config.ringPlaces) = some entry from hentry]
          exact if_pos hown
        unfold entryFound
        rw [hat]
        rfl
      rw [exec_entryRead hfree, hfound]
      rfl
    · have hfound : entryFound ref s = [0] := by
        unfold entryFound
        rw [entryAt_none hnone]
        rfl
      rw [exec_entryRead hfree, hfound]
      rfl

/-! ### ROW READ (R135) -/

/-- Settles O38: the row is checked before the set. -/
theorem rowReadAnswers : Obligations.RowReadAnswers := by
  unfold Obligations.RowReadAnswers
  intro s tag set row hfree which a r fields
  have hcheck (hrow : row.toNat < 512 ∨ row = 0xFFFF) (hset : set.toNat ≤ 1) :
      ¬ (1 < set.toNat ∨ (Config.shopCount ≤ row.toNat ∧ row ≠ 0xFFFF#16)) := by
    rintro (h | ⟨h1, h2⟩)
    · omega
    · obtain h | h := hrow
      · exact Nat.not_lt.mpr h1 h
      · exact h2 h
  refine ⟨fun hrow hset => ?_, fun hrow hset hclosing => ?_, fun hbad => ?_⟩
  · have hle : set.toNat ≤ 1 := by
      obtain rfl | ⟨rfl, -⟩ := hset
      · decide
      · decide
    have hstands : ¬ (set = 1#8 ∧ s.cycle.closing = .none) := by
      rintro ⟨rfl, hnone⟩
      obtain h | ⟨-, h⟩ := hset
      · exact absurd h (by decide)
      · exact h hnone
    refine exec_read hfree (body := doRowRead tag set row) rfl rfl ((if_neg (hcheck hrow hle)).trans (if_neg hstands)) ?_
    have hwhich : (if set = 0#8 then s.cycle.current else closingSet s.cycle) = which := rfl
    have ha : s.cycle.set which = a := by
      show _ = if which = .x then s.cycle.setX else s.cycle.setY
      cases which <;> rfl
    have hcode : octets 1 (setCode which) = [if which = .x then 0 else 1] := by
      cases which <;> rfl
    have hmark : yesNo a.mall.saturated = [if a.mall.saturated then 1 else 0] := yesNo_eq _
    have hrowMark : yesNo r.saturated = [if r.saturated then 1 else 0] := yesNo_eq _
    show (if row = 0xFFFF#16 then mallOctets (s.cycle.set which).mall
        else rowOctets ((s.cycle.set which).row row.toNat) ++ yesNo ((s.cycle.set which).row row.toNat).saturated)
        ++ octets 1 (setCode which) ++ _ ++ _ ++ _ ++ _ ++ _ = _
    rw [ha, hcode]
    show (if row = 0xFFFF#16 then octets 6 a.mall.adjustUp ++ octets 6 a.mall.adjustDown
        ++ octets 5 a.mall.floatAtFreeze.toNat ++ yesNo a.mall.saturated
        else rowOctets r ++ yesNo r.saturated) ++ _ ++ _ ++ _ ++ _ ++ _ ++ _ = _
    rw [hmark, hrowMark]
    rfl
  · obtain rfl := hset
    exact exec_refused hfree (body := doRowRead tag 1 row) rfl rfl
      ((if_neg (hcheck hrow (by decide))).trans (if_pos ⟨rfl, hclosing⟩))
  · exact exec_refused hfree (body := doRowRead tag set row) rfl rfl (if_pos hbad)

end Sys2Proof.Proofs.ReadCommands
end

section
/-! PROOFS. COUNTER READ, COUNTER CLEAR and SHOP SCAN (9.7). -/

namespace Sys2Proof.Proofs.Counters

open Sys2Proof Sys2Proof.Machine Sys2Proof.Proofs.ReadCommands

/-- The cause set of a shop as an octet (R190). -/
theorem causeOctet_eq (r : Shop) :
    causeOctet r = [(if r.management then 1 else 0) + (if r.alarmCause then 2 else 0)] := by
  unfold causeOctet
  cases r.management <;> cases r.alarmCause <;> rfl

/-! ### COUNTER READ and COUNTER CLEAR (R167, R168) -/

section
variable {s : State} (h : s.unitFree) {c : Instr} {code : BitVec 8} {tag : BitVec 16} {body : Event → Event}
include h

/-- R171: a command that an idle unit takes, that changes `s` to `u` and answers fields taken before the change. -/
theorem exec_written (hc : (code == 0x11 || code == 0x12) = false)
    (hexec : exec c s = .next (command code tag body s)) {u : State} {answer : List Octet}
    (hb : body (arrived s) = accept code tag (fun _ => answer) { st := countArrival u })
    (hload : committedLoad u = committedLoad s) : exec c s = .next (accepted code tag answer u) := by
  rw [hexec, command_accepted h hc tag body (fun _ => answer) hb hload]

/-- R168: a command that clears both sets of global counters, its answer counted after the clear. -/
theorem exec_emptied (hc : (code == 0x11 || code == 0x12) = false)
    (hexec : exec c s = .next (command code tag body s)) {answer : List Octet}
    (hb : body (arrived s) = accept code tag (fun _ => answer) ((arrived s).upd clearGlobal)) :
    exec c s = .next { s with
      oTx := s.oTx ++ [replyFrame s { code := code, tag := tag, fields := fun _ => answer }]
      sCount := {}, oCount := { answers := 1 } } := by
  rw [hexec, command_free h hc, hb]
  refine congrArg Host.Outcome.next (finish_quiet s (accept code tag (fun _ => answer) ((arrived s).upd clearGlobal))
    { code := code, tag := tag, fields := fun _ => answer } rfl rfl rfl rfl rfl)

end

/-- R167, log 31: what COUNTER READ answers of a shop, in the words of the statements. -/
theorem shopCounterAnswer_eq (n : Nat) (s : State) :
    shopCounterAnswer n s = octets 4 (s.shop n).admitted.toNat ++ octets 4 (s.shop n).declines.toNat
      ++ octets 4 (s.shop n).faults.toNat ++ octets 1 (modeCode (s.shop n).mode)
      ++ [(if (s.shop n).management then 1 else 0) + (if (s.shop n).alarmCause then 2 else 0)]
      ++ octets 1 (alarmCode (s.shop n).alarm) ++ octets 2 (s.shop n).windowFaults ++ octets 1 (s.shop n).badWindows
      ++ octets 1 (s.shop n).goodWindows ++ octets 1 s.supervision.trip ++ octets 1 s.supervision.t1
      ++ octets 1 s.supervision.t2 ++ octets 2 (Config.counterTail s.draws).toNat := by
  rw [← causeOctet_eq]
  rfl

theorem not_global {selector : BitVec 16} (h : selector.toNat < 512) : selector ≠ 0xFFFF#16 ∧ selector ≠ 0xFFFE#16 := by
  constructor
  · rintro rfl
    exact absurd h (by decide)
  · rintro rfl
    exact absurd h (by decide)

theorem look_cleared {t : Tbl Shop} (h : canonical {} t = true) (m : Nat) :
    look {} (remap {} (fun _ r => clearShopCounters r) t) m = clearShopCounters (look {} t m) :=
  look_remap {} (fun _ r => clearShopCounters r) t m h rfl

/-! ### SHOP SCAN (R169) -/

theorem range_drop (n k : Nat) : (List.range n).drop k = (List.range n).filter (fun i => decide (k ≤ i)) := by
  by_cases hk : k ≤ n
  · obtain ⟨d, rfl⟩ := Nat.exists_eq_add_of_le hk
    have hlow : (List.range k).filter (fun i => decide (k ≤ i)) = [] := by
      rw [List.filter_eq_nil_iff]
      intro i hi
      simpa using List.mem_range.mp hi
    have hhigh : ((List.range d).map (k + ·)).filter (fun i => decide (k ≤ i)) = (List.range d).map (k + ·) := by
      rw [List.filter_eq_self]
      intro i hi
      obtain ⟨j, -, rfl⟩ := List.mem_map.mp hi
      exact decide_eq_true (Nat.le_add_right k j)
    rw [List.range_add, List.filter_append, hlow, hhigh, List.nil_append]
    exact List.drop_left' List.length_range
  · have hnone : (List.range n).filter (fun i => decide (k ≤ i)) = [] := by
      rw [List.filter_eq_nil_iff]
      intro i hi
      have := List.mem_range.mp hi
      simp only [decide_eq_true_eq]
      omega
    rw [hnone, List.drop_eq_nil_iff, List.length_range]
    omega

theorem scanFrom_eq (s : State) (start : Nat) : scanFrom s start =
    ((List.range 512).filter (fun n => decide (start ≤ n) && scanned (s.shop n))).take 8 := by
  unfold scanFrom
  rw [range_drop, List.filter_filter]
  congr 2
  funext n
  exact Bool.and_comm _ _

/-- R169: the next shop number, in the words of the statements. -/
theorem scanNext_eq (s : State) (start : Nat) : (scanNext s start).getD 0xFFFF =
    if (scanFrom s start).length = 8 ∧ (scanFrom s start).getLast? ≠ some 511
      then (scanFrom s start).getLast?.elim 0xFFFF (· + 1) else 0xFFFF := by
  have hle : (scanFrom s start).length ≤ 8 := by
    unfold scanFrom
    exact List.length_take_le _ _
  unfold scanNext
  cases hlast : (scanFrom s start).getLast? with
  | none => simp
  | some n =>
    have hiff : (scanFrom s start).length < 8 ∨ n + 1 = Config.shopCount
        ↔ ¬ ((scanFrom s start).length = 8 ∧ some n ≠ some 511) := by
      have hcount : Config.shopCount = 512 := rfl
      rw [hcount, ne_eq, Option.some.injEq]
      omega
    dsimp only
    rw [if_congr hiff rfl rfl, ite_not]
    split <;> rfl

/-- Settles O39: each command by its selector and flag, and the scan by its list. -/
theorem countersAndShopScan : Obligations.CountersAndShopScan := by
  unfold Obligations.CountersAndShopScan
  refine ⟨fun s tag selector flags hfree => ?counters, fun s tag shop hfree => ?scan⟩
  case counters =>
    intro n r clear shopFields a b global emptied
    have hfields : shopCounterAnswer n (arrived s).st = shopFields := shopCounterAnswer_eq n s
    refine ⟨fun hn hflags => ?_, fun hn hflags => ?_, fun hall hflags => ?_, fun hall hflags => ?_, fun hbad => ?_,
      fun hn => ?_, fun hshops hcanonical => ?_, fun hall => ?_, fun hn h1 h2 => ?_⟩
    · subst hflags
      refine exec_written hfree (body := doCounterRead tag selector 0) rfl rfl ?_ rfl
      rw [← hfields]
      exact (if_neg (not_global hn).1).trans (if_pos hn)
    · subst hflags
      refine exec_written hfree (body := doCounterRead tag selector 1) rfl rfl ?_ rfl
      rw [← hfields]
      exact (if_neg (not_global hn).1).trans (if_pos hn)
    · subst hall hflags
      exact exec_read hfree (body := doCounterRead tag 0xFFFF 0) rfl rfl (fields := fun _ => global) rfl rfl
    · subst hall hflags
      exact exec_emptied hfree (body := doCounterRead tag 0xFFFF 1) rfl rfl rfl
    · refine exec_refused hfree (body := doCounterRead tag selector flags) rfl rfl ?_
      obtain hflags | ⟨hn, hall⟩ := hbad
      · exact if_pos (Nat.not_lt.mpr hflags)
      · unfold doCounterRead
        dsimp only
        split
        · rfl
        · exact (if_neg hall).trans (if_neg hn.not_gt)
    · refine exec_written hfree (body := doCounterClear tag selector) rfl rfl (answer := []) ?_ rfl
      exact (if_neg (not_global hn).1).trans ((if_neg (not_global hn).2).trans (if_pos hn))
    · subst hshops
      exact ⟨remap {} (fun _ r => clearShopCounters r) s.supervision.shops, exec_written hfree (body := doCounterClear tag 0xFFFE) rfl rfl (answer := [])
        rfl rfl,
        look_cleared hcanonical⟩
    · subst hall
      exact exec_emptied hfree (body := doCounterClear tag 0xFFFF) rfl rfl (answer := []) rfl
    · exact exec_refused hfree (body := doCounterClear tag selector) rfl rfl
        ((if_neg h2).trans ((if_neg h1).trans (if_neg hn.not_gt)))
  case scan =>
    intro holds all listed next alarms stopped
    refine ⟨fun hn => ?_, fun hn => exec_refused hfree (body := doShopScan tag shop) rfl rfl (if_neg hn.not_gt)⟩
    refine exec_read hfree (body := doShopScan tag shop) rfl rfl (if_pos hn) ?_
    have hlisted : scanFrom s shop.toNat = listed := scanFrom_eq s shop.toNat
    have hnext : (scanNext s shop.toNat).getD 0xFFFF = next := by
      rw [scanNext_eq, hlisted]
    show ((scanFrom s shop.toNat).map _).flatten ++ octets 2 ((scanNext s shop.toNat).getD 0xFFFF) ++ octets 2 alarms
      ++ octets 2 stopped = _
    rw [hlisted, hnext]
    simp only [causeOctet_eq]
    rfl

end Sys2Proof.Proofs.Counters
end

section
/-! PROOFS. The management commands of the notices, the shops and the link (9.2, 10.4, 10.8). -/

namespace Sys2Proof.Proofs.ShopCommands

open Sys2Proof Sys2Proof.Machine Sys2Proof.Proofs.ReadCommands Sys2Proof.Proofs.Counters
open Sys2Proof.Proofs.Configuration (command_linkReset)
open Sys2Proof.Proofs.ResetAndLoading (nothing_or raisedIn_more)

/-! ### Answers with a notice of their own (R176, R177, R182) -/

section
variable {before : State} {e : Event} {r : Reply}

theorem settled_same_load (hload : committedLoad e.st = committedLoad before) :
    settled before e = latchNotices before e := by
  unfold settled evaluateLevel
  rw [if_pos hload]

/-- R176: an event that leaves the committed load, answers a command and has no notice due. -/
theorem finish_undue (hgift : e.gift = none) (hreply : e.reply = some r)
    (hload : committedLoad e.st = committedLoad before) (hr : FieldsSettled r) (hdue : noticeDue before e = false) :
    SameBut e.st (finish before e) ∧ (finish before e).journalOut.level = e.st.journalOut.level
      ∧ (finish before e).notices = { e.st.notices with latch := e.st.notices.latch ||| e.raised }
      ∧ (finish before e).oCount = { e.st.oCount with
          answers := e.st.oCount.answers + 1
          refusals := if r.refusal.isSome then e.st.oCount.refusals + 1 else e.st.oCount.refusals }
      ∧ (finish before e).oTx = e.st.oTx ++ [replyFrame (finish before e) r] := by
  have hframe : replyFrame (finish before e) r = replyFrame (latchNotices before e) r :=
    settled_same_load hload ▸ replyFrame_sent (finish_only before e) hr
  have hend : finish before e = sendReply (replyFrame (latchNotices before e) r) r.refusal.isSome
      (latchNotices before e) := by
    unfold finish evaluateLevel
    dsimp only
    rw [if_pos hload, hgift, hreply, hdue]
    rfl
  have hnumber : (latchNotices before e).notices = { e.st.notices with latch := e.st.notices.latch ||| e.raised } := by
    unfold latchNotices
    rw [hdue]
    rfl
  refine ⟨finish_sameBut before e hgift, finish_level_same before e hload, ?_, ?_, ?_⟩
  · rw [hend, ← hnumber]
    rfl
  · rw [hend]
    rfl
  · rw [hframe, hend]
    rfl

/-- R176, log 7: an event that leaves the committed load, answers a command and has a notice due. -/
theorem finish_due (hgift : e.gift = none) (hreply : e.reply = some r)
    (hload : committedLoad e.st = committedLoad before) (hr : FieldsSettled r) (hdue : noticeDue before e = true) :
    SameBut e.st (finish before e) ∧ (finish before e).journalOut.level = e.st.journalOut.level
      ∧ (finish before e).notices = { e.st.notices with
          latch := e.st.notices.latch ||| e.raised, number := e.st.notices.number + 1 }
      ∧ (finish before e).oCount = { e.st.oCount with
          answers := e.st.oCount.answers + 1
          refusals := if r.refusal.isSome then e.st.oCount.refusals + 1 else e.st.oCount.refusals
          notices := e.st.oCount.notices + 1 }
      ∧ ((finish before e).oTx = e.st.oTx ++ [replyFrame (finish before e) r,
            noticeFrame (finish before e) (e.raised ||| e.demanded)]
          ∨ (finish before e).oTx = e.st.oTx ++ [noticeFrame (finish before e) (e.raised ||| e.demanded),
            replyFrame (finish before e) r]) := by
  have honly := finish_only before e
  rw [settled_same_load hload] at honly
  have hframe := replyFrame_sent honly hr
  have hnotice := noticeFrame_sent honly (e.raised ||| e.demanded)
  have hend : finish before e = sendOffice (some (replyFrame (latchNotices before e) r, r.refusal.isSome))
      (some (noticeFrame (latchNotices before e) (e.raised ||| e.demanded))) (latchNotices before e) := by
    unfold finish evaluateLevel
    dsimp only
    rw [if_pos hload, hgift, hreply, hdue]
    rfl
  have hnumber : (latchNotices before e).notices = { e.st.notices with
      latch := e.st.notices.latch ||| e.raised, number := e.st.notices.number + 1 } := by
    unfold latchNotices
    rw [hdue]
    rfl
  refine ⟨finish_sameBut before e hgift, finish_level_same before e hload, ?_, ?_, ?_⟩
  · rw [hend, ← hnumber]
    rfl
  · rw [hend]
    rfl
  · rw [hframe, hnotice, hend]
    cases hfirst : Config.noticeFirst e.st.draws
    · refine .inl ?_
      show e.st.oTx ++ (if Config.noticeFirst e.st.draws = true then _ else _) = _
      rw [hfirst]
      rfl
    · refine .inr ?_
      show e.st.oTx ++ (if Config.noticeFirst e.st.draws = true then _ else _) = _
      rw [hfirst]
      rfl

end

/-! ### NOTICE ACK and SET NOTICE MASK (R177) -/

section
variable {s : State} (h : s.unitFree) {c : Instr} {code : BitVec 8} {tag : BitVec 16} {body : Event → Event}
include h

/-- R171: a command that an idle unit takes, that changes `s` to `u` and answers fields of the state after it. -/
theorem exec_changed (hc : (code == 0x11 || code == 0x12) = false)
    (hexec : exec c s = .next (command code tag body s)) {u : State} {fields : State → List Octet} {answer : List Octet}
    (hb : body (arrived s) = accept code tag fields { st := countArrival u })
    (hload : committedLoad u = committedLoad s) (hf : fields (countArrival u) = answer) :
    exec c s = .next (accepted code tag answer u) := by
  rw [hexec, command_accepted h hc tag body fields hb hload, hf]

end

theorem doSetNoticeMask_fits {b : BitVec 8} (hb : b.toNat < 64) (tag : BitVec 16) (e : Event) :
    doSetNoticeMask tag b e = accept 0x02 tag (fun _ => [])
      ((e.upd fun s => { s with notices := { s.notices with masks := b.truncate 6 } }).demanding
        (e.st.notices.masks &&& ~~~(b.truncate 6) &&& e.st.notices.latch)) :=
  if_pos (decide_eq_true hb)

/-- Settles O41: an acknowledgement changes the latch alone, and a mask that unmasks what is latched demands its notice. -/
theorem noticeMasksAndAcks : Obligations.NoticeMasksAndAcks := by
  unfold Obligations.NoticeMasksAndAcks
  intro s tag b hfree c unmasked acked masked
  refine ⟨fun hb => ?_, fun hb hnone => ?_, fun hb hsome => ?_, fun hb => ⟨?_, ?_⟩⟩
  · exact exec_changed hfree (body := doNoticeAck tag b) (u := acked) rfl rfl (if_pos (decide_eq_true hb)) rfl rfl
  · refine exec_changed hfree (body := doSetNoticeMask tag b) (u := masked) (fields := fun _ => []) rfl rfl ?_ rfl rfl
    have hdemanded : (0 : Categories) ||| (s.notices.masks &&& ~~~(b.truncate 6) &&& s.notices.latch) = 0 :=
      (nothing_or _).trans hnone
    rw [doSetNoticeMask_fits hb]
    exact congrArg (fun d => accept 0x02 tag (fun _ => []) { st := countArrival masked, demanded := d }) hdemanded
  · obtain ⟨e, he⟩ : ∃ e, e = doSetNoticeMask tag b (arrived s) := ⟨_, rfl⟩
    have hexec : exec (.setNoticeMask tag b) s = .next (finish s e) := by
      rw [he]
      exact congrArg Host.Outcome.next (command_free hfree rfl tag (doSetNoticeMask tag b))
    rw [doSetNoticeMask_fits hb] at he
    have hst : e.st = countArrival masked := by rw [he]; rfl
    have hdemanded : e.demanded = unmasked := by
      rw [he]
      exact nothing_or _
    have hraised : e.raised = 0 := by rw [he]; rfl
    have hdue : noticeDue s e = true := by
      unfold noticeDue
      rw [hdemanded, bne_iff_ne.mpr hsome, Bool.or_true]
    obtain ⟨hbut, hlevel, hnotices, hcount, hframes⟩ := finish_due (r := { code := 0x02, tag := tag })
      (by rw [he]; rfl) (by rw [he]; rfl) (by rw [hst]; rfl) (fun _ _ _ => rfl) hdue
    rw [hst] at hbut hlevel hnotices hcount hframes
    rw [hraised, hdemanded, nothing_or] at hframes
    rw [hraised, or_nothing] at hnotices
    exact ⟨_, hexec, hbut, hlevel, hnotices, hcount, hframes⟩
  · exact exec_refused hfree (body := doNoticeAck tag b) rfl rfl (if_neg (by simpa [categoriesFit] using hb))
  · exact exec_refused hfree (body := doSetNoticeMask tag b) rfl rfl (if_neg (by simpa [categoriesFit] using hb))

/-! ### SET SHOP MODE, SUSPEND and RESUME (R157, R158) -/

theorem shopAnswer_modified (n : Nat) (f : Shop → Shop) (v : Shop) (s : State) (hv : f (s.shop n) = v) :
    shopAnswer n (countArrival (s.modifyShop n f)) = octets 1 (modeCode v.mode)
      ++ [(if v.management then 1 else 0) + (if v.alarmCause then 2 else 0)]
      ++ octets 1 (alarmCode v.alarm) ++ octets 2 v.windowFaults ++ octets 1 v.badWindows ++ octets 1 v.goodWindows := by
  have hshop : (countArrival (s.modifyShop n f)).shop n = v := (look_put_self _ _ _ _).trans hv
  unfold shopAnswer
  dsimp only
  rw [hshop, causeOctet_eq]

section
variable {s : State} (h : s.unitFree) {c : Instr} {code : BitVec 8} {tag : BitVec 16} {body : Event → Event}
include h

/-- R157, R158: a command that changes one shop and answers it as it then stands. -/
theorem exec_shop (hc : (code == 0x11 || code == 0x12) = false) (hexec : exec c s = .next (command code tag body s))
    {n : Nat} {f : Shop → Shop} {v : Shop}
    (hb : body (arrived s) = accept code tag (shopAnswer n) ((arrived s).upd fun s => s.modifyShop n f))
    (hv : f (s.shop n) = v) :
    exec c s = .next (accepted code tag (octets 1 (modeCode v.mode)
      ++ [(if v.management then 1 else 0) + (if v.alarmCause then 2 else 0)]
      ++ octets 1 (alarmCode v.alarm) ++ octets 2 v.windowFaults ++ octets 1 v.badWindows ++ octets 1 v.goodWindows)
      (s.modifyShop n fun _ => v)) := by
  have hsame : s.modifyShop n (fun _ => v) = s.modifyShop n f := by
    unfold State.modifyShop
    rw [hv]
  rw [hsame]
  exact exec_changed h hc hexec (u := s.modifyShop n f) hb rfl (shopAnswer_modified n f v s hv)

end

/-- R157: a mode other than CLOSED. -/
theorem withMode_open {m : Mode} (hm : m ≠ .closed) (r : Shop) :
    withMode m r = if r.mode = .closed then { r with mode := m, windowFaults := 0 } else { r with mode := m } := by
  cases m with
  | closed => exact absurd rfl hm
  | opened => rfl
  | training => rfl

theorem modeOf_none {mode : BitVec 8} (h : 2 < mode.toNat) : modeOf mode = none := by
  unfold modeOf
  split
  · next h0 => omega
  · next h1 => omega
  · next h2 => omega
  · rfl

theorem doSetShopMode_fits {mode : BitVec 8} {m : Mode} (hm : modeOf mode = some m) {shop : BitVec 16}
    (hn : shop.toNat < 512) (tag : BitVec 16) (e : Event) :
    doSetShopMode tag shop mode e =
      accept 0x48 tag (shopAnswer shop.toNat) (e.upd fun s => s.modifyShop shop.toNat (withMode m)) := by
  unfold doSetShopMode
  rw [hm]
  exact if_pos hn

/-- Settles O54: each command changes its shop alone and answers it. -/
theorem shopModesAndCauses : Obligations.ShopModesAndCauses := by
  unfold Obligations.ShopModesAndCauses
  intro s tag shop mode hfree n r answer put becomes
  refine ⟨fun hn => ⟨?_, ?_, ?_, ?_, ?_, fun hopen => ⟨?_, ?_⟩, fun hclosed => ⟨?_, ?_⟩⟩, fun hbad => ?_, fun hn => ⟨?_, ?_⟩⟩
  · rintro rfl
    exact exec_shop hfree (body := doSetShopMode tag shop 0) rfl rfl (doSetShopMode_fits rfl hn tag _) rfl
  · rintro rfl hclosed
    exact exec_shop hfree (body := doSetShopMode tag shop 1) rfl rfl (doSetShopMode_fits rfl hn tag _)
      ((withMode_open Mode.noConfusion _).trans (if_pos hclosed))
  · rintro rfl hopen
    exact exec_shop hfree (body := doSetShopMode tag shop 1) rfl rfl (doSetShopMode_fits rfl hn tag _)
      ((withMode_open Mode.noConfusion _).trans (if_neg hopen))
  · rintro rfl hclosed
    exact exec_shop hfree (body := doSetShopMode tag shop 2) rfl rfl (doSetShopMode_fits rfl hn tag _)
      ((withMode_open Mode.noConfusion _).trans (if_pos hclosed))
  · rintro rfl hopen
    exact exec_shop hfree (body := doSetShopMode tag shop 2) rfl rfl (doSetShopMode_fits rfl hn tag _)
      ((withMode_open Mode.noConfusion _).trans (if_neg hopen))
  · exact exec_shop hfree (body := doSuspend tag shop) rfl rfl ((if_neg (not_not.mpr hn)).trans (if_neg hopen)) rfl
  · exact exec_shop hfree (body := doResume tag shop) rfl rfl ((if_neg (not_not.mpr hn)).trans (if_neg hopen)) rfl
  · exact exec_refused hfree (body := doSuspend tag shop) rfl rfl ((if_neg (not_not.mpr hn)).trans (if_pos hclosed))
  · exact exec_refused hfree (body := doResume tag shop) rfl rfl ((if_neg (not_not.mpr hn)).trans (if_pos hclosed))
  · refine exec_refused hfree (body := doSetShopMode tag shop mode) rfl rfl ?_
    unfold doSetShopMode
    split
    · rfl
    · next m hm =>
      obtain hn | hmode := hbad
      · exact if_neg hn.not_gt
      · exact absurd (hm.symm.trans (modeOf_none hmode)) (Option.some_ne_none m)
  · exact exec_refused hfree (body := doSuspend tag shop) rfl rfl (if_pos hn.not_gt)
  · exact exec_refused hfree (body := doResume tag shop) rfl rfl (if_pos hn.not_gt)

/-! ### LINK RESET (R182) -/

/-- R182: how the masks decide the notice of RESET_SEEN: whether one is demanded, and whether one is due into an empty
latch. -/
theorem resetDue_iff (m : Categories) : (m &&& catReset = 0 ↔ catReset &&& ~~~m ≠ 0)
    ∧ (m &&& catReset = 0 ↔ catReset &&& ~~~(0 : Categories) &&& ~~~m ≠ 0)
    ∧ catReset ||| (catReset &&& ~~~m) = catReset := by
  revert m
  decide

theorem resetDue_masked (m l : Categories) (h : m &&& catReset ≠ 0) :
    ((catReset &&& ~~~l &&& ~~~m) != 0 || (catReset &&& ~~~m) != 0) = false := by
  revert m l
  decide

/-- Settles O43: everything cleared, and the notice of RESET_SEEN sent exactly when it is unmasked. -/
theorem linkResetClearsLinksAndAlarms : Obligations.LinkResetClearsLinksAndAlarms := by
  unfold Obligations.LinkResetClearsLinksAndAlarms
  intro s tag hcanonical
  obtain ⟨e, he⟩ : ∃ e, e = doLinkReset tag (arrived s) := ⟨_, rfl⟩
  have hexec : exec (.linkReset tag) s = .next (finish s e) := by
    rw [he]
    exact congrArg Host.Outcome.next (command_linkReset tag s)
  have hst : e.st = linkResetState s := by rw [he]; rfl
  have hraised : e.raised = catReset := by
    rw [he]
    exact nothing_or _
  have hdemanded : e.demanded = catReset &&& ~~~s.notices.masks := by
    rw [he]
    exact nothing_or _
  have hgift : e.gift = none := by rw [he]; rfl
  have hreply : e.reply = some { code := 0x08, tag := tag } := by rw [he]; rfl
  have hload : committedLoad e.st = committedLoad s := by rw [hst]; rfl
  have hsettled : FieldsSettled { code := 0x08, tag := tag } := fun _ _ _ => rfl
  have hshops (n : Nat) : look {} (linkResetState s).supervision.shops n = resetShop (s.shop n) :=
    look_remap {} (fun _ r => resetShop r) _ n hcanonical rfl
  have hdue : noticeDue s e = ((catReset &&& ~~~s.notices.latch &&& ~~~s.notices.masks) != 0
      || (catReset &&& ~~~s.notices.masks) != 0) := by
    unfold noticeDue
    rw [hraised, hdemanded, hst]
    rfl
  obtain ⟨hdemands, hrings, hjoined⟩ := resetDue_iff s.notices.masks
  obtain ⟨t, ht⟩ : ∃ t, t = finish s e := ⟨_, rfl⟩
  refine ⟨(linkResetState s).supervision.shops, t, ht ▸ hexec, hshops, ?_⟩
  by_cases hmask : s.notices.masks &&& catReset = 0
  · obtain ⟨hbut, hlevel, hnotices, hcount, hframes⟩ := finish_due hgift hreply hload hsettled
      (by rw [hdue, bne_iff_ne.mpr (hdemands.mp hmask), Bool.or_true])
    rw [← ht, hst] at hbut hlevel hnotices hcount hframes
    rw [hraised, hdemanded, hjoined] at hframes
    rw [hraised] at hnotices
    have hlatch : t.notices.latch = 0 ||| catReset := by rw [hnotices]; rfl
    have hnumber : t.notices.number = s.notices.number + 1 := by rw [hnotices]; rfl
    have hmasks : t.notices.masks = s.notices.masks := by rw [hnotices]; rfl
    have hraisedIn : raisedIn (linkResetState s) t catReset = catReset :=
      raisedIn_more hlevel (by rw [hbut]) (by rw [hbut]) catReset
    have hreplied : RepliedAs (linkResetState s) t { code := 0x08, tag := tag } catReset := by
      refine ⟨fun hn => absurd (hrings.mp hmask) ?_, fun _ => ?_, ?_, hmasks⟩
      · rw [hraisedIn] at hn
        exact hn
      · rw [hraisedIn]
        exact ⟨hframes, hnumber, hcount⟩
      · rw [hraisedIn]
        exact hlatch
    refine ⟨⟨hbut, hreplied⟩, hlevel, ?_⟩
    rw [hnotices, if_pos hmask]
    exact congrArg (fun c => ({ latch := c, masks := s.notices.masks, number := s.notices.number + 1 } : Notices))
      (nothing_or catReset)
  · obtain ⟨hbut, hlevel, hnotices, hcount, hframe⟩ := finish_undue hgift hreply hload hsettled
      (hdue.trans (resetDue_masked _ _ hmask))
    rw [← ht, hst] at hbut hlevel hnotices hcount hframe
    rw [hraised] at hnotices
    have hlatch : t.notices.latch = 0 ||| catReset := by rw [hnotices]; rfl
    have hnumber : t.notices.number = s.notices.number := by rw [hnotices]; rfl
    have hmasks : t.notices.masks = s.notices.masks := by rw [hnotices]; rfl
    have hraisedIn : raisedIn (linkResetState s) t catReset = catReset :=
      raisedIn_more hlevel (by rw [hbut]) (by rw [hbut]) catReset
    have hreplied : RepliedAs (linkResetState s) t { code := 0x08, tag := tag } catReset := by
      refine ⟨fun _ => ⟨hframe, hnumber, hcount⟩, fun hn => absurd (hrings.mpr ?_) hmask, ?_, hmasks⟩
      · rw [hraisedIn] at hn
        exact hn
      · rw [hraisedIn]
        exact hlatch
    refine ⟨⟨hbut, hreplied⟩, hlevel, ?_⟩
    rw [hnotices, if_neg hmask]
    exact congrArg (fun c => ({ latch := c, masks := s.notices.masks, number := s.notices.number } : Notices))
      (nothing_or catReset)

end Sys2Proof.Proofs.ShopCommands
end

section
/-! PROOFS. The serving of the wait list (3.5 to 3.7). -/

namespace Sys2Proof.Proofs.WaitList

open Sys2Proof Sys2Proof.Machine Sys2Proof.Proofs.RecordBuffer

/-! ### The line that is given -/

/-- R47, R51: a line that `m` ranks most recently used and that rests there stays so while the buffer works. -/
theorem rankedLast_of_works {s m t : State} {i : Nat} (hrank : m.buffer.recency = s.buffer.recency.filter (· != i) ++ [i])
    (hlines : ∀ j, j ≠ i → m.line j = s.line j) (hself : Resting (m.line i)) (h : Works m t) : RankedLast s t i := by
  have hsub (j : Nat) (hj : (j == i || decide (Resting (s.line j))) = true) : decide (Resting (m.line j)) = true := by
    by_cases hji : j = i
    · exact decide_eq_true (hji ▸ hself)
    · rw [hlines j hji]
      simpa [hji] using hj
  have hkept := h.rank
  unfold restingRank at hkept
  unfold RankedLast
  rw [← filter_sub hsub, hkept, filter_sub hsub, hrank, List.filter_append, List.filter_filter]
  congr 1
  · congr 1
    funext j
    by_cases hji : j = i
    · simp [hji]
    · have hne : (j == i) = false := beq_eq_false_iff_ne.mpr hji
      simp only [hne, bne, Bool.false_or, Bool.not_false, Bool.and_true, Bool.true_and]
  · simp

/-- R47, R48: the line given to a block's demands. -/
def givenLine (s : State) (b : Nat) (ws : List Waiter) : Line :=
  { state := if s.isValid b then .fetching else .valid, block := some b, waiters := ws }

theorem given_lineKept (i b : Nat) (ws : List Waiter) (s : State) :
    LineKept (givenLine s b ws) (joinAudit i b (touch i (claim i b ws s))) i := by
  have hclaimed : (touch i (claim i b ws s)).line i = givenLine s b ws := by
    rw [line_touch, claim_line, if_pos rfl]
    rfl
  unfold joinAudit
  dsimp only
  split
  · refine .joined (w := [.audit]) ?_
    rw [← hclaimed]
    exact (line_setLine _ _ _ _).trans (if_pos rfl)
  · exact .same hclaimed

theorem given_line_other {i j : Nat} (h : j ≠ i) (b : Nat) (ws : List Waiter) (s : State) :
    (joinAudit i b (touch i (claim i b ws s))).line j = s.line j := by
  have hclaimed : (touch i (claim i b ws s)).line j = s.line j := by
    rw [line_touch, claim_line, if_neg h]
  unfold joinAudit
  dsimp only
  split
  · exact ((line_setLine _ _ _ _).trans (if_neg h)).trans hclaimed
  · exact hclaimed

theorem claim_queued {s : State} {b : Nat} (h : s.isValid b = true) (i : Nat) (ws : List Waiter) :
    BankOp.fetch b ∈ (claim i b ws s).queue (b % 4) := by
  unfold claim
  rw [if_pos h]
  have hqueue : (appendOp b (.fetch b) (s.setLine i { state := .fetching, block := some b, waiters := ws })).queue (b % 4)
      = s.queue (b % 4) ++ [.fetch b] := (queue_setQueue _ _ _ _).trans (if_pos rfl)
  rw [hqueue]
  exact List.mem_append_right _ (List.mem_singleton.mpr rfl)

theorem given_queued {s : State} {b : Nat} (h : s.isValid b = true) (i : Nat) (ws : List Waiter) :
    BankOp.fetch b ∈ (joinAudit i b (touch i (claim i b ws s))).queue (b % 4) :=
  (joinAudit_grows i b _ _).mem (claim_queued h i ws)

theorem given_recency (i b : Nat) (ws : List Waiter) (s : State) :
    (joinAudit i b (touch i (claim i b ws s))).buffer.recency = s.buffer.recency.filter (· != i) ++ [i] := by
  rw [joinAudit_recency]
  show (claim i b ws s).buffer.recency.filter (· != i) ++ [i] = _
  rw [claim_recency]

/-- R48: the demand found in the wait list is one of those served for its block. -/
theorem joined_ne_nil {l : List Demand} {id b : Nat} (h : Demand.entry id b ∈ l) :
    ((l.filter (fun d => d.block == b)).map Demand.waiter).flatten ≠ [] := by
  intro hnil
  have hmem : Waiter.entry id ∈ ((l.filter (fun d => d.block == b)).map Demand.waiter).flatten :=
    List.mem_flatten_of_mem (List.mem_map_of_mem (List.mem_filter.mpr ⟨h, by simp [Demand.block]⟩))
      (List.mem_singleton.mpr rfl)
  rw [hnil] at hmem
  exact List.not_mem_nil hmem

/-! ### The flush after the serving (R54) -/

theorem startWriteBack_line_other {i j : Nat} (h : j ≠ i) (s : State) : (startWriteBack i s).line j = s.line j := by
  unfold startWriteBack
  dsimp only
  split
  · rfl
  · unfold appendOp
    rw [line_setQueue, line_setLine, if_neg h]

theorem startWriteBack_recency (i : Nat) (s : State) : (startWriteBack i s).buffer.recency = s.buffer.recency := by
  unfold startWriteBack
  dsimp only
  split
  · rfl
  · rfl

theorem flushLine_line {i : Nat} {s : State} (h : (s.line i).state ≠ .dirty) (j : Nat) :
    (flushLine s j).line i = s.line i := by
  unfold flushLine
  split
  · next hcan =>
    have hij : i ≠ j := fun hij => h (hij ▸ canWriteBack_dirty hcan)
    exact startWriteBack_line_other hij s
  · rfl

theorem flushLine_recency (s : State) (j : Nat) : (flushLine s j).buffer.recency = s.buffer.recency := by
  unfold flushLine
  split
  · exact startWriteBack_recency _ _
  · rfl

theorem flushLines_line {i : Nat} (l : List Nat) {s : State} (h : (s.line i).state ≠ .dirty) :
    (l.foldl flushLine s).line i = s.line i := by
  induction l generalizing s with
  | nil => rfl
  | cons j l ih =>
    have hline := flushLine_line h j
    rw [List.foldl_cons, ih (hline ▸ h), hline]

theorem flushLines_recency (l : List Nat) (s : State) : (l.foldl flushLine s).buffer.recency = s.buffer.recency := by
  induction l generalizing s with
  | nil => rfl
  | cons j l ih => rw [List.foldl_cons, ih, flushLine_recency]

/-- R54: the flush starts the write-backs of DIRTY lines alone. -/
theorem flushStep_line {i : Nat} {s : State} (h : (s.line i).state ≠ .dirty) : (flushStep s).line i = s.line i := by
  unfold flushStep
  split
  · dsimp only
    split
    · exact flushLines_line _ h
    · exact flushLines_line s.buffer.recency h
  · rfl

theorem flushStep_recency (s : State) : (flushStep s).buffer.recency = s.buffer.recency := by
  unfold flushStep
  split
  · dsimp only
    split
    · exact flushLines_recency _ _
    · exact flushLines_recency s.buffer.recency s
  · rfl

/-! ### The event of WAIT_LIST_SERVE -/

/-- The serving of the wait list with the flush behind it, as an event. -/
def served (s : State) : Event := (serve { st := s }).upd flushStep

theorem exec_serve (s : State) : exec .waitListServe s = .next (finish s (served s)) := rfl

/-- What the event of WAIT_LIST_SERVE leaves, whatever it serves. -/
structure ServedAs (s t : State) : Prop where
  books : BooksKept s t 0
  works : Works s t
  copies : t.store.copies = s.store.copies
  valid : t.store.valid = s.store.valid

theorem served_as (s : State) : ServedAs s (finish s (served s)) ∧ (finish s (served s)).buffer = (served s).st.buffer
    ∧ (finish s (served s)).store = (served s).st.store ∧ (finish s (served s)).unit = (served s).st.unit := by
  obtain ⟨b, p, w, f, u, r, heq, hquiet, hworks⟩ := serveFlush_only { st := s }
  change served s = _ at heq
  obtain ⟨hbooks, hbuffer, hstore, hunit⟩ := finish_booksKept s (served s) 0 (by rw [heq]) (by rw [heq]) (by rw [heq])
    (by rw [heq]) (by rw [heq]) (fun h => by rw [heq]; exact hquiet h)
  refine ⟨⟨hbooks, hworks.trans (works_finish _ _), ?_, ?_⟩, hbuffer, hstore, hunit⟩
  · rw [hstore, heq]
  · rw [hstore, heq]

/-- The serving goes on from what the first demand leaves: `m` is that, and the rest is work of the buffer. -/
theorem served_first {s : State} {d : Demand} {i : Nat}
    (hd : s.buffer.waitList.find? (fun d => canProceed s d.block) = some d) (hi : findLine s = some i) :
    Works (serveDemand i d { st := s }).st (finish s (served s))
      ∧ ∀ d' ∈ (finish s (served s)).buffer.waitList, d' ∈ s.buffer.waitList ∧ d'.block ≠ d.block := by
  obtain ⟨n, hn⟩ := serveLoop_first (e := { st := s }) hd hi
  have hserved : served s = ((serveLoop n (serveDemand i d { st := s })).upd auditClaim).upd flushStep := by
    unfold served serve
    rw [← hn]
  obtain ⟨-, hbuffer, -⟩ := served_as s
  refine ⟨?_, fun d' hd' => ?_⟩
  · rw [hserved]
    exact (((serveLoop_works n _).trans (auditClaim_works _)).trans (flushStep_works _)).trans (works_finish s
      (((serveLoop n (serveDemand i d { st := s })).upd auditClaim).upd flushStep))
  · rw [hbuffer, hserved] at hd'
    dsimp only [Event.upd] at hd'
    rw [flushStep_waitList, auditClaim_waitList] at hd'
    have hkept := serveLoop_waitList n _ d' hd'
    rw [serveDemand_waitList, List.mem_filter] at hkept
    exact ⟨hkept.1, by simpa using hkept.2⟩

theorem findLine_entry {s : State} {id b : Nat} {p : Demand → Bool}
    (h : s.buffer.waitList.find? p = some (.entry id b)) : Demand.entry id b ∈ s.buffer.waitList :=
  List.mem_of_find?_eq_some h

/-- R48: without a demand that can proceed, or without a line for it, the list is left. -/
theorem serveLoop_stays {s : State}
    (h : s.buffer.waitList.find? (fun d => canProceed s d.block) = none ∨ findLine s = none) (n : Nat) :
    serveLoop n { st := s } = { st := s } := by
  cases n with
  | zero => rfl
  | succ n =>
    unfold serveLoop
    dsimp only
    obtain h | h := h
    · rw [h]
    · rw [h]
      cases s.buffer.waitList.find? (fun d => canProceed s d.block) <;> rfl

theorem served_stays {s : State}
    (h : s.buffer.waitList.find? (fun d => canProceed s d.block) = none ∨ findLine s = none) :
    served s = { st := flushStep (auditClaim s) } := by
  unfold served serve
  rw [serveLoop_stays h]
  rfl

theorem auditClaim_stays {s : State}
    (h : s.buffer.waitList ≠ [] ∨ s.store.audit.waiting = false ∨ findLine s = none) : auditClaim s = s := by
  obtain hsame | ⟨i, hi, -, hwaiting, hempty, -⟩ := auditClaim_cases s
  · exact hsame
  · obtain h | h | h := h
    · exact absurd hempty h
    · exact absurd (hwaiting.symm.trans h) Bool.noConfusion
    · exact absurd (hi.symm.trans h) (Option.some_ne_none i)

theorem flushStep_audit (s : State) : (flushStep s).store.audit = s.store.audit := by
  obtain ⟨b, p, h⟩ := flushStep_only s
  rw [h]

theorem auditClaim_eq {s : State} {i : Nat} (hempty : s.buffer.waitList = []) (hrunning : s.store.audit.running = true)
    (hwaiting : s.store.audit.waiting = true) (hp : canProceed s s.store.audit.cursor = true) (hi : findLine s = some i) :
    auditClaim s = { rankLast i (claim i s.store.audit.cursor [.audit] s) with
      store := { s.store with audit := { s.store.audit with waiting := false } } } := by
  obtain ⟨c, hc⟩ := claim_only i s.store.audit.cursor [.audit] s
  unfold auditClaim
  simp only [hempty, hrunning, hwaiting, hp, hi, List.isEmpty_nil, Bool.and_self, if_true]
  rw [hc]
  rfl

/-! ### The four cases of serving -/

/-- The first case: the line goes to an in-flight entry's block. -/
theorem served_entry {s : State} {id b i : Nat}
    (hd : s.buffer.waitList.find? (fun d => canProceed s d.block) = some (.entry id b)) (hi : findLine s = some i) :
    ∃ t, exec .waitListServe s = .next t ∧ BooksKept s t 0
      ∧ t.store.copies = s.store.copies ∧ t.store.valid = s.store.valid
      ∧ LineKept (givenLine s b ((s.buffer.waitList.filter (fun d => d.block == b)).map Demand.waiter).flatten) t i
      ∧ (s.isValid b = true → BankOp.fetch b ∈ t.queue (b % 4)) ∧ RankedLast s t i
      ∧ (∀ d ∈ t.buffer.waitList, d ∈ s.buffer.waitList ∧ d.block ≠ b)
      ∧ (∀ k, QueueGrows (s.queue k) (t.queue k))
      ∧ KeepsLines s t := by
  obtain ⟨ws, hws⟩ : ∃ ws, ws = ((s.buffer.waitList.filter (fun d => d.block == b)).map Demand.waiter).flatten := ⟨_, rfl⟩
  obtain ⟨m, hm⟩ : ∃ m, m = joinAudit i b (touch i (claim i b ws (withoutDemands b s))) := ⟨_, rfl⟩
  have hgiven : serveDemand i (.entry id b) { st := s } = { st := m } := by
    rw [hm, hws]
    rfl
  obtain ⟨hworks, hwaiters⟩ := served_first hd hi
  obtain ⟨⟨hbooks, hall, hcopies, hvalid⟩, -⟩ := served_as s
  rw [hgiven] at hworks
  have hkept : LineKept (givenLine s b ws) m i := by
    rw [hm]
    exact given_lineKept i b ws (withoutDemands b s)
  have hrests : Resting (m.line i) := by
    obtain ⟨w, hw⟩ := hkept.waiters
    have hjoined : ws ≠ [] := hws ▸ joined_ne_nil (findLine_entry hd)
    have hsome : (m.line i).waiters ≠ [] := by
      rw [hw]
      exact List.append_ne_nil_of_left_ne_nil hjoined w
    refine .inr (.inr ⟨?_, hsome⟩)
    have hstate := (given_line i b ws (withoutDemands b s)).2.2.2
    rw [← hm] at hstate
    rw [hstate]
    split <;> exact LineState.noConfusion
  have hrecency : m.buffer.recency = s.buffer.recency.filter (· != i) ++ [i] := by
    rw [hm]
    exact given_recency i b ws (withoutDemands b s)
  have hlines (j : Nat) (hj : j ≠ i) : m.line j = s.line j := by
    rw [hm]
    exact given_line_other hj b ws (withoutDemands b s)
  refine ⟨_, exec_serve s, hbooks, hcopies, hvalid, hws ▸ hkept.then hrests hworks, fun hb => ?_,
    rankedLast_of_works hrecency hlines hrests hworks, hwaiters, hall.grows, hall.keeps⟩
  refine (hworks.grows (b % 4)).mem ?_
  rw [hm]
  exact given_queued (s := withoutDemands b s) hb i ws

/-- The second case: the list is left as it is. -/
theorem served_none {s : State}
    (h : s.buffer.waitList.find? (fun d => canProceed s d.block) = none ∨ findLine s = none) :
    ∃ t, exec .waitListServe s = .next t ∧ BooksKept s t 0 ∧ t.buffer.waitList = s.buffer.waitList
      ∧ t.store.copies = s.store.copies ∧ t.store.valid = s.store.valid
      ∧ (s.buffer.waitList ≠ [] ∨ s.store.audit.waiting = false ∨ findLine s = none → t.store.audit = s.store.audit)
      ∧ (∀ k, QueueGrows (s.queue k) (t.queue k)) ∧ KeepsLines s t := by
  obtain ⟨⟨hbooks, hall, hcopies, hvalid⟩, hbuffer, hstore, -⟩ := served_as s
  rw [served_stays h] at hbuffer hstore
  refine ⟨_, exec_serve s, hbooks, ?_, hcopies, hvalid, fun ha => ?_, hall.grows, hall.keeps⟩
  · rw [served_stays h, hbuffer]
    dsimp only
    rw [flushStep_waitList, auditClaim_waitList]
  · rw [served_stays h, hstore]
    dsimp only
    rw [flushStep_audit, auditClaim_stays ha]

/-- The third case: the waiting audit visit claims the line. -/
theorem served_audit {s : State} {i : Nat} (hempty : s.buffer.waitList = []) (hrunning : s.store.audit.running = true)
    (hwaiting : s.store.audit.waiting = true)
    (hroom : s.isValid s.store.audit.cursor = false ∨ (s.queue (s.store.audit.cursor % 4)).length < 8)
    (hi : findLine s = some i) :
    ∃ t, exec .waitListServe s = .next t ∧ BooksKept s t 0
      ∧ t.store.copies = s.store.copies ∧ t.store.valid = s.store.valid
      ∧ t.store.audit = { s.store.audit with waiting := false }
      ∧ t.line i = givenLine s s.store.audit.cursor [.audit]
      ∧ (s.isValid s.store.audit.cursor = true →
          BankOp.fetch s.store.audit.cursor ∈ t.queue (s.store.audit.cursor % 4))
      ∧ t.buffer.recency = i :: s.buffer.recency.filter (· != i) ∧ t.buffer.waitList = []
      ∧ (∀ k, QueueGrows (s.queue k) (t.queue k)) ∧ KeepsLines s t := by
  have hnone : s.buffer.waitList.find? (fun d => canProceed s d.block) = none := by rw [hempty]; rfl
  have hp : canProceed s s.store.audit.cursor = true := by
    unfold canProceed bankHasRoom
    rw [Bool.or_eq_true, Bool.not_eq_true', decide_eq_true_eq]
    exact hroom
  obtain ⟨c, hc⟩ : ∃ c, c = s.store.audit.cursor := ⟨_, rfl⟩
  obtain ⟨m, hm⟩ : ∃ m, m = auditClaim s := ⟨_, rfl⟩
  obtain ⟨⟨hbooks, hall, hcopies, hvalid⟩, hbuffer, hstore, -⟩ := served_as s
  have hserved := served_stays (.inl hnone)
  rw [← hm] at hserved
  rw [auditClaim_eq hempty hrunning hwaiting hp hi, ← hc] at hm
  obtain ⟨t, ht⟩ : ∃ t, t = finish s (served s) := ⟨_, rfl⟩
  have hexec : exec .waitListServe s = .next t := ht ▸ exec_serve s
  rw [← ht] at hbooks hall hcopies hvalid hbuffer hstore
  rw [hserved] at hbuffer hstore
  have hline : m.line i = givenLine s c [.audit] := by
    have hclaimed : (claim i c [.audit] s).line i = givenLine s c [.audit] := (claim_line _ _ _ _ _).trans (if_pos rfl)
    rw [hm]
    exact hclaimed
  have hclean : (m.line i).state ≠ .dirty := by
    rw [hline]
    unfold givenLine
    dsimp only
    split <;> exact LineState.noConfusion
  rw [← hc]
  refine ⟨t, hexec, hbooks, hcopies, hvalid, ?_, ?_, fun hb => ?_, ?_, ?_, hall.grows, hall.keeps⟩
  · rw [hstore, flushStep_audit, hm]
  · unfold State.line at *
    rw [hbuffer, ← hline]
    exact flushStep_line hclean
  · have hq : BankOp.fetch c ∈ m.queue (c % 4) := by
      rw [hm]
      exact claim_queued hb i [.audit]
    have hgrown := ((flushStep_grows m) (c % 4)).mem hq
    unfold State.queue at *
    rwa [hbuffer]
  · rw [hbuffer, flushStep_recency, hm]
    show i :: (claim i c [.audit] s).buffer.recency.filter (· != i) = _
    rw [claim_recency]
  · rw [hbuffer, flushStep_waitList, hm]
    exact (claim_waitList _ _ _ _).trans hempty

/-- The fourth case: the line goes to a waiting direct load, which is answered. -/
theorem served_direct {s : State} {b i : Nat} {tag : BitVec 16} {records : Block}
    (hd : s.buffer.waitList.find? (fun d => canProceed s d.block) = some (.directLoad b)) (hi : findLine s = some i)
    (hprogress : s.unit.progress = some { tag := tag, work := .directLoad b records }) :
    ∃ t, exec .waitListServe s = .next t ∧ BooksKept s t 0
      ∧ t.store.copies = s.store.copies ∧ t.store.valid = s.store.valid
      ∧ LineKept { state := .dirty, block := some b, records := records, dirty := 0xFF } t i ∧ RankedLast s t i
      ∧ t.store.float = s.store.float + BitVec.ofNat 40 (balances records)
      ∧ t.unit = { progress := none, first := none }
      ∧ RepliedAs s t { code := 0x12, tag := tag, fields := loadAnswer b false records } 0
      ∧ (∀ d ∈ t.buffer.waitList, d ∈ s.buffer.waitList ∧ d.block ≠ b) := by
  obtain ⟨g, hg⟩ : ∃ g, g = giveDirect i b tag records { st := withoutDemands b s } := ⟨_, rfl⟩
  have hgiven : serveDemand i (.directLoad b) { st := s } = g := by
    rw [hg]
    unfold serveDemand
    dsimp only
    rw [hprogress]
    rfl
  obtain ⟨hworks, hwaiters⟩ := served_first hd hi
  obtain ⟨⟨hbooks, -, hcopies, hvalid⟩, -, hstore, hunit⟩ := served_as s
  obtain ⟨n, hn⟩ := serveLoop_first (e := { st := s }) hd hi
  rw [hgiven] at hworks hn
  have hbuffer := giveDirect_buffer i b tag records { st := withoutDemands b s }
  rw [← hg] at hbuffer
  have hline (j : Nat) : g.st.line j =
      if j = i then { state := .dirty, block := some b, records := records, dirty := 0xFF } else s.line j := by
    have hset := line_setLine (withoutDemands b s) i j
      { state := .dirty, block := some b, records := records, dirty := 0xFF }
    unfold State.line at hset ⊢
    rw [hbuffer]
    exact hset
  have hself : g.st.line i = { state := .dirty, block := some b, records := records, dirty := 0xFF } :=
    (hline i).trans (if_pos rfl)
  have hrests : Resting (g.st.line i) := by
    rw [hself]
    exact .inl rfl
  have hrecency : g.st.buffer.recency = s.buffer.recency.filter (· != i) ++ [i] := by
    rw [hbuffer]
    rfl
  have hidle : g.st.unit.progress = none := by rw [hg]; rfl
  obtain ⟨hloopUnit, hloopFloat, hloopReply⟩ := serveLoop_idle n g hidle
  have hserved : served s = ((serveLoop n g).upd auditClaim).upd flushStep := by
    unfold served serve
    rw [← hn]
  have hclaimed := auditClaim_only (serveLoop n g).st
  obtain ⟨bf, w, hclaim⟩ := hclaimed
  obtain ⟨bg, p, hflush⟩ := flushStep_only (auditClaim (serveLoop n g).st)
  have hend : (served s).st = { (serveLoop n g).st with
      buffer := bg, store := { (serveLoop n g).st.store with
        flushPending := p, audit := { (serveLoop n g).st.store.audit with waiting := w } } } := by
    rw [hserved]
    exact hflush.trans (by rw [hclaim])
  have hreply : (served s).reply = some { code := 0x12, tag := tag, fields := loadAnswer b false records } := by
    rw [hserved]
    exact hloopReply.trans (by rw [hg]; rfl)
  have hsettled : FieldsSettled { code := 0x12, tag := tag, fields := loadAnswer b false records } := by
    rintro u v ⟨_, _, _, _, _, rfl⟩
    rfl
  obtain ⟨bs, ps, ws, fs, us, rs, heq, -⟩ := serveFlush_only { st := s }
  change served s = _ at heq
  have hraises : Raises s s (served s) 0 := by
    rw [heq]
    exact ⟨by rw [tableRaised_same rfl, cycleRaised_same rfl]; rfl, rfl, rfl, rfl, ⟨rfl, rfl, rfl⟩, rfl⟩
  refine ⟨_, exec_serve s, hbooks, hcopies, hvalid, ?_,
    rankedLast_of_works hrecency (fun j hj => (hline j).trans (if_neg hj)) hrests hworks, ?_, ?_,
    finish_replied hraises _ hreply hsettled, hwaiters⟩
  · rw [← hself]
    exact hworks.lines i hrests
  · rw [hstore, hend]
    exact hloopFloat.trans (by rw [hg]; rfl)
  · rw [hunit, hend]
    exact hloopUnit.trans (by rw [hg]; rfl)

/-- Settles O17: its four cases. -/
theorem waitListServed : Obligations.WaitListServed := by
  unfold Obligations.WaitListServed
  refine ⟨fun s => ⟨fun id b i hd hi => served_entry hd hi, served_none, fun i => ?_⟩, ?_⟩
  · exact fun hempty hrunning hwaiting hroom hi => served_audit hempty hrunning hwaiting hroom hi
  · intro s b i tag records hd hi hprogress
    exact served_direct hd hi hprogress

end Sys2Proof.Proofs.WaitList
end

section
/-! PROOFS. The visits of the audit walker (3.7) and the selection of the expiry sweep (5.5). -/

namespace Sys2Proof.Proofs.Audits

open Sys2Proof Sys2Proof.Machine Sys2Proof.Proofs.RecordBuffer Sys2Proof.Proofs.WaitList Sys2Proof.Proofs.Invariants

/-! ### The next present block (R57) -/

theorem foldl_min_spec (l : List Nat) (n : Nat) :
    (l.foldl min n = n ∨ l.foldl min n ∈ l) ∧ l.foldl min n ≤ n ∧ ∀ x ∈ l, l.foldl min n ≤ x := by
  obtain ⟨hmem, hle⟩ := List.min?_eq_some_iff.mp (List.min?_cons' (x := n) (xs := l))
  exact ⟨List.mem_cons.mp hmem, hle n List.mem_cons_self, fun x hx => hle x (List.mem_cons_of_mem n hx)⟩

/-- A block that is present: its valid mark is set, or a line holds it. -/
def Present (s : State) (b : Nat) : Prop := s.isValid b = true ∨ ∃ j < 32, (s.line j).block = some b

theorem mem_presentBlocks (s : State) (b : Nat) :
    b ∈ s.store.valid ++ (List.range Config.lineCount).filterMap (fun i => (s.line i).block) ↔ Present s b := by
  rw [List.mem_append, List.mem_filterMap]
  refine or_congr List.contains_iff_mem.symm ⟨?_, ?_⟩
  · rintro ⟨j, hj, hb⟩
    exact ⟨j, List.mem_range.mp hj, hb⟩
  · rintro ⟨j, hj, hb⟩
    exact ⟨j, List.mem_range.mpr hj, hb⟩

theorem nextPresent_le (s : State) (c : Nat) : nextPresent s c ≤ 131072 := (foldl_min_spec _ _).2.1

theorem le_nextPresent (s : State) {c : Nat} (h : c ≤ 131072) : c ≤ nextPresent s c := by
  obtain hk | hk := (foldl_min_spec ((s.store.valid
    ++ (List.range Config.lineCount).filterMap (fun i => (s.line i).block)).filter (fun b => decide (c ≤ b)))
    Config.blockCount).1
  · exact h.trans_eq hk.symm
  · exact of_decide_eq_true (List.mem_filter.mp hk).2

theorem not_present_before {s : State} {c x : Nat} (hc : c ≤ x) (hx : x < nextPresent s c) : ¬ Present s x := by
  intro h
  obtain ⟨-, -, hle⟩ := foldl_min_spec ((s.store.valid
    ++ (List.range Config.lineCount).filterMap (fun i => (s.line i).block)).filter (fun b => decide (c ≤ b)))
    Config.blockCount
  exact Nat.not_le.mpr hx (hle x (List.mem_filter.mpr ⟨(mem_presentBlocks s x).mpr h, decide_eq_true hc⟩))

theorem nextPresent_present {s : State} {c : Nat} (h : nextPresent s c < 131072) : Present s (nextPresent s c) := by
  obtain hk | hk := (foldl_min_spec ((s.store.valid
    ++ (List.range Config.lineCount).filterMap (fun i => (s.line i).block)).filter (fun b => decide (c ≤ b)))
    Config.blockCount).1
  · exact absurd (hk : nextPresent s c = 131072) h.ne
  · exact (mem_presentBlocks s _).mp (List.mem_filter.mp hk).1

theorem lineHolding_none {s : State} {b : Nat} (h : lineHolding s b = none) : ∀ j < 32, (s.line j).block ≠ some b := by
  intro j hj hb
  unfold lineHolding at h
  rw [List.find?_range_eq_none] at h
  simpa [hb] using h j hj

/-! ### What the eviction check leaves of the lines -/

theorem startWriteBack_block (i : Nat) (s : State) (j : Nat) :
    ((startWriteBack i s).line j).block = (s.line j).block := by
  by_cases hj : j = i
  · subst hj
    unfold startWriteBack
    dsimp only
    split
    · rfl
    · unfold appendOp
      rw [line_setQueue, line_setLine, if_pos rfl]
  · rw [startWriteBack_line_other hj]

theorem evictLoop_block (n : Nat) (s : State) (j : Nat) : ((evictLoop n s).line j).block = (s.line j).block := by
  induction n generalizing s with
  | zero => rfl
  | succ n ih =>
    unfold evictLoop
    split
    · split
      · rw [ih, startWriteBack_block]
      · rfl
    · rfl

/-! ### The beginning of a visit (R57, R59) -/

/-- What the beginning of the visit of block `k`, the next present one, makes of the state `s`: a line or a place in the
order for it, and nothing else of what an audit does not own. -/
structure VisitBegun (s t : State) (k : Nat) : Prop where
  only : ∃ b w, t = { s with
    buffer := b, store := { s.store with audit := { s.store.audit with cursor := k, waiting := w } } }
  works : Works s t
  blocks : ∀ j c, (t.line j).block = some c → (s.line j).block = some c ∨ c = k
  present : Present t k
  stands : t.store.audit.waiting = true ∨ ∃ j, (t.line j).block = some k ∧ Waiter.audit ∈ (t.line j).waiters

/-- R57: the visit waits for a line. -/
theorem visit_waits {s : State} {k : Nat} (h : Present s k) :
    VisitBegun s (evict (modifyAudit (fun a => { a with waiting := true })
      (modifyAudit (fun a => { a with cursor := k }) s))) k := by
  obtain ⟨m, hm⟩ : ∃ m, m = modifyAudit (fun a => { a with waiting := true })
    (modifyAudit (fun a => { a with cursor := k }) s) := ⟨_, rfl⟩
  rw [← hm]
  have hblock (j : Nat) : ((evict m).line j).block = (s.line j).block := by
    unfold evict
    rw [evictLoop_block, hm]
    rfl
  have hworks : Works s m := by
    rw [hm]
    exact works_same rfl rfl rfl rfl
  have hall := hworks.trans (evict_works m)
  obtain ⟨b, hb⟩ := evict_only m
  refine ⟨⟨b, true, ?_⟩, hall, fun j c hj => .inl (hblock j ▸ hj), ?_, .inl ?_⟩
  · rw [hb, hm]
    rfl
  · refine h.imp (fun hv => ?_) (fun ⟨j, hj, hold⟩ => ⟨j, hj, (hblock j).trans hold⟩)
    unfold State.isValid at hv ⊢
    rw [hall.valid]
    exact hv
  · rw [hb, hm]
    rfl

/-- R57: the visit joins the waiters of the line that holds its block. -/
theorem visit_joins {s : State} {k i : Nat} (hi : (s.line i).block = some k) (h : Present s k) :
    VisitBegun s ((modifyAudit (fun a => { a with cursor := k }) s).setLine i
      { s.line i with waiters := (s.line i).waiters ++ [.audit] }) k := by
  obtain ⟨m, hm⟩ : ∃ m, m = modifyAudit (fun a => { a with cursor := k }) s := ⟨_, rfl⟩
  rw [← hm]
  have hline (j : Nat) : (m.setLine i { s.line i with waiters := (s.line i).waiters ++ [.audit] }).line j =
      if j = i then { s.line i with waiters := (s.line i).waiters ++ [.audit] } else s.line j := by
    rw [line_setLine, hm]
    rfl
  have hblock (j : Nat) : ((m.setLine i { s.line i with waiters := (s.line i).waiters ++ [.audit] }).line j).block
      = (s.line j).block := by
    rw [hline]
    split
    · next hj => rw [hj]
    · rfl
  refine ⟨⟨_, _, by rw [hm]; rfl⟩, ?_, fun j c hj => .inl (hblock j ▸ hj), ?_, .inr ⟨i, (hblock i).trans hi, ?_⟩⟩
  · refine works_at (i := i) (fun j hj => (hline j).trans (if_neg hj)) (fun _ => .joined (w := [.audit]) ?_)
      (by rw [hm]; rfl) (queuesGrow_of_queues fun j => by rw [hm]; rfl) (by rw [hm]; rfl)
    exact (hline i).trans (if_pos rfl)
  · refine h.imp (fun hv => ?_) (fun ⟨j, hj, hold⟩ => ⟨j, hj, (hblock j).trans hold⟩)
    rw [hm]
    exact hv
  · rw [hline, if_pos rfl]
    exact List.mem_append_right _ (List.mem_singleton.mpr rfl)

/-- R57: the visit claims a line. -/
theorem visit_claims {s : State} {k i : Nat} (hi : findLine s = some i) (hp : canProceed s k = true)
    (h : s.isValid k = true) :
    VisitBegun s (rankLast i (claim i k [.audit] (modifyAudit (fun a => { a with cursor := k }) s))) k := by
  obtain ⟨m, hm⟩ : ∃ m, m = modifyAudit (fun a => { a with cursor := k }) s := ⟨_, rfl⟩
  rw [← hm]
  have hclaim (j : Nat) : (claim i k [.audit] m).line j = (claim i k [.audit] s).line j := by
    rw [claim_line, claim_line, hm]
    rfl
  have hline (j : Nat) : (rankLast i (claim i k [.audit] m)).line j =
      if j = i then givenLine s k [.audit] else s.line j := by
    rw [line_rankLast, hclaim, claim_line]
    rfl
  have hqueue (j : Nat) : (claim i k [.audit] m).queue j = (claim i k [.audit] s).queue j := by
    rw [hm]
    unfold claim
    have hmark : (modifyAudit (fun a => { a with cursor := k }) s).isValid k = s.isValid k := rfl
    rw [hmark]
    split <;> rfl
  obtain ⟨b, hb⟩ := claim_only i k [.audit] m
  have hvalid : (rankLast i (claim i k [.audit] m)).store.valid = s.store.valid := by
    rw [hb, hm]
    rfl
  refine ⟨⟨(rankLast i (claim i k [.audit] m)).buffer, s.store.audit.waiting, ?_⟩, ?_, fun j c hj => ?_, .inl ?_,
    .inr ⟨i, ?_, ?_⟩⟩
  · rw [hb, hm]
    rfl
  · refine claim_works (findLine_not_resting hi) hp (fun j => hclaim j) (fun j => hqueue j) hvalid (.inr ?_)
    show i :: (claim i k [.audit] m).buffer.recency.filter (· != i) = _
    rw [claim_recency, hm]
    rfl
  · rw [hline] at hj
    split at hj
    · exact .inr (Option.some.inj hj).symm
    · exact .inl hj
  · unfold State.isValid at h ⊢
    rw [hvalid]
    exact h
  · rw [hline, if_pos rfl]
    rfl
  · rw [hline, if_pos rfl]
    exact List.mem_singleton.mpr rfl

/-- R57: below the last block, the next visit begins. -/
theorem beginVisit_begun {e : Event} (hk : nextPresent e.st e.st.store.audit.cursor < 131072) :
    ∃ t, beginVisit e = { e with st := t } ∧ VisitBegun e.st t (nextPresent e.st e.st.store.audit.cursor) := by
  have hpresent := nextPresent_present hk
  have hbelow : ¬ Config.blockCount ≤ nextPresent e.st e.st.store.audit.cursor := Nat.not_le.mpr hk
  obtain ⟨k, hkk⟩ : ∃ k, k = nextPresent e.st e.st.store.audit.cursor := ⟨_, rfl⟩
  unfold beginVisit
  dsimp only
  rw [← hkk] at hpresent hbelow ⊢
  rw [if_neg hbelow]
  have hholding : lineHolding (e.upd (modifyAudit fun a => { a with cursor := k })).st k = lineHolding e.st k := rfl
  have hproceeds : canProceed (e.upd (modifyAudit fun a => { a with cursor := k })).st k = canProceed e.st k := rfl
  have hfound : findLine (e.upd (modifyAudit fun a => { a with cursor := k })).st = findLine e.st := rfl
  rw [hholding, hproceeds, hfound]
  cases hl : lineHolding e.st k with
  | some i => exact ⟨_, rfl, visit_joins (lineHolding_block hl) hpresent⟩
  | none =>
    have hvalid : e.st.isValid k = true := hpresent.resolve_right fun ⟨j, hj, hb⟩ => lineHolding_none hl j hj hb
    dsimp only
    split
    · next hclaims =>
      cases hf : findLine e.st with
      | some i => exact ⟨_, rfl, visit_claims hf (Bool.and_eq_true_iff.mp hclaims).2 hvalid⟩
      | none => exact ⟨_, rfl, visit_waits hpresent⟩
    · exact ⟨_, rfl, visit_waits hpresent⟩

/-- R59: past the last block, the audit ends. -/
theorem beginVisit_ends {e : Event} (hk : nextPresent e.st e.st.store.audit.cursor = 131072) :
    beginVisit e = endAudit (e.upd (modifyAudit fun a => { a with cursor := 131072 })) := by
  unfold beginVisit
  dsimp only
  rw [hk]
  exact if_pos (Nat.le_refl _)

/-! ### The visit (R57) -/

/-- The state in which an audit visit has added its block to the sums and left its line. -/
def visited (i : Nat) (ws : List Waiter) (s : State) : State :=
  modifyAudit (fun a => { a with
    balanceSum := a.balanceSum + BitVec.ofNat 40 (balances (s.line i).records)
    heldSum := a.heldSum + BitVec.ofNat 40 (helds (s.line i).records)
    cursor := a.cursor + 1 }) (s.setLine i { s.line i with waiters := ws })

theorem exec_auditVisit {s : State} {line : BitVec 5} {ws : List Waiter}
    (hready : (s.line line.toNat).state.ready = true) (hws : (s.line line.toNat).waiters = .audit :: ws) :
    exec (.auditVisit line) s =
      .next (finish s (beginVisit (afterWaiter line.toNat { st := visited line.toNat ws s }))) := by
  show execAuditVisit line s = _
  unfold execAuditVisit event auditVisit
  dsimp only
  rw [hws]
  dsimp only
  rw [if_pos hready]
  rfl

theorem visited_line (i : Nat) (ws : List Waiter) (s : State) (j : Nat) :
    (visited i ws s).line j = if j = i then { s.line i with waiters := ws } else s.line j := by
  rw [← line_setLine]
  rfl

/-- R57: a line that a visit has left, and the others that rest, are kept by the further work of the buffer. -/
theorem visited_keeps {s t : State} {i : Nat} {ws : List Waiter} (hready : (s.line i).state.ready = true)
    (hws : (s.line i).waiters = .audit :: ws) (h : Works (visited i ws s) t) :
    (ws ≠ [] ∨ (s.line i).state = .dirty ∨ (s.line i).state = .writing →
        LineKept { s.line i with waiters := ws } t i ∧ restingRank s t = restingRank s s)
      ∧ (∀ j, j ≠ i → Resting (s.line j) → LineKept (s.line j) t j) ∧ ∀ k, QueueGrows (s.queue k) (t.queue k) := by
  have hline := visited_line i ws s
  refine ⟨fun hrests => ?_, fun j hj hr => ?_, h.grows⟩
  · have hfree : (s.line i).state ≠ .free := by
      intro hf
      rw [hf] at hready
      exact Bool.noConfusion hready
    have hbefore : Resting (s.line i) := .inr (.inr ⟨hfree, by rw [hws]; exact List.cons_ne_nil _ _⟩)
    have hself : (visited i ws s).line i = { s.line i with waiters := ws } := (hline i).trans (if_pos rfl)
    have hafter : Resting ((visited i ws s).line i) := by
      rw [hself]
      obtain h | h | h := hrests
      · exact .inr (.inr ⟨hfree, h⟩)
      · exact .inl h
      · exact .inr (.inl h)
    have hresting (j : Nat) : Resting ((visited i ws s).line j) ↔ Resting (s.line j) := by
      by_cases hj : j = i
      · subst hj
        exact iff_of_true hafter hbefore
      · rw [hline, if_neg hj]
    refine ⟨hself ▸ h.lines i hafter, ?_⟩
    rw [restingRank_of_lines hresting, h.rank, ← restingRank_of_lines hresting]
    rfl
  · have hsame : (visited i ws s).line j = s.line j := (hline j).trans (if_neg hj)
    rw [← hsame]
    exact h.lines j (hsame ▸ hr)

/-- The walker of `a` past the block of the line `l`. -/
def pastBlock (l : Line) (a : Audit) : Audit :=
  { a with
    balanceSum := a.balanceSum + BitVec.ofNat 40 (balances l.records)
    heldSum := a.heldSum + BitVec.ofNat 40 (helds l.records)
    cursor := a.cursor + 1 }

/-- The event in which a visit has left its line, when no direct load waits for it. -/
theorem left_visited {s : State} (i : Nat) (ws : List Waiter) (hdirect : NoDirectLoad s) :
    ∃ b p w, afterWaiter i { st := visited i ws s } =
        { st := { s with
            buffer := b
            store := { s.store with
              flushPending := p, audit := { pastBlock (s.line i) s.store.audit with waiting := w } } } }
      ∧ Works (visited i ws s) (afterWaiter i { st := visited i ws s }).st := by
  obtain ⟨b, p, w, f, u, r, heq, hquiet, hworks⟩ := afterWaiter_only i { st := visited i ws s }
  obtain ⟨rfl, rfl, rfl⟩ := hquiet (.inl hdirect)
  exact ⟨b, p, w, heq, hworks⟩

/-- Settles O18: the visited line rests or is claimable, the buffer works, and the next visit begins or the audit ends. -/
theorem auditVisitReadsBlock : Obligations.AuditVisitReadsBlock := by
  unfold Obligations.AuditVisitReadsBlock
  intro s line ws i records a sum held total hready hws hcursor hdirect
  have hexec := exec_auditVisit hready hws
  obtain ⟨e, he⟩ : ∃ e, e = afterWaiter i { st := visited i ws s } := ⟨_, rfl⟩
  obtain ⟨b, p, w, heq, hworks⟩ := left_visited i ws hdirect
  rw [← he] at hexec heq hworks
  have hcur : e.st.store.audit.cursor = a.cursor + 1 := by
    rw [heq]
    rfl
  have hle : a.cursor + 1 ≤ nextPresent e.st e.st.store.audit.cursor := by
    rw [hcur]
    exact le_nextPresent e.st hcursor
  have hskipped (c : Nat) (h1 : a.cursor + 1 ≤ c) (h2 : c < nextPresent e.st e.st.store.audit.cursor) :
      s.isValid c = false ∧ ∀ j < 32, (e.st.line j).block ≠ some c := by
    have hnot := not_present_before (by rw [hcur]; exact h1) h2
    refine ⟨Bool.eq_false_iff.mpr fun hv => hnot (.inl ?_), fun j hj hb => hnot (.inr ⟨j, hj, hb⟩)⟩
    rw [heq]
    exact hv
  by_cases hk : nextPresent e.st e.st.store.audit.cursor = 131072
  · obtain ⟨d, hd⟩ : ∃ d, d = endAudit (e.upd (modifyAudit fun a => { a with cursor := 131072 })) := ⟨_, rfl⟩
    have hdeq : d = { e with
        raised := 0 ||| catAudit
        st := { e.st with store := { e.st.store with audit := { a with
          balanceSum := sum, heldSum := held, cursor := 131072, running := false, waiting := false
          result := some {
            matched := sum == s.store.float && held == total
            balanceSum := sum, float := s.store.float, heldSum := held, holdTotal := total } } } } } := by
      rw [hd, heq]
      rfl
    rw [beginVisit_ends hk, ← hd] at hexec
    obtain ⟨hbooks, hbuffer, hstore, -⟩ := finish_booksKept s d catAudit (by rw [hdeq, heq]) (by rw [hdeq, heq])
      (by rw [hdeq, heq]) (by rw [hdeq]; exact BitVec.zero_or) (by rw [hdeq, heq]) (fun _ => by rw [hdeq, heq]; exact ⟨rfl, rfl, rfl⟩)
    obtain ⟨hline, hothers, hgrows⟩ := visited_keeps hready hws (hworks.trans ((works_same (t := d.st) (by rw [hdeq])
      (by rw [hdeq]) (by rw [hdeq]) (by rw [hdeq])).trans (works_finish s d)))
    have hlast : (finish s d).store.audit.cursor = 131072 := by rw [hstore, hdeq]
    refine ⟨_, hexec, (if_pos hlast).symm ▸ hbooks, ?_, ?_, ?_, ?_, hlast ▸ hcursor, hlast.le, fun c h1 h2 => ?_,
      fun h => absurd hlast h.ne, hline, hothers, ?_, hgrows⟩
    · rw [hstore, hdeq, heq]
    · rw [hstore, hdeq, heq]
    · rw [hstore, hdeq]
    · rw [hstore, hdeq]
    · obtain ⟨hmark, hb⟩ := hskipped c h1 (by rwa [hlast, ← hk] at h2)
      refine ⟨hmark, fun j hj => ?_⟩
      unfold State.line at hb ⊢
      rw [hbuffer, hdeq]
      exact hb j hj
    · rw [if_pos hlast, hstore, hdeq]
      exact ⟨rfl, rfl⟩
  · have hbelow := lt_of_le_of_ne (nextPresent_le e.st e.st.store.audit.cursor) hk
    obtain ⟨v, hv, hbegun⟩ := beginVisit_begun hbelow
    obtain ⟨k, hkk⟩ : ∃ k, k = nextPresent e.st e.st.store.audit.cursor := ⟨_, rfl⟩
    rw [← hkk] at hbegun hbelow hle hskipped
    obtain ⟨⟨bv, wv, hvst⟩, hvworks, hblocks, hpresent, hstands⟩ := hbegun
    rw [hv] at hexec
    have hveq : v = { s with
        buffer := bv
        store := { s.store with
          flushPending := p
          audit := { a with balanceSum := sum, heldSum := held, cursor := k, waiting := wv } } } := by
      rw [hvst, heq]
      rfl
    obtain ⟨hbooks, hbuffer, hstore, -⟩ := finish_booksKept s { e with st := v } 0 (by rw [hveq]) (by rw [hveq])
      (by rw [heq]) (by rw [heq]) (by rw [heq]) (fun _ => by rw [hveq, heq]; exact ⟨rfl, rfl, rfl⟩)
    obtain ⟨hline, hothers, hgrows⟩ := visited_keeps hready hws
      (hworks.trans (hvworks.trans (works_finish s { e with st := v })))
    obtain ⟨t, ht⟩ : ∃ t, t = finish s { e with st := v } := ⟨_, rfl⟩
    rw [← ht] at hexec hbooks hbuffer hstore hline hothers hgrows
    have hcursor : t.store.audit.cursor = k := by rw [hstore, hveq]
    have hne : ¬ t.store.audit.cursor = 131072 := by rw [hcursor]; exact hbelow.ne
    have hlines (j : Nat) : t.line j = v.line j := by
      unfold State.line
      rw [hbuffer]
    refine ⟨t, hexec, (if_neg hne).symm ▸ hbooks, ?_, ?_, ?_, ?_, hcursor.symm ▸ hle, hcursor.symm ▸ hbelow.le,
      fun c h1 h2 => ?_, fun _ => ?_, hline, hothers, ?_, hgrows⟩
    · rw [hstore, hveq]
    · rw [hstore, hveq]
    · rw [hstore, hveq]
    · rw [hstore, hveq]
    · rw [hcursor] at h2
      obtain ⟨hmark, hb⟩ := hskipped c h1 h2
      refine ⟨hmark, fun j hj hbj => ?_⟩
      rw [hlines] at hbj
      exact (hblocks j c hbj).elim (hb j hj) h2.ne
    · rw [hcursor, hstore]
      simp only [hlines]
      refine ⟨hpresent.imp (fun hmark => ?_) id, hstands⟩
      rw [hveq] at hmark
      exact hmark
    · rw [if_neg hne, hstore, hveq]
      exact ⟨rfl, rfl⟩

/-! ### The selection of the sweep (R92) -/

theorem exec_sweep (s : State) : exec .sweepSelection s = .next (finish s { st := sweepStep s }) := rfl

theorem selectable_iff (s : State) (h : HoldEntry) : selectable s h = true ↔
    h.expiry ≤ s.clock.toNat ∧ s.holds.expiring = none ∧ s.inFlight.length < 64
      ∧ s.journalOut.copies.length + s.journalOut.reservations < 512 := by
  simp only [selectable, inFlightFull, committedLoad, Bool.and_eq_true, decide_eq_true_eq, Option.isNone_iff_eq_none,
    Bool.not_eq_true', decide_eq_false_iff_not, Nat.not_le, and_assoc]
  exact and_congr_right fun _ => and_congr_right fun _ => and_congr_right fun _ => decide_eq_true_iff

/-- R92: where one of its conditions fails, the sweep selects nothing. -/
theorem sweepStep_stays {s : State}
    (h : candidate s.holds = none ∨ (∃ h, candidate s.holds = some h ∧ s.clock.toNat < h.expiry)
      ∨ s.holds.expiring.isSome = true ∨ 64 ≤ s.inFlight.length
      ∨ 512 ≤ s.journalOut.copies.length + s.journalOut.reservations) : sweepStep s = s := by
  obtain hsame | ⟨g, hg, hs, -⟩ := sweepStep_cases s
  · exact hsame
  · obtain ⟨hdue, hexpiring, hplace, hroom⟩ := (selectable_iff s g).mp hs
    obtain h | ⟨g', hg', hlate⟩ | h | h | h := h
    · exact absurd (hg.symm.trans h) (Option.some_ne_none g)
    · obtain rfl := Option.some.inj (hg.symm.trans hg')
      exact absurd hdue hlate.not_ge
    · rw [hexpiring] at h
      exact Bool.noConfusion h
    · exact absurd hplace h.not_gt
    · exact absurd hroom h.not_gt

/-- Settles O19: the candidate is selected with its demand made, and where a condition fails the event is silent. -/
theorem sweepSelects : Obligations.SweepSelects := by
  unfold Obligations.SweepSelects
  refine fun s => ⟨fun h hc hdue hexpiring hplace hroom => ?_, fun hfails => ?_⟩
  · have hselected : sweepStep s = selectHold h s := by
      unfold sweepStep
      rw [hc]
      exact if_pos ((selectable_iff s h).mpr ⟨hdue, hexpiring, hplace, hroom⟩)
    have hdemanded : Demanded (selectHold h s) s.nextId (h.slot / 8) := demand_demanded _ _ _
    have hworks := (sweepStep_works s).trans (works_finish s { st := sweepStep s })
    have hexec := exec_sweep s
    have hcount := countIn_eq s.tables
    have hshadow := countIn_shadow s.tables
    obtain ⟨b, w, hst⟩ := selectHold_only h s
    rw [hselected] at hworks hexec
    have hbut := finish_sameBut s { st := selectHold h s } rfl
    have hraises : Raises s s { st := selectHold h s } 0 := by
      rw [hst]
      exact ⟨by rw [tableRaised_same hshadow, cycleRaised_same rfl]; rfl, rfl, rfl, rfl, ⟨rfl, rfl, rfl⟩, rfl⟩
    have hnoticed := finish_noticed hraises rfl
    obtain ⟨t, ht⟩ : ∃ t, t = finish s { st := selectHold h s } := ⟨_, rfl⟩
    rw [← ht] at hworks hexec hbut hnoticed
    dsimp only at hbut
    rw [hst] at hdemanded hbut
    unfold SameBut at hbut ⊢
    have hbuffer : t.buffer = b := by rw [hbut]
    have hwaiting : t.store.audit.waiting = w := by rw [hbut]
    refine ⟨t, hexec, ?_, ?_, hworks.keeps, hnoticed, (exec_stepped hexec).agrees⟩
    · rw [hbuffer, hwaiting, ← hcount]
      exact hbut
    · unfold Demanded State.line at hdemanded ⊢
      rw [hbuffer]
      exact hdemanded
  · rw [exec_sweep, sweepStep_stays hfails, finish_silent s { st := s } rfl rfl rfl rfl rfl]

end Sys2Proof.Proofs.Audits
end

section
/-! PROOFS. The management commands of the card store that take on work: CARD READ, CARD ADJUST and JOURNAL TAKE. -/

namespace Sys2Proof.Proofs.TakenCommands

open Sys2Proof Sys2Proof.Machine Sys2Proof.Proofs.ReadCommands Sys2Proof.Proofs.RecordBuffer Sys2Proof.Proofs.Audits
open Sys2Proof.Proofs.Invariants (exec_stepped)
open Sys2Proof.Proofs.ResetAndLoading (raises_more)

/-! ### Commands that enter the in-flight set (R46, R76, R78) -/

/-- R15: the state in which entry `y` of the management unit has entered the set for `work`, before its demand. -/
def entered (tag : BitVec 16) (work : UnitWork) (y : InFlight) (s : State) : State :=
  { s with
    unit := { s.unit with progress := some { tag := tag, work := work } }
    inFlight := s.inFlight ++ [y], nextId := s.nextId + 1, tables := bankEntered 1 s.tables
    journalOut := { s.journalOut with
      reservations := if y.reserved then s.journalOut.reservations + 1 else s.journalOut.reservations } }

/-- R47: what taking on a card command leaves, its demand made. -/
structure TakenOn (s t : State) (tag : BitVec 16) (work : UnitWork) (y : InFlight) : Prop where
  only : OnlyDemand (entered tag work y s) t
  works : Works s t
  demanded : Demanded t s.nextId y.block

theorem takeOn_taken (tag : BitVec 16) (work : UnitWork) (x y : InFlight) (s : State)
    (hy : y = { x with id := s.nextId, generation := s.tables.generation }) :
    ∃ t, takeOn tag work x { st := s } = { st := t } ∧ TakenOn s t tag work y := by
  have hstate : startWork tag work (enterSet x s) = entered tag work y s := by
    rw [hy]
    unfold entered
    rw [← countIn_eq]
    rfl
  have hblock : y.block = x.block := by rw [hy]
  refine ⟨_, rfl, ⟨?_, ?_, ?_⟩⟩
  · rw [← hstate]
    exact demand_only _ _ _
  · exact (works_same (s := s) (t := startWork tag work (enterSet x s)) rfl rfl rfl rfl).trans (demand_works _ _ _)
  · rw [hblock]
    exact demand_demanded _ _ _

/-- What the arrival of the frame changes is no part of what the buffer's work reads. -/
theorem TakenOn.fromArrival {s t : State} {tag : BitVec 16} {work : UnitWork} {y : InFlight}
    (h : TakenOn (countArrival s) t tag work y) : Works s t :=
  (works_same (s := s) (t := countArrival s) rfl rfl rfl rfl).trans h.works

/-- R15: the state of a card command taken on, but for its demand, which is read off the state after it. -/
theorem TakenOn.state {s t : State} {tag : BitVec 16} {work : UnitWork} {y : InFlight} (h : TakenOn s t tag work y) :
    t = { entered tag work y s with
      buffer := t.buffer
      store := { s.store with audit := { s.store.audit with waiting := t.store.audit.waiting } } } := by
  obtain ⟨b, w, rfl⟩ := h.only
  rfl

theorem inFlightFull_iff (s : State) : inFlightFull s = true ↔ 64 ≤ s.inFlight.length := decide_eq_true_iff

/-- Settles O48: each command is refused by its checks in their order, or taken on. -/
theorem cardCommandsTakenOn : Obligations.CardCommandsTakenOn := by
  unfold Obligations.CardCommandsTakenOn
  intro s tag slot f hfree n x taken load
  have hfull (h : 64 ≤ s.inFlight.length) : inFlightFull (arrived s).st = true := (inFlightFull_iff s).mpr h
  have hroom (h : s.inFlight.length < 64) : ¬ inFlightFull (arrived s).st = true :=
    fun hf => h.not_ge ((inFlightFull_iff s).mp hf)
  refine ⟨fun hn hplace => ?_, fun hn => ?_, fun hn hnone => ?_, fun hready hn hf hplace hload => ?_, fun hphase => ?_,
    fun hready hbad => ?_, fun hready hn hf hnone => ?_⟩
  · obtain ⟨t, ht, htaken⟩ := takeOn_taken tag (.cardRead n) (unitEntry .cardRead n false) (x .cardRead false)
      (countArrival s) rfl
    have hbody : doCardRead tag slot (arrived s) = { st := t } :=
      ((if_neg (not_not.mpr hn)).trans (if_neg (hroom hplace))).trans ht
    have hstate := htaken.state
    have hload : committedLoad t = committedLoad s := by rw [hstate]; rfl
    refine ⟨t, ?_, hstate, htaken.demanded, htaken.fromArrival.keeps⟩
    show Host.Outcome.next (command 0x16 tag (doCardRead tag slot) s) = .next t
    rw [command_free hfree rfl, hbody, finish_silent s { st := t } rfl rfl rfl rfl hload]
  · exact exec_refused hfree (body := doCardRead tag slot) rfl rfl (if_pos hn.not_gt)
  · exact exec_refused hfree (body := doCardRead tag slot) rfl rfl ((if_neg (not_not.mpr hn)).trans (if_pos (hfull hnone)))
  · obtain ⟨v, hv, htaken⟩ := takeOn_taken tag (.cardAdjust n f) (unitEntry .adjust n true) (x .adjust true)
      (countArrival s) rfl
    have hfits : ¬ (¬ slot.toNat < Config.slotCount ∨ ¬ adjustFits f = true) := fun h => h.elim (· hn) (· hf)
    have hplaces : ¬ (inFlightFull (arrived s).st = true ∨ Config.journalOutPlaces ≤ committedLoad (arrived s).st) :=
      fun h => h.elim (hroom hplace) hload.not_ge
    have hbody : doCardAdjust tag slot f (arrived s) = { st := v } :=
      ((if_neg (not_not.mpr hready)).trans ((if_neg hfits).trans (if_neg hplaces))).trans hv
    have hexec : exec (.cardAdjust tag slot f) s = .next (finish s { st := v }) := by
      show Host.Outcome.next (command 0x17 tag (doCardAdjust tag slot f) s) = _
      rw [command_free hfree rfl, hbody]
    have hstate := htaken.state
    have hshadow : (bankEntered 1 s.tables).shadow = s.tables.shadow := by
      rw [← countIn_eq]
      exact countIn_shadow _
    have hnoticed : NoticedAs (countArrival s) (finish s { st := v }) 0 := by
      refine finish_noticed (raises_more ?_ ?_ rfl rfl ?_ rfl ?_ ?_) rfl
      · rw [hstate]
        exact hshadow
      · rw [hstate]
        rfl
      · rw [hstate]
        rfl
      · rw [hstate]
        exact ⟨rfl, rfl, rfl⟩
      · rw [hstate]
        rfl
    have hbut := finish_sameBut s { st := v } rfl
    have hworks := htaken.fromArrival.trans (works_finish s { st := v })
    have hdemanded := htaken.demanded
    obtain ⟨t, ht⟩ : ∃ t, t = finish s { st := v } := ⟨_, rfl⟩
    rw [← ht] at hexec hnoticed hbut hworks
    have hbuffer : t.buffer = v.buffer := by rw [hbut]
    have hstore : t.store = v.store := by rw [hbut]
    refine ⟨t, hexec, ?_, hnoticed, (exec_stepped hexec).agrees, ?_, hworks.keeps⟩
    · show SameBut { entered tag (.cardAdjust n f) (x .adjust true) (countArrival s) with
        buffer := t.buffer
        store := { s.store with audit := { s.store.audit with waiting := t.store.audit.waiting } } } t
      rw [hbuffer, hstore]
      have hv : { entered tag (.cardAdjust n f) (x .adjust true) (countArrival s) with
        buffer := v.buffer
        store := { s.store with audit := { s.store.audit with waiting := v.store.audit.waiting } } } = v := hstate.symm
      rw [hv]
      exact hbut
    · unfold Demanded State.line at hdemanded ⊢
      rw [hbuffer]
      exact hdemanded
  · exact exec_refused hfree (body := doCardAdjust tag slot f) rfl rfl (if_pos hphase)
  · refine exec_refused hfree (body := doCardAdjust tag slot f) rfl rfl ((if_neg (not_not.mpr hready)).trans (if_pos ?_))
    exact hbad.imp Nat.not_lt.mpr (fun h => by rw [h]; exact Bool.noConfusion)
  · have hfits : ¬ (¬ slot.toNat < Config.slotCount ∨ ¬ adjustFits f = true) := fun h => h.elim (· hn) (· hf)
    exact exec_refused hfree (body := doCardAdjust tag slot f) rfl rfl
      ((if_neg (not_not.mpr hready)).trans ((if_neg hfits).trans (if_pos (hnone.imp hfull id))))

/-! ### Events that end with the sweep's look (R92) -/

/-- What an event leaves that comes to the state `m` and ends with the sweep's look at its candidate. -/
structure Swept (m t : State) : Prop where
  looked : SweepLooked m.holds m.inFlight m.journalOut.reservations m.tables t
  selects : ∀ h, candidate m.holds = some h → h.expiry ≤ m.clock.toNat → m.holds.expiring = none →
    m.inFlight.length < 64 → m.journalOut.copies.length + m.journalOut.reservations < 512 →
    t.holds.expiring = some h.ref
  works : Works m t
  books : t.journal = m.journal ∧ t.journalOut.copies = m.journalOut.copies ∧ t.cycle = m.cycle ∧ t.payout = m.payout
  ports : t.supervision = m.supervision ∧ t.lanes = m.lanes ∧ t.sTx = m.sTx ∧ t.sCount = m.sCount
  others : t.clock = m.clock ∧ t.activeTables = m.activeTables ∧ t.unit = m.unit ∧ t.store.float = m.store.float
  store : StoreKept m t
  links : LinksKept m t

theorem swept_of_event {before m : State} {e : Event} (hst : e.st = sweepStep m) (hgift : e.gift = none) :
    Swept m (finish before e) := by
  have hlooked := sweepStep_looked m
  have hworks := (sweepStep_works m).trans (hst ▸ works_finish before e)
  have hactive := (sweepStep_tables m).1.1
  have hselects (h : HoldEntry) (hc : candidate m.holds = some h) (h1 : h.expiry ≤ m.clock.toNat)
      (h2 : m.holds.expiring = none) (h3 : m.inFlight.length < 64)
      (h4 : m.journalOut.copies.length + m.journalOut.reservations < 512) :
      (sweepStep m).holds.expiring = some h.ref := by
    unfold sweepStep
    rw [hc]
    dsimp only
    rw [if_pos ((selectable_iff m h).mpr ⟨h1, h2, h3, h4⟩)]
    obtain ⟨b, w, hk⟩ := selectHold_only h m
    rw [hk]
  have hsTx := finish_sTx before e
  have hsCount := finish_sCount before e
  rw [hgift] at hsTx hsCount
  obtain ⟨a, b, c, d, n, nt, l, hend⟩ := finish_frame before e
  obtain ⟨ho, fl, ni, ta, re, bu, w, hswept⟩ := sweepStep_only m
  obtain ⟨t, ht⟩ : ∃ t, t = finish before e := ⟨_, rfl⟩
  rw [← ht] at hworks hsTx hsCount hend ⊢
  rw [hst] at hsTx hsCount hend
  refine ⟨hlooked.congr ?_ ?_ ?_ ?_ ?_ ?_ ?_, fun h hc h1 h2 h3 h4 => ?_, hworks, ?_,
    ⟨?_, ?_, ?_, ?_⟩, ⟨?_, ?_, ?_, ?_⟩, ?_, ?_⟩
  any_goals rw [hend]
  · exact hselects h hc h1 h2 h3 h4
  · rw [hswept]
    exact ⟨rfl, rfl, rfl, rfl⟩
  · rw [hswept]
  · rw [hswept]
  · rw [← hend, hsTx, hswept]
  · rw [← hend, hsCount, hswept]
  · rw [hswept]
  · exact hactive
  · rw [hswept]
  · rw [hswept]
  · rw [hswept]
    exact ⟨rfl, rfl, rfl⟩
  · rw [hswept]
    exact ⟨rfl, ⟨rfl, rfl⟩, rfl, ⟨rfl, rfl⟩⟩

/-! ### JOURNAL TAKE (R186) -/

/-- R186, log 15: the answer to a JOURNAL TAKE of `n` copies that leaves `k`. -/
def takeReply (tag : BitVec 16) (n k : Nat) : Reply where
  code := 0x07
  tag := tag
  fields := fun u => octets 1 n ++ octets 2 k ++ octets 1 (levelCode u.journalOut.level)

/-- Settles O42: the copies leave, and the event ends with the sweep's look. -/
theorem journalTakeRemovesOldest : Obligations.JournalTakeRemovesOldest := by
  unfold Obligations.JournalTakeRemovesOldest
  intro s tag count hfree n left
  refine ⟨fun h1 h8 hle => ?_, fun hbad => ?_⟩
  · obtain ⟨m, hm⟩ : ∃ m, m = takeCopies n (countArrival s) := ⟨_, rfl⟩
    obtain ⟨r, hr⟩ : ∃ r, r = takeReply tag n left.length := ⟨_, rfl⟩
    have hbody : doJournalTake tag count (arrived s) = ({ st := sweepStep m } : Event).replying r := by
      have hlength : left.length = s.journalOut.copies.length - n := List.length_drop
      rw [hr, hm, hlength]
      exact if_pos ⟨h1, h8, hle⟩
    have hexec : exec (.journalTake tag count) s = .next (finish s (({ st := sweepStep m } : Event).replying r)) := by
      show Host.Outcome.next (command 0x07 tag (doJournalTake tag count) s) = _
      rw [command_free hfree rfl, hbody]
    have hsettled : FieldsSettled r := by
      rw [hr]
      rintro u v ⟨_, _, _, _, _, rfl⟩
      rfl
    have hshadow := (sweepStep_tables m).2
    have hreplied : RepliedAs (countArrival s) (finish s (({ st := sweepStep m } : Event).replying r)) r 0 := by
      obtain ⟨ho, fl, ni, ta, re, bu, w, hswept⟩ := sweepStep_only m
      refine finish_replied (raises_more ?_ ?_ rfl rfl ?_ rfl ?_ ?_) r rfl hsettled
      · rw [hm] at hshadow ⊢
        exact hshadow
      · exact (congrArg (fun u => u.cycle.closing) hswept).trans (by rw [hm])
      · exact (congrArg State.notices hswept).trans (by rw [hm]; rfl)
      · refine ⟨(congrArg State.oTx hswept).trans (by rw [hm]; rfl),
          (congrArg State.oCount hswept).trans (by rw [hm]; rfl),
          (congrArg State.draws hswept).trans (by rw [hm]; rfl)⟩
      · exact (congrArg (fun u => u.journalOut.level) hswept).trans (by rw [hm])
    have hswept := swept_of_event (before := s) (m := m) (e := ({ st := sweepStep m } : Event).replying r) rfl rfl
    obtain ⟨t, ht⟩ : ∃ t, t = finish s (({ st := sweepStep m } : Event).replying r) := ⟨_, rfl⟩
    rw [← ht] at hexec hreplied hswept
    rw [hm] at hswept
    rw [hr] at hreplied
    obtain ⟨hlooked, hselects, hworks, ⟨hj, hcopies, hcycle, hpayout⟩, ⟨hsup, hlanes, hsTx, hsCount⟩,
      ⟨hclock, hactive, hunit, hfloat⟩, hstore, hlinks⟩ := hswept
    have hkeeps : Works s t := (works_same (s := s) (t := takeCopies n (countArrival s)) rfl rfl rfl rfl).trans hworks
    exact ⟨t, hexec, hcopies, (exec_stepped hexec).agrees, hreplied, hlooked, hselects, hkeeps.keeps, hj, hcycle,
      hpayout, hsup, hlanes, hsTx, hsCount, hclock, hactive, hunit, hfloat, ⟨hstore.copies, hstore.valid, hstore.phase⟩,
      ⟨hlinks.pending, hlinks.receivers, hlinks.address, hlinks.sent⟩⟩
  · refine exec_refused hfree (body := doJournalTake tag count) rfl rfl (if_neg ?_)
    rintro ⟨h1, h8, hle⟩
    obtain h | h | h := hbad
    · exact absurd h1 (by omega)
    · exact h8.not_gt h
    · exact hle.not_gt h

end Sys2Proof.Proofs.TakenCommands
end

section
/-! PROOFS. FLUSH, AUDIT and CARD LOAD LAST (3.4, 3.6, 3.7). -/

namespace Sys2Proof.Proofs.StoreCommands

open Sys2Proof Sys2Proof.Machine Sys2Proof.Proofs.ReadCommands Sys2Proof.Proofs.RecordBuffer Sys2Proof.Proofs.WaitList
open Sys2Proof.Proofs.Audits Sys2Proof.Proofs.TakenCommands
open Sys2Proof.Proofs.ResetAndLoading (raises_more nothing_or)

/-! ### FLUSH (R54) -/

/-- R54: where line `i` is still DIRTY, its bank has no room. -/
def Flushed (s : State) (i : Nat) : Prop :=
  ∀ b, (s.line i).state = .dirty → (s.line i).block = some b → 8 ≤ (s.queue (b % 4)).length

theorem startWriteBack_self {s : State} {i b : Nat} (h : (s.line i).block = some b) :
    ((startWriteBack i s).line i).state = .writing := by
  unfold startWriteBack
  dsimp only
  rw [h]
  dsimp only
  unfold appendOp
  rw [line_setQueue, line_setLine, if_pos rfl]

theorem canWriteBack_block {s : State} {i : Nat} (h : canWriteBack s i = true) : ∃ b, (s.line i).block = some b := by
  cases hb : (s.line i).block with
  | some b => exact ⟨b, rfl⟩
  | none => simp [canWriteBack, hb] at h

theorem flushLine_flushed_self (s : State) (i : Nat) : Flushed (flushLine s i) i := by
  intro b hdirty hblock
  unfold flushLine at hdirty hblock ⊢
  split at hdirty
  · next hcan =>
    obtain ⟨c, hc⟩ := canWriteBack_block hcan
    rw [startWriteBack_self hc] at hdirty
    exact LineState.noConfusion hdirty
  · next hcan =>
    rw [if_neg hcan] at hblock ⊢
    have hroom : bankHasRoom s b = false := by simpa [canWriteBack, hdirty, hblock] using hcan
    exact Nat.not_lt.mp (of_decide_eq_false hroom)

theorem flushLine_flushed {s : State} {i : Nat} (h : Flushed s i) (j : Nat) : Flushed (flushLine s j) i := by
  intro b hdirty hblock
  have hgrows := (flushLine_works s j).grows (b % 4)
  have hline : (flushLine s j).line i = s.line i := by
    unfold flushLine at hdirty ⊢
    split at hdirty
    · next hcan =>
      by_cases hij : i = j
      · subst hij
        obtain ⟨c, hc⟩ := canWriteBack_block hcan
        rw [startWriteBack_self hc] at hdirty
        exact LineState.noConfusion hdirty
      · rw [if_pos hcan, startWriteBack_line_other hij]
    · next hcan => rw [if_neg hcan]
  rw [hline] at hdirty hblock
  obtain ⟨⟨more, hmore⟩, -⟩ := hgrows
  rw [hmore, List.length_append]
  exact (h b hdirty hblock).trans (Nat.le_add_right _ _)

theorem flushLines_kept {i : Nat} (l : List Nat) {s : State} (h : Flushed s i) : Flushed (l.foldl flushLine s) i := by
  induction l generalizing s with
  | nil => exact h
  | cons j l ih => exact ih (flushLine_flushed h j)

theorem flushLines_flushed {i : Nat} {l : List Nat} (h : i ∈ l) (s : State) : Flushed (l.foldl flushLine s) i := by
  induction l generalizing s with
  | nil => exact absurd h List.not_mem_nil
  | cons j l ih =>
    obtain rfl | h := List.mem_cons.mp h
    · exact flushLines_kept l (flushLine_flushed_self s i)
    · exact ih h _

/-- R54: what a flush leaves: the mark stands while a line is DIRTY or WRITING. -/
theorem flushStep_pending {s : State} (h : s.store.flushPending = true) :
    (flushStep s).store.flushPending = true
      ↔ ∃ i < 32, ((flushStep s).line i).state = .dirty ∨ ((flushStep s).line i).state = .writing := by
  obtain ⟨t, ht⟩ : ∃ t, t = s.buffer.recency.foldl flushLine s := ⟨_, rfl⟩
  have hpending : t.store.flushPending = true := by
    obtain ⟨b, hb⟩ := flushLines_only s.buffer.recency s
    rw [ht, hb]
    exact h
  have hany : (List.range Config.lineCount).any (unsettled t) = true
      ↔ ∃ i < 32, (t.line i).state = .dirty ∨ (t.line i).state = .writing := by
    simp only [List.any_eq_true, List.mem_range, unsettled, Bool.or_eq_true, decide_eq_true_eq]
  have hstep : flushStep s = if (List.range Config.lineCount).any (unsettled t) then t
      else { t with store := { t.store with flushPending := false } } := by
    unfold flushStep
    rw [if_pos h, ht]
  rw [hstep]
  split
  · next hsome => exact iff_of_true hpending (hany.mp hsome)
  · next hnone => exact iff_of_false Bool.noConfusion (mt hany.mpr hnone)

theorem flushStep_flushed {s : State} (h : s.store.flushPending = true) {i : Nat} (hi : i ∈ s.buffer.recency) :
    Flushed (flushStep s) i := by
  have hall := flushLines_flushed hi s
  unfold flushStep
  rw [if_pos h]
  dsimp only
  split
  · exact hall
  · exact hall

/-! ### AUDIT (R56) -/

/-- R56: the state in which an audit has been started. -/
def auditStarted (s : State) : State := modifyAudit (fun a => { running := true, result := a.result }) s

theorem present_started (s : State) (b : Nat) : Present (auditStarted (countArrival s)) b ↔ Present s b := Iff.rfl

/-- The end of the event of an accepted AUDIT, which has changed the buffer and the walker alone. -/
structure AuditAnswered (s t : State) (tag : BitVec 16) (b : Buffer) (a : Audit) (more : Categories) : Prop where
  but : SameBut { s with buffer := t.buffer, store := { s.store with audit := t.store.audit } } t
  level : t.journalOut.level = s.journalOut.level
  replied : RepliedAs (countArrival s) t { code := 0x15, tag := tag } more
  buffer : t.buffer = b
  audit : t.store.audit = a

theorem audit_answered {s : State} {tag : BitVec 16} {b : Buffer} {a : Audit} {more : Categories} {e : Event}
    (he : e = { st := { countArrival s with buffer := b, store := { s.store with audit := a } }, raised := more }) :
    AuditAnswered s (finish s (accept 0x15 tag (fun _ => []) e)) tag b a more := by
  subst he
  obtain ⟨e, he⟩ : ∃ e, e = accept 0x15 tag (fun _ => [])
    { st := { countArrival s with buffer := b, store := { s.store with audit := a } }, raised := more } := ⟨_, rfl⟩
  have hst : e.st = { countArrival s with buffer := b, store := { s.store with audit := a } } := by rw [he]; rfl
  have hreplied : RepliedAs (countArrival s) (finish s e) { code := 0x15, tag := tag } more := by
    refine finish_replied (raises_more ?_ ?_ (by rw [he]; rfl) (by rw [he]; rfl) ?_ rfl ?_ ?_) _ (by rw [he]; rfl)
      (fun _ _ _ => rfl)
    all_goals rw [hst]
    exact ⟨rfl, rfl, rfl⟩
  have hbut := finish_sameBut s e (by rw [he]; rfl)
  have hlevel := finish_level_same s e (by rw [hst]; rfl)
  rw [← he]
  obtain ⟨t, ht⟩ : ∃ t, t = finish s e := ⟨_, rfl⟩
  rw [← ht] at hreplied hbut hlevel ⊢
  rw [hst] at hbut hlevel
  have hbuffer : t.buffer = b := by rw [hbut]
  have haudit : t.store.audit = a := by rw [hbut]
  refine ⟨?_, hlevel, hreplied, hbuffer, haudit⟩
  rw [hbuffer, haudit]
  exact hbut

/-- What an accepted AUDIT answers and leaves. -/
theorem audit_started {s : State} (hfree : s.unitFree) (tag : BitVec 16) (hready : s.store.phase = .ready)
    (hrunning : s.store.audit.running = false) :
    exec (.audit tag) s = .next (finish s
      (accept 0x15 tag (fun _ => []) (beginVisit { st := auditStarted (countArrival s) }))) := by
  have hidle : ¬ (countArrival s).store.audit.running = true := by
    rw [show (countArrival s).store.audit.running = false from hrunning]
    exact Bool.noConfusion
  have hbody : doAudit tag (arrived s) =
      accept 0x15 tag (fun _ => []) (beginVisit { st := auditStarted (countArrival s) }) :=
    (if_neg (not_not.mpr hready)).trans (if_neg hidle)
  show Host.Outcome.next (command 0x15 tag (doAudit tag) s) = _
  rw [command_free hfree rfl, hbody]

/-- Settles O47: the flush by the mark it sets, and the audit by the beginning of its first visit. -/
theorem flushAndAuditStart : Obligations.FlushAndAuditStart := by
  unfold Obligations.FlushAndAuditStart
  refine ⟨fun s tag hfree => ?flush, fun s tag hfree => ⟨fun hready hrunning => ?started, fun hphase => ?_,
    fun hready hrunning => ?_⟩⟩
  case flush =>
    obtain ⟨m, hm⟩ : ∃ m, m = modifyStore (fun t => { t with flushPending := true }) (countArrival s) := ⟨_, rfl⟩
    obtain ⟨e, he⟩ : ∃ e : Event, e = accept 0x14 tag (fun _ => []) { st := flushStep m } := ⟨_, rfl⟩
    have hexec : exec (.flush tag) s = .next (finish s e) := by
      show Host.Outcome.next (command 0x14 tag (doFlush tag) s) = _
      rw [command_free hfree rfl, he, hm]
      rfl
    have hpending : m.store.flushPending = true := by rw [hm]; rfl
    have hmworks : Works s m := by
      rw [hm]
      exact works_same rfl rfl rfl rfl
    have hrecency : m.buffer.recency = s.buffer.recency := by rw [hm]; rfl
    have hcount : (countArrival s).oTx = s.oTx ∧ (countArrival s).draws = s.draws := ⟨rfl, rfl⟩
    obtain ⟨b, p, hflush⟩ := flushStep_only m
    have hst : e.st = { countArrival s with buffer := b, store := { s.store with flushPending := p } } := by
      rw [he]
      exact hflush.trans (by rw [hm]; rfl)
    have hreplied : RepliedAs (countArrival s) (finish s e) { code := 0x14, tag := tag } 0 := by
      refine finish_replied (raises_more ?_ ?_ (by rw [he]; rfl) (by rw [he]; rfl) ?_ rfl ?_ ?_) _ (by rw [he]; rfl)
        (fun _ _ _ => rfl)
      all_goals rw [hst]
      exact ⟨rfl, rfl, rfl⟩
    have hquiet := finish_quiet s e { code := 0x14, tag := tag } (by rw [he]; rfl) (by rw [he]; rfl) (by rw [he]; rfl)
      (by rw [he]; rfl) (by rw [hst]; rfl)
    have hworks := (hmworks.trans (flushStep_works m)).trans
      ((congrArg Event.st he : e.st = flushStep m) ▸ works_finish s e)
    obtain ⟨t, ht⟩ : ∃ t, t = finish s e := ⟨_, rfl⟩
    rw [← ht] at hexec hreplied hquiet hworks
    have hbuffer : t.buffer = (flushStep m).buffer := by
      rw [hquiet, he]
      rfl
    have hstore : t.store = (flushStep m).store := by
      rw [hquiet, he]
      rfl
    have hline (i : Nat) : t.line i = (flushStep m).line i := by
      unfold State.line
      rw [hbuffer]
    have hqueue (k : Nat) : t.queue k = (flushStep m).queue k := by
      unfold State.queue
      rw [hbuffer]
    refine ⟨t, hexec, ?_, hreplied, ?_, fun i hi b hdirty hblock => ?_, hworks.grows, hworks.keeps⟩
    · rw [hquiet, hst]
      rfl
    · rw [hstore]
      simp only [hline]
      exact flushStep_pending hpending
    · rw [hline] at hdirty hblock
      rw [hqueue]
      exact flushStep_flushed hpending (hrecency.symm ▸ hi) b hdirty hblock
  case started =>
    obtain ⟨m, hm⟩ : ∃ m, m = auditStarted (countArrival s) := ⟨_, rfl⟩
    have hexec := audit_started hfree tag hready hrunning
    rw [← hm] at hexec
    have hcursor : m.store.audit.cursor = 0 := by rw [hm]; rfl
    have hmworks : Works s m := by
      rw [hm]
      exact works_same rfl rfl rfl rfl
    have hpresent (b : Nat) : Present m b ↔ Present s b := by rw [hm]; exact present_started s b
    have hskipped (c : Nat) (hc : c < nextPresent m m.store.audit.cursor) :
        s.isValid c = false ∧ ∀ j < 32, (s.line j).block ≠ some c := by
      have hnot := mt (hpresent c).mpr (not_present_before (by rw [hcursor]; exact Nat.zero_le c) hc)
      exact ⟨Bool.eq_false_iff.mpr fun hv => hnot (.inl hv), fun j hj hb => hnot (.inr ⟨j, hj, hb⟩)⟩
    by_cases hk : nextPresent m m.store.audit.cursor = 131072
    · have hend := audit_answered (s := s) (tag := tag) (e := beginVisit { st := m }) (b := s.buffer)
        (a := { running := false, cursor := 131072, balanceSum := 0, heldSum := 0, waiting := false
                result := some {
                  matched := (0 : BitVec 40) == s.store.float && (0 : BitVec 40) == BitVec.ofNat 40 (holdTotal s.holds)
                  balanceSum := 0, float := s.store.float, heldSum := 0
                  holdTotal := BitVec.ofNat 40 (holdTotal s.holds) } })
        (more := 0 ||| catAudit) (by rw [beginVisit_ends (e := { st := m }) hk, hm]; rfl)
      obtain ⟨t, ht⟩ : ∃ t, t = finish s (accept 0x15 tag (fun _ => []) (beginVisit { st := m })) := ⟨_, rfl⟩
      rw [← ht] at hexec hend
      obtain ⟨hbut, hlevel, hreplied, hbuffer, haudit⟩ := hend
      rw [nothing_or] at hreplied
      have hlast : t.store.audit.cursor = 131072 := by rw [haudit]
      have hworks : Works s t := by
        rw [hbut]
        exact works_same (by rw [← hbuffer]) (by rw [← hbuffer]) (by rw [← hbuffer]) rfl
      refine ⟨t, hexec, hbut, hlevel, (if_pos hlast).symm ▸ hreplied, hworks.keeps, hworks.grows, ?_, ?_, fun c hc => ?_,
        fun h => absurd hlast h.ne, hlast.le, fun _ => ?_⟩
      · rw [haudit]
      · rw [haudit]
      · exact hskipped c (by rwa [hk, ← hlast])
      · rw [haudit]
        exact ⟨rfl, rfl⟩
    · have hbelow := lt_of_le_of_ne (nextPresent_le m m.store.audit.cursor) hk
      obtain ⟨v, hv, hbegun⟩ := beginVisit_begun (e := { st := m }) hbelow
      obtain ⟨k, hkk⟩ : ∃ k, k = nextPresent m m.store.audit.cursor := ⟨_, rfl⟩
      have hfound := nextPresent_present hbelow
      dsimp only at hbegun
      rw [← hkk] at hbegun hbelow hskipped hfound
      obtain ⟨⟨bv, wv, hvst⟩, hvworks, -, -, hstands⟩ := hbegun
      have hend := audit_answered (s := s) (tag := tag) (e := beginVisit { st := m }) (b := bv)
        (a := { running := true, cursor := k, balanceSum := 0, heldSum := 0, waiting := wv
                result := s.store.audit.result }) (more := 0) (by rw [hv, hvst, hm]; rfl)
      obtain ⟨t, ht⟩ : ∃ t, t = finish s (accept 0x15 tag (fun _ => []) (beginVisit { st := m })) := ⟨_, rfl⟩
      have htworks : Works v t := by
        have hsame := works_finish s (accept 0x15 tag (fun _ => []) (beginVisit { st := m }))
        rw [← ht, hv] at hsame
        exact hsame
      rw [← ht] at hexec hend
      obtain ⟨hbut, hlevel, hreplied, hbuffer, haudit⟩ := hend
      have hcur : t.store.audit.cursor = k := by rw [haudit]
      have hne : ¬ t.store.audit.cursor = 131072 := by rw [hcur]; exact hbelow.ne
      have hworks := hmworks.trans (hvworks.trans htworks)
      have hvbuffer : v.buffer = t.buffer := by rw [hbuffer, hvst]
      refine ⟨t, hexec, hbut, hlevel, (if_neg hne).symm ▸ hreplied, hworks.keeps, hworks.grows, ?_, ?_, fun c hc => ?_,
        fun _ => ⟨?_, ?_, ?_, ?_⟩, hcur.symm ▸ hbelow.le, fun h => absurd h hne⟩
      · rw [haudit]
      · rw [haudit]
      · exact hskipped c (hcur ▸ hc)
      · rw [haudit]
      · rw [haudit]
      · rw [hcur]
        exact (hpresent k).mp hfound
      · rw [hcur]
        unfold State.line at hstands ⊢
        rw [hvbuffer] at hstands
        refine hstands.imp (fun hw => ?_) id
        rw [haudit]
        rw [hvst] at hw
        exact hw
  · exact exec_refused hfree (body := doAudit tag) rfl rfl (if_pos hphase)
  · exact exec_refused hfree (body := doAudit tag) rfl rfl ((if_neg (not_not.mpr hready)).trans (if_pos hrunning))

/-! ### CARD LOAD LAST (R43 to R46) -/

theorem present_iff (s : State) (b : Nat) : present s b = true ↔ Present s b := by
  unfold present Present
  rw [Bool.or_eq_true]
  refine or_congr Iff.rfl ⟨fun h => ?_, fun ⟨j, hj, hb⟩ => ?_⟩
  · obtain ⟨j, hj⟩ := Option.isSome_iff_exists.mp h
    have hmem := List.mem_of_find?_eq_some hj
    exact ⟨j, List.mem_range.mp hmem, lineHolding_block hj⟩
  · rw [Option.isSome_iff_ne_none]
    exact fun hnone => lineHolding_none hnone j hj hb

/-- R171: the LAST for the pending block passes the gate outside READY. -/
theorem exec_cardLoadLast {s : State} {tag : BitVec 16} {block : BitVec 24} {first : PendingFirst} {images : FourImages}
    (hprogress : s.unit.progress = none) (hfirst : s.unit.first = some first) (hblock : first.block = block.toNat)
    (hphase : s.store.phase ≠ .ready) :
    exec (.cardLoadLast tag block images) s = .next (finish s (doCardLoadLast tag images (arrived s))) := by
  have hcompletes : pendingBlock s block.toNat = true := by
    unfold pendingBlock
    rw [hfirst, ← hblock]
    exact beq_self_eq_true _
  have hgate : unitGate 0x12 tag (pendingBlock s block.toNat) (doCardLoadLast tag images) (arrived s)
      = doCardLoadLast tag images (arrived s) := by
    unfold unitGate
    rw [hcompletes]
    simp [arrived, countArrival, hprogress, hphase]
  exact congrArg (fun e => Host.Outcome.next (finish s e)) hgate

theorem doCardLoadLast_loaded {s : State} {tag : BitVec 16} {first : PendingFirst} {images : FourImages} {records : Block}
    (hfirst : s.unit.first = some first) (hloaded : loadedBlock first.images images = some records) :
    doCardLoadLast tag images (arrived s) =
      if present s first.block then
        if inFlightFull s then refuse 0x12 tag .busy ((arrived s).upd dropFirst)
        else takeOn tag (.replaceBlock first.block records) (unitEntry .cardLoad (8 * first.block) false) (arrived s)
      else loadDirect tag first.block records (arrived s) := by
  have hpending : (arrived s).st.unit.first = some first := hfirst
  unfold doCardLoadLast
  rw [hpending]
  dsimp only
  rw [hloaded]
  rfl

/-- R43: what a refused LAST leaves, its FIRST discarded. -/
theorem finish_dropped (s : State) (tag : BitVec 16) (r : RefusalCode) :
    finish s (refuse 0x12 tag r ((arrived s).upd dropFirst)) = refusedWith 0x12 tag r (dropFirst s) :=
  finish_refuse (u := dropFirst s) rfl rfl rfl rfl rfl 0x12 tag r

/-- R46: a pair for a present block becomes a replacement in flight. -/
theorem last_replaces {s : State} {tag : BitVec 16} {b : Nat} {records : Block} :
    ∃ t, finish s (takeOn tag (.replaceBlock b records) (unitEntry .cardLoad (8 * b) false) (arrived s)) = t
      ∧ TakenOn (countArrival s) t tag (.replaceBlock b records)
        { id := s.nextId, origin := .unit, kind := .cardLoad, training := false, program := none, slot := 8 * b
          block := b, amount := 0, partialFlag := false, reference := none, generation := s.tables.generation
          reserved := false, boundSet := none } := by
  obtain ⟨t, ht, htaken⟩ := takeOn_taken tag (.replaceBlock b records) (unitEntry .cardLoad (8 * b) false)
    { id := s.nextId, origin := .unit, kind := .cardLoad, training := false, program := none, slot := 8 * b
      block := b, amount := 0, partialFlag := false, reference := none, generation := s.tables.generation
      reserved := false, boundSet := none } (countArrival s)
    (by unfold unitEntry; rw [Nat.mul_div_cancel_left b (by decide)]; rfl)
  have hload : committedLoad t = committedLoad s := by
    rw [htaken.state]
    rfl
  exact ⟨t, (congrArg (finish s) ht).trans (finish_silent s { st := t } rfl rfl rfl rfl hload), htaken⟩

/-- R45: a pair for an absent block that has a line. -/
theorem last_given {s : State} {tag : BitVec 16} {b i : Nat} {records : Block} (hempty : s.buffer.waitList = [])
    (hi : findLine s = some i) :
    ∃ t, finish s (loadDirect tag b records (arrived s)) = t
      ∧ t = { s with
          oCount := t.oCount, oTx := t.oTx, unit := { progress := none, first := none }, buffer := t.buffer
          store := { s.store with
            float := s.store.float + BitVec.ofNat 40 (balances records), flushPending := t.store.flushPending } }
      ∧ RepliedAs (countArrival s) t { code := 0x12, tag := tag, fields := loadAnswer b false records } 0
      ∧ LineKept { state := .dirty, block := some b, records := records, dirty := 0xFF } t i
      ∧ t.buffer.recency = s.buffer.recency.filter (· != i) ++ [i] ∧ KeepsLines s t := by
  obtain ⟨g, hg⟩ : ∃ g, g = giveDirect i b tag records (arrived s) := ⟨_, rfl⟩
  have hevent : loadDirect tag b records (arrived s) = g.upd flushStep := by
    have hline : findLine (arrived s).st = some i := hi
    have hlist : (arrived s).st.buffer.waitList.isEmpty = true := by
      rw [List.isEmpty_iff]
      exact hempty
    unfold loadDirect
    dsimp only
    rw [hlist, hline, hg]
    rfl
  have hbuffer := giveDirect_buffer i b tag records (arrived s)
  have hgworks := giveDirect_works i b tag records (arrived s) (findLine_not_resting (s := s) hi)
  rw [← hg] at hbuffer hgworks
  have hself : g.st.line i = { state := .dirty, block := some b, records := records, dirty := 0xFF } := by
    have hset := line_setLine (countArrival s) i i
      { state := .dirty, block := some b, records := records, dirty := 0xFF }
    unfold State.line at hset ⊢
    rw [hbuffer]
    exact hset.trans (if_pos rfl)
  have hrests : Resting (g.st.line i) := by
    rw [hself]
    exact .inl rfl
  obtain ⟨bf, p, hflush⟩ := flushStep_only g.st
  have hst : (g.upd flushStep).st = { countArrival s with
      buffer := bf, unit := { progress := none, first := none }
      store := { s.store with float := s.store.float + BitVec.ofNat 40 (balances records), flushPending := p } } := by
    refine hflush.trans ?_
    rw [hg]
    rfl
  have hreply : (g.upd flushStep).reply = some { code := 0x12, tag := tag, fields := loadAnswer b false records } := by
    rw [hg]
    rfl
  have hsettled : FieldsSettled { code := 0x12, tag := tag, fields := loadAnswer b false records } := by
    rintro u v ⟨_, _, _, _, _, rfl⟩
    rfl
  have hreplied : RepliedAs (countArrival s) (finish s (g.upd flushStep))
      { code := 0x12, tag := tag, fields := loadAnswer b false records } 0 := by
    refine finish_replied (raises_more ?_ ?_ (by rw [hg]; rfl) (by rw [hg]; rfl) ?_ rfl ?_ ?_) _ hreply hsettled
    all_goals rw [hst]
    exact ⟨rfl, rfl, rfl⟩
  have hquiet := finish_quiet s (g.upd flushStep) _ (by rw [hg]; rfl) (by rw [hg]; rfl) (by rw [hg]; rfl) hreply
    (by rw [hst]; rfl)
  have hworks : Works g.st (finish s (g.upd flushStep)) := (flushStep_works g.st).trans (works_finish s (g.upd flushStep))
  have hrecency : (finish s (g.upd flushStep)).buffer.recency = s.buffer.recency.filter (· != i) ++ [i] := by
    rw [hquiet]
    exact (flushStep_recency g.st).trans (by rw [hbuffer]; rfl)
  refine ⟨_, by rw [hevent], ?_, hreplied, hself ▸ hworks.lines i hrests, hrecency, ?_⟩
  · rw [hquiet, hst]
    rfl
  · exact ((works_same (s := s) (t := countArrival s) rfl rfl rfl rfl).trans (hgworks.trans hworks)).keeps

/-- R45: a pair for an absent block that waits for a line. -/
theorem last_waits {s : State} {tag : BitVec 16} {b : Nat} {records : Block}
    (hnone : s.buffer.waitList ≠ [] ∨ findLine s = none) :
    ∃ t, finish s (loadDirect tag b records (arrived s)) = t
      ∧ t = { s with
          oCount := { s.oCount with received := s.oCount.received + 1, management := s.oCount.management + 1 }
          unit := { s.unit with progress := some { tag := tag, work := .directLoad b records } }
          buffer := t.buffer }
      ∧ t.buffer.waitList = s.buffer.waitList ++ [.directLoad b] ∧ KeepsLines s t := by
  obtain ⟨m, hm⟩ : ∃ m, m = startWork tag (.directLoad b records) (countArrival s) := ⟨_, rfl⟩
  have hevent : loadDirect tag b records (arrived s) = { st := joinWaitList (.directLoad b) m } := by
    have hwaits : (arrived s).upd (fun s => joinWaitList (.directLoad b) (startWork tag (.directLoad b records) s))
        = { st := joinWaitList (.directLoad b) m } := by
      rw [hm]
      rfl
    unfold loadDirect
    dsimp only
    split
    · next hlist =>
      have hline : findLine (arrived s).st = none :=
        hnone.resolve_left (not_not.mpr (List.isEmpty_iff.mp hlist))
      rw [hline]
      exact hwaits
    · exact hwaits
  obtain ⟨bf, hjoined⟩ := joinWaitList_only (.directLoad b) m
  have hload : committedLoad (joinWaitList (.directLoad b) m) = committedLoad s := by
    rw [hjoined, hm]
    rfl
  have hend := finish_silent s { st := joinWaitList (.directLoad b) m } rfl rfl rfl rfl hload
  refine ⟨joinWaitList (.directLoad b) m, by rw [hevent, hend], ?_, ?_, ?_⟩
  · rw [hjoined, hm]
    rfl
  · unfold joinWaitList
    rw [evict_waitList, hm]
    rfl
  · refine ((works_same (s := s) (t := m) ?_ ?_ ?_ ?_).trans (joinWaitList_works (.directLoad b) m)).keeps
    all_goals
      rw [hm]
      rfl

/-- Settles O45: the pair by its records and by what stands for its block. -/
theorem cardLoadLastWrites : Obligations.CardLoadLastWrites := by
  unfold Obligations.CardLoadLastWrites
  intro s tag block first images b dropped isPresent hprogress hfirst hblock hphase
  have hexec := exec_cardLoadLast (tag := tag) (images := images) hprogress hfirst hblock hphase
  refine ⟨fun hnone => ?_, fun records hloaded => ⟨fun hpresent hfull => ?_, fun hpresent hroom => ?_,
    fun habsent i hempty hi => ?_, fun habsent hwaits => ?_⟩⟩
  · have hbody : doCardLoadLast tag images (arrived s) = refuse 0x12 tag .badField ((arrived s).upd dropFirst) := by
      have hpending : (arrived s).st.unit.first = some first := hfirst
      unfold doCardLoadLast
      rw [hpending]
      dsimp only
      rw [hnone]
    rw [hexec, hbody, finish_dropped]
    rfl
  · rw [hexec, doCardLoadLast_loaded hfirst hloaded, hblock, if_pos ((present_iff s b).mpr hpresent),
      if_pos ((inFlightFull_iff s).mpr hfull), finish_dropped]
    rfl
  · obtain ⟨t, ht, htaken⟩ := last_replaces (s := s) (tag := tag) (b := b) (records := records)
    refine ⟨t, ?_, htaken.state, htaken.demanded, htaken.fromArrival.keeps⟩
    rw [hexec, doCardLoadLast_loaded hfirst hloaded, hblock, if_pos ((present_iff s b).mpr hpresent),
      if_neg (fun hf => hroom.not_ge ((inFlightFull_iff s).mp hf)), ht]
  · obtain ⟨t, ht, hstate⟩ := last_given (tag := tag) (b := b) (records := records) hempty hi
    refine ⟨t, ?_, hstate⟩
    rw [hexec, doCardLoadLast_loaded hfirst hloaded, hblock, if_neg (mt (present_iff s b).mp habsent), ht]
  · obtain ⟨t, ht, hstate⟩ := last_waits (s := s) (tag := tag) (b := b) (records := records) hwaits
    refine ⟨t, ?_, hstate⟩
    rw [hexec, doCardLoadLast_loaded hfirst hloaded, hblock, if_neg (mt (present_iff s b).mp habsent), ht]

end Sys2Proof.Proofs.StoreCommands
end

section
/-! PROOFS. The range checks of the fields that commands load (2.2 to 2.4, 3.4, 4.9). -/

namespace Sys2Proof.Proofs.LoadedFields

open Sys2Proof Sys2Proof.Machine

/-! ### Card record images (R43) -/

/-- The card state of a code of at most 3. -/
def stateOf (c : BitVec 8) : CardState :=
  if c = 0 then .unissued else if c = 1 then .active else if c = 2 then .blocked else .expired

theorem cardStateOf_eq (c : BitVec 8) : cardStateOf c = if c.toNat ≤ 3 then some (stateOf c) else none := by
  by_cases hc : c.toNat ≤ 3
  · have hcode : c = 0 ∨ c = 1 ∨ c = 2 ∨ c = 3 := by bv_omega
    rcases hcode with rfl | rfl | rfl | rfl <;> rfl
  · rw [if_neg hc]
    unfold cardStateOf
    split
    case h_5 => rfl
    all_goals omega

theorem stateOf_unissued_iff (c : BitVec 8) : stateOf c = .unissued ↔ c = 0 := by
  unfold stateOf
  by_cases h0 : c = 0
  · rw [if_pos h0]
    exact iff_of_true rfl h0
  · rw [if_neg h0]
    refine iff_of_false ?_ h0
    by_cases h1 : c = 1
    · rw [if_pos h1]
      exact CardState.noConfusion
    · by_cases h2 : c = 2
      · rw [if_neg h1, if_pos h2]
        exact CardState.noConfusion
      · rw [if_neg h1, if_neg h2]
        exact CardState.noConfusion

/-- Presence bits below 8 are clear when the three of them are. -/
theorem presence_clear_iff {p : BitVec 8} (hp : p.toNat < 8) :
    (p.getLsbD 0 = false ∧ p.getLsbD 1 = false ∧ p.getLsbD 2 = false) ↔ p = 0 := by
  refine ⟨fun ⟨h0, h1, h2⟩ => BitVec.eq_of_getLsbD_eq fun i _ => ?_, fun h => by subst h; decide⟩
  have hzero : ((0 : BitVec 8)).getLsbD i = false := BitVec.getLsbD_zero
  rw [hzero]
  rcases (by omega : i = 0 ∨ i = 1 ∨ i = 2 ∨ 3 ≤ i) with rfl | rfl | rfl | hi
  · exact h0
  · exact h1
  · exact h2
  · exact Nat.testBit_lt_two_pow (hp.trans_le (Nat.pow_le_pow_right (n := 2) (by decide) hi))

theorem optional_isNone (b : Bool) (v : Nat) : (Machine.optional b v).isNone = !b := by cases b <;> rfl

/-- Whether an image's figures and presence bits pass the loading checks of its state. -/
def ImageFits (i : RecordImage) : Prop :=
  i.state.toNat ≤ 3 ∧ i.presence.toNat < 8 ∧ i.balance.toNat ≤ 999999 ∧ i.held = 0 ∧ i.holdCount = 0
    ∧ (if i.state = 0 then i.presence = 0 ∧ i.balance = 0
      else i.presence.getLsbD 0 = true ∧ i.issueShop.toNat < 512 ∧ i.presence.getLsbD 1 = true)

/-- The record of an image that passes them. -/
def recordOf (i : RecordImage) : CardRecord where
  state := stateOf i.state
  balance := i.balance.toNat
  held := 0
  holdCount := 0
  issueShop := Machine.optional (i.presence.getLsbD 0) i.issueShop.toNat
  activationDay := Machine.optional (i.presence.getLsbD 1) i.activationDay.toNat
  expiryDay := Machine.optional (i.presence.getLsbD 2) i.expiryDay.toNat
  lastActivity := i.lastActivity.toNat
  sequence := i.sequence

theorem loadedRecord_iff (i : RecordImage) (r : CardRecord) : loadedRecord i = some r ↔ ImageFits i ∧ r = recordOf i := by
  unfold loadedRecord ImageFits
  rw [cardStateOf_eq]
  by_cases hstate : i.state.toNat ≤ 3
  · rw [if_pos hstate]
    dsimp only
    rw [Option.ite_none_right_eq_some, Option.some_inj, eq_comm (b := r)]
    refine and_congr ?_ Iff.rfl
    by_cases hpresence : i.presence.toNat < 8
    · by_cases hzero : i.state = 0
      · rw [if_pos ((stateOf_unissued_iff _).mpr hzero), if_pos hzero, ← presence_clear_iff hpresence]
        simp only [optional_isNone, Bool.and_eq_true, decide_eq_true_eq, beq_iff_eq, Bool.not_eq_true', hstate,
          hpresence, true_and, Config.maxAmount, and_assoc]
        tauto
      · rw [if_neg (mt (stateOf_unissued_iff _).mp hzero), if_neg hzero]
        cases hshop : i.presence.getLsbD 0 <;>
          simp only [Machine.optional, hstate, hpresence, Config.maxAmount, Config.shopCount, Bool.and_eq_true,
            decide_eq_true_eq, beq_iff_eq, true_and, and_assoc, if_true, reduceIte, Bool.false_eq_true, false_and,
            and_false]
        cases i.presence.getLsbD 1 <;> simp
    · simp only [hpresence, decide_false, Bool.false_and, Bool.false_eq_true, false_and, and_false]
  · rw [if_neg hstate]
    simp only [hstate, false_and, reduceCtorEq]

/-! ### CARD ADJUST, program entries, fee classes and shop terms (R78, R21, R23, R24) -/

theorem adjustFits_iff (f : AdjustFields) : adjustFits f = true ↔
    f.mask.toNat < 16 ∧ f.mask &&& 7 ≠ 0 ∧ (f.mask.getLsbD 3 = true → f.mask.getLsbD 1 = true)
      ∧ (f.mask.getLsbD 0 = true → f.state = 1 ∨ f.state = 2)
      ∧ (f.mask.getLsbD 2 = true → f.change ≠ 0 ∧ -999999 ≤ f.change.toInt ∧ f.change.toInt ≤ 999999) := by
  have hchange : f.change.toInt ≠ 0 ↔ f.change ≠ 0 := not_congr (BitVec.toInt_inj (y := 0))
  unfold adjustFits
  cases f.mask.getLsbD 0 <;> cases f.mask.getLsbD 1 <;> cases f.mask.getLsbD 2 <;> cases f.mask.getLsbD 3 <;>
    simp [hchange, Config.maxAmount, and_assoc]

theorem optionalAmount_eq (v : BitVec 24) : optionalAmount v = if v = 0xFFFFFF ∨ (1 ≤ v.toNat ∧ v.toNat ≤ 999999) then
    some (if v = 0xFFFFFF then none else some v.toNat) else none := by
  unfold optionalAmount
  by_cases habsent : v = 0xFFFFFF#24
  · rw [if_pos habsent, if_pos (.inl habsent)]
    exact congrArg some (if_pos habsent).symm
  · rw [if_neg habsent]
    by_cases hrange : 1 ≤ v.toNat ∧ v.toNat ≤ Config.maxAmount
    · rw [if_pos hrange, if_pos (.inr hrange)]
      exact congrArg some (if_neg habsent).symm
    · exact (if_neg hrange).trans (if_neg (not_or.mpr ⟨habsent, hrange⟩)).symm

theorem decimalPrefix_iff (p : BitVec 24) : decimalPrefix p = true ↔ ∀ i < 6, (p.toNat / 16 ^ i) % 16 ≤ 9 := by
  unfold decimalPrefix
  simp only [List.all_eq_true, List.mem_range, decide_eq_true_eq]

theorem optionalPrefix_eq (p : BitVec 24) : optionalPrefix p =
    if p = 0xFFFFFF ∨ ∀ i < 6, (p.toNat / 16 ^ i) % 16 ≤ 9 then some (if p = 0xFFFFFF then none else some p)
    else none := by
  unfold optionalPrefix
  by_cases habsent : p = 0xFFFFFF#24
  · rw [if_pos habsent, if_pos (.inl habsent)]
    exact congrArg some (if_pos habsent).symm
  · rw [if_neg habsent]
    by_cases hdigits : ∀ i < 6, (p.toNat / 16 ^ i) % 16 ≤ 9
    · rw [if_pos ((decimalPrefix_iff p).mpr hdigits), if_pos (.inr hdigits)]
      exact congrArg some (if_neg habsent).symm
    · exact (if_neg (mt (decimalPrefix_iff p).mp hdigits)).trans (if_neg (not_or.mpr ⟨habsent, hdigits⟩)).symm

/-- R21: the checks of a program entry. -/
def ProgramFits (f : ProgramFields) : Prop :=
  (f.digits = 0xFFFFFF ∨ ∀ i < 6, (f.digits.toNat / 16 ^ i) % 16 ≤ 9) ∧ f.flags.toNat < 32
    ∧ f.baseSlot.toNat ≤ 1048575 ∧ f.slotCount.toNat ≤ 1048576
    ∧ f.minLoad.toNat ≤ 999999 ∧ f.maxLoad.toNat ≤ 999999 ∧ f.maxBalance.toNat ≤ 999999
    ∧ (f.openCap = 0xFFFFFF ∨ (1 ≤ f.openCap.toNat ∧ f.openCap.toNat ≤ 999999)) ∧ f.tolerance.toNat ≤ 50
    ∧ ((60 ≤ f.lifetime.toNat ∧ f.lifetime.toNat ≤ 604800) ∨ (f.flags.getLsbD 0 = false ∧ f.lifetime = 0))
    ∧ f.expiryDays.toNat ≤ 3650 ∧ f.standInLimit.toNat ≤ 999999
    ∧ (f.flags.getLsbD 0 = true → f.digits ≠ 0xFFFFFF ∧ f.slotCount ≠ 0)

/-- R21: the entry of fields that pass them. -/
def entryOf (f : ProgramFields) : Program where
  digits := if f.digits = 0xFFFFFF then none else some f.digits
  enabled := f.flags.getLsbD 0
  reloadable := f.flags.getLsbD 1
  partialAllowed := f.flags.getLsbD 2
  refundable := f.flags.getLsbD 3
  reloadExtends := f.flags.getLsbD 4
  baseSlot := f.baseSlot.toNat
  slotCount := f.slotCount.toNat
  minLoad := f.minLoad.toNat
  maxLoad := f.maxLoad.toNat
  maxBalance := f.maxBalance.toNat
  openCap := if f.openCap = 0xFFFFFF then none else some f.openCap.toNat
  tolerance := f.tolerance.toNat
  lifetime := f.lifetime.toNat
  expiryDays := f.expiryDays.toNat
  standInLimit := f.standInLimit.toNat

theorem programOf_iff (f : ProgramFields) (p : Program) : programOf f = some p ↔ ProgramFits f ∧ p = entryOf f := by
  unfold programOf ProgramFits
  rw [optionalPrefix_eq, optionalAmount_eq]
  by_cases hdigits : f.digits = 0xFFFFFF ∨ ∀ i < 6, (f.digits.toNat / 16 ^ i) % 16 ≤ 9
  · by_cases hcap : f.openCap = 0xFFFFFF ∨ (1 ≤ f.openCap.toNat ∧ f.openCap.toNat ≤ 999999)
    · rw [if_pos hdigits, if_pos hcap]
      dsimp only
      rw [Option.ite_none_right_eq_some, Option.some_inj, eq_comm (b := p)]
      refine and_congr ?_ Iff.rfl
      rw [eq_true hdigits, eq_true hcap]
      have hlifetime : f.lifetime.toNat = 0 ↔ f.lifetime = 0 := BitVec.toNat_inj (y := 0)
      have hslots : f.baseSlot.toNat < Config.slotCount ↔ f.baseSlot.toNat ≤ 1048575 := Nat.lt_succ_iff
      cases f.flags.getLsbD 0 <;> by_cases habsent : f.digits = 0xFFFFFF <;>
        simp [hlifetime, hslots, habsent, Config.maxAmount, Config.slotCount, and_assoc]
    · rw [if_pos hdigits, if_neg hcap]
      simp only [hcap, false_and, and_false, reduceCtorEq]
  · rw [if_neg hdigits]
    simp only [hdigits, false_and, reduceCtorEq]

theorem rebate_eq {flags : BitVec 8} (h : flags.toNat < 2) : flags.getLsbD 0 = decide (flags = 1) := by
  have hflags : flags = 0 ∨ flags = 1 := by bv_omega
  rcases hflags with rfl | rfl <;> rfl

theorem feeClassOf_iff (f : FeeFields) (c : FeeClass) : feeClassOf f = some c ↔
    (f.redemptionRate.toNat ≤ 1000 ∧ f.fixedFee.toNat ≤ 500 ∧ f.commissionRate.toNat ≤ 1000
      ∧ f.minPayout.toNat ≤ 100000 ∧ f.collectAt.toNat ≤ 100000 ∧ f.flags.toNat ≤ 1)
    ∧ c = {
        redemptionRate := f.redemptionRate.toNat, fixedFee := f.fixedFee.toNat
        commissionRate := f.commissionRate.toNat, minPayout := f.minPayout.toNat, collectAt := f.collectAt.toNat
        rebate := decide (f.flags = 1) } := by
  unfold feeClassOf
  rw [Option.ite_none_right_eq_some, Option.some_inj, eq_comm (b := c), Nat.lt_succ_iff]
  refine and_congr_right fun ⟨_, _, _, _, _, hflags⟩ => ?_
  rw [rebate_eq (Nat.lt_succ_iff.mpr hflags)]

theorem termsOf_iff (f : TermsFields) (m : ShopTerms) : termsOf f = some m ↔
    (f.feeClass.toNat ≤ 15 ∧ f.flags.toNat < 32
      ∧ (f.limit = 0xFFFFFF ∨ (1 ≤ f.limit.toNat ∧ f.limit.toNat ≤ 999999)))
    ∧ m = {
        feeClass := f.feeClass.toNat, limit := if f.limit = 0xFFFFFF then none else some f.limit.toNat
        allowSales := f.flags.getLsbD 0, allowRefund := f.flags.getLsbD 1, crossRefund := f.flags.getLsbD 2
        openRefund := f.flags.getLsbD 3, autoSuspend := f.flags.getLsbD 4 } := by
  unfold termsOf
  rw [optionalAmount_eq]
  by_cases hlimit : f.limit = 0xFFFFFF ∨ (1 ≤ f.limit.toNat ∧ f.limit.toNat ≤ 999999)
  · rw [if_pos hlimit]
    dsimp only
    rw [Option.ite_none_right_eq_some, Option.some_inj, eq_comm (b := m), Nat.lt_succ_iff]
    simp only [hlimit, and_true]
  · rw [if_neg hlimit]
    simp only [hlimit, and_false, false_and, reduceCtorEq]

/-- Settles O46: each check is a chain of comparisons, and each loaded value is a field. -/
theorem fieldRangesChecked : Obligations.FieldRangesChecked := by
  unfold Obligations.FieldRangesChecked
  exact ⟨loadedRecord_iff, adjustFits_iff, programOf_iff, feeClassOf_iff, termsOf_iff⟩

end Sys2Proof.Proofs.LoadedFields
end

section
/-! PROOFS. COMMIT TABLES: the validation, the swap and the retirement (2.5, 2.6). -/

namespace Sys2Proof.Proofs.TableCommit

open Sys2Proof Sys2Proof.Machine Sys2Proof.Proofs.ReadCommands
open Sys2Proof.Proofs.CycleController (repliedAs_fields)
open Sys2Proof.Proofs.ResetAndLoading (nothing_or)
open Sys2Proof.Proofs.ShopCommands (exec_changed)

/-! ### COMMIT TABLES: the validation (R28) -/

section
variable (set : TableSet)

/-- R28: entry `i` runs past the last slot; the enabled entry `j` carries its digits; the enabled entry `j` shares a slot
with it. -/
def Beyond (i : Nat) : Prop := 1048576 < (set.program i).baseSlot + (set.program i).slotCount
def SamePrefix (j i : Nat) : Prop := (set.program j).enabled = true ∧ (set.program j).digits = (set.program i).digits
def SharesSlot (j i : Nat) : Prop := (set.program j).enabled = true
  ∧ (set.program i).baseSlot < (set.program j).baseSlot + (set.program j).slotCount
  ∧ (set.program j).baseSlot < (set.program i).baseSlot + (set.program i).slotCount

/-- R28: entry `i` fails. -/
def Fails (i : Nat) : Prop :=
  (set.program i).enabled = true ∧ (Beyond set i ∨ ∃ j < i, SamePrefix set j i ∨ SharesSlot set j i)

/-- The lowest earlier enabled entry with the same digits as entry `i`, and the lowest that shares a slot with it. -/
def firstSamePrefix (i : Nat) : Option Nat := (List.range i).find? fun j =>
  (set.program j).enabled && decide ((set.program j).digits = (set.program i).digits)
def firstSharedSlot (i : Nat) : Option Nat := (List.range i).find? fun j =>
  (set.program j).enabled && slotsMeet (set.program i) (set.program j)

end

section
variable {set : TableSet} {i j : Nat}

theorem samePrefix_iff : ((set.program j).enabled && decide ((set.program j).digits = (set.program i).digits)) = true
    ↔ SamePrefix set j i := by
  unfold SamePrefix
  rw [Bool.and_eq_true, decide_eq_true_eq]

theorem sharesSlot_iff : ((set.program j).enabled && slotsMeet (set.program i) (set.program j)) = true
    ↔ SharesSlot set j i := by
  unfold SharesSlot slotsMeet
  rw [Bool.and_eq_true, Bool.and_eq_true, decide_eq_true_eq, decide_eq_true_eq]

theorem firstSamePrefix_none (h : ∀ j < i, ¬ SamePrefix set j i) : firstSamePrefix set i = none :=
  List.find?_eq_none.mpr fun j hj hsame => h j (List.mem_range.mp hj) (samePrefix_iff.mp hsame)

theorem firstSharedSlot_none (h : ∀ j < i, ¬ SharesSlot set j i) : firstSharedSlot set i = none :=
  List.find?_eq_none.mpr fun j hj hshared => h j (List.mem_range.mp hj) (sharesSlot_iff.mp hshared)

theorem firstSamePrefix_some (hj : j < i) (hsame : SamePrefix set j i) (hfirst : ∀ k < j, ¬ SamePrefix set k i) :
    firstSamePrefix set i = some j :=
  List.find?_range_eq_some.mpr ⟨samePrefix_iff.mpr hsame, List.mem_range.mpr hj,
    fun k hk => (Bool.not_eq_true' _).mpr ((Bool.not_eq_true _).mp (mt samePrefix_iff.mp (hfirst k hk)))⟩

theorem firstSharedSlot_some (hj : j < i) (hshared : SharesSlot set j i) (hfirst : ∀ k < j, ¬ SharesSlot set k i) :
    firstSharedSlot set i = some j :=
  List.find?_range_eq_some.mpr ⟨sharesSlot_iff.mpr hshared, List.mem_range.mpr hj,
    fun k hk => (Bool.not_eq_true' _).mpr ((Bool.not_eq_true _).mp (mt sharesSlot_iff.mp (hfirst k hk)))⟩

/-- R28: an entry that is within the last slot, by the model's order of the other causes (log 28). -/
theorem entryFault_within (h : (set.program i).enabled = true) (hb : ¬ Beyond set i) : entryFault set i =
    ((firstSamePrefix set i).map OverlapCause.samePrefix).or ((firstSharedSlot set i).map OverlapCause.slots) := by
  have hor : entryFault set i = match firstSamePrefix set i with
      | some j => some (.samePrefix j)
      | none => match firstSharedSlot set i with
        | some j => some (.slots j)
        | none => none := by
    unfold entryFault
    dsimp only
    rw [h]
    exact if_neg hb
  rw [hor]
  cases firstSamePrefix set i with
  | some j => rfl
  | none => cases firstSharedSlot set i <;> rfl

theorem entryFault_beyond (h : (set.program i).enabled = true) (hb : Beyond set i) :
    entryFault set i = some .rangeEnd := by
  unfold entryFault
  dsimp only
  rw [h]
  exact if_pos hb

theorem entryFault_none (h : ¬ Fails set i) : entryFault set i = none := by
  by_cases henabled : (set.program i).enabled = true
  · obtain ⟨hb, hclear⟩ := not_or.mp (not_and.mp h henabled)
    rw [entryFault_within henabled hb, firstSamePrefix_none fun j hj hs => hclear ⟨j, hj, .inl hs⟩,
      firstSharedSlot_none fun j hj hs => hclear ⟨j, hj, .inr hs⟩]
    rfl
  · unfold entryFault
    dsimp only
    rw [(Bool.not_eq_true _).mp henabled]
    rfl

theorem validation_none (h : ∀ i < 16, ¬ Fails set i) : validation set = none :=
  List.findSome?_eq_none_iff.mpr fun i hi => by rw [entryFault_none (h i (List.mem_range.mp hi)), Option.map_none]

/-- R28: the first entry that fails, with its cause. -/
theorem validation_some {c : OverlapCause} (hi : i < 16) (hfault : entryFault set i = some c)
    (hfirst : ∀ j < i, ¬ Fails set j) : validation set = some (i, c) := by
  refine List.findSome?_eq_some_iff.mpr ⟨List.range i, i, List.range' (i + 1) (16 - (i + 1)), ?_, ?_, fun j hj => ?_⟩
  · rw [List.range_eq_range', List.range_eq_range', ← List.range'_succ]
    obtain ⟨d, hd⟩ := Nat.exists_eq_add_of_lt hi
    rw [hd, Nat.add_assoc, ← List.range'_append_1]
    congr 2
    · omega
    · omega
  · rw [hfault]
    rfl
  · rw [entryFault_none (hfirst j (List.mem_range.mp hj)), Option.map_none]

end

/-! ### COMMIT TABLES: the swap and the retirement (R27, R29, R31) -/

section
variable {s : State} (h : s.unitFree) (tag : BitVec 16)

theorem exec_commitTables : exec (.commitTables tag) s = .next (command 0x24 tag (doCommitTables tag) s) := rfl

/-- The fields of its answer, and the event that has swapped the banks. -/
def commitAnswer (s : State) : List Octet := octets 1 s.tables.generation.toNat
  ++ octets 1 (shadowCode s.tables.shadow) ++ octets 1 (shadowBank s.tables).count

def swappedEvent (s : State) : Event := (arrived s).upd (modifyTables Machine.swapped)

/-- The state after a refusal OVERLAP with its detail. -/
def overlapping (s : State) (detail : List Octet) : State := sendReply
  (replyFrame s { code := 0x24, tag := tag, refusal := some .overlap, fields := fun _ => detail }) true (countArrival s)

theorem doCommitTables_checked (hloaded : s.tables.shadow = .loaded) (hfree : s.cycle.closing ≠ .computing) :
    doCommitTables tag (arrived s) = match validation (shadowBank s.tables).tables with
      | some (i, c) => (arrived s).replying
          { code := 0x24, tag := tag, refusal := some .overlap, fields := fun _ => overlapDetail i c }
      | none => accept 0x24 tag commitAnswer (endRetirement (swappedEvent s)) :=
  (if_neg (not_not.mpr hloaded)).trans (if_neg hfree)

theorem swapped_shadowBank (t : Tables) : shadowBank (Machine.swapped t) = activeBank t := by
  unfold Machine.swapped shadowBank activeBank
  cases t.active <;> rfl

theorem swapped_shadow (t : Tables) : (Machine.swapped t).shadow = .retiring := by
  unfold Machine.swapped
  cases t.active <;> rfl

theorem swapped_generation (t : Tables) : (Machine.swapped t).generation = t.generation + 1 := by
  unfold Machine.swapped
  cases t.active <;> rfl

/-- R31: a swap with an entry of the old generation in flight leaves its bank RETIRING. -/
theorem endRetirement_waiting (hcount : (activeBank s.tables).count ≠ 0) :
    endRetirement (swappedEvent s) = swappedEvent s :=
  if_neg fun hend => hcount ((congrArg Bank.count (swapped_shadowBank s.tables)).symm.trans hend.2)

/-- R31: one without retires it in the same event. -/
theorem endRetirement_empty (hcount : (activeBank s.tables).count = 0) : endRetirement (swappedEvent s) =
    ((arrived s).upd fun s => { s with tables := freeShadow (Machine.swapped s.tables) }).raising catTable :=
  if_pos ⟨swapped_shadow s.tables, (congrArg Bank.count (swapped_shadowBank s.tables)).trans hcount⟩

include h

theorem exec_overlapping (hloaded : s.tables.shadow = .loaded) (hfree : s.cycle.closing ≠ .computing) {i : Nat}
    {c : OverlapCause} {detail : List Octet} (hdetail : overlapDetail i c = detail)
    (hv : validation (shadowBank s.tables).tables = some (i, c)) :
    exec (.commitTables tag) s = .next (overlapping tag s detail) := by
  subst hdetail
  rw [exec_commitTables, command_free h rfl, doCommitTables_checked tag hloaded hfree, hv]
  exact congrArg Host.Outcome.next (finish_quiet s _ _ rfl rfl rfl rfl rfl)

/-- R28: the refusal names the first failing entry and its cause. -/
theorem exec_firstFailure (hloaded : s.tables.shadow = .loaded) (hfree : s.cycle.closing ≠ .computing) {set : TableSet}
    (hset : (shadowBank s.tables).tables = set) {i : Nat} (hi : i < 16) (hfails : Fails set i)
    (hfirst : ∀ j < i, ¬ Fails set j) :
    (Beyond set i → exec (.commitTables tag) s = .next (overlapping tag s (octets 1 i ++ [Config.overlapCode 0])))
    ∧ (¬ Beyond set i → ∀ j < i, SamePrefix set j i → (∀ k < j, ¬ SamePrefix set k i) →
      exec (.commitTables tag) s = .next (overlapping tag s (octets 1 i ++ [Config.overlapCode 1] ++ octets 1 j)))
    ∧ (¬ Beyond set i → (∀ j < i, ¬ SamePrefix set j i) → ∀ j < i, SharesSlot set j i → (∀ k < j, ¬ SharesSlot set k i) →
      exec (.commitTables tag) s = .next (overlapping tag s (octets 1 i ++ [Config.overlapCode 2] ++ octets 1 j))) := by
  subst hset
  refine ⟨fun hb => ?_, fun hb j hj hsame hlow => ?_, fun hb hnone j hj hshared hlow => ?_⟩
  · exact exec_overlapping h tag hloaded hfree rfl (validation_some hi (entryFault_beyond hfails.1 hb) hfirst)
  · refine exec_overlapping h tag hloaded hfree (c := .samePrefix j) rfl (validation_some hi ?_ hfirst)
    rw [entryFault_within hfails.1 hb, firstSamePrefix_some hj hsame hlow]
    rfl
  · refine exec_overlapping h tag hloaded hfree (c := .slots j) rfl (validation_some hi ?_ hfirst)
    rw [entryFault_within hfails.1 hb, firstSamePrefix_none hnone, firstSharedSlot_some hj hshared hlow]
    rfl

theorem exec_swapped (hloaded : s.tables.shadow = .loaded) (hfree : s.cycle.closing ≠ .computing)
    (hv : validation (shadowBank s.tables).tables = none) (hcount : (activeBank s.tables).count ≠ 0) :
    exec (.commitTables tag) s = .next (accepted 0x24 tag
      (octets 1 (s.tables.generation + 1).toNat ++ octets 1 2 ++ octets 1 (activeBank s.tables).count)
      { s with tables := Machine.swapped s.tables }) := by
  refine exec_changed h (body := doCommitTables tag) (u := { s with tables := Machine.swapped s.tables })
    (fields := commitAnswer) rfl rfl ?_ rfl ?_
  · rw [doCommitTables_checked tag hloaded hfree, hv]
    exact congrArg (accept 0x24 tag commitAnswer) (endRetirement_waiting hcount)
  · show octets 1 (Machine.swapped s.tables).generation.toNat ++ octets 1 (shadowCode (Machine.swapped s.tables).shadow)
      ++ octets 1 (shadowBank (Machine.swapped s.tables)).count = _
    rw [swapped_generation, swapped_shadow, swapped_shadowBank]
    rfl

theorem exec_retired (hloaded : s.tables.shadow = .loaded) (hfree : s.cycle.closing ≠ .computing)
    (hv : validation (shadowBank s.tables).tables = none) (hcount : (activeBank s.tables).count = 0) :
    ∃ u, exec (.commitTables tag) s = .next u
      ∧ SameBut { s with tables := freeShadow (Machine.swapped s.tables) } u ∧ u.journalOut.level = s.journalOut.level
      ∧ RepliedAs (countArrival s) u { code := 0x24, tag := tag, fields := commitAnswer } catTable := by
  obtain ⟨e, he⟩ : ∃ e, e = accept 0x24 tag commitAnswer (endRetirement (swappedEvent s)) := ⟨_, rfl⟩
  have hexec : exec (.commitTables tag) s = .next (finish s e) := by
    rw [exec_commitTables, command_free h rfl, doCommitTables_checked tag hloaded hfree, hv, he]
  rw [endRetirement_empty hcount] at he
  have hraises : Raises s (countArrival s) e catTable := by
    have hnone : tableRaised (countArrival s).tables e.st.tables = 0 := if_neg fun hend => by
      rw [show (countArrival s).tables.shadow = .loaded from hloaded] at hend
      exact ShadowState.noConfusion hend.1
    refine ⟨?_, by rw [he]; rfl, by rw [he]; rfl, rfl, by rw [he]; exact ⟨rfl, rfl, rfl⟩, by rw [he]; rfl⟩
    rw [hnone, cycleRaised_same (by rw [he]; rfl), or_nothing, nothing_or, he]
    exact nothing_or catTable
  have hlevel : e.st.journalOut.level = s.journalOut.level := by rw [he]; rfl
  refine ⟨_, hexec, ?_, (finish_level_same s e (by rw [he]; rfl)).trans hlevel,
    finish_replied hraises _ (by rw [he]; rfl) ?_⟩
  · rw [he]
    exact finish_sameBut s _ rfl
  · rintro u v ⟨_, _, _, _, _, rfl⟩
    rfl

end

/-- Settles O51: the checks in order, the first failing entry with its cause, and the swap, with a retirement or not. -/
theorem commitTablesChecksAndSwaps : Obligations.CommitTablesChecksAndSwaps := by
  unfold Obligations.CommitTablesChecksAndSwaps
  intro s tag hfree t set g beyond samePrefix sharesSlot fails overlapping swapped copied
  have hswapped : swapped = Machine.swapped s.tables := rfl
  have hcopied : copied = freeShadow (Machine.swapped s.tables) := by
    simp only [copied, hswapped, t]
    unfold freeShadow modifyShadow activeBank Machine.swapped
    cases s.tables.active <;> rfl
  refine ⟨fun hshadow => ?_, fun hloaded hcomputing => ?_, fun i hi hloaded hclosing hfails hfirst => ?_,
    fun hloaded hclosing hsound => ⟨fun hcount => ?_, fun hcount => ?_⟩⟩
  · exact exec_refused hfree (body := doCommitTables tag) rfl rfl (if_pos hshadow)
  · exact exec_refused hfree (body := doCommitTables tag) rfl rfl
      ((if_neg (not_not.mpr hloaded)).trans (if_pos hcomputing))
  · exact exec_firstFailure hfree tag hloaded hclosing rfl hi hfails hfirst
  · exact exec_swapped hfree tag hloaded hclosing (validation_none hsound) hcount
  · obtain ⟨u, hexec, hbut, hlevel, hreplied⟩ :=
      exec_retired hfree tag hloaded hclosing (validation_none hsound) hcount
    rw [← hcopied] at hbut
    refine ⟨u, hexec, hbut, hlevel, repliedAs_fields hreplied ?_⟩
    have htables : u.tables = copied := by
      unfold SameBut at hbut
      rw [hbut]
    show octets 1 (s.tables.generation + 1).toNat ++ octets 1 0 ++ octets 1 0 = octets 1 u.tables.generation.toNat
      ++ octets 1 (shadowCode u.tables.shadow) ++ octets 1 (shadowBank u.tables).count
    rw [htables, hcopied]
    unfold freeShadow modifyShadow activeBank shadowBank Machine.swapped
    cases s.tables.active <;> rfl

end Sys2Proof.Proofs.TableCommit
end

section
/-! PROOFS. Window ends and the alarm machine (9.4, 9.5), and the rows of the closing set (7.4, 7.5, 8.1). -/

namespace Sys2Proof.Proofs.Windows

open Sys2Proof Sys2Proof.Machine Sys2Proof.Proofs.CycleController
open Sys2Proof.Proofs.Invariants (weighShop_closed)
open Sys2Proof.Proofs.ResetAndLoading (nothing_or)
open Sys2Proof.Proofs.ShopCommands (settled_same_load)
open Sys2Proof.Proofs.PayoutCommands (clearedCycle clearStep_of_drained clearStep_of_not_drained)

/-! ### Events that raise categories and answer nothing -/

/-- R175, R176: an event that raises categories, answers nothing and leaves the committed load and the latch. -/
theorem finish_noted {before : State} {e : Event} (hgift : e.gift = none) (hreply : e.reply = none)
    (hdemanded : e.demanded = 0) (hload : committedLoad e.st = committedLoad before)
    (hlatch : before.notices.latch = e.st.notices.latch) : finish before e = noted e.raised e.st := by
  have hlevel : evaluateLevel before e = e := if_pos hload
  unfold finish
  dsimp only
  rw [hlevel, hgift, hreply, hdemanded, or_nothing]
  unfold noted latchNotices noticeDue
  rw [hdemanded, hlatch]
  by_cases hdue : e.raised &&& ~~~e.st.notices.latch &&& ~~~e.st.notices.masks = 0
  · rw [if_pos hdue, hdue]
    rfl
  · rw [if_neg hdue, bne_iff_ne.mpr hdue]
    rfl

/-- An event that changes nothing ends in the state it began in. -/
theorem finish_idle (s : State) : finish s { st := s } = s := finish_silent s _ rfl rfl rfl rfl rfl

/-! ### The alarm machine (R162 to R164) -/

/-- The table of chapter 9 is the model's alarm machine. -/
theorem weighShop_eq (v : Supervision) (autoSuspend : Bool) (r : Shop) :
    weighShop v autoSuspend r = weighed v autoSuspend r := by
  unfold weighed
  by_cases hclosed : r.mode = .closed
  · rw [if_pos hclosed, weighShop_closed v autoSuspend hclosed]
  · rw [if_neg hclosed]
    have hmoved : weighShop v autoSuspend r = { (if v.trip ≤ r.windowFaults then badWindow v.t1 autoSuspend r
        else goodWindow v.t2 r) with windowFaults := 0 } := by
      unfold weighShop
      cases hmode : r.mode with
      | closed => exact absurd hmode hclosed
      | opened | training => rfl
    rw [hmoved]
    obtain ⟨mode, management, cause, state, faults, bad, good, admitted, declines, charged⟩ := r
    unfold badWindow goodWindow enterAlarm leaveAlarm
    dsimp only
    by_cases htrip : v.trip ≤ faults
    · rw [if_pos htrip, decide_eq_true htrip]
      cases state with
      | normal =>
        by_cases hreached : v.t1 ≤ 1
        · simp only [if_pos hreached]
        · simp only [if_neg hreached]
      | watch =>
        by_cases hreached : v.t1 ≤ bad + 1
        · simp only [if_pos hreached]
        · simp only [if_neg hreached]
      | alarm => rfl
    · rw [if_neg htrip, decide_eq_false htrip]
      cases state with
      | normal => rfl
      | watch => rfl
      | alarm =>
        by_cases hreached : v.t2 ≤ good + 1
        · simp only [if_pos hreached]
        · simp only [if_neg hreached]

/-! ### Window ends (R161, R165) -/

theorem look_of_mem {α : Type} [DecidableEq α] {d : α} {t : Tbl α} (h : canonical d t = true) {n : Nat} {v : α}
    (hmem : (n, v) ∈ t) : look d t n = v := by
  obtain ⟨hrising, -⟩ := (canonical_iff d t).mp h
  clear h
  induction t with
  | nil => cases hmem
  | cons p t ih =>
    obtain ⟨k, w⟩ := p
    obtain ⟨hlow, hrest⟩ := List.pairwise_cons.mp hrising
    rcases List.mem_cons.mp hmem with heq | htail
    · cases heq
      exact if_pos rfl
    · have hne : k ≠ n := (hlow _ htail).ne
      exact (if_neg hne).trans (ih htail hrest)

theorem mem_of_look {α : Type} [DecidableEq α] {d : α} {t : Tbl α} {n : Nat} (h : look d t n ≠ d) :
    (n, look d t n) ∈ t := by
  induction t with
  | nil => exact absurd rfl h
  | cons p t ih =>
    obtain ⟨k, w⟩ := p
    unfold look at h ⊢
    by_cases hk : k = n
    · subst hk
      rw [if_pos rfl]
      exact List.mem_cons_self
    · rw [if_neg hk] at h ⊢
      exact List.mem_cons_of_mem _ (ih h)

/-- Supervision after a window end of `s`. -/
def endedSupervision (s : State) : Supervision := { s.supervision with
  shops := remap {} (fun n => weighShop s.supervision (s.activeTables.shopTerms n).autoSuspend) s.supervision.shops
  keptWindow := windowOf s.clock }

/-- R165: a shop's alarm state changes in it. -/
def AlarmChanges (s : State) : Prop := ∃ n, (weighedShop s n).alarm ≠ (s.shop n).alarm

section
variable {s : State} (h : canonical {} s.supervision.shops = true)
include h

theorem endedSupervision_shop (n : Nat) : look {} (endedSupervision s).shops n = weighedShop s n := by
  have hlook : look {} (endedSupervision s).shops n
      = weighShop s.supervision (s.activeTables.shopTerms n).autoSuspend (s.shop n) :=
    look_remap {} (fun n => weighShop s.supervision (s.activeTables.shopTerms n).autoSuspend) s.supervision.shops n h
      (weighShop_closed _ _ rfl)
  rw [hlook, weighShop_eq]
  rfl

theorem endedSupervision_ended : WindowEnded s s.clock (endedSupervision s) :=
  ⟨rfl, rfl, rfl, rfl, endedSupervision_shop h⟩

/-- The shops without a record do not change: the table shows whether any alarm state changes. -/
theorem anyAlarm_iff : s.supervision.shops.any (fun p => decide
    ((weighShop s.supervision (s.activeTables.shopTerms p.1).autoSuspend p.2).alarm ≠ p.2.alarm)) = true
      ↔ AlarmChanges s := by
  rw [List.any_eq_true]
  constructor
  · rintro ⟨⟨n, r⟩, hmem, hchange⟩
    have hshop : s.shop n = r := look_of_mem h hmem
    refine ⟨n, ?_⟩
    unfold weighedShop
    rw [hshop, ← weighShop_eq]
    exact of_decide_eq_true hchange
  · rintro ⟨n, hchange⟩
    unfold weighedShop at hchange
    rw [← weighShop_eq] at hchange
    have hrecord : s.shop n ≠ {} := fun hnone => by
      rw [hnone] at hchange
      exact hchange (congrArg Shop.alarm (weighShop_closed _ _ rfl))
    exact ⟨(n, s.shop n), mem_of_look hrecord, decide_eq_true hchange⟩

end

theorem endWindow_changing {e : Event} (h : canonical {} e.st.supervision.shops = true) (hc : AlarmChanges e.st) :
    endWindow e = (e.upd fun s => { s with supervision := endedSupervision e.st }).raising catSupervision :=
  if_pos ((anyAlarm_iff h).mpr hc)

theorem endWindow_quiet {e : Event} (h : canonical {} e.st.supervision.shops = true) (hc : ¬ AlarmChanges e.st) :
    endWindow e = e.upd fun s => { s with supervision := endedSupervision e.st } :=
  if_neg (mt (anyAlarm_iff h).mp hc)

/-- Settles O31: a window end weighs the whole table, and raises SUPERVISION when the table shows a change. -/
theorem windowEndWeighsEveryShop : Obligations.WindowEndWeighsEveryShop := by
  unfold Obligations.WindowEndWeighsEveryShop
  intro s
  have hexec : exec .windowEnd s = .next (finish s (windowStep { st := s })) := rfl
  rw [hexec]
  refine ⟨fun hcanonical hlater => ?_, fun hkept => ?_⟩
  · have hend : windowStep { st := s } = endWindow { st := s } := if_pos hlater
    rw [hend]
    refine ⟨endedSupervision s, endedSupervision_ended hcanonical, fun hsame => ?_, fun hchange => ?_⟩
    · have hnone : ¬ AlarmChanges s := fun ⟨n, hn⟩ => hn (hsame n)
      rw [endWindow_quiet (e := { st := s }) hcanonical hnone]
      exact congrArg Host.Outcome.next (finish_silent s _ rfl rfl rfl rfl rfl)
    · rw [endWindow_changing (e := { st := s }) hcanonical hchange]
      have hraised : (0 : Categories) ||| catSupervision = catSupervision := nothing_or _
      have hnoted := finish_noted (before := s) (e := (({ st := s } : Event).upd
        fun u => { u with supervision := endedSupervision s }).raising catSupervision) rfl rfl rfl rfl rfl
      exact congrArg Host.Outcome.next (hnoted.trans (congrArg (fun c => noted c _) hraised))
  · have hkeep : windowStep { st := s } = { st := s } := if_neg hkept.not_gt
    rw [hkeep, finish_idle]

/-! ### The rows of the closing set (R127, R129, R131, R132) -/

section
variable {s : State} {c : Cycle}

/-- An event that moves the controller alone to `c`, by whether `c` is FROZEN. -/
theorem finish_frozen (h : c.closing = .frozen) :
    finish s (movedTo c { st := s }) = noted catCycle { s with cycle := c } := by
  have hraised : (0 : Categories) ||| frozenRaised c = catCycle := (nothing_or _).trans (if_pos h)
  exact (finish_noted (before := s) (e := movedTo c { st := s }) rfl rfl rfl rfl rfl).trans
    (congrArg (fun r => noted r _) hraised)

theorem finish_unfrozen (h : c.closing ≠ .frozen) : finish s (movedTo c { st := s }) = { s with cycle := c } :=
  finish_silent s _ ((nothing_or _).trans (if_neg h)) rfl rfl rfl rfl

end

/-- Settles O33: each row by its condition. -/
theorem closingSetMovesOn : Obligations.ClosingSetMovesOn := by
  unfold Obligations.ClosingSetMovesOn
  refine ⟨fun s => ?_, fun s => ⟨fun hf => ?_, fun hnot => ?_⟩⟩
  intro c other freezing frozen cleared
  refine ⟨fun g hgrace hend hdue => ?_, fun hnot => ?_, fun hf hv => ?_,
    fun hnot => ?_, fun hd hq => ?_, fun hnot => ?_⟩
  · have hstep : graceStep { st := s } = movedTo (frozenCycle s.store.float freezing) { st := s } := by
      refine Eq.trans ?_ (beginFreezing_eq { st := s })
      unfold graceStep
      dsimp only
      rw [show s.cycle.closing = .grace from hgrace, show s.cycle.graceEnd = some g from hend]
      exact if_pos hdue
    show Host.Outcome.next (finish s (graceStep { st := s })) = _
    rw [hstep]
    by_cases hvoids : c.graceVoids = 0
    · have hfrozen : frozenCycle s.store.float freezing = frozen freezing := if_pos ⟨rfl, hvoids⟩
      rw [if_pos hvoids, hfrozen]
      exact congrArg Host.Outcome.next (finish_frozen rfl)
    · have hfreezing : frozenCycle s.store.float freezing = freezing := if_neg fun h => hvoids h.2
      rw [if_neg hvoids, hfreezing]
      exact congrArg Host.Outcome.next (finish_unfrozen (c := freezing) (by decide : Closing.freezing ≠ .frozen))
  · have hstep : graceStep { st := s } = { st := s } := by
      unfold graceStep
      split
      · next g hgrace hend => exact if_neg fun hdue => hnot ⟨hgrace, g, hend, hdue⟩
      · rfl
    show Host.Outcome.next (finish s (graceStep { st := s })) = _
    rw [hstep, finish_idle]
  · have hstep : freezeStep { st := s } = movedTo (frozen c) { st := s } := by
      rw [freezeStep_eq (show s.cycle.closing ≠ .frozen by rw [show s.cycle.closing = .freezing from hf]; decide)]
      exact congrArg (fun d => movedTo d { st := s }) (if_pos ⟨hf, hv⟩)
    show Host.Outcome.next (finish s (freezeStep { st := s })) = _
    rw [hstep]
    exact congrArg Host.Outcome.next (finish_frozen rfl)
  · have hstep : freezeStep { st := s } = { st := s } := if_neg hnot
    show Host.Outcome.next (finish s (freezeStep { st := s })) = _
    rw [hstep, finish_idle]
  · have hraised : (0 : Categories) ||| catCycle = catCycle := nothing_or _
    show Host.Outcome.next (finish s (clearStep { st := s })) = _
    rw [clearStep_of_drained (e := { st := s }) hd hq]
    exact congrArg Host.Outcome.next ((finish_noted (before := s) rfl rfl rfl rfl rfl).trans
      (congrArg (fun r => noted r _) hraised))
  · show Host.Outcome.next (finish s (clearStep { st := s })) = _
    rw [clearStep_of_not_drained (e := { st := s }) hnot, finish_idle]
  · have htaken : takeUp s = { s with
        payout := { s.payout with
          engine := .walking, cursor := 0, cycle := some (closingCycle s.cycle), totals := {} }
        cycle := { s.cycle with closing := .computing } } := if_pos hf
    show Host.Outcome.next (finish s { st := takeUp s }) = _
    rw [htaken]
    exact congrArg Host.Outcome.next (finish_silent s _ rfl rfl rfl rfl rfl)
  · have hkept : takeUp s = s := if_neg hnot
    show Host.Outcome.next (finish s { st := takeUp s }) = _
    rw [hkept, finish_idle]

end Sys2Proof.Proofs.Windows
end

section
/-! PROOFS. The walk of the payout engine (8.4), and the mall clock (10.5). -/

namespace Sys2Proof.Proofs.Walk

open Sys2Proof Sys2Proof.Machine
open Sys2Proof.Proofs.Windows (finish_idle)

/-! ### The next shop with a record (R146) -/

section
variable {s : State}

theorem hasRecord_iff (n : Nat) : hasRecord s n = true ↔ WalksTo s n := by
  unfold hasRecord WalksTo
  simp only [Bool.or_eq_true, bne_iff_ne, or_assoc]
  rfl

theorem nextRecord_found {n : Nat} (hn : WalksTo s n) : ∀ {k c : Nat}, c ≤ n → n < c + k →
    (∀ j, c ≤ j → j < n → ¬ WalksTo s j) → nextRecord s k c = n := by
  intro k
  induction k with
  | zero => omega
  | succ k ih =>
    intro c hc hk hbefore
    unfold nextRecord
    rcases hc.eq_or_lt with rfl | hlt
    · exact if_pos ((hasRecord_iff c).mpr hn)
    · rw [if_neg (mt (hasRecord_iff c).mp (hbefore c le_rfl hlt))]
      exact ih hlt (by omega) fun j hj => hbefore j (by omega)

theorem nextRecord_past : ∀ {k c : Nat}, (∀ j, c ≤ j → j < c + k → ¬ WalksTo s j) → nextRecord s k c = c + k := by
  intro k
  induction k with
  | zero => exact fun _ => rfl
  | succ k ih =>
    intro c hnone
    unfold nextRecord
    rw [if_neg (mt (hasRecord_iff c).mp (hnone c le_rfl (by omega))), ih fun j hj hk => hnone j (by omega) (by omega)]
    omega

theorem stopOf_found {n : Nat} (hc : s.payout.cursor ≤ n) (hn : n < 512)
    (hbefore : ∀ j, s.payout.cursor ≤ j → j < n → ¬ WalksTo s j) (h : WalksTo s n) : stopOf s = n := by
  have hreach : n < s.payout.cursor + (512 - s.payout.cursor) := by omega
  exact nextRecord_found h hc hreach hbefore

theorem stopOf_past (hc : s.payout.cursor ≤ 512) (hnone : ∀ j, s.payout.cursor ≤ j → j < 512 → ¬ WalksTo s j) :
    stopOf s = 512 := by
  have hreach : s.payout.cursor + (512 - s.payout.cursor) = 512 := by omega
  have hpast : nextRecord s (512 - s.payout.cursor) s.payout.cursor = s.payout.cursor + (512 - s.payout.cursor) :=
    nextRecord_past fun j hj hk => hnone j hj (hreach ▸ hk)
  exact hpast.trans hreach

/-! ### The steps of the engine (R146 to R149) -/

/-- A sum that a condition adds to. -/
theorem ite_add_eq (c : Prop) [Decidable c] (a b : Nat) : (if c then a + b else a) = a + if c then b else 0 := by
  split <;> rfl

/-- R149: the running totals with a record added, in the words of the statements. -/
theorem addTotals_eq (t : Totals) (r : ShopPayout) : addTotals t r =
    { redeemed := t.redeemed + r.row.redeemed, sold := t.sold + r.row.sold
      refunded := t.refunded + r.row.refunded, percentFee := t.percentFee + r.percentFee
      fixedFee := t.fixedFee + r.fixedFee, commission := t.commission + r.commission
      rebate := t.rebate + r.rebate
      pay := t.pay + (if r.disposition = .pay then r.amount else 0)
      collect := t.collect + (if r.disposition = .collect then r.amount else 0)
      carryChange := t.carryChange + r.carryOut - r.carryIn, records := t.records + 1
      saturated := t.saturated || r.row.saturated } := by
  unfold addTotals
  rw [ite_add_eq, ite_add_eq, add_sub_assoc]

theorem exec_payoutStep {u : State} (hstep : engineStep s = u) (hload : committedLoad u = committedLoad s) :
    exec .payoutStep s = .next u :=
  congrArg Host.Outcome.next ((congrArg (fun v => finish s { st := v }) hstep).trans
    (finish_silent s { st := u } rfl rfl rfl rfl hload))

theorem exec_cycleTotalAppend {u : State} (hstep : totalStep s = u) (hload : committedLoad u = committedLoad s) :
    exec .cycleTotalAppend s = .next u :=
  congrArg Host.Outcome.next ((congrArg (fun v => finish s { st := v }) hstep).trans
    (finish_silent s { st := u } rfl rfl rfl rfl hload))

theorem engineStep_waits (h : s.payout.engine = .walking) (hfull : 64 ≤ s.payout.queue.length) {n : Nat}
    (hstop : stopOf s = n) : engineStep s = { s with payout := { s.payout with engine := .waiting, cursor := n } } := by
  subst hstop
  exact (if_pos h).trans (if_neg hfull.not_gt)

theorem engineStep_appends (h : s.payout.engine = .walking) (hroom : s.payout.queue.length < 64) {n : Nat}
    (hn : n < 512) (hstop : stopOf s = n) : engineStep s = appendRecord n s := by
  subst hstop
  exact (if_pos h).trans ((if_pos hroom).trans (if_pos hn))

theorem engineStep_ends (h : s.payout.engine = .walking) (hroom : s.payout.queue.length < 64)
    (hstop : stopOf s = 512) : engineStep s = appendTotal s := by
  have hpast : ¬ stopOf s < Config.shopCount := by
    rw [hstop]
    exact lt_irrefl 512
  exact (if_pos h).trans ((if_pos hroom).trans (if_neg hpast))

theorem totalStep_ends (h : s.payout.engine = .walking) (hroom : s.payout.queue.length < 64)
    (hstop : stopOf s = 512) : totalStep s = appendTotal s := by
  have hpast : ¬ stopOf s < Config.shopCount := by
    rw [hstop]
    exact lt_irrefl 512
  exact if_pos ⟨h, hpast, hroom⟩

end

/-- Settles O35: a step goes to the next shop with a record, or past the last one, and by the room in the queue. -/
theorem payoutWalkSteps : Obligations.PayoutWalkSteps := by
  unfold Obligations.PayoutWalkSteps
  intro s p closing
  refine ⟨fun n hwalking hcursor hn hbefore hrecord => ?_, fun hwalking hcursor hnone => ?_, fun hidle => ⟨?_, ?_⟩⟩
  · intro fees r totals
    have hstop : stopOf s = n := stopOf_found hcursor hn hbefore hrecord
    refine ⟨fun hroom => ?_, fun hfull => ?_, ?_⟩
    · have happended : appendRecord n s = { s with payout := { p with
          queue := p.queue ++ [.shop r], carries := put 0 p.carries n r.carryOut, totals := totals
          cursor := n + 1 } } := by
        simp only [totals, ← addTotals_eq]
        rfl
      exact exec_payoutStep ((engineStep_appends hwalking hroom hn hstop).trans happended) rfl
    · exact exec_payoutStep (engineStep_waits hwalking hfull hstop) rfl
    · have hstays : totalStep s = s := if_neg fun h => h.2.1 (hstop ▸ hn)
      exact exec_cycleTotalAppend hstays rfl
  · intro total after
    have hstop : stopOf s = 512 := stopOf_past hcursor hnone
    refine ⟨fun hroom => ⟨?_, ?_⟩, fun hfull => ⟨?_, ?_⟩⟩
    · exact exec_payoutStep (engineStep_ends hwalking hroom hstop) rfl
    · exact exec_cycleTotalAppend (totalStep_ends hwalking hroom hstop) rfl
    · exact exec_payoutStep (engineStep_waits hwalking hfull hstop) rfl
    · have hstays : totalStep s = s := if_neg fun h => hfull.not_gt h.2.2
      exact exec_cycleTotalAppend hstays rfl
  · have hstays : engineStep s = s := if_neg hidle
    exact exec_payoutStep hstays rfl
  · have hstays : totalStep s = s := if_neg fun h => hidle h.1
    exact exec_cycleTotalAppend hstays rfl

end Sys2Proof.Proofs.Walk

namespace Sys2Proof.Proofs.Clock

open Sys2Proof Sys2Proof.Machine Sys2Proof.Proofs.CycleController Sys2Proof.Proofs.Windows
open Sys2Proof.Proofs.RecordBuffer Sys2Proof.Proofs.TakenCommands
open Sys2Proof.Proofs.ResetAndLoading (nothing_or)

/-! ### What follows a clock value (R127, R178) -/

/-- R127, R129: the end of grace moves the controller as the statements say, and raises what its moving raises. -/
theorem graceStep_moves (e : Event) : graceStep e =
    (e.upd (modifyCycle fun _ => graceAt e.st.clock e.st.store.float e.st.cycle)).raising
      (cycleRaised e.st.cycle (graceAt e.st.clock e.st.store.float e.st.cycle)) := by
  have hself : e = (e.upd (modifyCycle fun _ => e.st.cycle)).raising (cycleRaised e.st.cycle e.st.cycle) := by
    rw [cycleRaised_same rfl]
    exact congrArg (fun c => { e with raised := c }) (or_nothing e.raised).symm
  by_cases hfrozen : e.st.cycle.closing = .frozen
  · have hat : graceAt e.st.clock e.st.store.float e.st.cycle = e.st.cycle := by
      unfold graceAt
      rw [hfrozen]
    have hstep : graceStep e = e := by
      unfold graceStep
      rw [hfrozen]
    rw [hat, hstep]
    exact hself
  · rw [graceStep_eq hfrozen]
    unfold movedTo
    by_cases hnone : e.st.cycle.closing = .none
    · have hat : graceAt e.st.clock e.st.store.float e.st.cycle = e.st.cycle := by
        unfold graceAt
        rw [hnone]
      rw [hat, frozenRaised_of_ne hfrozen, cycleRaised_same rfl]
    · rw [cycleRaised_eq_frozenRaised hfrozen (graceAt_closing_ne_none _ _ _ hnone)]

/-- The state at the end of grace of an event that stands in `u`, before the sweep. -/
def graceEnded (u : State) : State := { u with cycle := graceAt u.clock u.store.float u.cycle }

theorem clockFollowers_eq (u : State) (c : Categories) : clockFollowers { st := u, raised := c } =
    { st := sweepStep (graceEnded u), raised := c ||| cycleRaised u.cycle (graceEnded u).cycle } := by
  unfold clockFollowers
  rw [graceStep_moves]
  rfl

/-- R161, R165: what an event leaves in supervision, and what it raises, that ends a window of `s` if `cond` holds. -/
structure Windowed (s : State) (cond : Prop) (v : Supervision) (more : Categories) : Prop where
  ended : cond → WindowEnded s s.clock v
  kept : ¬ cond → v = s.supervision
  quiet : (∀ n, (look {} v.shops n).alarm = (s.shop n).alarm) → more = 0
  turned : (∃ n, (look {} v.shops n).alarm ≠ (s.shop n).alarm) → more = catSupervision

theorem window_windowed {s : State} (h : canonical {} s.supervision.shops = true) (cond : Prop) [Decidable cond] :
    ∃ v more, Windowed s cond v more ∧ (if cond then endWindow { st := s } else { st := s })
      = { st := { s with supervision := v }, raised := more } := by
  by_cases hc : cond
  · rw [if_pos hc]
    have hshop := endedSupervision_shop h
    by_cases hchanges : AlarmChanges s
    · obtain ⟨n, hn⟩ := hchanges
      refine ⟨_, catSupervision, ⟨fun _ => endedSupervision_ended h, fun hnot => absurd hc hnot, fun hsame => ?_,
        fun _ => rfl⟩, (endWindow_changing (e := { st := s }) h ⟨n, hn⟩).trans ?_⟩
      · exact absurd ((congrArg Shop.alarm (hshop n)).symm.trans (hsame n)) hn
      · exact congrArg (fun c => ({ st := { s with supervision := endedSupervision s }, raised := c } : Event))
          (nothing_or _)
    · refine ⟨_, 0, ⟨fun _ => endedSupervision_ended h, fun hnot => absurd hc hnot, fun _ => rfl, fun ⟨n, hn⟩ => ?_⟩,
        endWindow_quiet (e := { st := s }) h hchanges⟩
      exact absurd ⟨n, hshop n ▸ hn⟩ hchanges
  · rw [if_neg hc]
    exact ⟨s.supervision, 0, ⟨fun hyes => absurd hyes hc, fun _ => rfl, fun _ => rfl, fun ⟨_, hn⟩ => absurd rfl hn⟩, rfl⟩

/-! ### What a clock event leaves (R178, R179) -/

/-- `t` is what an event leaves that puts the clock of `s` at a value, and supervision at `v`. -/
structure Followed (s t : State) (value : BitVec 32) (v : Supervision) : Prop where
  clock : t.clock = value
  supervision : t.supervision = v
  cycle : t.cycle = graceAt value s.store.float s.cycle
  looked : SweepLooked s.holds s.inFlight s.journalOut.reservations s.tables t
  selects : ∀ h, candidate s.holds = some h → h.expiry ≤ value.toNat → s.holds.expiring = none →
    s.inFlight.length < 64 → s.journalOut.copies.length + s.journalOut.reservations < 512 →
    t.holds.expiring = some h.ref
  keeps : KeepsLines s t
  rest : t.journal = s.journal ∧ t.journalOut.copies = s.journalOut.copies ∧ t.payout = s.payout ∧ t.lanes = s.lanes
    ∧ t.sTx = s.sTx ∧ t.sCount = s.sCount ∧ t.activeTables = s.activeTables ∧ t.unit = s.unit
    ∧ t.store.float = s.store.float ∧ StoreKept s t ∧ LinksKept s t

/-- The state `s` with the clock at a value, supervision at `v` and the O-side counters at `count`. -/
def clocked (s : State) (clock : BitVec 32) (v : Supervision) (count : OCounters) : State :=
  { s with clock := clock, supervision := v, oCount := count }

section
variable {s : State} {clock : BitVec 32} {v : Supervision} {count : OCounters}

theorem followed_of_swept {t : State} (h : Swept (graceEnded (clocked s clock v count)) t) : Followed s t clock v := by
  obtain ⟨hlooked, hselects, hworks, ⟨hjournal, hcopies, hcycle, hpayout⟩, ⟨hsupervision, hlanes, hsTx, hsCount⟩,
    ⟨hclock, hactive, hunit, hfloat⟩, ⟨hstore, hvalid, hphase⟩, ⟨hpending, hreceivers, haddress, hsent⟩⟩ := h
  have hkeeps : Works s t :=
    (works_same (s := s) (t := graceEnded (clocked s clock v count)) rfl rfl rfl rfl).trans hworks
  exact ⟨hclock, hsupervision, hcycle, hlooked, hselects, hkeeps.keeps, hjournal, hcopies, hpayout, hlanes, hsTx,
    hsCount, hactive, hunit, hfloat, ⟨hstore, hvalid, hphase⟩, ⟨hpending, hreceivers, haddress, hsent⟩⟩

/-- The event of a clock value, after the window, the grace and the sweep. -/
def clockEvent (s : State) (clock : BitVec 32) (v : Supervision) (count : OCounters) (more : Categories) : Event where
  st := sweepStep (graceEnded (clocked s clock v count))
  raised := more ||| cycleRaised s.cycle (graceEnded (clocked s clock v count)).cycle

theorem clockEvent_raises {e : Event} {more : Categories} (hst : e.st = (clockEvent s clock v count more).st)
    (hraised : e.raised = (clockEvent s clock v count more).raised) (hdemanded : e.demanded = 0) :
    Raises s { s with oCount := count } e more := by
  obtain ⟨m, hm⟩ : ∃ m, m = graceEnded (clocked s clock v count) := ⟨_, rfl⟩
  obtain ⟨ho, fl, ni, ta, re, bu, w, hswept⟩ := sweepStep_only m
  have hstm : e.st = sweepStep m := hm ▸ hst
  have hraisedm : e.raised = more ||| cycleRaised s.cycle m.cycle := hm ▸ hraised
  have hshadow : e.st.tables.shadow = s.tables.shadow := by
    rw [hstm, (sweepStep_tables m).2, hm]
    rfl
  have hcycle : e.st.cycle = m.cycle := by rw [hstm, hswept]
  refine ⟨?_, hdemanded, ?_, rfl, ⟨?_, ?_, ?_⟩, ?_⟩
  · rw [tableRaised_same hshadow, hcycle, hraisedm, nothing_or]
    exact BitVec.or_comm _ _
  all_goals
    rw [hstm, hswept, hm]
    rfl

end

theorem clockFollowers_event (s : State) (clock : BitVec 32) (v : Supervision) (count : OCounters) (more : Categories) :
    clockFollowers { st := clocked s clock v count, raised := more } = clockEvent s clock v count more :=
  clockFollowers_eq _ _

/-- R178: the wrap of the clock ends a window too. -/
theorem advance_eq (s : State) : advance { st := s } =
    clockFollowers (if s.clock + 1 = 0 ∨ s.supervision.keptWindow < windowOf (s.clock + 1)
      then endWindow { st := withClock (s.clock + 1) s } else { st := withClock (s.clock + 1) s }) := by
  unfold advance windowStep
  by_cases hwrap : s.clock + 1 = 0
  · exact congrArg clockFollowers ((if_pos hwrap).trans (if_pos (Or.inl hwrap)).symm)
  · refine congrArg clockFollowers ((if_neg hwrap).trans ?_)
    by_cases hlater : s.supervision.keptWindow < windowOf (s.clock + 1)
    · exact (if_pos hlater).trans (if_pos (Or.inr hlater)).symm
    · exact (if_neg hlater).trans (if_neg (not_or.mpr ⟨hwrap, hlater⟩)).symm

theorem clockTick_followed {s : State} (h : canonical {} s.supervision.shops = true) :
    ∃ v more t, exec .clockTick s = .next t
      ∧ Windowed (withClock (s.clock + 1) s)
        (s.clock + 1 = 0 ∨ s.supervision.keptWindow < windowOf (s.clock + 1)) v more
      ∧ Followed s t (s.clock + 1) v ∧ NoticedAs s t more := by
  obtain ⟨v, more, hwindowed, hwindow⟩ := window_windowed (s := withClock (s.clock + 1) s) h
    (s.clock + 1 = 0 ∨ s.supervision.keptWindow < windowOf (s.clock + 1))
  obtain ⟨e, he⟩ : ∃ e, e = clockEvent s (s.clock + 1) v s.oCount more := ⟨_, rfl⟩
  have hadvance : advance { st := s } = e := by
    rw [advance_eq, hwindow, he, ← clockFollowers_event]
    rfl
  have hexec : exec .clockTick s = .next (finish s e) := congrArg (fun e => Host.Outcome.next (finish s e)) hadvance
  have hswept := swept_of_event (before := s) (e := e) (congrArg Event.st he) (by rw [he]; rfl)
  have hraises := clockEvent_raises (congrArg Event.st he) (congrArg Event.raised he) (by rw [he]; rfl)
  exact ⟨v, more, _, hexec, hwindowed, followed_of_swept hswept, finish_noticed hraises (by rw [he]; rfl)⟩

/-- R179: the answer to SET CLOCK. -/
def clockReply (tag : BitVec 16) (old new : BitVec 32) : Reply where
  code := 0x04
  tag := tag
  fields := fun _ => octets 4 old.toNat ++ octets 4 new.toNat

/-- R161: supervision where SET CLOCK has kept an earlier window. -/
def earlierKept (s : State) (clock : BitVec 32) : Supervision :=
  { s.supervision with keptWindow := min s.supervision.keptWindow (windowOf clock) }

theorem setClock_followed {s : State} (tag : BitVec 16) (clock : BitVec 32)
    (h : canonical {} s.supervision.shops = true) (hfree : s.unitFree) :
    ∃ v more t, exec (.setClock tag clock) s = .next t
      ∧ Windowed (clocked s clock (earlierKept s clock) (countArrival s).oCount)
        ((earlierKept s clock).keptWindow < windowOf clock) v more
      ∧ Followed s t clock v ∧ RepliedAs (countArrival s) t (clockReply tag s.clock clock) more := by
  obtain ⟨v, more, hwindowed, hwindow⟩ := window_windowed
    (s := clocked s clock (earlierKept s clock) (countArrival s).oCount) h
    ((earlierKept s clock).keptWindow < windowOf clock)
  obtain ⟨e, he⟩ : ∃ e, e = (clockEvent s clock v (countArrival s).oCount more).replying (clockReply tag s.clock clock) :=
    ⟨_, rfl⟩
  have hbody : doSetClock tag clock (arrived s) = e := by
    have hstep : windowStep { st := clocked s clock (earlierKept s clock) (countArrival s).oCount }
        = { st := clocked s clock v (countArrival s).oCount, raised := more } := hwindow
    rw [he, ← clockFollowers_event, ← hstep]
    rfl
  have hexec : exec (.setClock tag clock) s = .next (finish s e) := by
    show Host.Outcome.next (command 0x04 tag (doSetClock tag clock) s) = _
    rw [command_free hfree rfl, hbody]
  have hswept := swept_of_event (before := s) (e := e) (congrArg Event.st he) (by rw [he]; rfl)
  have hraises := clockEvent_raises (e := e) (s := s) (v := v) (clock := clock) (count := (countArrival s).oCount)
    (more := more) (by rw [he]; rfl) (by rw [he]; rfl) (by rw [he]; rfl)
  have hsettled : FieldsSettled (clockReply tag s.clock clock) := by
    rintro u w ⟨_, _, _, _, _, rfl⟩
    rfl
  exact ⟨v, more, _, hexec, hwindowed, followed_of_swept hswept, finish_replied hraises _ (by rw [he]; rfl) hsettled⟩

theorem earlierKept_lt_iff (s : State) (clock : BitVec 32) :
    (earlierKept s clock).keptWindow < windowOf clock ↔ s.supervision.keptWindow < windowOf clock := by
  unfold earlierKept
  exact ⟨fun hlt => by simpa using hlt, fun hlt => (Nat.min_le_left _ _).trans_lt hlt⟩

/-- What a clock event leaves shows whether an alarm state turned in its window. -/
theorem Followed.alarms {s t w : State} {clock : BitVec 32} {v : Supervision} {cond : Prop} {more : Categories}
    (h : Followed s t clock v) (hw : Windowed w cond v more) (hshops : ∀ n, w.shop n = s.shop n) :
    AlarmsRaise s t more := by
  have hshop (n : Nat) : t.shop n = look {} v.shops n :=
    congrArg (fun u : Supervision => look ({} : Shop) u.shops n) h.supervision
  refine ⟨fun hsame => hw.quiet fun n => ?_, fun ⟨n, hn⟩ => hw.turned ⟨n, ?_⟩⟩
  · rw [hshops n, ← hshop n]
    exact hsame n
  · rw [hshops n, ← hshop n]
    exact hn

/-- Settles O32: the clock takes its value, the window ends or is kept, and grace and the sweep follow. -/
theorem clockActsOnTheNewValue : Obligations.ClockActsOnTheNewValue := by
  unfold Obligations.ClockActsOnTheNewValue
  refine ⟨fun s hcanonical => ?_, fun s tag clock hcanonical hfree => ?_⟩
  · obtain ⟨v, more, t, hexec, hwindowed, hfollowed, hnoticed⟩ := clockTick_followed hcanonical
    have halarms := hfollowed.alarms hwindowed fun _ => rfl
    obtain ⟨hclock, hsupervision, hcycle, hlooked, hselects, hkeeps, hrest⟩ := hfollowed
    refine ⟨t, hexec, hclock, ?_, hcycle, hlooked, hselects, hkeeps, ⟨more, halarms, hnoticed⟩, hrest⟩
    rw [hsupervision]
    split
    · next hcond => exact hwindowed.ended hcond
    · next hcond => exact hwindowed.kept hcond
  · obtain ⟨v, more, t, hexec, hwindowed, hfollowed, hreplied⟩ := setClock_followed tag clock hcanonical hfree
    have halarms := hfollowed.alarms hwindowed fun _ => rfl
    obtain ⟨hclock, hsupervision, hcycle, hlooked, hselects, hkeeps, hrest⟩ := hfollowed
    refine ⟨t, hexec, hclock, ⟨more, halarms, hreplied⟩, ?_, hcycle, hlooked, hselects, hkeeps, hrest⟩
    rw [hsupervision]
    split
    · next hcond => exact hwindowed.ended ((earlierKept_lt_iff s clock).mpr hcond)
    · next hcond =>
      rw [hwindowed.kept (mt (earlierKept_lt_iff s clock).mp hcond)]
      exact congrArg (fun k => { s.supervision with keptWindow := k }) (Nat.min_eq_right (Nat.not_lt.mp hcond))

end Sys2Proof.Proofs.Clock
end

section
/-! PROOFS. The frames of both ports: the escapes, the receivers and transmitters, and the sorting (1.1, 1.2, 11.1). -/

namespace Sys2Proof.Proofs.Receiving

open Sys2Proof Sys2Proof.Machine
open Sys2Proof.Proofs.Windows (finish_idle)

/-! ### A receiver and its octets (R1, R187) -/

/-- The receiver after octets none of which is a delimiter; none when the frame reaches 601 octets on the way. -/
def takeAll : List Octet → Receiver → Option Receiver
  | [], r => some r
  | b :: l, r => (takeData b r).bind (takeAll l)

theorem takeAll_append (k l : List Octet) (r : Receiver) : takeAll (k ++ l) r = (takeAll k r).bind (takeAll l) := by
  induction k generalizing r with
  | nil => rfl
  | cons b k ih =>
    show (takeData b r).bind (takeAll (k ++ l)) = ((takeData b r).bind (takeAll k)).bind (takeAll l)
    rw [Option.bind_assoc, funext ih]

theorem addOctet_room {b : Octet} {r : Receiver} (h : r.frame.length < 600) :
    addOctet b r = some { r with frame := r.frame ++ [b], escape := false } := by
  have hroom : (r.frame ++ [b]).length < Config.oversizeAt := by
    rw [List.length_append]
    exact Nat.succ_lt_succ h
  exact if_pos hroom

theorem addOctet_state {b : Octet} {r t : Receiver} (h : addOctet b r = some t) : t.state = r.state := by
  unfold addOctet at h
  dsimp only at h
  split at h
  · cases h
    rfl
  · cases h

theorem takeData_state {b : Octet} {r t : Receiver} (h : takeData b r = some t) : t.state = r.state := by
  unfold takeData at h
  split at h
  · exact (addOctet_state h).trans rfl
  · split at h
    · cases h
      rfl
    · exact addOctet_state h

/-- R187: the two octets of an escape, by the octet behind it. -/
theorem takeAll_escape {b : Octet} {r : Receiver} (hopen : r.escape = false) (h : r.frame.length < 600) :
    takeAll [0x7D, b] r = some { r with
      frame := r.frame ++ [b ^^^ 0x20], bad := r.bad || !(b == 0x5E#8 || b == 0x5D#8) } := by
  have hmark : takeData 0x7D r = some { r with escape := true } := by
    unfold takeData
    rw [hopen]
    rfl
  have hbehind : takeData b { r with escape := true } = some { r with
      frame := r.frame ++ [b ^^^ 0x20], escape := false, bad := r.bad || !(b == 0x5E#8 || b == 0x5D#8) } :=
    addOctet_room (r := { r with escape := true, bad := r.bad || !(b == 0x5E#8 || b == 0x5D#8) }) h
  show (takeData 0x7D r).bind (fun t => (takeData b t).bind some) = _
  rw [hmark]
  show (takeData b { r with escape := true }).bind some = _
  rw [hbehind, ← hopen]
  rfl

theorem takeAll_plain {b : Octet} {r : Receiver} (hopen : r.escape = false) (hb : b ≠ 0x7D) (h : r.frame.length < 600) :
    takeAll [b] r = some { r with frame := r.frame ++ [b] } := by
  have htaken : takeData b r = addOctet b r := by
    unfold takeData
    rw [hopen]
    exact if_neg hb
  show (takeData b r).bind some = _
  rw [htaken, addOctet_room h, ← hopen]
  rfl

/-- R187: a frame's octets with their escapes are taken back as the frame. -/
theorem takeAll_escaped (f : Frame) {r : Receiver} (hopen : r.escape = false) (h : r.frame.length + f.length ≤ 600) :
    takeAll (escaped f) r = some { r with frame := r.frame ++ f } := by
  induction f generalizing r with
  | nil =>
    rw [List.append_nil]
    rfl
  | cons b f ih =>
    have hroom : r.frame.length < 600 := by
      rw [List.length_cons] at h
      omega
    have hfirst : ∃ k, escaped (b :: f) = k ++ escaped f ∧ takeAll k r = some { r with frame := r.frame ++ [b] } := by
      by_cases hmark : b = 0x7E ∨ b = 0x7D
      · refine ⟨[0x7D, b ^^^ 0x20], if_pos hmark, ?_⟩
        rw [takeAll_escape hopen hroom]
        rcases hmark with rfl | rfl <;> simp
      · exact ⟨[b], if_neg hmark, takeAll_plain hopen (fun hb => hmark (.inr hb)) hroom⟩
    obtain ⟨k, hk, htaken⟩ := hfirst
    rw [hk, takeAll_append, htaken]
    refine (ih (r := { r with frame := r.frame ++ [b] }) hopen ?_).trans ?_
    · rw [List.length_append, List.length_singleton]
      rw [List.length_cons] at h
      omega
    · show some { r with frame := r.frame ++ [b] ++ f } = _
      rw [List.append_assoc, List.singleton_append]

theorem delimiter_not_mem_escaped (f : Frame) : (0x7E : Octet) ∉ escaped f := by
  induction f with
  | nil => exact List.not_mem_nil
  | cons b f ih =>
    unfold escaped
    by_cases hmark : b = 0x7E#8 ∨ b = 0x7D#8
    · rw [if_pos hmark]
      rcases hmark with rfl | rfl <;> simpa using ih
    · rw [if_neg hmark]
      exact List.not_mem_cons_of_ne_of_not_mem (fun h => hmark (.inl h.symm)) ih

/-! ### A port and its octets -/

section
variable (p : Port) (s : State)

theorem setReceiver_receiver : setReceiver p (receiver p s) s = s := by cases p <;> rfl

theorem receiver_setReceiver (r : Receiver) : receiver p (setReceiver p r s) = r := by cases p <;> rfl

theorem setReceiver_setReceiver (r t : Receiver) : setReceiver p t (setReceiver p r s) = setReceiver p t s := by
  cases p <;> rfl

/-- The end of an event does not read a receiver of the state before it. -/
theorem finish_setReceiver (r : Receiver) (e : Event) : finish (setReceiver p r s) e = finish s e := by cases p <;> rfl

end

section
variable {p : Port} {s : State} {l : List Octet} {r t : Receiver}

theorem takeOctet_of_some {b : Octet} (hr : receiver p s = r) (hstate : r.state = .receiving)
    (h : takeData b r = some t) : takeOctet p b s = setReceiver p t s := by
  unfold takeOctet
  dsimp only
  rw [hr, hstate, h]

theorem foldl_takeOctet (hr : receiver p s = r) (hstate : r.state = .receiving) (h : takeAll l r = some t) :
    l.foldl (fun s b => takeOctet p b s) s = setReceiver p t s := by
  induction l generalizing s r with
  | nil =>
    cases h
    rw [← hr, setReceiver_receiver]
    rfl
  | cons b l ih =>
    obtain ⟨m, hm, hrest⟩ := Option.bind_eq_some_iff.mp (show (takeData b r).bind (takeAll l) = some t from h)
    show l.foldl (fun s b => takeOctet p b s) (takeOctet p b s) = _
    rw [takeOctet_of_some hr hstate hm,
      ih (receiver_setReceiver p s m) ((takeData_state hm).trans hstate) hrest, setReceiver_setReceiver]

theorem receive_eq (h : (0x7E : Octet) ∉ l) :
    receive p l s = event (delimiter p) (l.foldl (fun s b => takeOctet p b s) s) := by
  induction l generalizing s with
  | nil => rfl
  | cons b l ih =>
    obtain ⟨hb, hrest⟩ := not_or.mp (mt List.mem_cons.mpr h)
    have hplain : ¬ b = 0x7E#8 := fun hmark => hb hmark.symm
    unfold receive
    rw [if_neg hplain]
    exact ih hrest

theorem delimiter_receiving (hr : receiver p s = r) (hstate : r.state = .receiving) :
    event (delimiter p) s = finish s (endFrame p r { st := setReceiver p freshReceiver s }) := by
  have hend : delimiter p { st := s } = endFrame p r { st := setReceiver p freshReceiver s } := by
    unfold delimiter
    dsimp only
    rw [hr, hstate]
    rfl
  exact congrArg (finish s) hend

/-- R1, R2: what octets without a delimiter bring about at a port that is between two frames. -/
theorem exec_received (hfresh : receiver p s = freshReceiver) (hl : (0x7E : Octet) ∉ l)
    (h : takeAll l freshReceiver = some t) (hstate : t.state = .receiving) :
    exec (.frameReceived p l) s = .next (finish s (endFrame p t { st := s })) := by
  have hkept : setReceiver p freshReceiver s = s := hfresh ▸ setReceiver_receiver p s
  show Host.Outcome.next (receive p l s) = _
  rw [receive_eq hl, foldl_takeOctet hfresh rfl h, delimiter_receiving (receiver_setReceiver p s t) hstate,
    setReceiver_setReceiver, hkept, finish_setReceiver]

/-- A frame of at most 600 octets, received whole. -/
theorem exec_frame {f : Frame} (hfresh : receiver p s = freshReceiver) (hf : f.length ≤ 600) :
    exec (.frameReceived p (escaped f)) s
      = .next (finish s (endFrame p { freshReceiver with frame := f } { st := s })) := by
  refine exec_received hfresh (delimiter_not_mem_escaped f) (takeAll_escaped f rfl ?_) rfl
  simpa [freshReceiver] using hf

end

theorem unescapedLength_escaped (f : Frame) : unescapedLength (escaped f) = f.length := by
  induction f with
  | nil => rfl
  | cons b f ih =>
    unfold escaped
    by_cases hmark : b = 0x7E#8 ∨ b = 0x7D#8
    · rw [if_pos hmark, List.length_cons, ← ih]
      rfl
    · rw [if_neg hmark, List.length_cons, ← ih]
      conv_lhs => unfold unescapedLength
      exact if_neg fun hescape => hmark (.inr hescape)

/-- Settles O24: the receiver's octets are the frame's, by induction on the frame. -/
theorem escapesRoundTrip : Obligations.EscapesRoundTrip := by
  unfold Obligations.EscapesRoundTrip
  intro s p f hfresh hf
  have htaken : takeAll (escaped f) freshReceiver = some { freshReceiver with frame := f } :=
    takeAll_escaped f rfl (by simpa [freshReceiver] using hf)
  have hplain : (escaped f).all (· != 0x7E#8) = true := List.all_eq_true.mpr fun b hb =>
    bne_iff_ne.mpr fun hmark => delimiter_not_mem_escaped f (by rwa [hmark] at hb)
  refine ⟨foldl_takeOctet hfresh rfl htaken, delimiter_not_mem_escaped f, ?_⟩
  show ((escaped f).all (· != 0x7E#8) && decide (unescapedLength (escaped f) < Config.oversizeAt)) = true
  rw [hplain, unescapedLength_escaped]
  exact decide_eq_true (Nat.lt_succ_of_le hf)

/-! ### The ends of frames, and the transmitters (R1, R2, R6) -/

section
variable {p : Port} {s : State} {r : Receiver} (hr : receiver p s = r)
include hr

theorem exec_delimiter_idle (h : r.state ≠ .receiving ∨ r = freshReceiver) :
    exec (.frameStartDelimiter p) s = .next (setReceiver p freshReceiver s) := by
  have hend : delimiter p { st := s } = { st := setReceiver p freshReceiver s } := by
    unfold delimiter
    dsimp only
    rw [hr]
    rcases h with hstate | rfl
    · cases hs : r.state with
      | receiving => exact absurd hs hstate
      | idle | discarding => rfl
    · rfl
  show Host.Outcome.next (finish s (delimiter p { st := s })) = _
  rw [hend, finish_silent s { st := setReceiver p freshReceiver s } rfl rfl rfl rfl (by cases p <;> rfl)]

theorem exec_delimiter_ending (hstate : r.state = .receiving) {u : State}
    (hend : endFrame p r { st := setReceiver p freshReceiver s } = { st := u })
    (hload : committedLoad u = committedLoad s) : exec (.frameStartDelimiter p) s = .next u := by
  show Host.Outcome.next (event (delimiter p) s) = _
  rw [delimiter_receiving hr hstate, hend, finish_silent s { st := u } rfl rfl rfl rfl hload]

theorem exec_oversize (hstate : r.state = .receiving) :
    exec (.frameReaches601 p) s = .next (countOversize p (setReceiver p { state := .discarding } s)) := by
  show Host.Outcome.next (match (receiver p s).state with
    | .receiving => countOversize p (setReceiver p { state := .discarding } s)
    | _ => s) = _
  rw [hr, hstate]

theorem exec_notOversize (hstate : r.state ≠ .receiving) : exec (.frameReaches601 p) s = .next s := by
  show Host.Outcome.next (match (receiver p s).state with
    | .receiving => countOversize p (setReceiver p { state := .discarding } s)
    | _ => s) = _
  rw [hr]
  cases hs : r.state with
  | receiving => exact absurd hs hstate
  | idle | discarding => rfl

end

theorem endFrame_spoiled (p : Port) {r : Receiver} (e : Event)
    (h : r.bad = true ∨ r.escape = true ∨ (3 ≤ r.frame.length ∧ checkAgrees r.frame = false)) :
    endFrame p r e = e.upd (countCheckFailure p) := by
  unfold endFrame
  by_cases hmark : (r.bad || r.escape) = true
  · exact if_pos hmark
  · rw [if_neg hmark]
    obtain ⟨hlength, hcheck⟩ : 3 ≤ r.frame.length ∧ checkAgrees r.frame = false := by
      simp only [Bool.or_eq_true] at hmark
      tauto
    have hframe : ¬ r.frame.isEmpty = true := fun hempty => by
      rw [List.isEmpty_iff.mp hempty] at hlength
      exact absurd hlength (by decide)
    rw [if_neg hframe, if_neg hlength.not_gt, hcheck]
    rfl

theorem endFrame_runt (p : Port) {r : Receiver} (e : Event) (hbad : r.bad = false) (hopen : r.escape = false)
    (h1 : 1 ≤ r.frame.length) (h2 : r.frame.length ≤ 2) : endFrame p r e = e.upd (countRunt p) := by
  have hframe : ¬ r.frame.isEmpty = true := fun hempty => by
    rw [List.isEmpty_iff.mp hempty] at h1
    exact absurd h1 (by decide)
  unfold endFrame
  rw [hbad, hopen]
  exact (if_neg hframe).trans (if_pos (Nat.lt_succ_of_le h2))

theorem endFrame_checked (p : Port) {f : Frame} (e : Event) (hlength : 3 ≤ f.length) (hcheck : checkAgrees f = true) :
    endFrame p { freshReceiver with frame := f } e = checkedFrame p f e := by
  have hframe : ¬ f.isEmpty = true := fun hempty => by
    rw [List.isEmpty_iff.mp hempty] at hlength
    exact absurd hlength (by decide)
  exact (if_neg hframe).trans ((if_neg hlength.not_gt).trans (if_pos hcheck))

/-- Settles O23: each row by the receiver's state, or by the transmitter's frames. -/
theorem receiversAndTransmitters : Obligations.ReceiversAndTransmitters := by
  unfold Obligations.ReceiversAndTransmitters
  intro s
  refine ⟨?_, ?_, ?_, ?_, ?_, ?_, ?_, ?_, ?_, ?_, ?_, ?_, ?_, ?_, ?_⟩
  · exact exec_delimiter_idle (p := .shop) rfl
  · exact exec_delimiter_idle (p := .office) rfl
  · exact fun hstate h => exec_delimiter_ending (p := .shop) rfl hstate (endFrame_spoiled .shop _ h) rfl
  · exact fun hstate h => exec_delimiter_ending (p := .office) rfl hstate (endFrame_spoiled .office _ h) rfl
  · exact fun hstate hb ho h1 h2 =>
      exec_delimiter_ending (p := .shop) rfl hstate (endFrame_runt .shop _ hb ho h1 h2) rfl
  · exact fun hstate hb ho h1 h2 =>
      exec_delimiter_ending (p := .office) rfl hstate (endFrame_runt .office _ hb ho h1 h2) rfl
  · intro p f hf hr
    have hdelimiter : exec (.frameStartDelimiter p) s = .next (finish s
        (endFrame p { freshReceiver with frame := f } { st := setReceiver p freshReceiver s })) :=
      congrArg Host.Outcome.next (delimiter_receiving hr rfl)
    rw [hdelimiter, exec_frame (receiver_setReceiver p s freshReceiver) hf, finish_setReceiver]
  · exact fun hstate => exec_oversize (p := .shop) rfl hstate
  · exact fun hstate => exec_oversize (p := .office) rfl hstate
  · exact fun hstate => exec_notOversize (p := .shop) rfl hstate
  · exact fun hstate => exec_notOversize (p := .office) rfl hstate
  · intro f rest hframes
    show Host.Outcome.next (sendHead .shop s) = _
    unfold sendHead
    dsimp only
    rw [hframes, ← wireFrame_sent]
  · intro f rest hframes
    show Host.Outcome.next (sendHead .office s) = _
    unfold sendHead
    dsimp only
    rw [hframes, ← wireFrame_sent]
  · intro hnone
    show Host.Outcome.next (sendHead .shop s) = _
    unfold sendHead
    dsimp only
    rw [hnone]
  · intro hnone
    show Host.Outcome.next (sendHead .office s) = _
    unfold sendHead
    dsimp only
    rw [hnone]

/-! ### Frames with their check (R187) -/

section
variable (l : List Octet)

theorem length_withCheck : (withCheck l).length = l.length + 2 := by
  unfold withCheck
  rw [List.length_append, length_octets]

theorem take_withCheck : (withCheck l).take ((withCheck l).length - 2) = l := by
  rw [length_withCheck, Nat.add_sub_cancel]
  exact List.take_left' rfl

theorem checkAgrees_withCheck : checkAgrees (withCheck l) = true := by
  unfold checkAgrees
  dsimp only
  rw [take_withCheck, length_withCheck, Nat.add_sub_cancel]
  exact beq_iff_eq.mpr (List.drop_left' rfl).symm

/-- The check stands behind the fields. -/
theorem field_withCheck {o w : Nat} (h : o + w ≤ l.length) : field (withCheck l) o w = field l o w := by
  have htake : ((withCheck l).drop o).take w = (l.drop o).take w := by
    unfold withCheck
    rw [List.drop_append_of_le_length (by omega), List.take_append_of_le_length]
    rw [List.length_drop]
    omega
  exact congrArg number htake

/-- A frame with its check that a port receives whole, and that is no runt. -/
theorem exec_checked {p : Port} {s : State} (hfresh : receiver p s = freshReceiver) (h1 : 1 ≤ l.length)
    (h : l.length ≤ 598) : exec (.frameReceived p (escaped (withCheck l))) s
      = .next (finish s (checkedFrame p (withCheck l) { st := s })) := by
  have hlength := length_withCheck l
  rw [exec_frame hfresh (by omega), endFrame_checked p _ (by omega) (checkAgrees_withCheck l)]

end

/-! ### The sorting of frames (R2, R4, R5) -/

section
variable {p : Port} {s : State} (hfresh : receiver p s = freshReceiver) (f g : Frame)
include hfresh

theorem exec_idleFill : exec (.frameReceived p []) s = .next s := by
  rw [exec_received (t := freshReceiver) hfresh List.not_mem_nil rfl rfl]
  exact congrArg Host.Outcome.next (finish_idle s)

theorem exec_ended {l : List Octet} {t : Receiver} {u : State} (hl : (0x7E : Octet) ∉ l)
    (h : takeAll l freshReceiver = some t) (hstate : t.state = .receiving)
    (hend : endFrame p t { st := s } = { st := u }) (hload : committedLoad u = committedLoad s) :
    exec (.frameReceived p l) s = .next u := by
  rw [exec_received hfresh hl h hstate, hend, finish_silent s { st := u } rfl rfl rfl rfl hload]

theorem exec_runt (h1 : 1 ≤ f.length) (h2 : f.length ≤ 2) :
    exec (.frameReceived p (escaped f)) s = .next (countRunt p s) := by
  refine exec_ended hfresh (delimiter_not_mem_escaped f) (takeAll_escaped f rfl ?_) rfl
    (endFrame_runt p _ rfl rfl h1 h2) (by cases p <;> rfl)
  show 0 + f.length ≤ 600
  omega

theorem exec_checkFailure (h3 : 3 ≤ f.length) (h : f.length ≤ 600) (hcheck : checkAgrees f = false) :
    exec (.frameReceived p (escaped f)) s = .next (countCheckFailure p s) := by
  refine exec_ended hfresh (delimiter_not_mem_escaped f) (takeAll_escaped f rfl ?_) rfl
    (endFrame_spoiled p _ (.inr (.inr ⟨h3, hcheck⟩))) (by cases p <;> rfl)
  show 0 + f.length ≤ 600
  omega

/-- R187: a bad escape in a frame. -/
theorem exec_badEscape {b : Octet} (h : f.length + g.length ≤ 598) (h1 : b ≠ 0x5D) (h2 : b ≠ 0x5E) (h3 : b ≠ 0x7E) :
    exec (.frameReceived p (escaped f ++ [0x7D, b] ++ escaped g)) s = .next (countCheckFailure p s) := by
  have hbad : (!(b == 0x5E#8 || b == 0x5D#8)) = true := by
    have hfold : (b == 0x5E#8) = false := beq_eq_false_iff_ne.mpr h2
    have hescape : (b == 0x5D#8) = false := beq_eq_false_iff_ne.mpr h1
    rw [hfold, hescape]
    rfl
  have hfirst : takeAll (escaped f) freshReceiver = some { freshReceiver with frame := f } :=
    takeAll_escaped f rfl (show 0 + f.length ≤ 600 by omega)
  have hescape : takeAll [0x7D, b] { freshReceiver with frame := f }
      = some { freshReceiver with frame := f ++ [b ^^^ 0x20], bad := true } := by
    rw [takeAll_escape rfl (show f.length < 600 by omega), hbad]
    rfl
  have hlast := takeAll_escaped g (r := { freshReceiver with frame := f ++ [b ^^^ 0x20], bad := true }) rfl (by
    show (f ++ [b ^^^ 0x20]).length + g.length ≤ 600
    rw [List.length_append, List.length_singleton]
    omega)
  refine exec_ended hfresh ?_ ?_ rfl (endFrame_spoiled p (r := { freshReceiver with
    frame := f ++ [b ^^^ 0x20] ++ g, bad := true }) _ (.inl rfl)) (by cases p <;> rfl)
  · simp only [List.mem_append, List.mem_cons, List.not_mem_nil, or_false, not_or]
    exact ⟨⟨delimiter_not_mem_escaped f, by decide, h3.symm⟩, delimiter_not_mem_escaped g⟩
  · rw [takeAll_append, takeAll_append, hfirst]
    show (takeAll [0x7D, b] { freshReceiver with frame := f }).bind (takeAll (escaped g)) = _
    rw [hescape]
    exact hlast

/-- R187: an escape that the frame's end leaves unfinished. -/
theorem exec_unfinishedEscape (h : f.length ≤ 600) :
    exec (.frameReceived p (escaped f ++ [0x7D])) s = .next (countCheckFailure p s) := by
  have hfirst : takeAll (escaped f) freshReceiver = some { freshReceiver with frame := f } :=
    takeAll_escaped f rfl (show 0 + f.length ≤ 600 by omega)
  refine exec_ended hfresh ?_ ?_ rfl (endFrame_spoiled p (r := { freshReceiver with
    frame := f, escape := true }) _ (.inr (.inl rfl))) (by cases p <;> rfl)
  · simp only [List.mem_append, List.mem_cons, List.not_mem_nil, or_false, not_or]
    exact ⟨delimiter_not_mem_escaped f, by decide⟩
  · rw [takeAll_append, hfirst]
    rfl

end

/-- R22: digits that no program carries. -/
theorem findProgram_none {t : TableSet} {digits : BitVec 24} (h : ∀ i < 16, (t.program i).digits ≠ some digits) :
    findProgram t digits = none := by
  have hnone : (List.range 16).find? (fun i => (t.program i).digits == some digits) = none :=
    List.find?_eq_none.mpr fun i hi => by simpa using h i (List.mem_range.mp hi)
  have henabled : (List.range 16).find? (fun i => (t.program i).enabled && (t.program i).digits == some digits) = none :=
    List.find?_eq_none.mpr fun i hi => by simp [h i (List.mem_range.mp hi)]
  unfold findProgram
  rw [henabled]
  exact hnone

theorem decimalPrefix_false {digits : BitVec 24} (h : ∃ i < 6, 9 < (digits.toNat / 16 ^ i) % 16) :
    ¬ decimalPrefix digits = true := fun hdecimal => by
  obtain ⟨i, hi, hdigit⟩ := h
  exact absurd ((LoadedFields.decimalPrefix_iff digits).mp hdecimal i hi) hdigit.not_ge

/-- R4: the frames that the classifier forwards. -/
theorem classify_none {t : TableSet} {f : Frame}
    (h : field f 0 1 ≠ 0x47 ∨ f.length < 26
      ∨ (∃ i < 6, 9 < ((cardPrefix (giftFields f).card).toNat / 16 ^ i) % 16)
      ∨ ∀ i < 16, (t.program i).digits ≠ some (cardPrefix (giftFields f).card)) : classify t f = none := by
  unfold classify
  by_cases hgift : field f 0 1 = 0x47 ∧ giftLength ≤ f.length
  · rw [if_pos hgift]
    rcases h with h | h | h | h
    · exact absurd hgift.1 h
    · exact absurd hgift.2 h.not_ge
    · exact if_neg (decimalPrefix_false h)
    · dsimp only
      rw [findProgram_none h, ite_self]
  · exact if_neg hgift

/-- Settles O25: the frames by their octets, and checked ones by the classifier of their port. -/
theorem framesAreSorted : Obligations.FramesAreSorted := by
  unfold Obligations.FramesAreSorted
  refine ⟨fun s f g b => ⟨fun hfresh => ?_, fun hfresh => ?_⟩, fun s l h1 h => ?_⟩
  · exact ⟨exec_idleFill (p := .shop) hfresh, exec_runt (p := .shop) hfresh f, exec_checkFailure (p := .shop) hfresh f,
      exec_badEscape (p := .shop) hfresh f g, exec_unfinishedEscape (p := .shop) hfresh f⟩
  · exact ⟨exec_idleFill (p := .office) hfresh, exec_runt (p := .office) hfresh f,
      exec_checkFailure (p := .office) hfresh f, exec_badEscape (p := .office) hfresh f g,
      exec_unfinishedEscape (p := .office) hfresh f⟩
  · intro f digits
    refine ⟨fun hfresh hother => ?_, fun hfresh hother => ?_⟩
    · obtain ⟨m, hm⟩ : ∃ m : State, m = { s with sCount := { s.sCount with received := s.sCount.received + 1 } } :=
        ⟨_, rfl⟩
      have hforwarded : shopFrame f { st := m } = { st := { m with
          oTx := m.oTx ++ [f], sCount := { m.sCount with forwarded := m.sCount.forwarded + 1 } } } := by
        have hnone : classify m.activeTables f = none := by
          rw [hm]
          exact classify_none hother
        unfold shopFrame
        dsimp only
        rw [hnone]
        rfl
      rw [exec_checked l (p := .shop) hfresh h1 h]
      show Host.Outcome.next (finish s (shopFrame f
        { st := { s with sCount := { s.sCount with received := s.sCount.received + 1 } } })) = _
      rw [← hm, hforwarded, hm]
      exact congrArg Host.Outcome.next (finish_silent s _ rfl rfl rfl rfl rfl)
    · rw [exec_checked l (p := .office) hfresh h1 h]
      have haddress : ¬ (2 ≤ l.length ∧ field l 1 1 = s.unitAddress.toNat) := fun ⟨h2, heq⟩ => by
        rcases hother with hlength | hne
        · omega
        · exact hne heq
      have hforwarded : officeFrame f { st := s } = { st := { s with
          sTx := s.sTx ++ [f]
          oCount := { s.oCount with received := s.oCount.received + 1, forwarded := s.oCount.forwarded + 1 } } } := by
        have hbody : f.take (f.length - 2) = l := take_withCheck l
        unfold officeFrame
        dsimp only
        rw [hbody]
        exact if_neg haddress
      show Host.Outcome.next (finish s (officeFrame f { st := s })) = _
      rw [hforwarded]
      exact congrArg Host.Outcome.next (finish_silent s _ rfl rfl rfl rfl rfl)

end Sys2Proof.Proofs.Receiving
end

section
/-! PROOFS. Management frames: the commands read from their octets, and the unit's first steps (10.1, 11.4). -/

namespace Sys2Proof.Proofs.ManagementFrames

open Sys2Proof Sys2Proof.Machine Sys2Proof.Proofs.Receiving

/-! ### Fields written and read again (R188, R190) -/

section
variable (w : Nat) (k l : List Octet) (o n : Nat)

@[simp] theorem length_fieldOctets (b : BitVec w) : (fieldOctets n b).length = n := length_octets n _

theorem field_append_left (h : o + n ≤ k.length) : field (k ++ l) o n = field k o n := by
  have htake : ((k ++ l).drop o).take n = (k.drop o).take n := by
    rw [List.drop_append_of_le_length (by omega), List.take_append_of_le_length]
    rw [List.length_drop]
    omega
  exact congrArg number htake

theorem field_append_right (h : k.length ≤ o) : field (k ++ l) o n = field l (o - k.length) n := by
  have hdrop : (k ++ l).drop o = l.drop (o - k.length) := by
    rw [List.drop_append, List.drop_eq_nil_of_le h, List.nil_append]
  exact congrArg (fun m => number (List.take n m)) hdrop

theorem field_octets (v : Nat) : field (octets n v) 0 n = v % 256 ^ n := by
  unfold field
  rw [List.drop_zero, List.take_of_length_le (length_octets n v).le, number_octets]

@[simp] theorem bitsAt_append_left (h : o + n ≤ k.length) : bitsAt w (k ++ l) o n = bitsAt w k o n :=
  congrArg (BitVec.ofNat w) (field_append_left k l o n h)

@[simp] theorem bitsAt_append_right (h : k.length ≤ o) : bitsAt w (k ++ l) o n = bitsAt w l (o - k.length) n :=
  congrArg (BitVec.ofNat w) (field_append_right k l o n h)

theorem bitsAt_fieldOctets {w n : Nat} (h : w = 8 * n) (b : BitVec w) : bitsAt w (fieldOctets n b) 0 n = b := by
  have hsize : 256 ^ n = 2 ^ w := by
    rw [h, pow_mul]
    rfl
  unfold bitsAt fieldOctets
  rw [field_octets, hsize, Nat.mod_eq_of_lt b.isLt, BitVec.ofNat_toNat, BitVec.setWidth_eq]

end

@[simp] theorem bitsAt_octet (b : BitVec 8) : bitsAt 8 (fieldOctets 1 b) 0 1 = b :=
  bitsAt_fieldOctets (n := 1) rfl b

@[simp] theorem bitsAt_twoOctets (b : BitVec 16) : bitsAt 16 (fieldOctets 2 b) 0 2 = b :=
  bitsAt_fieldOctets (n := 2) rfl b

@[simp] theorem bitsAt_threeOctets (b : BitVec 24) : bitsAt 24 (fieldOctets 3 b) 0 3 = b :=
  bitsAt_fieldOctets (n := 3) rfl b

@[simp] theorem bitsAt_fourOctets (b : BitVec 32) : bitsAt 32 (fieldOctets 4 b) 0 4 = b :=
  bitsAt_fieldOctets (n := 4) rfl b

@[simp] theorem length_imageOctets (i : RecordImage) : (imageOctets i).length = 21 := by simp [imageOctets]

theorem imageAt_imageOctets (i : RecordImage) : imageAt (imageOctets i) 0 = i := by
  unfold imageAt imageOctets
  simp

theorem imageAt_append_left (k l : List Octet) (o : Nat) (h : o + 21 ≤ k.length) : imageAt (k ++ l) o = imageAt k o := by
  unfold imageAt
  congr 1 <;> exact bitsAt_append_left _ _ _ _ _ (by omega)

theorem imageAt_append_right (k l : List Octet) (o : Nat) (h : k.length ≤ o) :
    imageAt (k ++ l) o = imageAt l (o - k.length) := by
  have hread (w d n : Nat) : bitsAt w (k ++ l) (o + d) n = bitsAt w l (o - k.length + d) n := by
    rw [bitsAt_append_right w k l _ n (by omega), Nat.sub_add_comm h]
  unfold imageAt
  congr 1
  · exact hread 8 0 1
  all_goals exact hread _ _ _

theorem imagesAt_read (b : BitVec 24) (i : FourImages) : imagesAt (fieldOctets 3 b ++ imagesOctets i) = i := by
  unfold imagesAt
  rw [imageAt_append_right _ _ 3 (by simp), imageAt_append_right _ _ 24 (by simp), imageAt_append_right _ _ 45 (by simp),
    imageAt_append_right _ _ 66 (by simp), length_fieldOctets]
  have hfirst : imageAt (imagesOctets i) 0 = i.first := by
    unfold imagesOctets
    rw [imageAt_append_left _ _ _ (by simp), imageAt_append_left _ _ _ (by simp), imageAt_append_left _ _ _ (by simp),
      imageAt_imageOctets]
  have hsecond : imageAt (imagesOctets i) 21 = i.second := by
    unfold imagesOctets
    rw [imageAt_append_left _ _ _ (by simp), imageAt_append_left _ _ _ (by simp), imageAt_append_right _ _ _ (by simp),
      length_imageOctets, imageAt_imageOctets]
  have hthird : imageAt (imagesOctets i) 42 = i.third := by
    unfold imagesOctets
    rw [imageAt_append_left _ _ _ (by simp), imageAt_append_right _ _ _ (by simp), List.length_append,
      length_imageOctets, length_imageOctets, imageAt_imageOctets]
  have hfourth : imageAt (imagesOctets i) 63 = i.fourth := by
    unfold imagesOctets
    rw [imageAt_append_right _ _ _ (by simp), List.length_append, List.length_append, length_imageOctets,
      length_imageOctets, length_imageOctets, imageAt_imageOctets]
  rw [hfirst, hsecond, hthird, hfourth]

theorem adjustAt_read (b : BitVec 24) (f : AdjustFields) : adjustAt (fieldOctets 3 b ++ adjustOctets f) = f := by
  unfold adjustAt adjustOctets
  simp

theorem programAt_read (b : BitVec 8) (f : ProgramFields) :
    programAt (fieldOctets 1 b ++ programFieldOctets f) = f := by
  unfold programAt programFieldOctets
  simp

theorem feeAt_read (b : BitVec 8) (f : FeeFields) : feeAt (fieldOctets 1 b ++ feeFieldOctets f) = f := by
  unfold feeAt feeFieldOctets
  simp

theorem termsAt_read (b : BitVec 16) (f : TermsFields) : termsAt (fieldOctets 2 b ++ termsFieldOctets f) = f := by
  unfold termsAt termsFieldOctets
  simp

/-! ### Commands as the management unit runs them (R171) -/

/-- R44, log 16: whether a payload is the LAST of the pending block, by its first three parameter octets. -/
def completes (s : State) (p : Payload) : Bool :=
  decide (p.code = 0x12) && decide (3 ≤ p.params.length) && pendingBlock s (field p.params 0 3)

/-- The event of a management command whose own checks and effects are `body`. -/
def Runs (s : State) (c : Instr) (p : Payload) (body : Event → Event) : Prop :=
  exec c s = .next (finish s (unitGate p.code p.tag (completes s p) body (arrived s)))

/-- 11.6: the command table reads the payload of command `c` as what `c` does. -/
def ReadBack (s : State) (c : Instr) (p : Payload) : Prop :=
  ∃ entry, commandTable p.code = some entry ∧ p.params.length = entry.length ∧ Runs s c p (entry.run p.tag p.params)

section
variable {s : State} {c : Instr} {p : Payload}

/-- A command without a parameter that the table's entry could misread. -/
theorem ReadBack.of_body {entry : CommandEntry} {body : Event → Event} (hruns : Runs s c p body)
    (hentry : commandTable p.code = some entry) (hlength : p.params.length = entry.length)
    (hread : entry.run p.tag p.params = body) : ReadBack s c p :=
  ⟨entry, hentry, hlength, hread ▸ hruns⟩

theorem field_block (block : BitVec 24) (l : List Octet) : field (fieldOctets 3 block ++ l) 0 3 = block.toNat := by
  rw [field_append_left _ _ _ _ (by simp)]
  exact (field_octets 3 _).trans (Nat.mod_eq_of_lt block.isLt)

theorem cardLoadLast_runs (s : State) (tag : BitVec 16) (block : BitVec 24) (images : FourImages) :
    Runs s (.cardLoadLast tag block images) ⟨0x12, tag, fieldOctets 3 block ++ imagesOctets images⟩
      (doCardLoadLast tag images) := by
  have hcompletes : completes s ⟨0x12, tag, fieldOctets 3 block ++ imagesOctets images⟩
      = pendingBlock s block.toNat := by
    unfold completes
    dsimp only
    rw [field_block]
    rfl
  unfold Runs
  rw [hcompletes]
  rfl

theorem payload_readBack (h : payload c = some p) : ReadBack s c p := by
  cases c with
  | powerOnReset | frameReceived | fetchComplete | writeBackStart | writeBackComplete | waitListServe | activatePosting
  | reloadPosting | redeemPosting | balancePosting | holdPosting | completePosting | releasePosting | holdExpiredPosting
  | refundPosting | voidPosting | cardReadPosting | cardAdjustPosting | cardLoadReplacementPosting | auditVisit
  | clockTick | windowEnd | graceEnd | sweepSelection | closingSetFrozen | payoutTakeUp | payoutStep | cycleTotalAppend
  | closingSetClear | frameStartDelimiter | frameReaches601 | transmitterFrameSent => cases h
  | statusRead | journalRead | linkReset | beginLoad | storeReady | flush | audit | discardShadow | commitTables
  | cutover | freeze | payoutRead =>
    cases h
    exact ⟨_, rfl, rfl, rfl⟩
  | setNoticeMask tag masks =>
    cases h
    exact .of_body (body := doSetNoticeMask tag masks) rfl rfl rfl (by simp)
  | noticeAck tag cats =>
    cases h
    exact .of_body (body := doNoticeAck tag cats) rfl rfl rfl (by simp)
  | setClock tag clock =>
    cases h
    exact .of_body (body := doSetClock tag clock) rfl rfl rfl (by simp)
  | setConfig tag trip t1 t2 grace =>
    cases h
    exact .of_body (body := doSetConfig tag trip t1 t2 grace) rfl rfl rfl (by simp)
  | journalTake tag count =>
    cases h
    exact .of_body (body := doJournalTake tag count) rfl rfl rfl (by simp)
  | cardLoadFirst tag block images =>
    cases h
    exact .of_body (body := doCardLoadFirst tag block images) rfl rfl rfl (by simp [imagesAt_read])
  | cardLoadLast tag block images =>
    cases h
    exact .of_body (cardLoadLast_runs s tag block images) rfl rfl (by simp [imagesAt_read])
  | cardRead tag slot =>
    cases h
    exact .of_body (body := doCardRead tag slot) rfl rfl rfl (by simp)
  | cardAdjust tag slot fields =>
    cases h
    exact .of_body (body := doCardAdjust tag slot fields) rfl rfl rfl (by simp [adjustAt_read])
  | loadProgram tag index fields =>
    cases h
    exact .of_body (body := doLoadProgram tag index fields) rfl rfl rfl (by simp [programAt_read])
  | loadFeeClass tag index fields =>
    cases h
    exact .of_body (body := doLoadFeeClass tag index fields) rfl rfl rfl (by simp [feeAt_read])
  | loadShopTerms tag shop fields =>
    cases h
    exact .of_body (body := doLoadShopTerms tag shop fields) rfl rfl rfl (by simp [termsAt_read])
  | tableRead tag bank table index =>
    cases h
    exact .of_body (body := doTableRead tag bank table index) rfl rfl rfl (by simp)
  | holdRead tag ref =>
    cases h
    exact .of_body (body := doHoldRead tag ref) rfl rfl rfl (by simp)
  | entryRead tag ref =>
    cases h
    exact .of_body (body := doEntryRead tag ref) rfl rfl rfl (by simp)
  | rowRead tag set row =>
    cases h
    exact .of_body (body := doRowRead tag set row) rfl rfl rfl (by simp)
  | carryRead tag shop =>
    cases h
    exact .of_body (body := doCarryRead tag shop) rfl rfl rfl (by simp)
  | carrySet tag shop carry =>
    cases h
    exact .of_body (body := doCarrySet tag shop carry) rfl rfl rfl (by simp)
  | payoutTake tag count =>
    cases h
    exact .of_body (body := doPayoutTake tag count) rfl rfl rfl (by simp)
  | setShopMode tag shop mode =>
    cases h
    exact .of_body (body := doSetShopMode tag shop mode) rfl rfl rfl (by simp)
  | suspend tag shop =>
    cases h
    exact .of_body (body := doSuspend tag shop) rfl rfl rfl (by simp)
  | resume tag shop =>
    cases h
    exact .of_body (body := doResume tag shop) rfl rfl rfl (by simp)
  | counterRead tag selector flags =>
    cases h
    exact .of_body (body := doCounterRead tag selector flags) rfl rfl rfl (by simp)
  | counterClear tag selector =>
    cases h
    exact .of_body (body := doCounterClear tag selector) rfl rfl rfl (by simp)
  | shopScan tag shop =>
    cases h
    exact .of_body (body := doShopScan tag shop) rfl rfl rfl (by simp)

end

/-! ### The steps of the management unit before a command's own checks (R171) -/

section
variable {s : State} {code : BitVec 8} (tag : BitVec 16) {completing : Bool} (body : Event → Event)

/-- R171 step 3: a CARD LOAD in READY. -/
def LoadsInReady (s : State) (code : BitVec 8) : Prop := (code = 0x11 ∨ code = 0x12) ∧ s.store.phase = .ready

theorem gate_busy (h : s.unit.progress.isSome = true) (hc : code ≠ 0x08) :
    finish s (unitGate code tag completing body (arrived s)) = refusedWith code tag .busy s := by
  have hgate : unitGate code tag completing body (arrived s) = refuse code tag .busy (arrived s) :=
    if_pos ((Bool.and_eq_true _ _).mpr ⟨h, bne_iff_ne.mpr hc⟩)
  rw [hgate]
  exact finish_refuse rfl rfl rfl rfl rfl code tag .busy

theorem gate_idle (h : s.unit.progress = none ∨ code = 0x08) :
    ((arrived s).st.unit.progress.isSome && code != 0x08) = false := by
  rcases h with h | rfl
  · show (s.unit.progress.isSome && code != 0x08) = false
    rw [h]
    rfl
  · exact Bool.and_false _

theorem loadsInReady_iff :
    ((code == 0x11 || code == 0x12) && decide ((arrived s).st.store.phase = .ready)) = true ↔ LoadsInReady s code := by
  rw [Bool.and_eq_true, Bool.or_eq_true, beq_iff_eq, beq_iff_eq, decide_eq_true_eq]
  rfl

theorem gate_wrongState (h : s.unit.progress = none) (hloads : LoadsInReady s code) :
    finish s (unitGate code tag completing body (arrived s)) = refusedWith code tag .wrongState s := by
  have hgate : unitGate code tag completing body (arrived s) = refuse code tag .wrongState (arrived s) := by
    unfold unitGate
    rw [gate_idle (.inl h)]
    exact if_pos (loadsInReady_iff.mpr hloads)
  rw [hgate]
  exact finish_refuse rfl rfl rfl rfl rfl code tag .wrongState

theorem gate_past (h : s.unit.progress = none ∨ code = 0x08) (hloads : ¬ LoadsInReady s code) :
    unitGate code tag completing body (arrived s)
      = if s.unit.first.isSome && code != 0x08 && !completing then
          refuse code tag .sequence ((arrived s).upd dropFirst) else body (arrived s) := by
  unfold unitGate
  rw [gate_idle h]
  exact if_neg (mt loadsInReady_iff.mp hloads)

theorem gate_sequence (h : s.unit.progress = none) (hloads : ¬ LoadsInReady s code) (hc : code ≠ 0x08)
    (hfirst : s.unit.first.isSome = true) (hcompleting : completing = false) :
    finish s (unitGate code tag completing body (arrived s)) = refusedWith code tag .sequence (dropFirst s) := by
  have hbroken : (s.unit.first.isSome && code != 0x08 && !completing) = true := by
    rw [hfirst, bne_iff_ne.mpr hc, hcompleting]
    rfl
  rw [gate_past tag body (.inl h) hloads, if_pos hbroken]
  exact finish_refuse (u := dropFirst s) rfl rfl rfl rfl rfl code tag .sequence

theorem gate_body (h : s.unit.progress = none ∨ code = 0x08) (hloads : ¬ LoadsInReady s code)
    (hfirst : s.unit.first = none ∨ code = 0x08 ∨ completing = true) :
    unitGate code tag completing body (arrived s) = body (arrived s) := by
  have hkept : ¬ (s.unit.first.isSome && code != 0x08 && !completing) = true := by
    rcases hfirst with hnone | rfl | rfl
    · simp [hnone]
    · simp
    · simp
  rw [gate_past tag body h hloads, if_neg hkept]

end

/-! ### Commands in the wrong state of the unit (R43, R44, R173) -/

theorem payload_last {c : Instr} {p : Payload} (h : payload c = some p) (hcode : p.code = 0x12) :
    ∃ block images, c = .cardLoadLast p.tag block images ∧ p.params = fieldOctets 3 block ++ imagesOctets images := by
  cases c <;> cases h
  case cardLoadLast => exact ⟨_, _, rfl, rfl⟩
  all_goals
    dsimp only at hcode
    exact absurd hcode (by decide)

/-- Log 16: a payload that is not the LAST of the pending block. -/
theorem completes_false {s : State} {c : Instr} {p : Payload} (h : payload c = some p) {first : PendingFirst}
    (hfirst : s.unit.first = some first)
    (hother : ∀ images, c ≠ .cardLoadLast p.tag (BitVec.ofNat 24 first.block) images) : completes s p = false := by
  rw [Bool.eq_false_iff]
  intro htrue
  unfold completes pendingBlock at htrue
  rw [hfirst, Bool.and_eq_true, Bool.and_eq_true] at htrue
  obtain ⟨⟨hcode, -⟩, hblock⟩ := htrue
  obtain ⟨block, images, hc, hparams⟩ := payload_last h (of_decide_eq_true hcode)
  rw [hparams, field_block] at hblock
  have hsame : first.block = block.toNat := Option.some_inj.mp (beq_iff_eq.mp hblock)
  refine hother images ?_
  rw [hsame, BitVec.ofNat_toNat, BitVec.setWidth_eq]
  exact hc

/-- Settles O28: each refusal is a step of the unit that the command does not pass. -/
theorem busyAndBrokenPairsRefused : Obligations.BusyAndBrokenPairsRefused := by
  unfold Obligations.BusyAndBrokenPairsRefused
  intro s c p hp hcode
  obtain ⟨entry, -, -, hruns⟩ := payload_readBack (s := s) hp
  unfold Runs at hruns
  refine ⟨fun hbusy => ?_, fun hidle hloading hready => ?_, fun first hidle hfirst hloads hother => ?_,
    fun hidle hnone hlast hready => ?_⟩
  · rw [hruns, gate_busy p.tag _ hbusy hcode]
  · rw [hruns, gate_wrongState p.tag _ hidle ⟨hloading, hready⟩]
  · rw [hruns, gate_sequence p.tag _ hidle hloads hcode (by rw [hfirst]; rfl) (completes_false hp hfirst hother)]
    rfl
  · obtain ⟨block, images, hc, hparams⟩ := payload_last hp hlast
    have hexec : exec c s = .next (finish s (doCardLoadLast p.tag images (arrived s))) := by
      have hlastRuns := cardLoadLast_runs s p.tag block images
      unfold Runs at hlastRuns
      rw [hc, hlastRuns, gate_body _ _ (.inl hidle) (fun hloads => hready hloads.2) (.inl hnone)]
    have hbody : doCardLoadLast p.tag images (arrived s) = refuse 0x12 p.tag .sequence (arrived s) := by
      have hgone : (arrived s).st.unit.first = none := hnone
      unfold doCardLoadLast
      rw [hgone]
    rw [hexec, hbody, hlast]
    exact congrArg Host.Outcome.next (finish_refuse rfl rfl rfl rfl rfl 0x12 p.tag .sequence)

/-! ### The unit's dealing with a frame (R5, R171, R189) -/

/-- R189: the code and the tag of a frame's octets, 0 where they are too few. -/
def frameCode (l : List Octet) : BitVec 8 := if 3 ≤ l.length then bitsAt 8 l 2 1 else 0
def frameTag (l : List Octet) : BitVec 16 := if 5 ≤ l.length then bitsAt 16 l 3 2 else 0

/-- Log 16: whether a frame is a LAST for the pending block. -/
def frameCompletes (s : State) (l : List Octet) : Bool :=
  decide (frameCode l = 0x12) && decide (8 ≤ l.length) && pendingBlock s (field l 5 3)

section
variable {s : State} {l : List Octet}

theorem exec_management (hfresh : s.oRx = freshReceiver) (h2 : 2 ≤ l.length) (h : l.length ≤ 598)
    (haddress : field l 1 1 = s.unitAddress.toNat) :
    exec (.frameReceived .office (escaped (withCheck l))) s = .next (finish s (dealWith l (arrived s))) := by
  have hbody : (withCheck l).take ((withCheck l).length - 2) = l := take_withCheck l
  have hoffice : officeFrame (withCheck l) { st := s } = dealWith l (arrived s) := by
    unfold officeFrame
    dsimp only
    rw [hbody]
    exact if_pos ⟨h2, haddress⟩
  rw [exec_checked l (p := .office) hfresh (by omega) h]
  exact congrArg (fun e => Host.Outcome.next (finish s e)) hoffice

theorem dealWith_unknown (e : Event) (h : field l 0 1 ≠ 0x4D ∨ l.length < 3 ∨ commandTable (frameCode l) = none) :
    dealWith l e = refuse (frameCode l) (frameTag l) .unknownCommand e := by
  unfold dealWith
  by_cases hframe : field l 0 1 ≠ 0x4D ∨ l.length < 3
  · exact if_pos hframe
  · refine (if_neg hframe).trans ?_
    have hnone : commandTable (frameCode l) = none := by tauto
    dsimp only
    rw [show commandTable (if 3 ≤ l.length then bitsAt 8 l 2 1 else 0) = none from hnone]
    rfl

theorem dealWith_command (e : Event) (hclass : field l 0 1 = 0x4D) (h3 : 3 ≤ l.length) {entry : CommandEntry}
    (hentry : commandTable (frameCode l) = some entry) :
    dealWith l e = unitGate (frameCode l) (frameTag l) (frameCompletes e.st l)
      (runEntry (frameCode l) (frameTag l) entry l) e := by
  have hframe : ¬ (field l 0 1 ≠ 0x4D ∨ l.length < 3) := by
    rw [not_or]
    exact ⟨not_not.mpr hclass, h3.not_gt⟩
  unfold dealWith
  refine (if_neg hframe).trans ?_
  dsimp only
  rw [show commandTable (if 3 ≤ l.length then bitsAt 8 l 2 1 else 0) = some entry from hentry]
  rfl

end

/-! ### Frames of commands (R190) -/

section
variable (address : BitVec 8) (p : Payload)

/-- The octets of a payload's frame before its check. -/
def commandOctets : List Octet :=
  fieldOctets 1 (0x4D : BitVec 8) ++ fieldOctets 1 address ++ fieldOctets 1 p.code ++ fieldOctets 2 p.tag ++ p.params

theorem length_commandOctets : (commandOctets address p).length = 5 + p.params.length := by
  unfold commandOctets
  simp only [List.length_append, length_fieldOctets]

theorem drop_commandOctets : (commandOctets address p).drop 5 = p.params := by
  unfold commandOctets
  exact List.drop_left' (by simp)

theorem frameCode_commandOctets : frameCode (commandOctets address p) = p.code := by
  unfold frameCode
  rw [if_pos (by rw [length_commandOctets]; omega)]
  unfold commandOctets
  simp

theorem frameTag_commandOctets : frameTag (commandOctets address p) = p.tag := by
  unfold frameTag
  rw [if_pos (by rw [length_commandOctets]; omega)]
  unfold commandOctets
  simp

theorem frameCompletes_commandOctets (s : State) : frameCompletes s (commandOctets address p) = completes s p := by
  have hblock : field (commandOctets address p) 5 3 = field p.params 0 3 := by
    unfold commandOctets
    rw [field_append_right _ _ _ _ (by simp)]
    simp
  have hlength : decide (8 ≤ (commandOctets address p).length) = decide (3 ≤ p.params.length) := by
    rw [length_commandOctets]
    exact decide_eq_decide.mpr (by omega)
  unfold frameCompletes completes
  rw [frameCode_commandOctets, hblock, hlength]

theorem class_commandOctets : field (commandOctets address p) 0 1 = 0x4D := by
  unfold commandOctets
  rw [field_append_left _ _ _ _ (by simp), field_append_left _ _ _ _ (by simp), field_append_left _ _ _ _ (by simp),
    field_append_left _ _ _ _ (by simp)]
  rfl

theorem address_commandOctets : field (commandOctets address p) 1 1 = address.toNat := by
  unfold commandOctets
  rw [field_append_left _ _ _ _ (by simp), field_append_left _ _ _ _ (by simp), field_append_left _ _ _ _ (by simp),
    field_append_right _ _ _ _ (by simp), length_fieldOctets]
  exact (field_octets 1 _).trans (Nat.mod_eq_of_lt address.isLt)

end

/-- 11.6: no command carries more than 87 parameter octets. -/
theorem payload_short {c : Instr} {p : Payload} (h : payload c = some p) : p.params.length ≤ 87 := by
  cases c <;> cases h
  all_goals simp [imagesOctets, adjustOctets, programFieldOctets, feeFieldOctets, termsFieldOctets]

/-- Settles O26: the frame's octets are read back as the command's own event. -/
theorem managementFrameIsItsCommand : Obligations.ManagementFrameIsItsCommand := by
  unfold Obligations.ManagementFrameIsItsCommand
  intro s c p hp hfresh
  obtain ⟨entry, hentry, hlength, hruns⟩ := payload_readBack (s := s) hp
  have hshort := payload_short hp
  have hoctets := length_commandOctets s.unitAddress p
  have hrun : runEntry p.code p.tag entry (commandOctets s.unitAddress p) = entry.run p.tag p.params := by
    funext e
    have hfull : (commandOctets s.unitAddress p).length = 5 + entry.length := by rw [hoctets, hlength]
    unfold runEntry
    rw [if_pos hfull, drop_commandOctets]
  have hframe := exec_management hfresh (by omega) (by omega) (address_commandOctets s.unitAddress p)
  rw [dealWith_command _ (class_commandOctets _ _) (by omega) (by rw [frameCode_commandOctets]; exact hentry),
    frameCode_commandOctets, frameTag_commandOctets, frameCompletes_commandOctets, hrun] at hframe
  exact hframe.trans hruns.symm

/-! ### Unknown and misshapen frames (R171, R172, R189) -/

/-- A command of the wrong length that passes the steps before step 5. -/
theorem misshapen_refused {s : State} {l : List Octet} {entry : CommandEntry} {code : BitVec 8} {tag : BitVec 16}
    {completing : Bool} (hlength : l.length ≠ 5 + entry.length)
    (hgate : unitGate code tag completing (runEntry code tag entry l) (arrived s)
      = runEntry code tag entry l (arrived s)) {u : State} (hu : u = if code = 0x12 then dropFirst s else s) :
    finish s (unitGate code tag completing (runEntry code tag entry l) (arrived s))
      = refusedWith code tag .badField u := by
  have hrun : runEntry code tag entry l (arrived s) = refuse code tag .badField { st := countArrival u } := by
    refine (if_neg hlength).trans (congrArg (refuse code tag .badField) ?_)
    rw [hu]
    by_cases hlast : code = 0x12
    · rw [if_pos hlast]
      exact if_pos hlast
    · rw [if_neg hlast]
      exact if_neg hlast
  have hload : committedLoad u = committedLoad s := by
    rw [hu]
    split <;> rfl
  rw [hgate, hrun]
  exact finish_refuse (u := u) rfl rfl rfl rfl hload code tag .badField

theorem frameCompletes_iff {s : State} {l : List Octet} {first : PendingFirst} (hfirst : s.unit.first = some first) :
    frameCompletes s l = true ↔ frameCode l = 0x12 ∧ 8 ≤ l.length ∧ field l 5 3 = first.block := by
  unfold frameCompletes pendingBlock
  rw [hfirst, Bool.and_eq_true, Bool.and_eq_true, decide_eq_true_eq, decide_eq_true_eq, Option.map_some, beq_iff_eq,
    Option.some_inj, and_assoc, eq_comm (a := first.block)]

/-- Settles O27: the steps of the unit in their order, and the length behind them. -/
theorem unknownAndMisshapenFramesRefused : Obligations.UnknownAndMisshapenFramesRefused := by
  unfold Obligations.UnknownAndMisshapenFramesRefused
  intro s l hfresh h2 h haddress code tag
  have hexec := exec_management hfresh h2 h haddress
  refine ⟨fun hunknown => ?_, fun entry hclass h3 hentry hlength => ?_⟩
  · have hbad : field l 0 1 ≠ 0x4D ∨ l.length < 3 ∨ commandTable (frameCode l) = none :=
      hunknown.imp_right (Or.imp_left fun heq => by omega)
    rw [hexec, dealWith_unknown _ hbad]
    exact congrArg Host.Outcome.next (finish_refuse rfl rfl rfl rfl rfl _ _ _)
  · have hframe := exec_management hfresh h2 h haddress
    rw [dealWith_command _ hclass h3 hentry] at hframe
    have hcompletes (first : PendingFirst) (hfirst : s.unit.first = some first) :
        frameCompletes (arrived s).st l = true ↔ code = 0x12 ∧ 8 ≤ l.length ∧ field l 5 3 = first.block :=
      frameCompletes_iff hfirst
    obtain ⟨k, hk⟩ : ∃ k, k = frameCompletes (arrived s).st l := ⟨_, rfl⟩
    have hcode : frameCode l = code := rfl
    have htag : frameTag l = tag := rfl
    rw [hcode, htag, ← hk] at hframe
    clear hexec hentry hcode htag
    clear_value code tag
    rw [← hk] at hcompletes
    intro dropped loading refusal
    have hrefusal (r : RefusalCode) (u : State) (hfinish : finish s (unitGate code tag k (runEntry code tag entry l)
        (arrived s)) = refusedWith code tag r u) : refusal r u := hframe.trans (congrArg Host.Outcome.next hfinish)
    refine ⟨fun hreset => hrefusal _ _ (misshapen_refused hlength ?_ ?_), fun hother hbusy => hrefusal _ _ ?_,
      fun hidle hloading hready => hrefusal _ _ ?_, fun hfree hloads => hrefusal _ _ (misshapen_refused hlength ?_ ?_),
      fun first hother hidle hfirst hloads => ⟨fun hlast h8 hblock => hrefusal _ _ (misshapen_refused hlength ?_ ?_),
        fun hbroken => hrefusal _ _ ?_⟩⟩
    · refine gate_body tag _ (.inr hreset) ?_ (.inr (.inl hreset))
      rintro ⟨hloading, -⟩
      rw [hreset] at hloading
      exact absurd hloading (by decide)
    · rw [hreset]
      rfl
    · exact gate_busy tag _ hbusy hother
    · exact gate_wrongState tag _ hidle ⟨hloading, hready⟩
    · exact gate_body tag _ (.inl hfree.1) hloads (.inl hfree.2)
    · have hkept : dropFirst s = s := by
        unfold dropFirst
        rw [← hfree.2]
      rw [hkept, ite_self]
    · exact gate_body tag _ (.inl hidle) hloads (.inr (.inr ((hcompletes first hfirst).mpr ⟨hlast, h8, hblock⟩)))
    · exact (if_pos hlast).symm
    · have hnot : k = false := (Bool.eq_false_iff).mpr (mt (hcompletes first hfirst).mp hbroken)
      exact gate_sequence tag _ hidle hloads hother (by rw [hfirst]; rfl) hnot

end Sys2Proof.Proofs.ManagementFrames
end

section
/-! PROOFS. The admission of gift requests (1.3): the checks in the words of the statements, and the declined requests. -/

namespace Sys2Proof.Proofs.Admission

open Sys2Proof Sys2Proof.Machine Sys2Proof.Proofs.Receiving
open Sys2Proof.Proofs.TakenCommands (inFlightFull_iff)

/-! ### The format check (R8) -/

theorem requestKind_iff (c : BitVec 8) (k : Kind) :
    requestKind c = some k ↔ kindCode k = c.toNat ∧ 1 ≤ c.toNat ∧ c.toNat ≤ 9 := by
  unfold requestKind
  constructor
  · intro h
    split at h
    case h_10 => cases h
    all_goals
      next hc =>
        cases h
        rw [hc]
        decide
  · rintro ⟨hcode, h1, h9⟩
    cases k
    case holdExpired | adjust | cardRead | cardLoad =>
      simp only [kindCode] at hcode
      omega
    all_goals
      rw [← hcode]
      rfl

/-- R8: the mod-10 sum, in the words of the statements. -/
theorem checkSum_eq (card : BitVec 64) : checkSum card = ((List.range 16).map (fun i =>
    let d := cardDigit card (16 - i)
    if i % 2 = 0 then d else if 9 < 2 * d then 2 * d - 9 else 2 * d)).sum := by
  have hrange : List.range 16 = [0, 1, 2, 3, 4, 5, 6, 7, 8, 9, 10, 11, 12, 13, 14, 15] := rfl
  have hdoubled (d : Nat) : (if 9 < 2 * d then 2 * d - 9 else 2 * d) = doubled d := rfl
  unfold checkSum
  simp only [hdoubled, hrange, List.map_cons, List.map_nil, List.sum_cons, List.sum_nil, List.foldl_cons, List.foldl_nil,
    Nat.reduceMod, Nat.reduceAdd, Nat.reduceSub, reduceIte, one_ne_zero]
  omega

theorem cardWellFormed_iff (card : BitVec 64) : cardWellFormed card = true ↔
    (∀ i, 7 ≤ i → i ≤ 16 → cardDigit card i ≤ 9) ∧ ((List.range 16).map (fun i =>
      let d := cardDigit card (16 - i)
      if i % 2 = 0 then d else if 9 < 2 * d then 2 * d - 9 else 2 * d)).sum % 10 = 0 := by
  unfold cardWellFormed
  rw [checkSum_eq, Bool.and_eq_true, List.all_eq_true, decide_eq_true_eq]
  refine and_congr_left fun _ => ⟨fun h i h7 h16 => ?_, fun h i hi => ?_⟩
  · have hdigit := h (i - 7) (List.mem_range.mpr (by omega))
    rw [Nat.sub_add_cancel h7] at hdigit
    exact of_decide_eq_true hdigit
  · exact decide_eq_true (h (i + 7) (by omega) (by have := List.mem_range.mp hi; omega))

theorem amountFits_iff (k : Kind) (a : Nat) : amountFits k a = true ↔
    if k = .balance ∨ k = .release ∨ k = .void then a = 0 else 1 ≤ a ∧ a ≤ 999999 := by
  cases k <;> simp [amountFits, Config.maxAmount]

theorem referenceFits_iff (k : Kind) (r : Ref) : referenceFits k r = true ↔
    if k = .complete ∨ k = .release ∨ k = .void then r ≠ 0 else k = .refund ∨ r = 0 := by
  cases k <;> simp [referenceFits]

/-- R8: a request is well formed for the kind that its code names. -/
theorem formatCheck_iff (q : GiftRequest) (k : Kind) : formatCheck q = some k ↔ RequestFits q k := by
  have hfits : formatCheck q = some k ↔ requestKind q.kind = some k ∧ q.length = 26
      ∧ q.shop.toNat < 512 ∧ q.lane.toNat < 16 ∧ q.trace.toNat ≤ 999999 ∧ cardWellFormed q.card = true
      ∧ amountFits k q.amount.toNat = true ∧ referenceFits k q.reference = true
      ∧ (q.flags = 0 ∨ (q.flags = 1 ∧ k = .redeem)) := by
    unfold formatCheck
    cases hk : requestKind q.kind with
    | none => simp
    | some j =>
      dsimp only
      rw [Option.ite_none_right_eq_some, Option.some_inj]
      constructor
      · rintro ⟨hall, rfl⟩
        simp only [Bool.and_eq_true, Bool.or_eq_true, decide_eq_true_eq, beq_iff_eq, and_assoc] at hall
        exact ⟨rfl, hall⟩
      · rintro ⟨rfl, hall⟩
        refine ⟨?_, rfl⟩
        simp only [Bool.and_eq_true, Bool.or_eq_true, decide_eq_true_eq, beq_iff_eq, and_assoc]
        exact hall
  rw [hfits, requestKind_iff, cardWellFormed_iff, amountFits_iff, referenceFits_iff]
  constructor
  · rintro ⟨hkind, hlength, hshop, hlane, htrace, ⟨hdigits, hcheck⟩, hamount, hreference, hflags⟩
    exact ⟨hkind, hlength, ⟨hshop, hlane, htrace⟩, hdigits, hcheck, hamount, hreference, hflags⟩
  · rintro ⟨hkind, hlength, ⟨hshop, hlane, htrace⟩, hdigits, hcheck, hamount, hreference, hflags⟩
    exact ⟨hkind, hlength, hshop, hlane, htrace, ⟨hdigits, hcheck⟩, hamount, hreference, hflags⟩

theorem formatCheck_none {q : GiftRequest} (h : ∀ k, ¬ RequestFits q k) : formatCheck q = none := by
  cases hk : formatCheck q with
  | none => rfl
  | some k => exact absurd ((formatCheck_iff q k).mp hk) (h k)

/-! ### The classifier (R4, R22) -/

theorem findProgram_some {t : TableSet} {digits : BitVec 24} {i : Nat} (h : FindsProgram t digits i) :
    findProgram t digits = some i := by
  obtain ⟨hi, hdigits, ⟨henabled, hunique⟩ | ⟨hdisabled, hlowest⟩⟩ := h
  · have hfound : (List.range 16).find? (fun j => (t.program j).enabled && (t.program j).digits == some digits)
        = some i := by
      refine List.find?_range_eq_some.mpr ⟨?_, List.mem_range.mpr hi, fun j hj => ?_⟩
      · rw [henabled, hdigits]
        exact beq_self_eq_true _
      · rw [Bool.not_eq_true', Bool.eq_false_iff]
        intro hboth
        rw [Bool.and_eq_true, beq_iff_eq] at hboth
        exact hj.ne (hunique j (hj.trans hi) hboth.1 hboth.2)
    unfold findProgram
    rw [hfound]
  · have hnone : (List.range 16).find? (fun j => (t.program j).enabled && (t.program j).digits == some digits)
        = none := by
      refine List.find?_eq_none.mpr fun j hj hboth => ?_
      rw [Bool.and_eq_true, beq_iff_eq] at hboth
      rw [hdisabled j (List.mem_range.mp hj) hboth.2] at hboth
      exact Bool.noConfusion hboth.1
    have hfound : (List.range 16).find? (fun j => (t.program j).digits == some digits) = some i := by
      refine List.find?_range_eq_some.mpr ⟨beq_iff_eq.mpr hdigits, List.mem_range.mpr hi, fun j hj => ?_⟩
      rw [Bool.not_eq_true', beq_eq_false_iff_ne]
      exact hlowest j hj
    unfold findProgram
    rw [hnone]
    exact hfound

theorem classify_some {t : TableSet} {f : Frame} {i : Nat} (hclass : field f 0 1 = 0x47) (hlength : 26 ≤ f.length)
    (hdecimal : ∀ j < 6, ((cardPrefix (giftFields f).card).toNat / 16 ^ j) % 16 ≤ 9)
    (h : FindsProgram t (cardPrefix (giftFields f).card) i) : classify t f = some i := by
  unfold classify
  rw [if_pos ⟨hclass, hlength⟩]
  dsimp only
  rw [if_pos ((LoadedFields.decimalPrefix_iff _).mpr hdecimal), findProgram_some h]

/-! ### The checks in their order (R9 to R15) -/

theorem firstOf_check {c : Prop} [Decidable c] (r : Reason) (o : Option Reason) (l : List (Option Reason)) :
    firstOf ((if c then some r else o) :: l) = if c then some r else firstOf (o :: l) := by
  split <;> rfl

theorem firstOf_pass {c : Prop} [Decidable c] (r : Reason) (l : List (Option Reason)) :
    firstOf ((if c then none else some r) :: l) = if ¬ c then some r else firstOf l := by
  by_cases hc : c
  · rw [if_pos hc, if_neg (not_not.mpr hc)]
    rfl
  · rw [if_neg hc, if_pos hc]
    rfl

theorem firstOf_last (o : Option Reason) : firstOf [o] = o := by cases o <;> rfl

theorem firstOf_none_cons (l : List (Option Reason)) : firstOf (none :: l) = firstOf l := rfl

/-- R13: the stand-in level check, in the words of the statements. -/
theorem standIn_eq (training : Bool) (level : Level) (k : Kind) (a limit : Nat) :
    (if reserving training k then standInCheck level k a limit else none) =
      if (¬ training = true ∧ k ≠ .balance) ∧ level = .limited ∧ (k = .activate ∨ k = .reload
        ∨ ((k = .redeem ∨ k = .hold ∨ k = .complete) ∧ limit < a)) then some .officeSlow
      else if (¬ training = true ∧ k ≠ .balance) ∧ level = .closed then some .officeUnreachable else none := by
  have hreserving : reserving training k = true ↔ ¬ training = true ∧ k ≠ .balance := by
    unfold reserving
    rw [Bool.and_eq_true, Bool.not_eq_true', Bool.not_eq_true, decide_eq_true_eq]
  by_cases hreserves : ¬ training = true ∧ k ≠ .balance
  · rw [if_pos (hreserving.mpr hreserves)]
    cases level with
    | normal => simp [standInCheck]
    | closed => simp [standInCheck, hreserves]
    | limited =>
      unfold standInCheck
      by_cases hsale : k = .activate ∨ k = .reload
      · rw [if_pos hsale, if_pos ⟨hreserves, rfl, hsale.imp_right .inl⟩]
      · by_cases hlimit : (k = .redeem ∨ k = .hold ∨ k = .complete) ∧ limit < a
        · rw [if_neg hsale, if_pos hlimit, if_pos ⟨hreserves, rfl, .inr (.inr hlimit)⟩]
        · have hnot : ¬ (k = .activate ∨ k = .reload ∨ ((k = .redeem ∨ k = .hold ∨ k = .complete) ∧ limit < a)) := by
            tauto
          rw [if_neg hsale, if_neg hlimit, if_neg fun h => hnot h.2.2, if_neg fun h => Level.noConfusion h.2]
  · rw [if_neg (mt hreserving.mp hreserves), if_neg fun h => hreserves h.1, if_neg fun h => hreserves h.1]

/-- R110: the cycles whose entries can still be changed. -/
theorem bindingSet_none_iff (c : Cycle) (cycle : BitVec 32) :
    bindingSet c cycle = none ↔ ¬ (cycle = c.number ∨ (c.closing = .grace ∧ cycle = c.number - 1)) := by
  unfold bindingSet closingCycle
  by_cases hcurrent : cycle = c.number
  · simp [hcurrent]
  · by_cases hgrace : c.closing = .grace ∧ cycle = c.number - 1 <;> simp [hcurrent, hgrace]

theorem voidable_iff (k : Kind) :
    voidable k = true ↔ k = .activate ∨ k = .reload ∨ k = .redeem ∨ k = .complete ∨ k = .refund := by
  cases k <;> simp [voidable]

/-- R87, R109: the binding stage, in the words of the statements. -/
def bindDecline (s : State) (k : Kind) (n slot a : Nat) (ref : Ref) : Option Reason :=
  if k = .complete ∨ k = .release then
    match s.holds.find ref with
    | none => some .holdGone
    | some h =>
      if h.state ≠ .opened ∨ h.slot ≠ slot then some .holdGone
      else if k = .complete ∧ h.ceiling < a then some .overLimit
      else none
  else if k = .void then
    match s.entryAt ref with
    | none => some .noMatch
    | some e =>
      if ¬ (e.kind = .activate ∨ e.kind = .reload ∨ e.kind = .redeem ∨ e.kind = .complete ∨ e.kind = .refund)
          ∨ e.slot ≠ slot then some .noMatch
      else if e.party.map (·.shop) ≠ some n then some .crossShop
      else if e.voided = true then some .alreadyVoided
      else if ¬ (e.cycle = s.cycle.number ∨ (s.cycle.closing = .grace ∧ e.cycle = s.cycle.number - 1))
        then some .tooLate
      else none
  else none

theorem bindCheck_eq (s : State) (k : Kind) (n slot a : Nat) (ref : Ref) :
    bindCheck s k n slot a ref = bindDecline s k n slot a ref := by
  have hvoid : voidCheck s n slot ref = bindDecline s .void n slot a ref := by
    unfold voidCheck bindDecline
    cases s.entryAt ref with
    | none => rfl
    | some e => simp only [voidable_iff, bindingSet_none_iff, reduceCtorEq, or_self, if_false, if_true]
  cases k
  case void => exact hvoid
  case complete | release =>
    unfold bindCheck holdCheck bindDecline
    cases s.holds.find ref with
    | none => rfl
    | some h => rfl
  all_goals rfl

theorem suspended_iff (r : Shop) (k : Kind) :
    (suspended r = true ∧ k ≠ .balance ∧ k ≠ .complete ∧ k ≠ .release)
      ↔ (r.mode = .opened ∧ (r.management = true ∨ r.alarmCause = true) ∧ k ≠ .balance ∧ k ≠ .complete
        ∧ k ≠ .release) := by
  unfold suspended
  rw [Bool.and_eq_true, Bool.or_eq_true, decide_eq_true_eq, and_assoc]

/-- R9 to R15: the first check that fails is the first of the statements' table. -/
theorem admission_eq (s : State) (q : GiftRequest) (k : Kind) (i : Nat) (h : RequestFits q k) :
    admission s q i = match declineReason s q k i with
      | some reason => .declined reason
      | none => .admitted (admittedEntry s q k i ((s.activeTables.program i).baseSlot + cardSerial q.card)
          (decide ((s.shop q.shop.toNat).mode = .training))) := by
  unfold admission
  rw [(formatCheck_iff q k).mpr h]
  dsimp only
  have hchecks : declineReason s q k i = firstOf [
      if (s.activeTables.program i).enabled then none else some .programClosed,
      if cardSerial q.card < (s.activeTables.program i).slotCount then none else some .noCard,
      shopCheck (s.shop q.shop.toNat) (s.activeTables.shopTerms q.shop.toNat) k,
      laneCheck (s.lane (q.shop.toNat * 16 + q.lane.toNat)) q.trace.toNat,
      if s.store.phase = .ready then none else some .storeNotReady,
      if reserving (decide ((s.shop q.shop.toNat).mode = .training)) k then
        standInCheck s.journalOut.level k q.amount.toNat (s.activeTables.program i).standInLimit else none,
      if inFlightFull s then some .retry else none,
      bindCheck s k q.shop.toNat ((s.activeTables.program i).baseSlot + cardSerial q.card) q.amount.toNat
        q.reference] := by
    rw [standIn_eq, bindCheck_eq]
    unfold shopCheck laneCheck
    simp only [firstOf_check, firstOf_pass, firstOf_none_cons, firstOf_last, suspended_iff, declineReason,
      Bool.not_eq_true, not_lt, decide_eq_true_eq, inFlightFull_iff, ne_eq]
    rfl
  rw [hchecks] <;> rfl

/-! ### Declined requests (R7, R17, R18) -/

section
variable {α : Type} (k : Nat)

theorem filter_insertAt (v : α) (t : Tbl α) :
    (insertAt k v t).filter (fun p => p.1 != k) = t.filter (fun p => p.1 != k) := by
  induction t with
  | nil => simp [insertAt]
  | cons p t ih =>
    obtain ⟨j, w⟩ := p
    unfold insertAt
    by_cases hlow : k < j
    · rw [if_pos hlow, List.filter_cons_of_neg (by simp)]
    · rw [if_neg hlow]
      simp only [List.filter_cons, ih]

/-- A number written twice holds what was written last. -/
theorem put_put [DecidableEq α] (d : α) (t : Tbl α) (v w : α) : put d (put d t k v) k w = put d t k w := by
  have hsame : (put d t k v).filter (fun p => p.1 != k) = t.filter (fun p => p.1 != k) := by
    unfold put
    split
    · rw [List.filter_filter]
      simp only [Bool.and_self]
    · rw [filter_insertAt, List.filter_filter]
      simp only [Bool.and_self]
  have hkept {a b : Tbl α} (h : a.filter (fun p => p.1 != k) = b.filter (fun p => p.1 != k)) :
      put d a k w = put d b k w := by
    unfold put
    rw [h]
  exact hkept hsame

end

theorem modifyShop_modifyShop (s : State) (n : Nat) (f g : Shop → Shop) :
    (s.modifyShop n f).modifyShop n g = s.modifyShop n (fun r => g (f r)) := by
  have hshop : (s.modifyShop n f).shop n = f (s.shop n) := look_put_self _ _ _ _
  have hput := put_put n ({} : Shop) s.supervision.shops (f (s.shop n)) (g (f (s.shop n)))
  unfold State.modifyShop at hshop ⊢
  rw [hshop]
  dsimp only
  rw [hput]

theorem isFault_iff (reason : Reason) :
    isFault reason = true ↔ reason = .format ∨ reason = .noCard ∨ reason = .programClosed := by
  cases reason <;> simp [isFault]

/-- R7, R159: the counts of a decline, in the words of the statements. -/
theorem countAdmissionDecline_eq (n : Nat) (reason : Reason) (s : State) : countAdmissionDecline n reason s = { s with
    sCount := { s.sCount with declined := s.sCount.declined + 1 }
    supervision := if n < 512 then (s.modifyShop n (declinedShop reason)).supervision else s.supervision } := by
  unfold countAdmissionDecline
  dsimp only
  by_cases hn : n < 512
  · rw [if_pos hn, if_pos hn]
    by_cases hfault : isFault reason = true
    · have hshop : declinedShop reason = fun r => { r with
          declines := r.declines + 1, faults := r.faults + 1, windowFaults := min (r.windowFaults + 1) 65535 } :=
        funext fun r => if_pos ((isFault_iff reason).mp hfault)
      rw [if_pos hfault, hshop]
      exact modifyShop_modifyShop _ n _ _
    · have hshop : declinedShop reason = fun r => { r with declines := r.declines + 1 } :=
        funext fun r => if_neg (mt (isFault_iff reason).mpr hfault)
      rw [if_neg hfault, hshop]
      rfl
  · rw [if_neg hn, if_neg hn]

theorem declinedAnswer_eq (s : State) (q : GiftRequest) (reason : Reason) :
    declinedAnswer s q reason = admissionAnswer s q reason := by
  have hmarker : trainingShop s q.shop.toNat
      = decide (q.shop.toNat < 512 ∧ (s.shop q.shop.toNat).mode = .training) := (Bool.decide_and _ _).symm
  unfold declinedAnswer admissionAnswer
  rw [hmarker]

/-- R18: an event that does no more than answer a transaction. -/
theorem finish_answering {before u : State} (g : GiftAnswer) (hload : committedLoad u = committedLoad before) :
    finish before (({ st := u } : Event).answering g) = sendGift (giftFrame u g) u := by
  have hlevel : evaluateLevel before (({ st := u } : Event).answering g) = ({ st := u } : Event).answering g :=
    if_pos hload
  have hdue : noticeDue before (({ st := u } : Event).answering g) = false := by simp [noticeDue, Event.answering]
  have hlatch : latchNotices before (({ st := u } : Event).answering g) = u := by
    unfold latchNotices
    rw [hdue]
    simp [Event.answering]
  unfold finish
  dsimp only
  rw [hlevel, hlatch, hdue]
  rfl

/-- R4, R7: a gift request for a loaded program, of decimal digits, comes to the checks. -/
theorem exec_request {s : State} {l : List Octet} {i : Nat} (hfresh : s.sRx = freshReceiver) (h24 : 24 ≤ l.length)
    (h598 : l.length ≤ 598) (hclass : field l 0 1 = 0x47)
    (hdecimal : ∀ j < 6, ((cardPrefix (giftFields (withCheck l)).card).toNat / 16 ^ j) % 16 ≤ 9)
    (hfinds : FindsProgram s.activeTables (cardPrefix (giftFields (withCheck l)).card) i) :
    exec (.frameReceived .shop (escaped (withCheck l))) s = .next (finish s (admissionEvent (giftFields (withCheck l)) i
      { st := { s with sCount := { s.sCount with received := s.sCount.received + 1 } } })) := by
  have hfield : field (withCheck l) 0 1 = 0x47 := (field_withCheck l (by omega)).trans hclass
  have hlength := length_withCheck l
  obtain ⟨m, hm⟩ : ∃ m : State, m = { s with sCount := { s.sCount with received := s.sCount.received + 1 } } :=
    ⟨_, rfl⟩
  have hclassified : classify m.activeTables (withCheck l) = some i := by
    rw [hm]
    exact classify_some hfield (by omega) hdecimal hfinds
  have hframe : shopFrame (withCheck l) { st := m } = admissionEvent (giftFields (withCheck l)) i { st := m } := by
    unfold shopFrame
    dsimp only
    rw [hclassified]
  rw [exec_checked l (p := .shop) hfresh (by omega) h598]
  show Host.Outcome.next (finish s (shopFrame (withCheck l)
    { st := { s with sCount := { s.sCount with received := s.sCount.received + 1 } } })) = _
  rw [← hm, hframe]

theorem admissionEvent_declined {s : State} {q : GiftRequest} {i : Nat} {reason : Reason}
    (h : admission s q i = .declined reason) : admissionEvent q i { st := s } =
      ({ st := countAdmissionDecline q.shop.toNat reason s } : Event).answering (admissionAnswer s q reason) := by
  unfold admissionEvent
  dsimp only
  rw [h, ← declinedAnswer_eq]
  rfl

/-- Settles O30: the first reason in order, by the format check or by the table of checks. -/
theorem requestDeclined : Obligations.RequestDeclined := by
  unfold Obligations.RequestDeclined
  intro s l i reason f q n hfresh h24 h598 hclass hdecimal hfinds hreason
  obtain ⟨m, hm⟩ : ∃ m : State, m = { s with sCount := { s.sCount with received := s.sCount.received + 1 } } :=
    ⟨_, rfl⟩
  have hdeclined : admission m q i = .declined reason := by
    rcases hreason with ⟨rfl, hnone⟩ | ⟨k, hfits, hfails⟩
    · unfold admission
      rw [formatCheck_none hnone]
    · have hchecked : declineReason m q k i = some reason := by
        rw [hm]
        exact hfails
      rw [admission_eq m q k i hfits, hchecked]
  have hanswer : admissionAnswer m q reason = admissionAnswer s q reason := by
    rw [hm]
    rfl
  have hload : committedLoad (countAdmissionDecline n reason m) = committedLoad s := by
    rw [countAdmissionDecline_eq, hm]
    rfl
  rw [exec_request hfresh h24 h598 hclass hdecimal hfinds, ← hm, admissionEvent_declined hdeclined,
    finish_answering _ hload, hanswer]
  refine congrArg Host.Outcome.next ?_
  rw [countAdmissionDecline_eq, hm]
  rfl

end Sys2Proof.Proofs.Admission
end

section
/-! PROOFS. The demand of an admitted request (1.3) is not kept in every state: a FREE line that names a block. -/

namespace Sys2Proof.Proofs.LooseLine

open Sys2Proof Sys2Proof.Machine

/-! ### The refuting state and frame -/

/-- A BALANCE of shop 37, lane 4, for the card with serial 1,234 of program 3: its slot is 66,770, its block 8,346. -/
def balanceOctets : List Octet :=
  [0x47, 0x00, 0x25, 0x04, 0x00, 0x13, 0xED, 0x04, 0x00, 0x60, 0x42, 0x13, 0x00, 0x00, 0x01, 0x23, 0x46,
    0x00, 0x00, 0x00, 0, 0, 0, 0]

/-- Line 0 is FREE and names block 8,346 all the same, which no premise of the statement rules out. A hold for slot 0 is
due, so the sweep selects it in the event of the admission. -/
def looseState : State where
  sRx := freshReceiver
  tables := {
    bankA := {
      tables := { programs := [
        (3, { digits := some 0x604213, enabled := true, baseSlot := 65536, slotCount := 100000 })] }
      tag := some 6 }
    generation := 6 }
  store := { phase := .ready }
  supervision := { shops := [(37, { mode := .opened })] }
  buffer := { lines := [(0, { block := some 8346 })] }
  holds := { entries := [
    { ref := 1, slot := 0, shop := 37, lane := 0, amount := 100, ceiling := 100, expiry := 0, state := .opened }] }

/-- The request as received. -/
def balanceRequest : GiftRequest := giftFields (withCheck balanceOctets)

/-! ### The premises of the statement -/

theorem balanceRequest_fits : RequestFits balanceRequest .balance :=
  (Admission.formatCheck_iff _ _).mp (by decide +kernel)

theorem looseState_finds : FindsProgram looseState.activeTables (cardPrefix balanceRequest.card) 3 := by
  unfold FindsProgram
  decide +kernel

theorem looseState_admits : declineReason looseState balanceRequest .balance 3 = none := by decide +kernel

/-! ### What the event leaves -/

/-- Whether an outcome is a next state with a property. -/
def leaves (f : State → Bool) : Host.Outcome State Fault Refusal → Bool
  | .next t => f t
  | _ => false

/-- The expiry's demand has claimed line 0 for block 0, and the request's demand is gone. -/
theorem looseState_leaves : leaves (fun t => decide (t.buffer.waitList = []
    ∧ t.buffer.lines = [(0, { state := .valid, block := some 0, waiters := [.entry 1] })]))
    (exec (.frameReceived .shop (escaped (withCheck balanceOctets))) looseState) = true := by decide +kernel

theorem block_of_line {t : State} {l : Line} (h : t.buffer.lines = [(0, l)]) (i : Nat) :
    (t.line i).block = l.block ∨ (t.line i).block = none := by
  unfold State.line
  rw [h]
  by_cases hi : 0 = i
  · subst hi
    exact .inl rfl
  · exact .inr (congrArg Line.block (if_neg hi))

/-- Refutes O29: in `looseState` the request's demand joins the FREE line that names its block; the sweep's demand, in the
same event, claims that line as FREE and takes its waiters away. -/
theorem not_requestAdmitted : ¬ Obligations.RequestAdmitted := by
  unfold Obligations.RequestAdmitted
  intro h
  obtain ⟨t, hexec, -, hdemanded, -⟩ := h looseState balanceOctets .balance 3 rfl rfl (by decide +kernel)
    (by decide +kernel) looseState_finds balanceRequest_fits looseState_admits
  have hleaves := looseState_leaves
  rw [hexec] at hleaves
  obtain ⟨hwaitList, hlines⟩ := of_decide_eq_true hleaves
  have hblock : (entryOfRequest looseState balanceRequest .balance 3).block = 8346 := by decide +kernel
  rcases hdemanded with ⟨i, hline, -⟩ | hwaiting
  · have hheld : (t.line i).block = some 8346 := hline.trans (congrArg some hblock)
    rcases block_of_line hlines i with hclaimed | hnone
    · exact absurd (hheld.symm.trans hclaimed) (by decide)
    · exact absurd (hheld.symm.trans hnone) (by decide)
  · rw [hwaitList] at hwaiting
    exact absurd hwaiting List.not_mem_nil

end Sys2Proof.Proofs.LooseLine
end
